-- ==== Sys2Proof/Word.lean ====
section
/-! DEFINITION. The word types of the BZ4 (00_scope R1): 32-bit words, 64-bit registers and addresses,
5-bit register numbers. -/

namespace Sys2Proof

/-- A byte. -/
abbrev Byte := BitVec 8
/-- An instruction word (R1). -/
abbrev Word := BitVec 32
/-- A general register's contents, or a 64-bit unit of a record. -/
abbrev Word64 := BitVec 64
/-- A flat address (R57). -/
abbrev Addr := BitVec 64
/-- A register number field of a slot word (R19). -/
abbrev R5 := BitVec 5

end Sys2Proof
end

