-- ==== Sys2Proof/Machine/Numeric.lean ====
section
/-! DEFINITION. The number engine (07_number_formats): format codes, decoding at fetch, Round, the keyed noise, and
exact arithmetic before rounding. Finite values are carried exactly as a sign, a magnitude m·2^e and a sticky bit. -/

namespace Sys2Proof.Machine

/-! ### Flags (R142) -/

abbrev Flags := BitVec 7
def flagNV : Flags := 0x01
def flagDZ : Flags := 0x02
def flagOF : Flags := 0x04
def flagUF : Flags := 0x08
def flagNX : Flags := 0x10
def flagNAR : Flags := 0x20
def flagSAT : Flags := 0x40
/-- The flag when the condition holds. -/
def flagIf (c : Bool) (f : Flags) : Flags := if c then f else 0

/-! ### Values -/

/-- A finite value: (-1)^neg · m · 2^e, or, with `sticky`, a value strictly between m and m+1 units of 2^e. -/
structure Exact where
  neg : Bool
  m : Nat
  e : Int
  sticky : Bool
deriving DecidableEq, Repr

/-- An internal value (R137): a real number, an infinity, or a NaN with its signalling state. A NaR decodes to a
quiet NaN. -/
inductive Num where
  | nan (signalling : Bool)
  | inf (neg : Bool)
  | fin (x : Exact)
deriving DecidableEq, Repr

def Num.zero (neg : Bool) : Num := .fin ⟨neg, 0, 0, false⟩
def Num.ofInt (i : Int) : Num := .fin ⟨i < 0, i.natAbs, 0, false⟩
def Num.isNan : Num → Bool
  | .nan _ => true
  | _ => false
def Num.isSnan : Num → Bool
  | .nan s => s
  | _ => false
def Num.isZero : Num → Bool
  | .fin x => x.m = 0 && !x.sticky
  | _ => false
def Num.sign : Num → Bool
  | .nan _ => false
  | .inf n => n
  | .fin x => x.neg
def Num.neg : Num → Num
  | .nan s => .nan s
  | .inf n => .inf !n
  | .fin x => .fin { x with neg := !x.neg }
def Num.abs : Num → Num
  | .nan s => .nan s
  | .inf _ => .inf false
  | .fin x => .fin { x with neg := false }

/-! ### Formats (R131, R133, R135) -/

/-- Bits of an element in memory and registers (R131); T6 stands in 32-bit words of five (R132). -/
def fmtWidth (f : Nat) : Nat :=
  match f with
  | 0x0 => 32 | 0x1 => 16 | 0x2 => 16 | 0x3 => 8 | 0x4 => 8 | 0x5 => 8 | 0x6 => 6 | 0x7 => 8
  | 0x8 => 8 | 0x9 => 8 | 0xA => 16 | 0xB => 32 | 0xC => 64
  | _ => 8

def fmtIsFloat (f : Nat) : Bool := f < 5
def fmtIsTapered (f : Nat) : Bool := f = 5 || f = 6
def fmtIsInt (f : Nat) : Bool := 8 ≤ f && f ≤ 0xC

/-- E, M, β of a binary float (R133). -/
structure FloatSpec where
  eb : Nat
  mb : Nat
  bias : Nat
  hasInf : Bool
deriving DecidableEq, Repr

def floatSpec (f : Nat) : FloatSpec :=
  match f with
  | 0 => ⟨8, 23, 127, true⟩
  | 1 => ⟨8, 7, 127, true⟩
  | 2 => ⟨5, 10, 15, true⟩
  | 3 => ⟨4, 3, 7, false⟩
  | _ => ⟨5, 2, 15, true⟩

/-- The encoding of the largest finite magnitude (R133). -/
def maxFinite (f : Nat) : Nat :=
  match f with
  | 0 => 0x7F7FFFFF
  | 1 => 0x7F7F
  | 2 => 0x7BFF
  | 3 => 0x7E
  | _ => 0x7B

/-- The canonical NaN or NaR of a format (R133-R135). -/
def canonNan (f : Nat) : Nat :=
  match f with
  | 0 => 0x7FC00000
  | 1 => 0x7FC0
  | 2 => 0x7E00
  | 3 => 0x7F
  | 4 => 0x7E
  | 5 => 0x80
  | 6 => 0x20
  | _ => 0

/-- The encoding of +∞ where there is one (R133). -/
def posInf (f : Nat) : Nat := (2 ^ (floatSpec f).eb - 1) * 2 ^ (floatSpec f).mb

/-- Decoding of a binary float (R133). -/
def decodeFloat (f : Nat) (bits : Nat) : Num :=
  let sp := floatSpec f
  let s : Bool := bits / 2 ^ (sp.eb + sp.mb) % 2 = 1
  let ex := bits / 2 ^ sp.mb % 2 ^ sp.eb
  let fr := bits % 2 ^ sp.mb
  if sp.hasInf && ex = 2 ^ sp.eb - 1 then
    if fr = 0 then .inf s else .nan (fr / 2 ^ (sp.mb - 1) = 0)
  else if !sp.hasInf && ex = 2 ^ sp.eb - 1 && fr = 2 ^ sp.mb - 1 then .nan false
  else if ex = 0 then .fin ⟨s, fr, 1 - sp.bias - sp.mb, false⟩
  else .fin ⟨s, 2 ^ sp.mb + fr, (ex : Int) - sp.bias - sp.mb, false⟩

/-- N and es of a tapered format (R135). -/
def taperN (f : Nat) : Nat := if f = 5 then 8 else 6
def taperEs (f : Nat) : Nat := if f = 5 then 1 else 0

/-- Length of the run of bits equal to b from bit i-1 of m downwards. -/
def runLen (m : Nat) (b : Nat) : Nat → Nat
  | 0 => 0
  | i + 1 => if m / 2 ^ i % 2 = b then 1 + runLen m b i else 0

/-- The value of magnitude field m in units of 2^-16 (R135, DecodeTapered). -/
def taperUnits (f : Nat) (m : Nat) : Nat :=
  if m = 0 then 0
  else
    let n := taperN f
    let es := taperEs f
    let b := m / 2 ^ (n - 2) % 2
    let r := runLen m b (n - 1)
    let k : Int := if b = 1 then (r : Int) - 1 else -(r : Int)
    let restLen := n - 1 - r - 1
    let rest := m % 2 ^ restLen
    let e := if restLen ≥ es then rest / 2 ^ (restLen - es) else 0
    let w := restLen - es
    let fr := rest % 2 ^ w
    (2 ^ w + fr) * 2 ^ ((2 ^ es : Nat) * k + e + 16 - w).toNat

/-- Decoding of a tapered value, and whether it is NaR (R135). -/
def decodeTapered (f : Nat) (bits : Nat) : Num × Bool :=
  let n := taperN f
  let s : Bool := bits / 2 ^ (n - 1) % 2 = 1
  let m := bits % 2 ^ (n - 1)
  if m = 0 then (if s then (.nan false, true) else (.zero false, false))
  else (.fin ⟨s, taperUnits f m, -16, false⟩, false)

/-- Two's complement (R136). -/
def signedOf (w : Nat) (bits : Nat) : Int :=
  let b := bits % 2 ^ w
  if b < 2 ^ (w - 1) then (b : Int) else (b : Int) - (2 ^ w : Nat)

/-- Decode at operand fetch (R137): the value, and whether it was a NaR. -/
def decodeNum (f : Nat) (bits : Nat) : Num × Bool :=
  if fmtIsFloat f then (decodeFloat f bits, false)
  else if fmtIsTapered f then decodeTapered f bits
  else if f = 9 then (.ofInt (bits % 256), false)
  else if f = 7 then
    (if bits % 256 = 255 then .nan false else .fin ⟨false, 1, (bits % 256 : Nat) - 127, false⟩, false)
  else (.ofInt (signedOf (fmtWidth f) bits), false)

/-! ### Round (R138, R139) -/

/-- The number of random bits of SBX for f = num/den: the least m ≤ 24 with 2^m·f an integer, or 24 (R139). -/
def sbxBits (num den : Nat) : Nat :=
  ((List.range 25).find? fun m => num * 2 ^ m % den = 0).getD 24

/-- Whether the step of R139 chooses b, for f = num/den strictly between 0 and 1. -/
def roundUp (rm : Nat) (neg aOdd : Bool) (num den rho : Nat) : Bool :=
  match rm with
  | 0 => if 2 * num = den then aOdd else decide (2 * num > den)
  | 1 => false
  | 2 => !neg
  | 3 => neg
  | 4 => rho % 16 < 16 * num / den
  | _ => let m := sbxBits num den
         rho % 2 ^ m < 2 ^ m * num / den

/-- |x| over the unit 2^q: the integer part, and the fraction over a power of two. -/
def splitAt (x : Exact) (q : Int) : Nat × Nat × Nat :=
  let st := if x.sticky then 1 else 0
  if q ≤ x.e then (x.m * 2 ^ (x.e - q).toNat, st, 2)
  else
    let d := (q - x.e).toNat
    (x.m / 2 ^ d, 2 * (x.m % 2 ^ d) + st, 2 ^ (d + 1))

/-- The magnitude in units of 2^q that the step chooses, and whether it sets NX. -/
def stepAt (x : Exact) (q : Int) (rm rho : Nat) : Nat × Bool :=
  match splitAt x q with
  | (n, num, den) =>
    if num = 0 then (n, false)
    else (if roundUp rm x.neg (n % 2 = 1) num den rho then n + 1 else n, true)

/-- Sign bit of an encoding of w bits. -/
def signBit (neg : Bool) (w : Nat) : Nat := if neg then 2 ^ (w - 1) else 0

/-- Round of a finite value into a binary float (R139). -/
def roundFloat (f : Nat) (x : Exact) (rm rho : Nat) : Nat × Flags :=
  let sp := floatSpec f
  let w := fmtWidth f
  if x.m = 0 && !x.sticky then (signBit x.neg w, 0)
  else
    let t : Int := x.e + Nat.log2 x.m
    let emin : Int := 1 - (sp.bias : Int)
    let q : Int := (if t < emin then emin else t) - sp.mb
    let (n, nx) := stepAt x q rm rho
    -- the magnitude n·2^q as an encoding: a carry out of the significand moves the exponent field by itself
    let enc : Nat := if q + sp.mb = emin then n else (q + sp.mb - emin).toNat * 2 ^ sp.mb + n
    let uf := flagIf (decide (t < emin) && nx) flagUF
    if enc > maxFinite f then
      let body := if !sp.hasInf then maxFinite f
        else if rm = 1 then maxFinite f
        else if rm = 2 then (if x.neg then maxFinite f else posInf f)
        else if rm = 3 then (if x.neg then posInf f else maxFinite f)
        else posInf f
      (signBit x.neg w + body, flagOF ||| flagNX)
    else (signBit x.neg w + enc, flagIf nx flagNX ||| uf)

/-- Whether |x| ≥ u·2^-16. -/
def geUnits (x : Exact) (u : Nat) : Bool :=
  if 0 ≤ x.e + 16 then decide (u ≤ x.m * 2 ^ (x.e + 16).toNat)
  else decide (u * 2 ^ (-(x.e + 16)).toNat ≤ x.m)

/-- The largest magnitude field ≤ |x|, found bit by bit: the fields ascend with the magnitudes. -/
def taperFloor (f : Nat) (x : Exact) : Nat → Nat → Nat
  | 0, acc => acc
  | i + 1, acc =>
    let c := acc + 2 ^ i
    taperFloor f x i (if geUnits x (taperUnits f c) then c else acc)

/-- Round of a finite value into a tapered format (R139). -/
def roundTapered (f : Nat) (x : Exact) (rm rho : Nat) : Nat × Flags :=
  let n := taperN f
  if x.m = 0 && !x.sticky then (0, 0)
  else
    let top := 2 ^ (n - 1) - 1
    let a := taperFloor f x (n - 1) 0
    let ua := taperUnits f a
    -- |x| in units of 2^-g
    let g : Nat := ((max (-x.e) 16) + 1).toNat
    let xs := 2 * x.m * 2 ^ (x.e + g - 1).toNat + (if x.sticky then 1 else 0)
    let as := ua * 2 ^ (g - 16)
    let inexact := decide (xs ≠ as)
    if a = top && inexact then (signBit x.neg n + top, flagOF ||| flagNX)
    else if a = 0 then (signBit x.neg n + 1, flagUF ||| flagNX)
    else if !inexact then (signBit x.neg n + a, 0)
    else
      let den := (taperUnits f (a + 1) - ua) * 2 ^ (g - 16)
      let up := roundUp rm x.neg (a % 2 = 1) (xs - as) den rho
      (signBit x.neg n + (if up then a + 1 else a), flagNX)

/-- Ends of the range of an integer format (R136). -/
def intLo (f : Nat) : Int := if f = 9 then 0 else -(2 ^ (fmtWidth f - 1) : Nat)
def intHi (f : Nat) : Int := if f = 9 then 255 else (2 ^ (fmtWidth f - 1) : Nat) - 1
/-- Two's-complement encoding in w bits. -/
def encodeInt (w : Nat) (i : Int) : Nat := (i % (2 ^ w : Nat)).toNat

/-- An exact integer into an integer format with saturation (R139). -/
def saturate (f : Nat) (i : Int) : Nat × Flags :=
  if i < intLo f then (encodeInt (fmtWidth f) (intLo f), flagSAT)
  else if i > intHi f then (encodeInt (fmtWidth f) (intHi f), flagSAT)
  else (encodeInt (fmtWidth f) i, 0)

/-- Round of a finite value into an integer format (R139). -/
def roundInt (f : Nat) (x : Exact) (rm rho : Nat) : Nat × Flags :=
  let (n, nx) := stepAt x 0 rm rho
  let (r, fl) := saturate f (if x.neg then -(n : Int) else n)
  (r, fl ||| flagIf nx flagNX)

/-- Round(F, x, rm) with the random bits rho (R139). -/
def round (f : Nat) (x : Num) (rm : Nat) (rho : Nat) : Nat × Flags :=
  match x with
  | .nan s =>
    if fmtIsFloat f then (canonNan f, flagIf s flagNV)
    else if fmtIsTapered f then (canonNan f, flagNAR)
    else (0, flagNV)
  | .inf n =>
    if fmtIsFloat f then
      if (floatSpec f).hasInf then (signBit n (fmtWidth f) + posInf f, 0) else (canonNan f, flagNV)
    else if fmtIsTapered f then (canonNan f, flagNAR)
    else (encodeInt (fmtWidth f) (if n then intLo f else intHi f), flagSAT)
  | .fin v =>
    if fmtIsFloat f then roundFloat f v rm rho
    else if fmtIsTapered f then roundTapered f v rm rho
    else roundInt f v rm rho

/-! ### Noise (R141) -/

def mix (z : BitVec 64) : BitVec 64 :=
  let z1 := (z ^^^ (z >>> 30)) * 0xBF58476D1CE4E5B9#64
  let z2 := (z1 ^^^ (z1 >>> 27)) * 0x94D049BB133111EB#64
  z2 ^^^ (z2 >>> 31)

/-- Noise(key, c, s): 32 bits. -/
def noise (key : BitVec 64) (c0 c1 c2 c3 : BitVec 32) (s : BitVec 8) : BitVec 32 :=
  let x := mix (key ^^^ (c1 ++ c0))
  let y := mix (x ^^^ (c3 ++ c2))
  let z := mix (y ^^^ s.setWidth 64 ^^^ 0x5851F42D4C957F2D#64)
  z.extractLsb' 32 32

/-! ### Exact arithmetic -/

/-- The signed integer of a finite value in units of 2^q, where q ≤ e. -/
def Exact.units (x : Exact) (q : Int) : Int :=
  let n : Int := (x.m * 2 ^ (x.e - q).toNat : Nat)
  if x.neg then -n else n

/-- Exact sum of two exact values; rdn gives the sign of x + (-x) (R153). Sticky operands do not occur here. -/
def addExact (x y : Exact) (rdn : Bool) : Exact :=
  let q := min x.e y.e
  let s := x.units q + y.units q
  if s = 0 then ⟨if x.neg = y.neg then x.neg else rdn, 0, 0, false⟩
  else ⟨s < 0, s.natAbs, q, false⟩

/-- The sum, and whether the operation is invalid (R153). -/
def addNum (x y : Num) (rdn : Bool) : Num × Bool :=
  match x, y with
  | .nan _, _ => (.nan false, x.isSnan || y.isSnan)
  | _, .nan _ => (.nan false, y.isSnan)
  | .inf a, .inf b => if a = b then (.inf a, false) else (.nan false, true)
  | .inf a, .fin _ => (.inf a, false)
  | .fin _, .inf b => (.inf b, false)
  | .fin a, .fin b => (.fin (addExact a b rdn), false)

def mulExact (x y : Exact) : Exact := ⟨x.neg != y.neg, x.m * y.m, x.e + y.e, false⟩

/-- The product, and whether the operation is invalid. -/
def mulNum (x y : Num) : Num × Bool :=
  match x, y with
  | .nan _, _ => (.nan false, x.isSnan || y.isSnan)
  | _, .nan _ => (.nan false, y.isSnan)
  | .inf a, .inf b => (.inf (a != b), false)
  | .inf a, .fin b => if b.m = 0 then (.nan false, true) else (.inf (a != b.neg), false)
  | .fin a, .inf b => if a.m = 0 then (.nan false, true) else (.inf (a.neg != b), false)
  | .fin a, .fin b => (.fin (mulExact a b), false)

/-- x·y + z, exact (R152). 0 × ∞ is invalid whatever z is (R142). -/
def fmaNum (x y z : Num) (rdn : Bool) : Num × Bool :=
  let (p, i) := mulNum x y
  let (s, j) := addNum p z rdn
  (s, i || j)

/-- The quotient: value, invalid, division of a finite nonzero value by zero (R153). -/
def divNum (x y : Num) : Num × Bool × Bool :=
  match x, y with
  | .nan _, _ => (.nan false, x.isSnan || y.isSnan, false)
  | _, .nan _ => (.nan false, y.isSnan, false)
  | .inf _, .inf _ => (.nan false, true, false)
  | .inf a, .fin b => (.inf (a != b.neg), false, false)
  | .fin a, .inf b => (.zero (a.neg != b), false, false)
  | .fin a, .fin b =>
    if b.m = 0 then
      if a.m = 0 then (.nan false, true, false) else (.inf (a.neg != b.neg), false, true)
    else if a.m = 0 then (.zero (a.neg != b.neg), false, false)
    else
      let k := 64 + Nat.log2 b.m
      let num := a.m * 2 ^ k
      (.fin ⟨a.neg != b.neg, num / b.m, a.e - b.e - k, num % b.m != 0⟩, false, false)

/-- The integer square root, bit by bit from bit i - 1. -/
def isqrtBits (v : Nat) : Nat → Nat → Nat
  | 0, acc => acc
  | i + 1, acc =>
    let c := acc + 2 ^ i
    isqrtBits v i (if c * c ≤ v then c else acc)

def isqrt (v : Nat) : Nat := isqrtBits v (Nat.log2 v / 2 + 1) 0

/-- The square root: value, invalid (R153). -/
def sqrtNum (x : Num) : Num × Bool :=
  match x with
  | .nan s => (.nan false, s)
  | .inf n => if n then (.nan false, true) else (.inf false, false)
  | .fin a =>
    if a.m = 0 then (.fin a, false)
    else if a.neg then (.nan false, true)
    else
      -- a.m·2^a.e = (a.m·2^k)·2^(a.e-k) with a.e - k even
      let k := 128 + (a.e % 2).toNat
      let v := a.m * 2 ^ k
      let r := isqrt v
      (.fin ⟨false, r, (a.e - k) / 2, r * r != v⟩, false)

/-- Order of two values that are not NaN: -1, 0, 1; -0 = +0. -/
def cmpNum (x y : Num) : Int :=
  match x, y with
  | .inf a, .inf b => if a = b then 0 else if a then -1 else 1
  | .inf a, _ => if a then -1 else 1
  | _, .inf b => if b then 1 else -1
  | .fin a, .fin b =>
    let q := min a.e b.e
    let d := a.units q - b.units q
    if d < 0 then -1 else if d = 0 then 0 else 1
  | _, _ => 0

/-- The lesser or greater of two values, -0 < +0; a NaN operand gives the other (R153). `gt` asks for the
greater. The Bool says that x was taken. -/
def pickMin (gt : Bool) (x y : Num) : Bool :=
  if x.isNan then y.isNan
  else if y.isNan then true
  else
    let c := cmpNum x y
    if c = 0 then (if gt then !x.sign || y.sign else x.sign || !y.sign)
    else if gt then c > 0 else c < 0

end Sys2Proof.Machine
end

