-- ==== Sys2Proof/Config.lean ====
section
/-! DEFINITION. What an implementation fixes and what arrives from outside: operand types of the machine's
steps, and the free values (opaque constants without a body, so that no proof can see what they are). -/

namespace Sys2Proof

/-- A queue whose head a PERFORM step takes (R219). -/
inductive QueueId where
  | lsq
  | mxq
  | cpq (q : BitVec 2)
deriving DecidableEq, Repr

/-- A profile of R42 with the version that a code object declares. -/
structure Profile where
  vec : Nat    -- 0 undeclared, 1 VEC.1, 2 VEC.2
  mtx : Nat
  copy : Nat
  seam : Nat
  front : Nat
  other : Bool -- a profile or version that the part does not meet is declared
deriving DecidableEq, Repr

/-- A stage of a pipeline (R265). -/
structure StageDecl where
  entry : Addr
  prio : Nat
  gal : Nat
  cores : Nat               -- bit c: core c is a candidate
  shifts : Nat
  input : Option Nat
  outputs : List Nat
  closes : List Nat
  tasks : Nat
  tiles : Nat
  fronts : Nat
  winLo : Nat              -- first byte of the scratchpad window
  winHi : Nat              -- first byte beyond it
  discard : List (Nat × Nat)
deriving DecidableEq, Repr

/-- A stage queue of a pipeline (R261). -/
structure QueueDecl where
  gal : Nat
  cb : Nat                 -- scratchpad offset of the control block
  ring : Nat
  cap : Nat
  hwm : Nat
  prod : Option Nat
  cons : Option Nat
deriving DecidableEq, Repr

/-- What the loader reads from a code object (R10, R48, R186, R261, R265, R40), and the native counterparts that the
translator builds for its portable benchmarks (R41). The manual gives neither a byte format, so a kick carries them as
read: log 7. -/
structure CodeObject where
  profile : Profile
  portable : List (Addr × Addr)          -- portable code ranges, first byte and first byte beyond
  compat : Bool
  image : List (Nat × List Byte)         -- scratchpad images, by offset
  routines : List (Nat × List Word64)    -- routine index and microwords
  stages : List StageDecl
  queues : List (Nat × QueueDecl)
  relocs : List Nat                      -- compiled gallery numbers in the words that relocations mark
  counterparts : List (Addr × Addr)      -- portable benchmark and first bundle of its native counterpart
deriving DecidableEq, Repr

/-- A firmware image as IMAGE presents it (R312). -/
structure Image where
  digest : BitVec 384
  secVer : Word64
  ecdsa : BitVec 768
  lms : List Byte
deriving DecidableEq, Repr

/-- A CPYP in progress at its sender: its queue and the number of its transmission, which no other of that sender has. -/
structure CpId where
  q : BitVec 2
  tag : Nat
deriving DecidableEq, Repr, Inhabited

/-- A packet of the Boluz link as its destination performs it (R311). -/
inductive PacketBody where
  /-- bytes to write to M of this chip: a committed store or gated element -/
  | store (addr : Nat) (bytes : List Byte)
  /-- bytes of a CPYP: its sender, gallery, offset, each byte with the bits that it writes, and whether the data are
  poisoned (R77, R83, R85) -/
  | copy (id : CpId) (gal : Nat) (off : Nat) (bytes : List (Byte × Byte)) (pois : Bool)
  /-- the end of a CPYP: its sender, gallery, the arrival word's offset (0: none), byte count (R81) -/
  | arrive (id : CpId) (gal : Nat) (off : Nat) (n : Nat)
  /-- the receiver has performed a CPYP -/
  | ack (id : CpId)
  /-- the receiver refuses a CPYP: gallery and first refused granule (R83) -/
  | refusal (id : CpId) (gal granule : Nat)
deriving DecidableEq, Repr, Inhabited

structure Packet where
  src : BitVec 13
  body : PacketBody
deriving DecidableEq, Repr

/-- Where an ECC error was found (R316). -/
inductive EccAt where
  /-- a corrected error: its unit and the address there (R309) -/
  | corrected (unit addr : Nat)
  | hbm (addr : Nat)
  | scratch (gal : Nat) (off : Nat)
  | greg (shift : Nat) (r : R5)
  | vreg (shift : Nat) (r : R5)
  | tile (shift : Nat) (t : BitVec 3)
  | front (shift : Nat) (f : BitVec 2)
deriving DecidableEq, Repr

/-- Sub-codes of ILLEGAL (02 R22, 09 R189). -/
inductive Illegal where
  | noth0 | noh1 | empty | stop | templ | slot | func | port | rsv | dupdst | opnd | mode | ucode
deriving DecidableEq, Repr

/-- The code of a sub-code (R22, R189). -/
def Illegal.code : Illegal → Nat
  | .noth0 => 1 | .noh1 => 2 | .empty => 3 | .stop => 4 | .templ => 5 | .slot => 6 | .func => 7
  | .port => 8 | .rsv => 9 | .dupdst => 10 | .opnd => 11 | .mode => 12 | .ucode => 13

/-- Whether an instruction takes an extension word (R26). -/
inductive ExtRule where
  | forbidden | optional | required
deriving DecidableEq, Repr

/-- What a step without an encoding is about: the unit that takes it and what arrives from outside. The step reads
it from the machine's input (log 1). -/
inductive Arg where
  | nothing
  /-- a shift, core, gallery or the like -/
  | unit (n : Nat)
  /-- a shift and one of its queues -/
  | queue (n : Nat) (q : QueueId)
  /-- a shift, one of its copy queues, and how many elements of a slab are performed now (04 R79, 11 R226) -/
  | elems (n : Nat) (q : BitVec 2) (k : Nat)
  /-- a unit and an index within it -/
  | pair (n k : Nat)
  /-- a launch, by its SEQ, and an index within it -/
  | launch (seq : BitVec 32) (k : Nat)
  /-- the kick word and the code object that the packet names (R299, log 7) -/
  | kick (word : Word64) (obj : CodeObject)
  /-- a BAR register's offset and the value written (R308) -/
  | register (off : BitVec 12) (val : Word64)
  | image (img : Image)
  | hostWrite (addr : Nat) (bytes : List Byte)
  | hostRead (addr len : Nat)
  /-- a flit on the path from a chip -/
  | flit (peer : BitVec 13) (content : BitVec 480) (crc : BitVec 32)
  /-- flit k of those sent on the path to a chip has failed its CRC there -/
  | resend (peer : BitVec 13) (k : Nat)
  | chip (c : BitVec 13)
  | delta (d : Int)
  | ecc (e : EccAt)
deriving DecidableEq, Repr

namespace Config

/-- A 64-bit undefined value (R3): the model applies it to its counter of free values and to a place. -/
opaque freeWord : Nat → Nat → BitVec 64
/-- The data of a vector register read within a bound (R30). -/
opaque freeVec : Nat → Nat → BitVec 2048
/-- A bit the manual leaves open: which of two allowed values a request uses. -/
opaque freeBit : Nat → Nat → Bool
/-- A 32-bit element of a tile that the manual calls undefined (R189, R192). -/
opaque freeElem : Nat → Nat → BitVec 32
/-- A byte that the manual calls undefined (R76, R80, R297) or whose layout it does not give (R296). -/
opaque freeByte : Nat → Nat → BitVec 8
/-- The entropy source (R303). -/
opaque entropy : Nat → BitVec 64
/-- Xipra's microwords 0-255 (R186): their contents are not given. -/
opaque romWord : Nat → BitVec 64
/-- The entries 0-5 of the routine table (R186): V is set, the address is not given. -/
opaque romEntry : Nat → BitVec 10
/-- Which chip numbers the load-store domain holds beside this one (R13, R55). -/
opaque assigned : Nat → Bool
/-- Whether an image's signatures verify (R312). -/
opaque imageVerifies : Image → Bool
/-- The ECDSA P-384 signature over an attestation report's items (R313): nonce, digest, security version, counter, chip, GTC. -/
opaque signEcdsa : List Nat → BitVec 768
/-- The LMS signature over them with an index (R313). -/
opaque signLms : Nat → List Nat → List Byte
/-- The arguments of mailbox requests as bytes 8-63 give them (R310, log 17): SETCHIP's chip number. -/
opaque mbChip : BitVec 448 → Nat
/-- FENCE's and UNFENCE's mask. -/
opaque mbMask : BitVec 448 → BitVec 64
/-- PREEMPT's and RESUME's launch, and the compiled gallery and physical gallery if they name one. -/
opaque mbPart : BitVec 448 → BitVec 32 × Option Nat × Option Nat
/-- ATTEST's nonce. -/
opaque mbNonce : BitVec 448 → BitVec 384
/-- HLTHCFG's degrade and replace thresholds. -/
opaque mbThresholds : BitVec 448 → BitVec 32 × BitVec 32
/-- Whether HEADS stands in a SYSCFG. -/
opaque mbHeads : BitVec 448 → Bool
/-- SYSCFG's values, in the order of R310. -/
opaque mbSyscfg : BitVec 448 → Vector (BitVec 64) 5
/-- How many data flits follow a header flit, which names its kind (R311). -/
opaque packetFlits : BitVec 480 → Nat
/-- What a packet's header and data flits ask for (R311). -/
opaque packetBody : BitVec 480 → List (BitVec 480) → PacketBody
/-- The kind and the other bits of a sent packet's header flit, whose layout R311 does not give beyond the chips. -/
opaque packetHead : PacketBody → BitVec 454
/-- The data flits of a sent packet, of which at most 16 count (R311). -/
opaque packetData : PacketBody → List (BitVec 480)
/-- Word k of a part of the save area whose inner layout the manual does not give, from the part's items (R296). -/
opaque saveWord : Nat → List Nat → Nat → BitVec 64
/-- The payload bytes of a trace record or host event whose layout the manual does not give, from its items
(R284, R309). -/
opaque payload : Nat → List Nat → BitVec 128
/-- The physical gallery that the command processor chooses for compiled gallery k among the candidates (R271). -/
opaque pickGallery : Nat → Nat → Nat
/-- The FLG value of a DONE event of a launch that ran in REDUCED (R314). -/
opaque reducedFlag : BitVec 8
/-- Where the loader begins to place a launch's routines among the words that are free (R186). -/
opaque pickWord : Nat → Nat

end Config

/-- HBM frames of one chip (R52). -/
def framesPerChip : Nat := 12582912
/-- Bytes of a frame (R52). -/
def frameBytes : Nat := 65536
/-- The key of byte b of chip c in M: the model's own numbering of the load-store domain. -/
def chipSpan : Nat := 1099511627776
/-- Bytes of a gallery scratchpad (R94). -/
def spBytes : Nat := 16777216

end Sys2Proof
end

