-- ==== Sys2Proof/Syntax.lean ====
section
/-! DEFINITION. The steps of the BZ4: one constructor per row of the operation table. The rows with an encoding
carry the operand fields of their slot word (02 R19, R44) and of their extension word (R20); the stop bit S and
the guard bit Q belong to the slot, not to the instruction. The other rows are steps that the machine, the host
or the surroundings take; which unit takes the step, and what arrives from outside, stands in the state's `arg`. -/

namespace Sys2Proof

/-- The operations and events of the table. -/
inductive Instr where
  /-- ADD (R236) -/
  | add (d a b : R5)
  /-- SUB (R236) -/
  | sub (d a b : R5)
  /-- AND (R236) -/
  | and (d a b : R5)
  /-- OR (R236) -/
  | or (d a b : R5)
  /-- XOR (R236) -/
  | xor (d a b : R5)
  /-- ANDN (R236) -/
  | andn (d a b : R5)
  /-- SLL (R236) -/
  | sll (d a b : R5)
  /-- SRL (R236) -/
  | srl (d a b : R5)
  /-- SRA (R236) -/
  | sra (d a b : R5)
  /-- ROL (R236) -/
  | rol (d a b : R5)
  /-- ROR (R236) -/
  | ror (d a b : R5)
  /-- MUL (R236) -/
  | mul (d a b : R5)
  /-- MULH (R236) -/
  | mulh (d a b : R5)
  /-- MULHU (R236) -/
  | mulhu (d a b : R5)
  /-- DIV (R237) -/
  | div (d a b : R5)
  /-- DIVU (R237) -/
  | divu (d a b : R5)
  /-- REM (R237) -/
  | rem (d a b : R5)
  /-- REMU (R237) -/
  | remu (d a b : R5)
  /-- MIN (R236) -/
  | min (d a b : R5)
  /-- MAX (R236) -/
  | max (d a b : R5)
  /-- MINU (R236) -/
  | minu (d a b : R5)
  /-- MAXU (R236) -/
  | maxu (d a b : R5)
  /-- SLT (R236) -/
  | slt (d a b : R5)
  /-- SLTU (R236) -/
  | sltu (d a b : R5)
  /-- SEQ (R236) -/
  | seq (d a b : R5)
  /-- SNE (R236) -/
  | sne (d a b : R5)
  /-- CLZ (R236) -/
  | clz (d a : R5)
  /-- CTZ (R236) -/
  | ctz (d a : R5)
  /-- POPC (R236) -/
  | popc (d a : R5)
  /-- BEXT (R238) -/
  | bext (d a b : R5)
  /-- BDEP (R238) -/
  | bdep (d a b : R5)
  /-- FSHL (R238) -/
  | fshl (d a b c : R5)
  /-- FSHR (R238) -/
  | fshr (d a b c : R5)
  /-- LUT3 (R238) -/
  | lut3 (d a b c : R5) (t : BitVec 8)
  /-- SEL (R238) -/
  | sel (d a b : R5)
  /-- BSET (R236) -/
  | bset (d a b : R5)
  /-- BCLR (R236) -/
  | bclr (d a b : R5)
  /-- BTST (R236) -/
  | btst (d a b : R5)
  /-- ADDI (R240) -/
  | addi (d a : R5) (i : BitVec 10) (x : Option (BitVec 27))
  /-- ANDI (R240) -/
  | andi (d a : R5) (i : BitVec 10) (x : Option (BitVec 27))
  /-- ORI (R240) -/
  | ori (d a : R5) (i : BitVec 10) (x : Option (BitVec 27))
  /-- XORI (R240) -/
  | xori (d a : R5) (i : BitVec 10) (x : Option (BitVec 27))
  /-- SLLI (R240) -/
  | slli (d a : R5) (i : BitVec 10) (x : Option (BitVec 27))
  /-- SRLI (R240) -/
  | srli (d a : R5) (i : BitVec 10) (x : Option (BitVec 27))
  /-- SRAI (R240) -/
  | srai (d a : R5) (i : BitVec 10) (x : Option (BitVec 27))
  /-- RORI (R240) -/
  | rori (d a : R5) (i : BitVec 10) (x : Option (BitVec 27))
  /-- MULI (R240) -/
  | muli (d a : R5) (i : BitVec 10) (x : Option (BitVec 27))
  /-- SLTI (R240) -/
  | slti (d a : R5) (i : BitVec 10) (x : Option (BitVec 27))
  /-- SLTUI (R240) -/
  | sltui (d a : R5) (i : BitVec 10) (x : Option (BitVec 27))
  /-- SEQI (R240) -/
  | seqi (d a : R5) (i : BitVec 10) (x : Option (BitVec 27))
  /-- LI (R240) -/
  | li (d : R5) (i : BitVec 10) (x : Option (BitVec 27))
  /-- BSETI (R240) -/
  | bseti (d a : R5) (i : BitVec 10) (x : Option (BitVec 27))
  /-- BCLRI (R240) -/
  | bclri (d a : R5) (i : BitVec 10) (x : Option (BitVec 27))
  /-- BTSTI (R240) -/
  | btsti (d a : R5) (i : BitVec 10) (x : Option (BitVec 27))
  /-- MINI (R240) -/
  | mini (d a : R5) (i : BitVec 10) (x : Option (BitVec 27))
  /-- MAXI (R240) -/
  | maxi (d a : R5) (i : BitVec 10) (x : Option (BitVec 27))
  /-- FADD (R152) -/
  | fadd (d a b : R5) (r : BitVec 2)
  /-- FSUB (R152) -/
  | fsub (d a b : R5) (r : BitVec 2)
  /-- FMUL (R152) -/
  | fmul (d a b : R5) (r : BitVec 2)
  /-- FMA (R152) -/
  | fma (d a b : R5) (r : BitVec 2)
  /-- FMIN (R153) -/
  | fmin (d a b : R5)
  /-- FMAX (R153) -/
  | fmax (d a b : R5)
  /-- FCMPEQ (R153) -/
  | fcmpeq (d a b : R5)
  /-- FCMPLT (R153) -/
  | fcmplt (d a b : R5)
  /-- FCMPLE (R153) -/
  | fcmple (d a b : R5)
  /-- FCVTI (R152) -/
  | fcvti (d a : R5) (r : BitVec 2)
  /-- FCVTF (R152) -/
  | fcvtf (d a : R5) (r : BitVec 2)
  /-- FDIV (R152) -/
  | fdiv (d a b : R5) (r : BitVec 2)
  /-- FSQRT (R152) -/
  | fsqrt (d a : R5) (r : BitVec 2)
  /-- BR (R243) -/
  | br (o : BitVec 20)
  /-- JAL (R244) -/
  | jal (d : R5) (o : BitVec 15)
  /-- JALR (R244) -/
  | jalr (d a : R5) (i : BitVec 10)
  /-- LOOP (R246) -/
  | loop (n : BitVec 6) (l : BitVec 3) (a : R5)
  /-- LOOPI (R246) -/
  | loopi (n : BitVec 6) (l : BitVec 3) (k : BitVec 10)
  /-- LOOPR (R247) -/
  | loopr (n : BitVec 6) (l : BitVec 3) (a : R5) (v : BitVec 1)
  /-- ITSET_BASE (R255) -/
  | itsetBase (i : BitVec 4) (a : R5)
  /-- ITSET_STR (R255) -/
  | itsetStr (i : BitVec 4) (a : R5) (l : BitVec 3)
  /-- ITREV (R257) -/
  | itrev (i : BitVec 4) (m : BitVec 6)
  /-- ITGET (R256) -/
  | itget (d : R5) (i : BitVec 4) (m : BitVec 10)
  /-- LBRK (R250) -/
  | lbrk (l : BitVec 3)
  /-- LCNT (R251) -/
  | lcnt (d : R5) (l : BitVec 3)
  /-- LDB (R59) -/
  | ldb (d a : R5) (i : BitVec 10) (x : Option (BitVec 27))
  /-- LDH (R59) -/
  | ldh (d a : R5) (i : BitVec 10) (x : Option (BitVec 27))
  /-- LDW (R59) -/
  | ldw (d a : R5) (i : BitVec 10) (x : Option (BitVec 27))
  /-- LDD (R59) -/
  | ldd (d a : R5) (i : BitVec 10) (x : Option (BitVec 27))
  /-- LDBX (R59) -/
  | ldbx (d a : R5) (i : BitVec 10) (x : Option (BitVec 27))
  /-- LDHX (R59) -/
  | ldhx (d a : R5) (i : BitVec 10) (x : Option (BitVec 27))
  /-- LDWX (R59) -/
  | ldwx (d a : R5) (i : BitVec 10) (x : Option (BitVec 27))
  /-- STB (R59) -/
  | stb (d a : R5) (i : BitVec 10) (x : Option (BitVec 27))
  /-- STH (R59) -/
  | sth (d a : R5) (i : BitVec 10) (x : Option (BitVec 27))
  /-- STW (R59) -/
  | stw (d a : R5) (i : BitVec 10) (x : Option (BitVec 27))
  /-- STD (R59) -/
  | std (d a : R5) (i : BitVec 10) (x : Option (BitVec 27))
  /-- SLD (R104) -/
  | sld (d a : R5) (i : BitVec 10) (x : Option (BitVec 27))
  /-- SST (R104) -/
  | sst (d a : R5) (i : BitVec 10) (x : Option (BitVec 27))
  /-- AADD (R234) -/
  | aadd (d a b : R5) (o : BitVec 2) (w : BitVec 1)
  /-- AMIN (R234) -/
  | amin (d a b : R5) (o : BitVec 2) (w : BitVec 1)
  /-- AMINU (R234) -/
  | aminu (d a b : R5) (o : BitVec 2) (w : BitVec 1)
  /-- AMAX (R234) -/
  | amax (d a b : R5) (o : BitVec 2) (w : BitVec 1)
  /-- AMAXU (R234) -/
  | amaxu (d a b : R5) (o : BitVec 2) (w : BitVec 1)
  /-- AAND (R234) -/
  | aand (d a b : R5) (o : BitVec 2) (w : BitVec 1)
  /-- AOR (R234) -/
  | aor (d a b : R5) (o : BitVec 2) (w : BitVec 1)
  /-- AXOR (R234) -/
  | axor (d a b : R5) (o : BitVec 2) (w : BitVec 1)
  /-- ASWP (R234) -/
  | aswp (d a b : R5) (o : BitVec 2) (w : BitVec 1)
  /-- ACAS (R234) -/
  | acas (d a b : R5) (o f : BitVec 2) (w : BitVec 1)
  /-- VADD (R158) -/
  | vadd (d a b : R5) (k : BitVec 2) (f : BitVec 3)
  /-- VSUB (R158) -/
  | vsub (d a b : R5) (k : BitVec 2) (f : BitVec 3)
  /-- VMUL (R158) -/
  | vmul (d a b : R5) (k : BitVec 2) (f : BitVec 3)
  /-- VMULH (R158) -/
  | vmulh (d a b : R5) (k : BitVec 2) (f : BitVec 3)
  /-- VAND (R158) -/
  | vand (d a b : R5) (k : BitVec 2) (f : BitVec 3)
  /-- VOR (R158) -/
  | vor (d a b : R5) (k : BitVec 2) (f : BitVec 3)
  /-- VXOR (R158) -/
  | vxor (d a b : R5) (k : BitVec 2) (f : BitVec 3)
  /-- VSLL (R158) -/
  | vsll (d a b : R5) (k : BitVec 2) (f : BitVec 3)
  /-- VSRL (R158) -/
  | vsrl (d a b : R5) (k : BitVec 2) (f : BitVec 3)
  /-- VSRA (R158) -/
  | vsra (d a b : R5) (k : BitVec 2) (f : BitVec 3)
  /-- VMIN (R158) -/
  | vmin (d a b : R5) (k : BitVec 2) (f : BitVec 3)
  /-- VMAX (R158) -/
  | vmax (d a b : R5) (k : BitVec 2) (f : BitVec 3)
  /-- VCMPEQ (R161) -/
  | vcmpeq (d a b : R5) (k : BitVec 2) (f : BitVec 3)
  /-- VCMPLT (R161) -/
  | vcmplt (d a b : R5) (k : BitVec 2) (f : BitVec 3)
  /-- VCMPLE (R161) -/
  | vcmple (d a b : R5) (k : BitVec 2) (f : BitVec 3)
  /-- VSEL (R162) -/
  | vsel (d a b : R5) (k : BitVec 2) (f : BitVec 3)
  /-- VLUT3 (R160) -/
  | vlut3 (d a b : R5) (k : BitVec 2) (f : BitVec 3) (t : BitVec 8)
  /-- VFSHL (R159) -/
  | vfshl (d a b : R5) (k : BitVec 2) (f : BitVec 3)
  /-- VPOPC (R159) -/
  | vpopc (d a : R5) (f : BitVec 3)
  /-- VCLZ (R159) -/
  | vclz (d a : R5) (f : BitVec 3)
  /-- VREDADD (R164) -/
  | vredadd (d a : R5) (r : BitVec 1) (f : BitVec 3)
  /-- VREDMAX (R164) -/
  | vredmax (d a : R5) (r : BitVec 1) (f : BitVec 3)
  /-- VREDMIN (R164) -/
  | vredmin (d a : R5) (r : BitVec 1) (f : BitVec 3)
  /-- VSPLAT (R163) -/
  | vsplat (d a b : R5) (k : BitVec 1) (f : BitVec 3)
  /-- VMOV (R163) -/
  | vmov (d a b : R5) (k : BitVec 2) (f : BitVec 3)
  /-- VDOT8 (R165) -/
  | vdot8 (d a b : R5) (f : BitVec 3)
  /-- VFADD (R166) -/
  | vfadd (d a b : R5) (k : BitVec 2) (f : BitVec 3)
  /-- VFSUB (R166) -/
  | vfsub (d a b : R5) (k : BitVec 2) (f : BitVec 3)
  /-- VFMUL (R166) -/
  | vfmul (d a b : R5) (k : BitVec 2) (f : BitVec 3)
  /-- VFMA (R166) -/
  | vfma (d a b : R5) (k : BitVec 2) (f : BitVec 3)
  /-- VFMAX (R167) -/
  | vfmax (d a b : R5) (k : BitVec 2) (f : BitVec 3)
  /-- VFMIN (R167) -/
  | vfmin (d a b : R5) (k : BitVec 2) (f : BitVec 3)
  /-- VFCMPEQ (R161) -/
  | vfcmpeq (d a b : R5) (k : BitVec 2) (f : BitVec 3)
  /-- VFCMPLT (R161) -/
  | vfcmplt (d a b : R5) (k : BitVec 2) (f : BitVec 3)
  /-- VFCMPLE (R161) -/
  | vfcmple (d a b : R5) (k : BitVec 2) (f : BitVec 3)
  /-- VCVT (R150) -/
  | vcvt (d a : R5) (src : BitVec 3) (dst : BitVec 3) (rm : BitVec 3) (h : BitVec 3) (stream : BitVec 8)
  /-- VFREDSUM (R164) -/
  | vfredsum (d a : R5) (r : BitVec 1) (f : BitVec 3)
  /-- VFREDMAX (R164) -/
  | vfredmax (d a : R5) (r : BitVec 1) (f : BitVec 3)
  /-- VEXP2 (R169) -/
  | vexp2 (d a : R5) (f : BitVec 3)
  /-- VLOG2 (R169) -/
  | vlog2 (d a : R5) (f : BitVec 3)
  /-- VRCP (R169) -/
  | vrcp (d a : R5) (f : BitVec 3)
  /-- VRSQ (R169) -/
  | vrsq (d a : R5) (f : BitVec 3)
  /-- VSINT (R169) -/
  | vsint (d a : R5) (f : BitVec 3)
  /-- VCOST (R169) -/
  | vcost (d a : R5) (f : BitVec 3)
  /-- VTANH (R169) -/
  | vtanh (d a : R5) (f : BitVec 3)
  /-- RNGK (R170) -/
  | rngk (d a b : R5) (k : BitVec 1) (f : BitVec 3)
  /-- GUMB (R171) -/
  | gumb (d a b : R5) (k : BitVec 1) (f : BitVec 3)
  /-- TOPK (R172) -/
  | topk (d a k : R5) (r : BitVec 1) (f : BitVec 3)
  /-- VSCALE (R151) -/
  | vscale (d a b : R5) (v : BitVec 1) (f : BitVec 3)
  /-- VFABS (R167) -/
  | vfabs (d a : R5) (f : BitVec 3)
  /-- VFNEG (R167) -/
  | vfneg (d a : R5) (f : BitVec 3)
  /-- CMSET (R124) -/
  | cmset (d a : R5)
  /-- CMGET (R124) -/
  | cmget (d a : R5)
  /-- CMSLC (R125) -/
  | cmslc (d a b : R5)
  /-- CMTRN (R125) -/
  | cmtrn (d a : R5)
  /-- CMREV (R125) -/
  | cmrev (d a : R5) (o : BitVec 1)
  /-- CMCPY (R125) -/
  | cmcpy (d a : R5)
  /-- CMCLR (R125) -/
  | cmclr (d : R5)
  /-- VCRD (R126) -/
  | vcrd (d a b : R5) (p : BitVec 2)
  /-- VROPE (R127) -/
  | vrope (d a b : R5) (v : BitVec 1) (f : BitVec 3)
  /-- VSHUF (R128) -/
  | vshuf (d a b : R5) (f : BitVec 3)
  /-- VROT (R128) -/
  | vrot (d a b : R5) (k : BitVec 1) (f : BitVec 3)
  /-- CMTST (R129) -/
  | cmtst (d a b : R5)
  /-- VSHFL (R130) -/
  | vshfl (d a b : R5) (f : BitVec 3)
  /-- VLD (R105) -/
  | vld (d : R5) (w : BitVec 3) (b : R5)
  /-- VST (R105) -/
  | vst (d : R5) (w : BitVec 3) (b : R5)
  /-- VLDC (R105) -/
  | vldc (d : R5) (w : BitVec 3) (b : R5)
  /-- VSTC (R105) -/
  | vstc (d : R5) (w : BitVec 3) (b : R5)
  /-- VGATH (R106) -/
  | vgath (d : R5) (w : BitVec 3) (b c : R5)
  /-- VSCAT (R106) -/
  | vscat (d : R5) (w : BitVec 3) (b c : R5)
  /-- VCOMP (R107) -/
  | vcomp (d a b : R5) (f : BitVec 3)
  /-- RGLD (R108) -/
  | rgld (w : BitVec 3) (a b : R5)
  /-- TAGQ (R109) -/
  | tagq (d a : R5)
  /-- TAGSET (R109) -/
  | tagset (a b : R5)
  /-- TAGCLR (R109) -/
  | tagclr (a : R5)
  /-- GUARD_SET (R110) -/
  | guardSet (a b : R5)
  /-- GUARD_CLR (R110) -/
  | guardClr (a b : R5)
  /-- MCALL (R196) -/
  | mcall (i : BitVec 10)
  /-- MPARM (R197) -/
  | mparm (n : BitVec 3) (a : R5)
  /-- MZERO (R198) -/
  | mzero (t : BitVec 3)
  /-- MREL (R198) -/
  | mrel (t : BitVec 3)
  /-- MLDA (R199) -/
  | mlda (t w : BitVec 3) (b : R5)
  /-- MSTA (R199) -/
  | msta (t w : BitVec 3) (b : R5) (f : BitVec 3)
  /-- MWR (R200) -/
  | mwr (a b : R5)
  /-- MRD (R200) -/
  | mrd (d a : R5)
  /-- MBGRP (R201) -/
  | mbgrp (a : R5)
  /-- MWAIT (R202) -/
  | mwait (n : BitVec 3)
  /-- CPY (R84) -/
  | cpy (n : BitVec 2) (a b c : R5)
  /-- CPYP (R85) -/
  | cpyp (n : BitVec 2) (a b c : R5)
  /-- CPFILL (R86) -/
  | cpfill (n : BitVec 2) (a c : R5)
  /-- CPQF (R87) -/
  | cpqf (m : BitVec 4)
  /-- CPYZ (R89) -/
  | cpyz (n : BitVec 2) (a b c : R5)
  /-- AWSET (R90) -/
  | awset (d a b : R5)
  /-- CPST (R91) -/
  | cpst (d : R5) (n : BitVec 2)
  /-- CLAPP (R69) -/
  | clapp (d a b : R5)
  /-- CLSHR (R65) -/
  | clshr (d a b c : R5)
  /-- SEAMTAG (R69) -/
  | seamtag (d a b : R5)
  /-- SEAMRET (R69) -/
  | seamret (d a b : R5) (m : BitVec 1)
  /-- HBUDG (R69) -/
  | hbudg (d a b c : R5)
  /-- FCFG (R213) -/
  | fcfg (n : BitVec 2) (a : R5)
  /-- FINS (R214) -/
  | fins (x : BitVec 1) (n : BitVec 2) (a b c : R5)
  /-- FMERGE (R215) -/
  | fmerge (n m : BitVec 2)
  /-- FREAD (R216) -/
  | fread (d : R5) (n : BitVec 2)
  /-- FCNT (R217) -/
  | fcnt (d : R5) (n : BitVec 2)
  /-- FCLR (R217) -/
  | fclr (n : BitVec 2)
  /-- FSAVE (R218) -/
  | fsave (n : BitVec 2) (b : R5)
  /-- FLOAD (R218) -/
  | fload (n : BitVec 2) (b : R5)
  /-- PHASE (R232) -/
  | phase
  /-- FENCE (R233) -/
  | fence (d : R5) (e : BitVec 3)
  /-- AWAIT (R92) -/
  | await (a b : R5)
  /-- BARG (R276) -/
  | barg (a : R5) (n : BitVec 2)
  /-- BARD (R276) -/
  | bard (a : R5) (n : BitVec 2)
  /-- ENQ (R277) -/
  | enq (n a : R5) (x : BitVec 1)
  /-- DEQ (R278) -/
  | deq (d n : R5)
  /-- RETIRE (R279) -/
  | retire
  /-- YIELD (R280) -/
  | yield
  /-- SLEEPT (R283) -/
  | sleept (a : R5)
  /-- TIME (R282) -/
  | time (d : R5)
  /-- TRAP (R300) -/
  | trap (k : BitVec 10)
  /-- ERET (R301) -/
  | eret (k : BitVec 1)
  /-- CSRR (R302) -/
  | csrr (d : R5) (c : BitVec 12)
  /-- CSRW (R302) -/
  | csrw (a : R5) (c : BitVec 12)
  /-- CSRS (R302) -/
  | csrs (a : R5) (c : BitVec 12)
  /-- CSRC (R302) -/
  | csrc (a : R5) (c : BitVec 12)
  /-- RNGP (R303) -/
  | rngp (d : R5)
  /-- IPF (R69) -/
  | ipf (a b : R5)
  /-- FMTT (R149) -/
  | fmtt (a b : R5)
  /-- FMTT_ALL (R149) -/
  | fmttAll (b : R5)
  /-- GSET (R304) -/
  | gset (a : R5) (i : BitVec 6) (x : BitVec 1)
  /-- FLAGR (R305) -/
  | flagr (d : R5)
  /-- FLAGC (R305) -/
  | flagc (m : BitVec 8) (f : BitVec 7)
  /-- NOP (R306) -/
  | nop
  /-- NOP_BENCH (R39) -/
  | nopBench
  /-- ISSUE (R29) -/
  | issue
  /-- PHASE_BOUNDARY (R222) -/
  | phaseBoundary
  /-- PERFORM (R220) -/
  | perform
  /-- GATE (R220) -/
  | gate
  /-- COMMIT (R220) -/
  | commit
  /-- ATOMIC (R220) -/
  | atomic
  /-- LOAD (R220) -/
  | load
  /-- TRAP_ENTRY (R287) -/
  | trapEntry
  /-- FPX (R144) -/
  | fpx
  /-- SHIFT_WAKE (R259) -/
  | shiftWake
  /-- COPY_PERFORM (R70) -/
  | copyPerform
  /-- MXQ_PERFORM (R175) -/
  | mxqPerform
  /-- BROADCAST_STRIP (R185) -/
  | broadcastStrip
  /-- CLAIM_PERFORM (R60) -/
  | claimPerform
  /-- FENCE_TIMEOUT (R233) -/
  | fenceTimeout
  /-- WATCHDOG (R274) -/
  | watchdog
  /-- TASK_START (R266) -/
  | taskStart
  /-- STAGE_DONE (R267) -/
  | stageDone
  /-- STEERING (R268) -/
  | steering
  /-- PREEMPTION (R294) -/
  | preemption
  /-- SHIFT_RESUME (R295) -/
  | shiftResume
  /-- KICK (R299) -/
  | kick
  /-- KICK_REREAD (R299) -/
  | kickReread
  /-- REGISTER_WRITE (R308) -/
  | registerWrite
  /-- SHPINV (R53) -/
  | shpinv
  /-- IMAGE (R312) -/
  | image
  /-- SETCHIP (R310) -/
  | setchip
  /-- FENCE_GALLERIES (R15) -/
  | fenceGalleries
  /-- UNFENCE (R310) -/
  | unfence
  /-- PREEMPT (R310) -/
  | preempt
  /-- RESUME (R310) -/
  | resume
  /-- ATTEST (R313) -/
  | attest
  /-- ARBUMP (R312) -/
  | arbump
  /-- HLTHCFG (R316) -/
  | hlthcfg
  /-- SYSCFG (R310) -/
  | syscfg
  /-- SYSCFG_HEADS (R310) -/
  | syscfgHeads
  /-- DONE (R309) -/
  | done
  /-- HALT (R309) -/
  | halt
  /-- REFUSED (R309) -/
  | refused
  /-- GRANTERR (R309) -/
  | granterr
  /-- MEMERR (R309) -/
  | memerr
  /-- LINKERR (R309) -/
  | linkerr
  /-- THERMAL (R309) -/
  | thermal
  /-- ATTLOW (R309) -/
  | attlow
  /-- THERMAL_TRIP (R14) -/
  | thermalTrip
  /-- CXL_RESET (R307) -/
  | cxlReset
  /-- POWER_LOSS (R307) -/
  | powerLoss
  /-- ENTER_SAFE (R314) -/
  | enterSafe
  /-- ENTER_REDUCED (R314) -/
  | enterReduced
  /-- ENTER_FULL (R314) -/
  | enterFull
  /-- HOST_MEM_WRITE (R307) -/
  | hostMemWrite
  /-- HOST_MEM_READ (R307) -/
  | hostMemRead
  /-- FLIT (R311) -/
  | flit
  /-- PACKET (R311) -/
  | packet
  /-- LINK_DEGRADED (R311) -/
  | linkDegraded
  /-- LINK_DEAD (R311) -/
  | linkDead
  /-- PTP_MESSAGE (R315) -/
  | ptpMessage
  /-- GRANDMASTER_LOST (R315) -/
  | grandmasterLost
  /-- ECC_ERROR (R316) -/
  | eccError
  /-- RNG_HEALTH_FAIL (R303) -/
  | rngHealthFail
  /-- RESULT_LANDING (R30) -/
  | resultLanding
  /-- LINK_RECOVERY (R311) -/
  | linkRecovery
  /-- PPS_INPUT (R315) -/
  | ppsInput
deriving DecidableEq, Repr

end Sys2Proof
end

