-- ==== Sys2Proof/WellFormed.lean ====
section
/-! DEFINITION. Well-formed instructions: operand values that the entries allow whatever the machine's state
(02 R22 OPND, R26). The fields' widths rule out most other values; a step without an encoding has no
operand field. -/

namespace Sys2Proof

/-- The selector of operand kind COORD (R36): a dimension 0-5, or a value with B[2:0] = 0. -/
def selectorOk (b : R5) : Bool :=
  if b.toNat / 8 = 0 then b.toNat % 8 < 6 else b.toNat % 8 = 0

/-- Operand B of kind k (R35). -/
def kindOk (k : BitVec 2) (b : R5) : Bool := k.toNat != 1 || selectorOk b

/-- An instruction whose operand fields hold values that its entry allows. -/
def wellFormed : Instr → Bool
  | .vadd _ _ b k _ | .vsub _ _ b k _ | .vmul _ _ b k _ | .vmulh _ _ b k _ | .vand _ _ b k _ | .vor _ _ b k _
  | .vxor _ _ b k _ | .vsll _ _ b k _ | .vsrl _ _ b k _ | .vsra _ _ b k _ | .vmin _ _ b k _ | .vmax _ _ b k _
  | .vcmpeq _ _ b k _ | .vcmplt _ _ b k _ | .vcmple _ _ b k _ | .vsel _ _ b k _ | .vlut3 _ _ b k _ _
  | .vfshl _ _ b k _ | .vfadd _ _ b k _ | .vfsub _ _ b k _ | .vfmul _ _ b k _ | .vfma _ _ b k _
  | .vfmax _ _ b k _ | .vfmin _ _ b k _ | .vfcmpeq _ _ b k _ | .vfcmplt _ _ b k _ | .vfcmple _ _ b k _ =>
      kindOk k b
  | .fins x _ _ b _ => x = 0 || b = 0
  | .vmov _ a b k _ => kindOk k b && (k.toNat = 1 || a = 0)
  | .vcrd _ _ b _ => selectorOk b
  | .vcvt _ _ _ _ rm h _ => rm.toNat < 7 && h.toNat < 5
  | .topk d _ _ _ _ => d.toNat < 31
  | .vcomp d _ _ _ => d.toNat < 31
  | .loop _ l _ | .loopi _ l _ | .loopr _ l _ _ => l.toNat < 6
  | .itsetStr _ _ l => l.toNat < 6
  | .lbrk l | .lcnt _ l => l.toNat < 6
  | .acas _ _ _ _ f _ => f.toNat < 2
  | .cpqf m => m != 0
  | .mcall i => i.toNat < 64
  | .fence _ e => e.toNat < 6
  | _ => true

end Sys2Proof
end

