-- ==== Sys2Proof/Decode.lean ====
section
/-! DEFINITION. The decoder of slot words and extension words, the slot tables that legality needs, and the encoder
(02_bundles_and_opcode_map R16-R21, R25-R27, R44, and the encoding tables of each instruction's entry). -/

namespace Sys2Proof

/-- Bits [lo+len-1:lo] of a word as a number (R1). -/
def fld {n : Nat} (w : BitVec n) (lo len : Nat) : Nat := w.toNat / 2 ^ lo % 2 ^ len

/-- The opcode class of a slot word (R19). -/
def fOC (w : Word) : Nat := fld w 27 4
/-- The function of a slot word (R19). -/
def fFN (w : Word) : Nat := fld w 20 6
/-- The stop bit (R19). -/
def fS (w : Word) : Bool := fld w 31 1 = 1
/-- The guard bit (R19). -/
def fQ (w : Word) : Bool := fld w 26 1 = 1

/-- Bits of an extension payload (R20); an absent extension word reads as zeros. -/
def extFld (x : Option (BitVec 27)) (lo len : Nat) : BitVec len :=
  match x with
  | some p => .ofNat len (fld p lo len)
  | none => 0

/-- The table of LUT3 and VLUT3 (R236, R160). -/
def extTable (x : Option (BitVec 27)) : BitVec 8 := extFld x 0 8

/-- The number of functions assigned in a class: R44's map has no gaps. -/
def fnCount : Nat → Nat
  | 0 => 38
  | 1 => 18
  | 2 => 13
  | 3 => 11
  | 4 => 23
  | 5 => 26
  | 6 => 25
  | 7 => 13
  | 8 => 12
  | 9 => 10
  | 10 => 12
  | 11 => 8
  | 12 => 11
  | 13 => 13
  | _ => 0

/-- Whether the opcode map assigns the class and function (R44). -/
def fnAssigned (oc fn : Nat) : Bool := fn < fnCount oc

/-- Whether a function takes an extension word (R26). -/
def extRule (oc fn : Nat) : ExtRule :=
  if (oc = 0 ∧ fn = 33) ∨ (oc = 5 ∧ fn = 16) ∨ (oc = 6 ∧ fn = 9) then .required
  else if oc = 1 ∧ fn < 18 then .optional
  else if oc = 4 ∧ fn < 13 then .optional
  else .forbidden

/-- Whether a reserved field that an entry reports as RSV is nonzero (R22: R239, R160, R150, R69). -/
def rsvBad (w : Word) (x : Option (BitVec 27)) : Bool :=
  if (fOC w = 0 ∧ fFN w = 33) ∨ (fOC w = 5 ∧ fFN w = 16) then extFld x 8 19 != 0
  else if fOC w = 6 ∧ fFN w = 9 then extFld x 20 7 != 0
  else if fOC w = 10 ∧ fFN w = 10 then fld w 1 4 != 0
  else false

/-- Class 0, SIA (R44). -/
def decodeSIA (w : Word) (x : Option (BitVec 27)) : Option Instr :=
  match fFN w with
  | 0 => if fld w 0 5 = 0 then some (.add (.ofNat 5 (fld w 15 5)) (.ofNat 5 (fld w 10 5)) (.ofNat 5 (fld w 5 5))) else none
  | 1 => if fld w 0 5 = 0 then some (.sub (.ofNat 5 (fld w 15 5)) (.ofNat 5 (fld w 10 5)) (.ofNat 5 (fld w 5 5))) else none
  | 2 => if fld w 0 5 = 0 then some (.and (.ofNat 5 (fld w 15 5)) (.ofNat 5 (fld w 10 5)) (.ofNat 5 (fld w 5 5))) else none
  | 3 => if fld w 0 5 = 0 then some (.or (.ofNat 5 (fld w 15 5)) (.ofNat 5 (fld w 10 5)) (.ofNat 5 (fld w 5 5))) else none
  | 4 => if fld w 0 5 = 0 then some (.xor (.ofNat 5 (fld w 15 5)) (.ofNat 5 (fld w 10 5)) (.ofNat 5 (fld w 5 5))) else none
  | 5 => if fld w 0 5 = 0 then some (.andn (.ofNat 5 (fld w 15 5)) (.ofNat 5 (fld w 10 5)) (.ofNat 5 (fld w 5 5))) else none
  | 6 => if fld w 0 5 = 0 then some (.sll (.ofNat 5 (fld w 15 5)) (.ofNat 5 (fld w 10 5)) (.ofNat 5 (fld w 5 5))) else none
  | 7 => if fld w 0 5 = 0 then some (.srl (.ofNat 5 (fld w 15 5)) (.ofNat 5 (fld w 10 5)) (.ofNat 5 (fld w 5 5))) else none
  | 8 => if fld w 0 5 = 0 then some (.sra (.ofNat 5 (fld w 15 5)) (.ofNat 5 (fld w 10 5)) (.ofNat 5 (fld w 5 5))) else none
  | 9 => if fld w 0 5 = 0 then some (.rol (.ofNat 5 (fld w 15 5)) (.ofNat 5 (fld w 10 5)) (.ofNat 5 (fld w 5 5))) else none
  | 10 => if fld w 0 5 = 0 then some (.ror (.ofNat 5 (fld w 15 5)) (.ofNat 5 (fld w 10 5)) (.ofNat 5 (fld w 5 5))) else none
  | 11 => if fld w 0 5 = 0 then some (.mul (.ofNat 5 (fld w 15 5)) (.ofNat 5 (fld w 10 5)) (.ofNat 5 (fld w 5 5))) else none
  | 12 => if fld w 0 5 = 0 then some (.mulh (.ofNat 5 (fld w 15 5)) (.ofNat 5 (fld w 10 5)) (.ofNat 5 (fld w 5 5))) else none
  | 13 => if fld w 0 5 = 0 then some (.mulhu (.ofNat 5 (fld w 15 5)) (.ofNat 5 (fld w 10 5)) (.ofNat 5 (fld w 5 5))) else none
  | 14 => if fld w 0 5 = 0 then some (.div (.ofNat 5 (fld w 15 5)) (.ofNat 5 (fld w 10 5)) (.ofNat 5 (fld w 5 5))) else none
  | 15 => if fld w 0 5 = 0 then some (.divu (.ofNat 5 (fld w 15 5)) (.ofNat 5 (fld w 10 5)) (.ofNat 5 (fld w 5 5))) else none
  | 16 => if fld w 0 5 = 0 then some (.rem (.ofNat 5 (fld w 15 5)) (.ofNat 5 (fld w 10 5)) (.ofNat 5 (fld w 5 5))) else none
  | 17 => if fld w 0 5 = 0 then some (.remu (.ofNat 5 (fld w 15 5)) (.ofNat 5 (fld w 10 5)) (.ofNat 5 (fld w 5 5))) else none
  | 18 => if fld w 0 5 = 0 then some (.min (.ofNat 5 (fld w 15 5)) (.ofNat 5 (fld w 10 5)) (.ofNat 5 (fld w 5 5))) else none
  | 19 => if fld w 0 5 = 0 then some (.max (.ofNat 5 (fld w 15 5)) (.ofNat 5 (fld w 10 5)) (.ofNat 5 (fld w 5 5))) else none
  | 20 => if fld w 0 5 = 0 then some (.minu (.ofNat 5 (fld w 15 5)) (.ofNat 5 (fld w 10 5)) (.ofNat 5 (fld w 5 5))) else none
  | 21 => if fld w 0 5 = 0 then some (.maxu (.ofNat 5 (fld w 15 5)) (.ofNat 5 (fld w 10 5)) (.ofNat 5 (fld w 5 5))) else none
  | 22 => if fld w 0 5 = 0 then some (.slt (.ofNat 5 (fld w 15 5)) (.ofNat 5 (fld w 10 5)) (.ofNat 5 (fld w 5 5))) else none
  | 23 => if fld w 0 5 = 0 then some (.sltu (.ofNat 5 (fld w 15 5)) (.ofNat 5 (fld w 10 5)) (.ofNat 5 (fld w 5 5))) else none
  | 24 => if fld w 0 5 = 0 then some (.seq (.ofNat 5 (fld w 15 5)) (.ofNat 5 (fld w 10 5)) (.ofNat 5 (fld w 5 5))) else none
  | 25 => if fld w 0 5 = 0 then some (.sne (.ofNat 5 (fld w 15 5)) (.ofNat 5 (fld w 10 5)) (.ofNat 5 (fld w 5 5))) else none
  | 26 => if fld w 0 10 = 0 then some (.clz (.ofNat 5 (fld w 15 5)) (.ofNat 5 (fld w 10 5))) else none
  | 27 => if fld w 0 10 = 0 then some (.ctz (.ofNat 5 (fld w 15 5)) (.ofNat 5 (fld w 10 5))) else none
  | 28 => if fld w 0 10 = 0 then some (.popc (.ofNat 5 (fld w 15 5)) (.ofNat 5 (fld w 10 5))) else none
  | 29 => if fld w 0 5 = 0 then some (.bext (.ofNat 5 (fld w 15 5)) (.ofNat 5 (fld w 10 5)) (.ofNat 5 (fld w 5 5))) else none
  | 30 => if fld w 0 5 = 0 then some (.bdep (.ofNat 5 (fld w 15 5)) (.ofNat 5 (fld w 10 5)) (.ofNat 5 (fld w 5 5))) else none
  | 31 => some (.fshl (.ofNat 5 (fld w 15 5)) (.ofNat 5 (fld w 10 5)) (.ofNat 5 (fld w 5 5)) (.ofNat 5 (fld w 0 5)))
  | 32 => some (.fshr (.ofNat 5 (fld w 15 5)) (.ofNat 5 (fld w 10 5)) (.ofNat 5 (fld w 5 5)) (.ofNat 5 (fld w 0 5)))
  | 33 => some (.lut3 (.ofNat 5 (fld w 15 5)) (.ofNat 5 (fld w 10 5)) (.ofNat 5 (fld w 5 5)) (.ofNat 5 (fld w 0 5)) (extTable x))
  | 34 => if fld w 0 5 = 0 then some (.sel (.ofNat 5 (fld w 15 5)) (.ofNat 5 (fld w 10 5)) (.ofNat 5 (fld w 5 5))) else none
  | 35 => if fld w 0 5 = 0 then some (.bset (.ofNat 5 (fld w 15 5)) (.ofNat 5 (fld w 10 5)) (.ofNat 5 (fld w 5 5))) else none
  | 36 => if fld w 0 5 = 0 then some (.bclr (.ofNat 5 (fld w 15 5)) (.ofNat 5 (fld w 10 5)) (.ofNat 5 (fld w 5 5))) else none
  | 37 => if fld w 0 5 = 0 then some (.btst (.ofNat 5 (fld w 15 5)) (.ofNat 5 (fld w 10 5)) (.ofNat 5 (fld w 5 5))) else none
  | _ => none

/-- Class 1, SIM (R44). -/
def decodeSIM (w : Word) (x : Option (BitVec 27)) : Option Instr :=
  match fFN w with
  | 0 => some (.addi (.ofNat 5 (fld w 15 5)) (.ofNat 5 (fld w 10 5)) (.ofNat 10 (fld w 0 10)) x)
  | 1 => some (.andi (.ofNat 5 (fld w 15 5)) (.ofNat 5 (fld w 10 5)) (.ofNat 10 (fld w 0 10)) x)
  | 2 => some (.ori (.ofNat 5 (fld w 15 5)) (.ofNat 5 (fld w 10 5)) (.ofNat 10 (fld w 0 10)) x)
  | 3 => some (.xori (.ofNat 5 (fld w 15 5)) (.ofNat 5 (fld w 10 5)) (.ofNat 10 (fld w 0 10)) x)
  | 4 => some (.slli (.ofNat 5 (fld w 15 5)) (.ofNat 5 (fld w 10 5)) (.ofNat 10 (fld w 0 10)) x)
  | 5 => some (.srli (.ofNat 5 (fld w 15 5)) (.ofNat 5 (fld w 10 5)) (.ofNat 10 (fld w 0 10)) x)
  | 6 => some (.srai (.ofNat 5 (fld w 15 5)) (.ofNat 5 (fld w 10 5)) (.ofNat 10 (fld w 0 10)) x)
  | 7 => some (.rori (.ofNat 5 (fld w 15 5)) (.ofNat 5 (fld w 10 5)) (.ofNat 10 (fld w 0 10)) x)
  | 8 => some (.muli (.ofNat 5 (fld w 15 5)) (.ofNat 5 (fld w 10 5)) (.ofNat 10 (fld w 0 10)) x)
  | 9 => some (.slti (.ofNat 5 (fld w 15 5)) (.ofNat 5 (fld w 10 5)) (.ofNat 10 (fld w 0 10)) x)
  | 10 => some (.sltui (.ofNat 5 (fld w 15 5)) (.ofNat 5 (fld w 10 5)) (.ofNat 10 (fld w 0 10)) x)
  | 11 => some (.seqi (.ofNat 5 (fld w 15 5)) (.ofNat 5 (fld w 10 5)) (.ofNat 10 (fld w 0 10)) x)
  | 12 => if fld w 10 5 = 0 then some (.li (.ofNat 5 (fld w 15 5)) (.ofNat 10 (fld w 0 10)) x) else none
  | 13 => some (.bseti (.ofNat 5 (fld w 15 5)) (.ofNat 5 (fld w 10 5)) (.ofNat 10 (fld w 0 10)) x)
  | 14 => some (.bclri (.ofNat 5 (fld w 15 5)) (.ofNat 5 (fld w 10 5)) (.ofNat 10 (fld w 0 10)) x)
  | 15 => some (.btsti (.ofNat 5 (fld w 15 5)) (.ofNat 5 (fld w 10 5)) (.ofNat 10 (fld w 0 10)) x)
  | 16 => some (.mini (.ofNat 5 (fld w 15 5)) (.ofNat 5 (fld w 10 5)) (.ofNat 10 (fld w 0 10)) x)
  | 17 => some (.maxi (.ofNat 5 (fld w 15 5)) (.ofNat 5 (fld w 10 5)) (.ofNat 10 (fld w 0 10)) x)
  | _ => none

/-- Class 2, SFP (R44). -/
def decodeSFP (w : Word) : Option Instr :=
  match fFN w with
  | 0 => if fld w 2 3 = 0 then some (.fadd (.ofNat 5 (fld w 15 5)) (.ofNat 5 (fld w 10 5)) (.ofNat 5 (fld w 5 5)) (.ofNat 2 (fld w 0 2))) else none
  | 1 => if fld w 2 3 = 0 then some (.fsub (.ofNat 5 (fld w 15 5)) (.ofNat 5 (fld w 10 5)) (.ofNat 5 (fld w 5 5)) (.ofNat 2 (fld w 0 2))) else none
  | 2 => if fld w 2 3 = 0 then some (.fmul (.ofNat 5 (fld w 15 5)) (.ofNat 5 (fld w 10 5)) (.ofNat 5 (fld w 5 5)) (.ofNat 2 (fld w 0 2))) else none
  | 3 => if fld w 2 3 = 0 then some (.fma (.ofNat 5 (fld w 15 5)) (.ofNat 5 (fld w 10 5)) (.ofNat 5 (fld w 5 5)) (.ofNat 2 (fld w 0 2))) else none
  | 4 => if fld w 0 5 = 0 then some (.fmin (.ofNat 5 (fld w 15 5)) (.ofNat 5 (fld w 10 5)) (.ofNat 5 (fld w 5 5))) else none
  | 5 => if fld w 0 5 = 0 then some (.fmax (.ofNat 5 (fld w 15 5)) (.ofNat 5 (fld w 10 5)) (.ofNat 5 (fld w 5 5))) else none
  | 6 => if fld w 0 5 = 0 then some (.fcmpeq (.ofNat 5 (fld w 15 5)) (.ofNat 5 (fld w 10 5)) (.ofNat 5 (fld w 5 5))) else none
  | 7 => if fld w 0 5 = 0 then some (.fcmplt (.ofNat 5 (fld w 15 5)) (.ofNat 5 (fld w 10 5)) (.ofNat 5 (fld w 5 5))) else none
  | 8 => if fld w 0 5 = 0 then some (.fcmple (.ofNat 5 (fld w 15 5)) (.ofNat 5 (fld w 10 5)) (.ofNat 5 (fld w 5 5))) else none
  | 9 => if fld w 2 8 = 0 then some (.fcvti (.ofNat 5 (fld w 15 5)) (.ofNat 5 (fld w 10 5)) (.ofNat 2 (fld w 0 2))) else none
  | 10 => if fld w 2 8 = 0 then some (.fcvtf (.ofNat 5 (fld w 15 5)) (.ofNat 5 (fld w 10 5)) (.ofNat 2 (fld w 0 2))) else none
  | 11 => if fld w 2 3 = 0 then some (.fdiv (.ofNat 5 (fld w 15 5)) (.ofNat 5 (fld w 10 5)) (.ofNat 5 (fld w 5 5)) (.ofNat 2 (fld w 0 2))) else none
  | 12 => if fld w 2 8 = 0 then some (.fsqrt (.ofNat 5 (fld w 15 5)) (.ofNat 5 (fld w 10 5)) (.ofNat 2 (fld w 0 2))) else none
  | _ => none

/-- Class 3, BRA (R44). -/
def decodeBRA (w : Word) : Option Instr :=
  match fFN w with
  | 0 => some (.br (.ofNat 20 (fld w 0 20)))
  | 1 => some (.jal (.ofNat 5 (fld w 15 5)) (.ofNat 15 (fld w 0 15)))
  | 2 => some (.jalr (.ofNat 5 (fld w 15 5)) (.ofNat 5 (fld w 10 5)) (.ofNat 10 (fld w 0 10)))
  | 3 => if fld w 5 5 = 0 ∧ fld w 19 1 = 0 then some (.loop (.ofNat 6 (fld w 18 1 * 32 + fld w 0 5)) (.ofNat 3 (fld w 15 3)) (.ofNat 5 (fld w 10 5))) else none
  | 4 => if fld w 19 1 = 0 then some (.loopi (.ofNat 6 (fld w 18 1 * 32 + fld w 0 5)) (.ofNat 3 (fld w 15 3)) (.ofNat 10 (fld w 5 10))) else none
  | 5 => if fld w 6 4 = 0 ∧ fld w 19 1 = 0 then some (.loopr (.ofNat 6 (fld w 18 1 * 32 + fld w 0 5)) (.ofNat 3 (fld w 15 3)) (.ofNat 5 (fld w 10 5)) (.ofNat 1 (fld w 5 1))) else none
  | 6 => if fld w 0 10 = 0 ∧ fld w 19 1 = 0 then some (.itsetBase (.ofNat 4 (fld w 15 4)) (.ofNat 5 (fld w 10 5))) else if fld w 3 7 = 1 ∧ fld w 19 1 = 0 then some (.itsetStr (.ofNat 4 (fld w 15 4)) (.ofNat 5 (fld w 10 5)) (.ofNat 3 (fld w 0 3))) else none
  | 7 => if fld w 6 4 = 0 ∧ fld w 14 6 = 0 then some (.itrev (.ofNat 4 (fld w 10 4)) (.ofNat 6 (fld w 0 6))) else none
  | 8 => if fld w 14 1 = 0 then some (.itget (.ofNat 5 (fld w 15 5)) (.ofNat 4 (fld w 10 4)) (.ofNat 10 (fld w 0 10))) else none
  | 9 => if fld w 0 10 = 0 ∧ fld w 13 7 = 0 then some (.lbrk (.ofNat 3 (fld w 10 3))) else none
  | 10 => if fld w 0 10 = 0 ∧ fld w 13 2 = 0 then some (.lcnt (.ofNat 5 (fld w 15 5)) (.ofNat 3 (fld w 10 3))) else none
  | _ => none

/-- Class 4, MEM (R44). -/
def decodeMEM (w : Word) (x : Option (BitVec 27)) : Option Instr :=
  match fFN w with
  | 0 => some (.ldb (.ofNat 5 (fld w 15 5)) (.ofNat 5 (fld w 10 5)) (.ofNat 10 (fld w 0 10)) x)
  | 1 => some (.ldh (.ofNat 5 (fld w 15 5)) (.ofNat 5 (fld w 10 5)) (.ofNat 10 (fld w 0 10)) x)
  | 2 => some (.ldw (.ofNat 5 (fld w 15 5)) (.ofNat 5 (fld w 10 5)) (.ofNat 10 (fld w 0 10)) x)
  | 3 => some (.ldd (.ofNat 5 (fld w 15 5)) (.ofNat 5 (fld w 10 5)) (.ofNat 10 (fld w 0 10)) x)
  | 4 => some (.ldbx (.ofNat 5 (fld w 15 5)) (.ofNat 5 (fld w 10 5)) (.ofNat 10 (fld w 0 10)) x)
  | 5 => some (.ldhx (.ofNat 5 (fld w 15 5)) (.ofNat 5 (fld w 10 5)) (.ofNat 10 (fld w 0 10)) x)
  | 6 => some (.ldwx (.ofNat 5 (fld w 15 5)) (.ofNat 5 (fld w 10 5)) (.ofNat 10 (fld w 0 10)) x)
  | 7 => some (.stb (.ofNat 5 (fld w 15 5)) (.ofNat 5 (fld w 10 5)) (.ofNat 10 (fld w 0 10)) x)
  | 8 => some (.sth (.ofNat 5 (fld w 15 5)) (.ofNat 5 (fld w 10 5)) (.ofNat 10 (fld w 0 10)) x)
  | 9 => some (.stw (.ofNat 5 (fld w 15 5)) (.ofNat 5 (fld w 10 5)) (.ofNat 10 (fld w 0 10)) x)
  | 10 => some (.std (.ofNat 5 (fld w 15 5)) (.ofNat 5 (fld w 10 5)) (.ofNat 10 (fld w 0 10)) x)
  | 11 => some (.sld (.ofNat 5 (fld w 15 5)) (.ofNat 5 (fld w 10 5)) (.ofNat 10 (fld w 0 10)) x)
  | 12 => some (.sst (.ofNat 5 (fld w 15 5)) (.ofNat 5 (fld w 10 5)) (.ofNat 10 (fld w 0 10)) x)
  | 13 => if fld w 1 2 = 0 then some (.aadd (.ofNat 5 (fld w 15 5)) (.ofNat 5 (fld w 10 5)) (.ofNat 5 (fld w 5 5)) (.ofNat 2 (fld w 3 2)) (.ofNat 1 (fld w 0 1))) else none
  | 14 => if fld w 1 2 = 0 then some (.amin (.ofNat 5 (fld w 15 5)) (.ofNat 5 (fld w 10 5)) (.ofNat 5 (fld w 5 5)) (.ofNat 2 (fld w 3 2)) (.ofNat 1 (fld w 0 1))) else none
  | 15 => if fld w 1 2 = 0 then some (.aminu (.ofNat 5 (fld w 15 5)) (.ofNat 5 (fld w 10 5)) (.ofNat 5 (fld w 5 5)) (.ofNat 2 (fld w 3 2)) (.ofNat 1 (fld w 0 1))) else none
  | 16 => if fld w 1 2 = 0 then some (.amax (.ofNat 5 (fld w 15 5)) (.ofNat 5 (fld w 10 5)) (.ofNat 5 (fld w 5 5)) (.ofNat 2 (fld w 3 2)) (.ofNat 1 (fld w 0 1))) else none
  | 17 => if fld w 1 2 = 0 then some (.amaxu (.ofNat 5 (fld w 15 5)) (.ofNat 5 (fld w 10 5)) (.ofNat 5 (fld w 5 5)) (.ofNat 2 (fld w 3 2)) (.ofNat 1 (fld w 0 1))) else none
  | 18 => if fld w 1 2 = 0 then some (.aand (.ofNat 5 (fld w 15 5)) (.ofNat 5 (fld w 10 5)) (.ofNat 5 (fld w 5 5)) (.ofNat 2 (fld w 3 2)) (.ofNat 1 (fld w 0 1))) else none
  | 19 => if fld w 1 2 = 0 then some (.aor (.ofNat 5 (fld w 15 5)) (.ofNat 5 (fld w 10 5)) (.ofNat 5 (fld w 5 5)) (.ofNat 2 (fld w 3 2)) (.ofNat 1 (fld w 0 1))) else none
  | 20 => if fld w 1 2 = 0 then some (.axor (.ofNat 5 (fld w 15 5)) (.ofNat 5 (fld w 10 5)) (.ofNat 5 (fld w 5 5)) (.ofNat 2 (fld w 3 2)) (.ofNat 1 (fld w 0 1))) else none
  | 21 => if fld w 1 2 = 0 then some (.aswp (.ofNat 5 (fld w 15 5)) (.ofNat 5 (fld w 10 5)) (.ofNat 5 (fld w 5 5)) (.ofNat 2 (fld w 3 2)) (.ofNat 1 (fld w 0 1))) else none
  | 22 => some (.acas (.ofNat 5 (fld w 15 5)) (.ofNat 5 (fld w 10 5)) (.ofNat 5 (fld w 5 5)) (.ofNat 2 (fld w 3 2)) (.ofNat 2 (fld w 1 2)) (.ofNat 1 (fld w 0 1)))
  | _ => none

/-- Class 5, VIN (R44). -/
def decodeVIN (w : Word) (x : Option (BitVec 27)) : Option Instr :=
  match fFN w with
  | 0 => some (.vadd (.ofNat 5 (fld w 15 5)) (.ofNat 5 (fld w 10 5)) (.ofNat 5 (fld w 5 5)) (.ofNat 2 (fld w 3 2)) (.ofNat 3 (fld w 0 3)))
  | 1 => some (.vsub (.ofNat 5 (fld w 15 5)) (.ofNat 5 (fld w 10 5)) (.ofNat 5 (fld w 5 5)) (.ofNat 2 (fld w 3 2)) (.ofNat 3 (fld w 0 3)))
  | 2 => some (.vmul (.ofNat 5 (fld w 15 5)) (.ofNat 5 (fld w 10 5)) (.ofNat 5 (fld w 5 5)) (.ofNat 2 (fld w 3 2)) (.ofNat 3 (fld w 0 3)))
  | 3 => some (.vmulh (.ofNat 5 (fld w 15 5)) (.ofNat 5 (fld w 10 5)) (.ofNat 5 (fld w 5 5)) (.ofNat 2 (fld w 3 2)) (.ofNat 3 (fld w 0 3)))
  | 4 => some (.vand (.ofNat 5 (fld w 15 5)) (.ofNat 5 (fld w 10 5)) (.ofNat 5 (fld w 5 5)) (.ofNat 2 (fld w 3 2)) (.ofNat 3 (fld w 0 3)))
  | 5 => some (.vor (.ofNat 5 (fld w 15 5)) (.ofNat 5 (fld w 10 5)) (.ofNat 5 (fld w 5 5)) (.ofNat 2 (fld w 3 2)) (.ofNat 3 (fld w 0 3)))
  | 6 => some (.vxor (.ofNat 5 (fld w 15 5)) (.ofNat 5 (fld w 10 5)) (.ofNat 5 (fld w 5 5)) (.ofNat 2 (fld w 3 2)) (.ofNat 3 (fld w 0 3)))
  | 7 => some (.vsll (.ofNat 5 (fld w 15 5)) (.ofNat 5 (fld w 10 5)) (.ofNat 5 (fld w 5 5)) (.ofNat 2 (fld w 3 2)) (.ofNat 3 (fld w 0 3)))
  | 8 => some (.vsrl (.ofNat 5 (fld w 15 5)) (.ofNat 5 (fld w 10 5)) (.ofNat 5 (fld w 5 5)) (.ofNat 2 (fld w 3 2)) (.ofNat 3 (fld w 0 3)))
  | 9 => some (.vsra (.ofNat 5 (fld w 15 5)) (.ofNat 5 (fld w 10 5)) (.ofNat 5 (fld w 5 5)) (.ofNat 2 (fld w 3 2)) (.ofNat 3 (fld w 0 3)))
  | 10 => some (.vmin (.ofNat 5 (fld w 15 5)) (.ofNat 5 (fld w 10 5)) (.ofNat 5 (fld w 5 5)) (.ofNat 2 (fld w 3 2)) (.ofNat 3 (fld w 0 3)))
  | 11 => some (.vmax (.ofNat 5 (fld w 15 5)) (.ofNat 5 (fld w 10 5)) (.ofNat 5 (fld w 5 5)) (.ofNat 2 (fld w 3 2)) (.ofNat 3 (fld w 0 3)))
  | 12 => some (.vcmpeq (.ofNat 5 (fld w 15 5)) (.ofNat 5 (fld w 10 5)) (.ofNat 5 (fld w 5 5)) (.ofNat 2 (fld w 3 2)) (.ofNat 3 (fld w 0 3)))
  | 13 => some (.vcmplt (.ofNat 5 (fld w 15 5)) (.ofNat 5 (fld w 10 5)) (.ofNat 5 (fld w 5 5)) (.ofNat 2 (fld w 3 2)) (.ofNat 3 (fld w 0 3)))
  | 14 => some (.vcmple (.ofNat 5 (fld w 15 5)) (.ofNat 5 (fld w 10 5)) (.ofNat 5 (fld w 5 5)) (.ofNat 2 (fld w 3 2)) (.ofNat 3 (fld w 0 3)))
  | 15 => some (.vsel (.ofNat 5 (fld w 15 5)) (.ofNat 5 (fld w 10 5)) (.ofNat 5 (fld w 5 5)) (.ofNat 2 (fld w 3 2)) (.ofNat 3 (fld w 0 3)))
  | 16 => some (.vlut3 (.ofNat 5 (fld w 15 5)) (.ofNat 5 (fld w 10 5)) (.ofNat 5 (fld w 5 5)) (.ofNat 2 (fld w 3 2)) (.ofNat 3 (fld w 0 3)) (extTable x))
  | 17 => some (.vfshl (.ofNat 5 (fld w 15 5)) (.ofNat 5 (fld w 10 5)) (.ofNat 5 (fld w 5 5)) (.ofNat 2 (fld w 3 2)) (.ofNat 3 (fld w 0 3)))
  | 18 => if fld w 3 7 = 0 then some (.vpopc (.ofNat 5 (fld w 15 5)) (.ofNat 5 (fld w 10 5)) (.ofNat 3 (fld w 0 3))) else none
  | 19 => if fld w 3 7 = 0 then some (.vclz (.ofNat 5 (fld w 15 5)) (.ofNat 5 (fld w 10 5)) (.ofNat 3 (fld w 0 3))) else none
  | 20 => if fld w 3 2 = 0 ∧ fld w 6 4 = 0 then some (.vredadd (.ofNat 5 (fld w 15 5)) (.ofNat 5 (fld w 10 5)) (.ofNat 1 (fld w 5 1)) (.ofNat 3 (fld w 0 3))) else none
  | 21 => if fld w 3 2 = 0 ∧ fld w 6 4 = 0 then some (.vredmax (.ofNat 5 (fld w 15 5)) (.ofNat 5 (fld w 10 5)) (.ofNat 1 (fld w 5 1)) (.ofNat 3 (fld w 0 3))) else none
  | 22 => if fld w 3 2 = 0 ∧ fld w 6 4 = 0 then some (.vredmin (.ofNat 5 (fld w 15 5)) (.ofNat 5 (fld w 10 5)) (.ofNat 1 (fld w 5 1)) (.ofNat 3 (fld w 0 3))) else none
  | 23 => if fld w 4 1 = 1 then some (.vsplat (.ofNat 5 (fld w 15 5)) (.ofNat 5 (fld w 10 5)) (.ofNat 5 (fld w 5 5)) (.ofNat 1 (fld w 3 1)) (.ofNat 3 (fld w 0 3))) else none
  | 24 => some (.vmov (.ofNat 5 (fld w 15 5)) (.ofNat 5 (fld w 10 5)) (.ofNat 5 (fld w 5 5)) (.ofNat 2 (fld w 3 2)) (.ofNat 3 (fld w 0 3)))
  | 25 => if fld w 3 2 = 0 then some (.vdot8 (.ofNat 5 (fld w 15 5)) (.ofNat 5 (fld w 10 5)) (.ofNat 5 (fld w 5 5)) (.ofNat 3 (fld w 0 3))) else none
  | _ => none

/-- Class 6, VFP (R44). -/
def decodeVFP (w : Word) (x : Option (BitVec 27)) : Option Instr :=
  match fFN w with
  | 0 => some (.vfadd (.ofNat 5 (fld w 15 5)) (.ofNat 5 (fld w 10 5)) (.ofNat 5 (fld w 5 5)) (.ofNat 2 (fld w 3 2)) (.ofNat 3 (fld w 0 3)))
  | 1 => some (.vfsub (.ofNat 5 (fld w 15 5)) (.ofNat 5 (fld w 10 5)) (.ofNat 5 (fld w 5 5)) (.ofNat 2 (fld w 3 2)) (.ofNat 3 (fld w 0 3)))
  | 2 => some (.vfmul (.ofNat 5 (fld w 15 5)) (.ofNat 5 (fld w 10 5)) (.ofNat 5 (fld w 5 5)) (.ofNat 2 (fld w 3 2)) (.ofNat 3 (fld w 0 3)))
  | 3 => some (.vfma (.ofNat 5 (fld w 15 5)) (.ofNat 5 (fld w 10 5)) (.ofNat 5 (fld w 5 5)) (.ofNat 2 (fld w 3 2)) (.ofNat 3 (fld w 0 3)))
  | 4 => some (.vfmax (.ofNat 5 (fld w 15 5)) (.ofNat 5 (fld w 10 5)) (.ofNat 5 (fld w 5 5)) (.ofNat 2 (fld w 3 2)) (.ofNat 3 (fld w 0 3)))
  | 5 => some (.vfmin (.ofNat 5 (fld w 15 5)) (.ofNat 5 (fld w 10 5)) (.ofNat 5 (fld w 5 5)) (.ofNat 2 (fld w 3 2)) (.ofNat 3 (fld w 0 3)))
  | 6 => some (.vfcmpeq (.ofNat 5 (fld w 15 5)) (.ofNat 5 (fld w 10 5)) (.ofNat 5 (fld w 5 5)) (.ofNat 2 (fld w 3 2)) (.ofNat 3 (fld w 0 3)))
  | 7 => some (.vfcmplt (.ofNat 5 (fld w 15 5)) (.ofNat 5 (fld w 10 5)) (.ofNat 5 (fld w 5 5)) (.ofNat 2 (fld w 3 2)) (.ofNat 3 (fld w 0 3)))
  | 8 => some (.vfcmple (.ofNat 5 (fld w 15 5)) (.ofNat 5 (fld w 10 5)) (.ofNat 5 (fld w 5 5)) (.ofNat 2 (fld w 3 2)) (.ofNat 3 (fld w 0 3)))
  | 9 => if fld w 0 10 = 0 then some (.vcvt (.ofNat 5 (fld w 15 5)) (.ofNat 5 (fld w 10 5)) (extFld x 0 3) (extFld x 3 3) (extFld x 6 3) (extFld x 9 3) (extFld x 12 8)) else none
  | 10 => if fld w 3 2 = 0 ∧ fld w 6 4 = 0 then some (.vfredsum (.ofNat 5 (fld w 15 5)) (.ofNat 5 (fld w 10 5)) (.ofNat 1 (fld w 5 1)) (.ofNat 3 (fld w 0 3))) else none
  | 11 => if fld w 3 2 = 0 ∧ fld w 6 4 = 0 then some (.vfredmax (.ofNat 5 (fld w 15 5)) (.ofNat 5 (fld w 10 5)) (.ofNat 1 (fld w 5 1)) (.ofNat 3 (fld w 0 3))) else none
  | 12 => if fld w 3 7 = 0 then some (.vexp2 (.ofNat 5 (fld w 15 5)) (.ofNat 5 (fld w 10 5)) (.ofNat 3 (fld w 0 3))) else none
  | 13 => if fld w 3 7 = 0 then some (.vlog2 (.ofNat 5 (fld w 15 5)) (.ofNat 5 (fld w 10 5)) (.ofNat 3 (fld w 0 3))) else none
  | 14 => if fld w 3 7 = 0 then some (.vrcp (.ofNat 5 (fld w 15 5)) (.ofNat 5 (fld w 10 5)) (.ofNat 3 (fld w 0 3))) else none
  | 15 => if fld w 3 7 = 0 then some (.vrsq (.ofNat 5 (fld w 15 5)) (.ofNat 5 (fld w 10 5)) (.ofNat 3 (fld w 0 3))) else none
  | 16 => if fld w 3 7 = 0 then some (.vsint (.ofNat 5 (fld w 15 5)) (.ofNat 5 (fld w 10 5)) (.ofNat 3 (fld w 0 3))) else none
  | 17 => if fld w 3 7 = 0 then some (.vcost (.ofNat 5 (fld w 15 5)) (.ofNat 5 (fld w 10 5)) (.ofNat 3 (fld w 0 3))) else none
  | 18 => if fld w 3 7 = 0 then some (.vtanh (.ofNat 5 (fld w 15 5)) (.ofNat 5 (fld w 10 5)) (.ofNat 3 (fld w 0 3))) else none
  | 19 => if fld w 4 1 = 1 then some (.rngk (.ofNat 5 (fld w 15 5)) (.ofNat 5 (fld w 10 5)) (.ofNat 5 (fld w 5 5)) (.ofNat 1 (fld w 3 1)) (.ofNat 3 (fld w 0 3))) else none
  | 20 => if fld w 4 1 = 1 then some (.gumb (.ofNat 5 (fld w 15 5)) (.ofNat 5 (fld w 10 5)) (.ofNat 5 (fld w 5 5)) (.ofNat 1 (fld w 3 1)) (.ofNat 3 (fld w 0 3))) else none
  | 21 => if fld w 4 1 = 0 then some (.topk (.ofNat 5 (fld w 15 5)) (.ofNat 5 (fld w 10 5)) (.ofNat 5 (fld w 5 5)) (.ofNat 1 (fld w 3 1)) (.ofNat 3 (fld w 0 3))) else none
  | 22 => if fld w 4 1 = 0 then some (.vscale (.ofNat 5 (fld w 15 5)) (.ofNat 5 (fld w 10 5)) (.ofNat 5 (fld w 5 5)) (.ofNat 1 (fld w 3 1)) (.ofNat 3 (fld w 0 3))) else none
  | 23 => if fld w 3 7 = 0 then some (.vfabs (.ofNat 5 (fld w 15 5)) (.ofNat 5 (fld w 10 5)) (.ofNat 3 (fld w 0 3))) else none
  | 24 => if fld w 3 7 = 0 then some (.vfneg (.ofNat 5 (fld w 15 5)) (.ofNat 5 (fld w 10 5)) (.ofNat 3 (fld w 0 3))) else none
  | _ => none

/-- Class 7, VCM (R44). -/
def decodeVCM (w : Word) : Option Instr :=
  match fFN w with
  | 0 => if fld w 0 10 = 0 then some (.cmset (.ofNat 5 (fld w 15 5)) (.ofNat 5 (fld w 10 5))) else none
  | 1 => if fld w 0 10 = 0 then some (.cmget (.ofNat 5 (fld w 15 5)) (.ofNat 5 (fld w 10 5))) else none
  | 2 => if fld w 0 5 = 0 then some (.cmslc (.ofNat 5 (fld w 15 5)) (.ofNat 5 (fld w 10 5)) (.ofNat 5 (fld w 5 5))) else none
  | 3 => if fld w 0 10 = 0 then some (.cmtrn (.ofNat 5 (fld w 15 5)) (.ofNat 5 (fld w 10 5))) else none
  | 4 => if fld w 1 9 = 0 then some (.cmrev (.ofNat 5 (fld w 15 5)) (.ofNat 5 (fld w 10 5)) (.ofNat 1 (fld w 0 1))) else none
  | 5 => if fld w 0 10 = 0 then some (.cmcpy (.ofNat 5 (fld w 15 5)) (.ofNat 5 (fld w 10 5))) else none
  | 6 => if fld w 0 15 = 0 then some (.cmclr (.ofNat 5 (fld w 15 5))) else none
  | 7 => if fld w 2 3 = 0 then some (.vcrd (.ofNat 5 (fld w 15 5)) (.ofNat 5 (fld w 10 5)) (.ofNat 5 (fld w 5 5)) (.ofNat 2 (fld w 0 2))) else none
  | 8 => if fld w 4 1 = 0 then some (.vrope (.ofNat 5 (fld w 15 5)) (.ofNat 5 (fld w 10 5)) (.ofNat 5 (fld w 5 5)) (.ofNat 1 (fld w 3 1)) (.ofNat 3 (fld w 0 3))) else none
  | 9 => if fld w 3 2 = 0 then some (.vshuf (.ofNat 5 (fld w 15 5)) (.ofNat 5 (fld w 10 5)) (.ofNat 5 (fld w 5 5)) (.ofNat 3 (fld w 0 3))) else none
  | 10 => if fld w 4 1 = 1 then some (.vrot (.ofNat 5 (fld w 15 5)) (.ofNat 5 (fld w 10 5)) (.ofNat 5 (fld w 5 5)) (.ofNat 1 (fld w 3 1)) (.ofNat 3 (fld w 0 3))) else none
  | 11 => if fld w 0 5 = 0 then some (.cmtst (.ofNat 5 (fld w 15 5)) (.ofNat 5 (fld w 10 5)) (.ofNat 5 (fld w 5 5))) else none
  | 12 => if fld w 3 2 = 2 then some (.vshfl (.ofNat 5 (fld w 15 5)) (.ofNat 5 (fld w 10 5)) (.ofNat 5 (fld w 5 5)) (.ofNat 3 (fld w 0 3))) else none
  | _ => none

/-- Class 8, VMM (R44). -/
def decodeVMM (w : Word) : Option Instr :=
  match fFN w with
  | 0 => if fld w 0 5 = 0 ∧ fld w 13 2 = 0 then some (.vld (.ofNat 5 (fld w 15 5)) (.ofNat 3 (fld w 10 3)) (.ofNat 5 (fld w 5 5))) else none
  | 1 => if fld w 0 5 = 0 ∧ fld w 13 2 = 0 then some (.vst (.ofNat 5 (fld w 15 5)) (.ofNat 3 (fld w 10 3)) (.ofNat 5 (fld w 5 5))) else none
  | 2 => if fld w 0 5 = 0 ∧ fld w 13 2 = 0 then some (.vldc (.ofNat 5 (fld w 15 5)) (.ofNat 3 (fld w 10 3)) (.ofNat 5 (fld w 5 5))) else none
  | 3 => if fld w 0 5 = 0 ∧ fld w 13 2 = 0 then some (.vstc (.ofNat 5 (fld w 15 5)) (.ofNat 3 (fld w 10 3)) (.ofNat 5 (fld w 5 5))) else none
  | 4 => if fld w 13 2 = 0 then some (.vgath (.ofNat 5 (fld w 15 5)) (.ofNat 3 (fld w 10 3)) (.ofNat 5 (fld w 5 5)) (.ofNat 5 (fld w 0 5))) else none
  | 5 => if fld w 13 2 = 0 then some (.vscat (.ofNat 5 (fld w 15 5)) (.ofNat 3 (fld w 10 3)) (.ofNat 5 (fld w 5 5)) (.ofNat 5 (fld w 0 5))) else none
  | 6 => if fld w 3 2 = 0 then some (.vcomp (.ofNat 5 (fld w 15 5)) (.ofNat 5 (fld w 10 5)) (.ofNat 5 (fld w 5 5)) (.ofNat 3 (fld w 0 3))) else none
  | 7 => if fld w 0 5 = 0 ∧ fld w 18 2 = 0 then some (.rgld (.ofNat 3 (fld w 15 3)) (.ofNat 5 (fld w 10 5)) (.ofNat 5 (fld w 5 5))) else none
  | 8 => if fld w 0 10 = 0 then some (.tagq (.ofNat 5 (fld w 15 5)) (.ofNat 5 (fld w 10 5))) else none
  | 9 => if fld w 0 5 = 0 ∧ fld w 15 5 = 0 then some (.tagset (.ofNat 5 (fld w 10 5)) (.ofNat 5 (fld w 5 5))) else none
  | 10 => if fld w 0 10 = 0 ∧ fld w 15 5 = 0 then some (.tagclr (.ofNat 5 (fld w 10 5))) else none
  | 11 => if fld w 0 5 = 1 ∧ fld w 15 5 = 0 then some (.guardSet (.ofNat 5 (fld w 10 5)) (.ofNat 5 (fld w 5 5))) else if fld w 0 5 = 0 ∧ fld w 15 5 = 0 then some (.guardClr (.ofNat 5 (fld w 10 5)) (.ofNat 5 (fld w 5 5))) else none
  | _ => none

/-- Class 9, MTX (R44). -/
def decodeMTX (w : Word) : Option Instr :=
  match fFN w with
  | 0 => if fld w 10 10 = 0 then some (.mcall (.ofNat 10 (fld w 0 10))) else none
  | 1 => if fld w 0 10 = 0 ∧ fld w 18 2 = 0 then some (.mparm (.ofNat 3 (fld w 15 3)) (.ofNat 5 (fld w 10 5))) else none
  | 2 => if fld w 0 15 = 0 ∧ fld w 18 2 = 0 then some (.mzero (.ofNat 3 (fld w 15 3))) else none
  | 3 => if fld w 0 15 = 0 ∧ fld w 18 2 = 0 then some (.mrel (.ofNat 3 (fld w 15 3))) else none
  | 4 => if fld w 0 5 = 0 ∧ fld w 13 2 = 0 ∧ fld w 18 2 = 0 then some (.mlda (.ofNat 3 (fld w 15 3)) (.ofNat 3 (fld w 10 3)) (.ofNat 5 (fld w 5 5))) else none
  | 5 => if fld w 3 2 = 0 ∧ fld w 13 2 = 0 ∧ fld w 18 2 = 0 then some (.msta (.ofNat 3 (fld w 15 3)) (.ofNat 3 (fld w 10 3)) (.ofNat 5 (fld w 5 5)) (.ofNat 3 (fld w 0 3))) else none
  | 6 => if fld w 0 5 = 0 ∧ fld w 15 5 = 0 then some (.mwr (.ofNat 5 (fld w 10 5)) (.ofNat 5 (fld w 5 5))) else none
  | 7 => if fld w 0 10 = 0 then some (.mrd (.ofNat 5 (fld w 15 5)) (.ofNat 5 (fld w 10 5))) else none
  | 8 => if fld w 0 10 = 0 ∧ fld w 15 5 = 0 then some (.mbgrp (.ofNat 5 (fld w 10 5))) else none
  | 9 => if fld w 3 17 = 0 then some (.mwait (.ofNat 3 (fld w 0 3))) else none
  | _ => none

/-- Class 10, CPE (R44). -/
def decodeCPE (w : Word) : Option Instr :=
  match fFN w with
  | 0 => if fld w 17 3 = 0 then some (.cpy (.ofNat 2 (fld w 15 2)) (.ofNat 5 (fld w 10 5)) (.ofNat 5 (fld w 5 5)) (.ofNat 5 (fld w 0 5))) else none
  | 1 => if fld w 17 3 = 0 then some (.cpyp (.ofNat 2 (fld w 15 2)) (.ofNat 5 (fld w 10 5)) (.ofNat 5 (fld w 5 5)) (.ofNat 5 (fld w 0 5))) else none
  | 2 => if fld w 5 5 = 0 ∧ fld w 17 3 = 0 then some (.cpfill (.ofNat 2 (fld w 15 2)) (.ofNat 5 (fld w 10 5)) (.ofNat 5 (fld w 0 5))) else none
  | 3 => if fld w 4 16 = 0 then some (.cpqf (.ofNat 4 (fld w 0 4))) else none
  | 4 => if fld w 17 3 = 0 then some (.cpyz (.ofNat 2 (fld w 15 2)) (.ofNat 5 (fld w 10 5)) (.ofNat 5 (fld w 5 5)) (.ofNat 5 (fld w 0 5))) else none
  | 5 => if fld w 0 5 = 0 then some (.awset (.ofNat 5 (fld w 15 5)) (.ofNat 5 (fld w 10 5)) (.ofNat 5 (fld w 5 5))) else none
  | 6 => if fld w 0 10 = 0 ∧ fld w 12 3 = 0 then some (.cpst (.ofNat 5 (fld w 15 5)) (.ofNat 2 (fld w 10 2))) else none
  | 7 => if fld w 0 5 = 0 then some (.clapp (.ofNat 5 (fld w 15 5)) (.ofNat 5 (fld w 10 5)) (.ofNat 5 (fld w 5 5))) else none
  | 8 => some (.clshr (.ofNat 5 (fld w 15 5)) (.ofNat 5 (fld w 10 5)) (.ofNat 5 (fld w 5 5)) (.ofNat 5 (fld w 0 5)))
  | 9 => if fld w 0 5 = 0 then some (.seamtag (.ofNat 5 (fld w 15 5)) (.ofNat 5 (fld w 10 5)) (.ofNat 5 (fld w 5 5))) else none
  | 10 => if fld w 1 4 = 0 then some (.seamret (.ofNat 5 (fld w 15 5)) (.ofNat 5 (fld w 10 5)) (.ofNat 5 (fld w 5 5)) (.ofNat 1 (fld w 0 1))) else none
  | 11 => some (.hbudg (.ofNat 5 (fld w 15 5)) (.ofNat 5 (fld w 10 5)) (.ofNat 5 (fld w 5 5)) (.ofNat 5 (fld w 0 5)))
  | _ => none

/-- Class 11, FRN (R44). -/
def decodeFRN (w : Word) : Option Instr :=
  match fFN w with
  | 0 => if fld w 0 10 = 0 ∧ fld w 17 3 = 0 then some (.fcfg (.ofNat 2 (fld w 15 2)) (.ofNat 5 (fld w 10 5))) else none
  | 1 => if fld w 18 2 = 0 then some (.fins (.ofNat 1 (fld w 17 1)) (.ofNat 2 (fld w 15 2)) (.ofNat 5 (fld w 10 5)) (.ofNat 5 (fld w 5 5)) (.ofNat 5 (fld w 0 5))) else none
  | 2 => if fld w 0 10 = 0 ∧ fld w 12 3 = 0 ∧ fld w 17 3 = 0 then some (.fmerge (.ofNat 2 (fld w 15 2)) (.ofNat 2 (fld w 10 2))) else none
  | 3 => if fld w 0 10 = 0 ∧ fld w 12 3 = 0 then some (.fread (.ofNat 5 (fld w 15 5)) (.ofNat 2 (fld w 10 2))) else none
  | 4 => if fld w 0 10 = 0 ∧ fld w 12 3 = 0 then some (.fcnt (.ofNat 5 (fld w 15 5)) (.ofNat 2 (fld w 10 2))) else none
  | 5 => if fld w 0 15 = 0 ∧ fld w 17 3 = 0 then some (.fclr (.ofNat 2 (fld w 15 2))) else none
  | 6 => if fld w 0 5 = 0 ∧ fld w 12 8 = 0 then some (.fsave (.ofNat 2 (fld w 10 2)) (.ofNat 5 (fld w 5 5))) else none
  | 7 => if fld w 0 5 = 0 ∧ fld w 10 5 = 0 ∧ fld w 17 3 = 0 then some (.fload (.ofNat 2 (fld w 15 2)) (.ofNat 5 (fld w 5 5))) else none
  | _ => none

/-- Class 12, SYN (R44). -/
def decodeSYN (w : Word) : Option Instr :=
  match fFN w with
  | 0 => if fld w 0 20 = 0 then some (.phase) else none
  | 1 => if fld w 3 12 = 0 then some (.fence (.ofNat 5 (fld w 15 5)) (.ofNat 3 (fld w 0 3))) else none
  | 2 => if fld w 0 5 = 0 ∧ fld w 15 5 = 0 then some (.await (.ofNat 5 (fld w 10 5)) (.ofNat 5 (fld w 5 5))) else none
  | 3 => if fld w 2 8 = 0 ∧ fld w 15 5 = 0 then some (.barg (.ofNat 5 (fld w 10 5)) (.ofNat 2 (fld w 0 2))) else none
  | 4 => if fld w 2 8 = 0 ∧ fld w 15 5 = 0 then some (.bard (.ofNat 5 (fld w 10 5)) (.ofNat 2 (fld w 0 2))) else none
  | 5 => if fld w 1 9 = 0 then some (.enq (.ofNat 5 (fld w 15 5)) (.ofNat 5 (fld w 10 5)) (.ofNat 1 (fld w 0 1))) else none
  | 6 => if fld w 0 10 = 0 then some (.deq (.ofNat 5 (fld w 15 5)) (.ofNat 5 (fld w 10 5))) else none
  | 7 => if fld w 0 20 = 0 then some (.retire) else none
  | 8 => if fld w 0 20 = 0 then some (.yield) else none
  | 9 => if fld w 0 10 = 0 ∧ fld w 15 5 = 0 then some (.sleept (.ofNat 5 (fld w 10 5))) else none
  | 10 => if fld w 0 15 = 0 then some (.time (.ofNat 5 (fld w 15 5))) else none
  | _ => none

/-- Class 13, SYS (R44). -/
def decodeSYS (w : Word) : Option Instr :=
  match fFN w with
  | 0 => if fld w 10 10 = 0 then some (.trap (.ofNat 10 (fld w 0 10))) else none
  | 1 => if fld w 1 19 = 0 then some (.eret (.ofNat 1 (fld w 0 1))) else none
  | 2 => if fld w 12 3 = 0 then some (.csrr (.ofNat 5 (fld w 15 5)) (.ofNat 12 (fld w 0 12))) else none
  | 3 => if fld w 12 3 = 0 then some (.csrw (.ofNat 5 (fld w 15 5)) (.ofNat 12 (fld w 0 12))) else none
  | 4 => if fld w 12 3 = 0 then some (.csrs (.ofNat 5 (fld w 15 5)) (.ofNat 12 (fld w 0 12))) else none
  | 5 => if fld w 12 3 = 0 then some (.csrc (.ofNat 5 (fld w 15 5)) (.ofNat 12 (fld w 0 12))) else none
  | 6 => if fld w 0 15 = 0 then some (.rngp (.ofNat 5 (fld w 15 5))) else none
  | 7 => if fld w 0 5 = 0 ∧ fld w 15 5 = 0 then some (.ipf (.ofNat 5 (fld w 10 5)) (.ofNat 5 (fld w 5 5))) else none
  | 8 => if fld w 0 5 = 0 ∧ fld w 15 5 = 0 then some (.fmtt (.ofNat 5 (fld w 10 5)) (.ofNat 5 (fld w 5 5))) else if fld w 0 5 = 1 ∧ fld w 10 10 = 0 then some (.fmttAll (.ofNat 5 (fld w 5 5))) else none
  | 9 => if fld w 7 3 = 0 ∧ fld w 15 5 = 0 then some (.gset (.ofNat 5 (fld w 10 5)) (.ofNat 6 (fld w 1 6)) (.ofNat 1 (fld w 0 1))) else none
  | 10 => if fld w 0 15 = 0 then some (.flagr (.ofNat 5 (fld w 15 5))) else none
  | 11 => if fld w 15 5 = 0 then some (.flagc (.ofNat 8 (fld w 7 8)) (.ofNat 7 (fld w 0 7))) else none
  | 12 => if fld w 0 20 = 0 then some (.nop) else if fld w 0 20 = 1 then some (.nopBench) else none
  | _ => none

/-- The instruction of a slot word and its extension payload; none where a field holds a value that the entry
does not allow or the function is not assigned. An extension word that the entry forbids, or the lack of one it
requires, gives none as well (R26). -/
def decodeSlot (w : Word) (x : Option (BitVec 27)) : Option Instr :=
  if (extRule (fOC w) (fFN w) = .forbidden ∧ x ≠ none) ∨ (extRule (fOC w) (fFN w) = .required ∧ x = none)
      ∨ rsvBad w x then none
  else match fOC w with
  | 0 => decodeSIA w x
  | 1 => decodeSIM w x
  | 2 => decodeSFP w
  | 3 => decodeBRA w
  | 4 => decodeMEM w x
  | 5 => decodeVIN w x
  | 6 => decodeVFP w x
  | 7 => decodeVCM w
  | 8 => decodeVMM w
  | 9 => decodeMTX w
  | 10 => decodeCPE w
  | 11 => decodeFRN w
  | 12 => decodeSYN w
  | 13 => decodeSYS w
  | _ => none

/-- A slot as the decoder reads it: the instruction with its guard bit. -/
structure Slot where
  slot : Nat
  q : Bool
  instr : Instr
deriving DecidableEq, Repr

/-! ### Slots, ports (R25, R27) -/

/-- Whether a slot takes the class and function (R25). `x` says that the word carries an extension word. -/
def slotAllows (slot oc fn : Nat) (x : Bool) : Bool :=
  match slot with
  | 0 => oc < 3
  | 1 => oc < 4 && !(oc = 0 && fn = 33) && !(oc = 1 && x)
  | 2 => (oc = 5 || (oc = 6 && !((12 ≤ fn && fn ≤ 21))) || oc = 7)
  | 3 => (oc = 5 && fn != 16) || (oc = 6 && fn != 9) || oc = 7 || oc = 11
  | 4 => oc = 4 || oc = 8
  | 5 => oc = 9
  | 6 => oc = 10
  | 7 => oc = 12 || oc = 13
  | _ => false

/-- The slot on which a portable instruction runs: the lowest that R25 allows (R37). -/
def homeSlot (oc fn : Nat) (x : Bool) : Nat :=
  ((List.range 8).find? (fun s => slotAllows s oc fn x)).getD 7

/-- Whether the operand B of a class 5-7 word is of kind GREG and so draws a port (R35; R128, R163, R170, R171). -/
def kindGreg (w : Word) : Bool :=
  (fOC w = 5 && fld w 3 2 = 2 && (fFN w < 18 || fFN w = 23 || fFN w = 24))
  || (fOC w = 6 && fld w 3 2 = 2 && (fFN w < 9 || fFN w = 19 || fFN w = 20))
  || (fOC w = 7 && fld w 3 2 = 2 && (fFN w = 10 || fFN w = 12))

/-- The shared read ports that a slot word demands (R27 and each entry). -/
def readDemand (w : Word) : Nat :=
  let fn := fFN w
  match fOC w with
  | 4 => if fn < 7 then 1 else if fn < 11 then 2 else if fn = 11 then 1 else if fn = 12 then 2
         else if fn = 22 then 3 else 2
  | 5 => if kindGreg w then 1 else 0
  | 6 => if kindGreg w then 1 else 0
  | 7 => if fn = 2 then 1 else if kindGreg w then 1 else 0
  | 8 => if fn < 6 then 1 else if fn = 6 then 0 else if fn = 7 then 2 else if fn = 8 then 1
         else if fn = 9 then 2 else if fn = 10 then 1 else 2
  | 9 => if fn = 1 ∨ fn = 4 ∨ fn = 5 ∨ fn = 7 ∨ fn = 8 then 1 else if fn = 6 then 2 else 0
  | 10 => if fn < 2 then 3 else if fn = 2 then 2 else if fn = 3 then 0 else if fn = 4 then 3 else if fn = 5 then 2
          else if fn = 6 then 0 else if fn = 7 then 2 else if fn = 8 then 3 else if fn = 11 then 3 else 2
  | 11 => if fn = 0 ∨ fn = 1 ∨ fn = 6 ∨ fn = 7 then 1 else 0
  | 12 => if fn = 2 then 2 else if fn = 3 ∨ fn = 4 ∨ fn = 5 ∨ fn = 9 then 1 else 0
  | 13 => if fn = 3 ∨ fn = 4 ∨ fn = 5 then 1 else if fn = 7 then 2
          else if fn = 8 then (if fld w 0 1 = 1 then 1 else 2) else 0
  | _ => 0

/-- The shared write ports that a slot word demands (R27 and each entry). -/
def writeDemand (w : Word) : Nat :=
  let fn := fFN w
  match fOC w with
  | 4 => if fn < 7 ∨ fn = 11 ∨ 13 ≤ fn then 1 else 0
  | 7 => if fn = 11 then 1 else 0
  | 8 => if fn = 8 then 1 else 0
  | 9 => if fn = 7 then 1 else 0
  | 10 => if fn < 5 then 0 else 1
  | 11 => if fn = 4 then 1 else 0
  | 12 => if fn = 1 ∨ fn = 6 ∨ fn = 10 then 1 else 0
  | 13 => if fn = 2 ∨ fn = 6 ∨ fn = 10 then 1 else 0
  | _ => 0

/-! ### The encoder, from the same tables -/

/-- Class, function, bits [19:0] and extension payload of an instruction (R19, R20); none for a step without an
encoding. -/
def Instr.parts : Instr → Option (Nat × Nat × Nat × Option (BitVec 27))
  | .add d a b => some (0, 0, d.toNat * 32768 + a.toNat * 1024 + b.toNat * 32, none)
  | .sub d a b => some (0, 1, d.toNat * 32768 + a.toNat * 1024 + b.toNat * 32, none)
  | .and d a b => some (0, 2, d.toNat * 32768 + a.toNat * 1024 + b.toNat * 32, none)
  | .or d a b => some (0, 3, d.toNat * 32768 + a.toNat * 1024 + b.toNat * 32, none)
  | .xor d a b => some (0, 4, d.toNat * 32768 + a.toNat * 1024 + b.toNat * 32, none)
  | .andn d a b => some (0, 5, d.toNat * 32768 + a.toNat * 1024 + b.toNat * 32, none)
  | .sll d a b => some (0, 6, d.toNat * 32768 + a.toNat * 1024 + b.toNat * 32, none)
  | .srl d a b => some (0, 7, d.toNat * 32768 + a.toNat * 1024 + b.toNat * 32, none)
  | .sra d a b => some (0, 8, d.toNat * 32768 + a.toNat * 1024 + b.toNat * 32, none)
  | .rol d a b => some (0, 9, d.toNat * 32768 + a.toNat * 1024 + b.toNat * 32, none)
  | .ror d a b => some (0, 10, d.toNat * 32768 + a.toNat * 1024 + b.toNat * 32, none)
  | .mul d a b => some (0, 11, d.toNat * 32768 + a.toNat * 1024 + b.toNat * 32, none)
  | .mulh d a b => some (0, 12, d.toNat * 32768 + a.toNat * 1024 + b.toNat * 32, none)
  | .mulhu d a b => some (0, 13, d.toNat * 32768 + a.toNat * 1024 + b.toNat * 32, none)
  | .div d a b => some (0, 14, d.toNat * 32768 + a.toNat * 1024 + b.toNat * 32, none)
  | .divu d a b => some (0, 15, d.toNat * 32768 + a.toNat * 1024 + b.toNat * 32, none)
  | .rem d a b => some (0, 16, d.toNat * 32768 + a.toNat * 1024 + b.toNat * 32, none)
  | .remu d a b => some (0, 17, d.toNat * 32768 + a.toNat * 1024 + b.toNat * 32, none)
  | .min d a b => some (0, 18, d.toNat * 32768 + a.toNat * 1024 + b.toNat * 32, none)
  | .max d a b => some (0, 19, d.toNat * 32768 + a.toNat * 1024 + b.toNat * 32, none)
  | .minu d a b => some (0, 20, d.toNat * 32768 + a.toNat * 1024 + b.toNat * 32, none)
  | .maxu d a b => some (0, 21, d.toNat * 32768 + a.toNat * 1024 + b.toNat * 32, none)
  | .slt d a b => some (0, 22, d.toNat * 32768 + a.toNat * 1024 + b.toNat * 32, none)
  | .sltu d a b => some (0, 23, d.toNat * 32768 + a.toNat * 1024 + b.toNat * 32, none)
  | .seq d a b => some (0, 24, d.toNat * 32768 + a.toNat * 1024 + b.toNat * 32, none)
  | .sne d a b => some (0, 25, d.toNat * 32768 + a.toNat * 1024 + b.toNat * 32, none)
  | .clz d a => some (0, 26, d.toNat * 32768 + a.toNat * 1024, none)
  | .ctz d a => some (0, 27, d.toNat * 32768 + a.toNat * 1024, none)
  | .popc d a => some (0, 28, d.toNat * 32768 + a.toNat * 1024, none)
  | .bext d a b => some (0, 29, d.toNat * 32768 + a.toNat * 1024 + b.toNat * 32, none)
  | .bdep d a b => some (0, 30, d.toNat * 32768 + a.toNat * 1024 + b.toNat * 32, none)
  | .fshl d a b c => some (0, 31, d.toNat * 32768 + a.toNat * 1024 + b.toNat * 32 + c.toNat, none)
  | .fshr d a b c => some (0, 32, d.toNat * 32768 + a.toNat * 1024 + b.toNat * 32 + c.toNat, none)
  | .lut3 d a b c t => some (0, 33, d.toNat * 32768 + a.toNat * 1024 + b.toNat * 32 + c.toNat, some (.ofNat 27 t.toNat))
  | .sel d a b => some (0, 34, d.toNat * 32768 + a.toNat * 1024 + b.toNat * 32, none)
  | .bset d a b => some (0, 35, d.toNat * 32768 + a.toNat * 1024 + b.toNat * 32, none)
  | .bclr d a b => some (0, 36, d.toNat * 32768 + a.toNat * 1024 + b.toNat * 32, none)
  | .btst d a b => some (0, 37, d.toNat * 32768 + a.toNat * 1024 + b.toNat * 32, none)
  | .addi d a i x => some (1, 0, d.toNat * 32768 + a.toNat * 1024 + i.toNat, x)
  | .andi d a i x => some (1, 1, d.toNat * 32768 + a.toNat * 1024 + i.toNat, x)
  | .ori d a i x => some (1, 2, d.toNat * 32768 + a.toNat * 1024 + i.toNat, x)
  | .xori d a i x => some (1, 3, d.toNat * 32768 + a.toNat * 1024 + i.toNat, x)
  | .slli d a i x => some (1, 4, d.toNat * 32768 + a.toNat * 1024 + i.toNat, x)
  | .srli d a i x => some (1, 5, d.toNat * 32768 + a.toNat * 1024 + i.toNat, x)
  | .srai d a i x => some (1, 6, d.toNat * 32768 + a.toNat * 1024 + i.toNat, x)
  | .rori d a i x => some (1, 7, d.toNat * 32768 + a.toNat * 1024 + i.toNat, x)
  | .muli d a i x => some (1, 8, d.toNat * 32768 + a.toNat * 1024 + i.toNat, x)
  | .slti d a i x => some (1, 9, d.toNat * 32768 + a.toNat * 1024 + i.toNat, x)
  | .sltui d a i x => some (1, 10, d.toNat * 32768 + a.toNat * 1024 + i.toNat, x)
  | .seqi d a i x => some (1, 11, d.toNat * 32768 + a.toNat * 1024 + i.toNat, x)
  | .li d i x => some (1, 12, d.toNat * 32768 + i.toNat, x)
  | .bseti d a i x => some (1, 13, d.toNat * 32768 + a.toNat * 1024 + i.toNat, x)
  | .bclri d a i x => some (1, 14, d.toNat * 32768 + a.toNat * 1024 + i.toNat, x)
  | .btsti d a i x => some (1, 15, d.toNat * 32768 + a.toNat * 1024 + i.toNat, x)
  | .mini d a i x => some (1, 16, d.toNat * 32768 + a.toNat * 1024 + i.toNat, x)
  | .maxi d a i x => some (1, 17, d.toNat * 32768 + a.toNat * 1024 + i.toNat, x)
  | .fadd d a b r => some (2, 0, d.toNat * 32768 + a.toNat * 1024 + b.toNat * 32 + r.toNat, none)
  | .fsub d a b r => some (2, 1, d.toNat * 32768 + a.toNat * 1024 + b.toNat * 32 + r.toNat, none)
  | .fmul d a b r => some (2, 2, d.toNat * 32768 + a.toNat * 1024 + b.toNat * 32 + r.toNat, none)
  | .fma d a b r => some (2, 3, d.toNat * 32768 + a.toNat * 1024 + b.toNat * 32 + r.toNat, none)
  | .fmin d a b => some (2, 4, d.toNat * 32768 + a.toNat * 1024 + b.toNat * 32, none)
  | .fmax d a b => some (2, 5, d.toNat * 32768 + a.toNat * 1024 + b.toNat * 32, none)
  | .fcmpeq d a b => some (2, 6, d.toNat * 32768 + a.toNat * 1024 + b.toNat * 32, none)
  | .fcmplt d a b => some (2, 7, d.toNat * 32768 + a.toNat * 1024 + b.toNat * 32, none)
  | .fcmple d a b => some (2, 8, d.toNat * 32768 + a.toNat * 1024 + b.toNat * 32, none)
  | .fcvti d a r => some (2, 9, d.toNat * 32768 + a.toNat * 1024 + r.toNat, none)
  | .fcvtf d a r => some (2, 10, d.toNat * 32768 + a.toNat * 1024 + r.toNat, none)
  | .fdiv d a b r => some (2, 11, d.toNat * 32768 + a.toNat * 1024 + b.toNat * 32 + r.toNat, none)
  | .fsqrt d a r => some (2, 12, d.toNat * 32768 + a.toNat * 1024 + r.toNat, none)
  | .br o => some (3, 0, o.toNat, none)
  | .jal d o => some (3, 1, d.toNat * 32768 + o.toNat, none)
  | .jalr d a i => some (3, 2, d.toNat * 32768 + a.toNat * 1024 + i.toNat, none)
  | .loop n l a => some (3, 3, (n.toNat / 32 % 2) * 262144 + (n.toNat % 32) + l.toNat * 32768 + a.toNat * 1024, none)
  | .loopi n l k => some (3, 4, (n.toNat / 32 % 2) * 262144 + (n.toNat % 32) + l.toNat * 32768 + k.toNat * 32, none)
  | .loopr n l a v => some (3, 5, (n.toNat / 32 % 2) * 262144 + (n.toNat % 32) + l.toNat * 32768 + a.toNat * 1024 + v.toNat * 32, none)
  | .itsetBase i a => some (3, 6, i.toNat * 32768 + a.toNat * 1024, none)
  | .itsetStr i a l => some (3, 6, i.toNat * 32768 + a.toNat * 1024 + l.toNat + 8, none)
  | .itrev i m => some (3, 7, i.toNat * 1024 + m.toNat, none)
  | .itget d i m => some (3, 8, d.toNat * 32768 + i.toNat * 1024 + m.toNat, none)
  | .lbrk l => some (3, 9, l.toNat * 1024, none)
  | .lcnt d l => some (3, 10, d.toNat * 32768 + l.toNat * 1024, none)
  | .ldb d a i x => some (4, 0, d.toNat * 32768 + a.toNat * 1024 + i.toNat, x)
  | .ldh d a i x => some (4, 1, d.toNat * 32768 + a.toNat * 1024 + i.toNat, x)
  | .ldw d a i x => some (4, 2, d.toNat * 32768 + a.toNat * 1024 + i.toNat, x)
  | .ldd d a i x => some (4, 3, d.toNat * 32768 + a.toNat * 1024 + i.toNat, x)
  | .ldbx d a i x => some (4, 4, d.toNat * 32768 + a.toNat * 1024 + i.toNat, x)
  | .ldhx d a i x => some (4, 5, d.toNat * 32768 + a.toNat * 1024 + i.toNat, x)
  | .ldwx d a i x => some (4, 6, d.toNat * 32768 + a.toNat * 1024 + i.toNat, x)
  | .stb d a i x => some (4, 7, d.toNat * 32768 + a.toNat * 1024 + i.toNat, x)
  | .sth d a i x => some (4, 8, d.toNat * 32768 + a.toNat * 1024 + i.toNat, x)
  | .stw d a i x => some (4, 9, d.toNat * 32768 + a.toNat * 1024 + i.toNat, x)
  | .std d a i x => some (4, 10, d.toNat * 32768 + a.toNat * 1024 + i.toNat, x)
  | .sld d a i x => some (4, 11, d.toNat * 32768 + a.toNat * 1024 + i.toNat, x)
  | .sst d a i x => some (4, 12, d.toNat * 32768 + a.toNat * 1024 + i.toNat, x)
  | .aadd d a b o w => some (4, 13, d.toNat * 32768 + a.toNat * 1024 + b.toNat * 32 + o.toNat * 8 + w.toNat, none)
  | .amin d a b o w => some (4, 14, d.toNat * 32768 + a.toNat * 1024 + b.toNat * 32 + o.toNat * 8 + w.toNat, none)
  | .aminu d a b o w => some (4, 15, d.toNat * 32768 + a.toNat * 1024 + b.toNat * 32 + o.toNat * 8 + w.toNat, none)
  | .amax d a b o w => some (4, 16, d.toNat * 32768 + a.toNat * 1024 + b.toNat * 32 + o.toNat * 8 + w.toNat, none)
  | .amaxu d a b o w => some (4, 17, d.toNat * 32768 + a.toNat * 1024 + b.toNat * 32 + o.toNat * 8 + w.toNat, none)
  | .aand d a b o w => some (4, 18, d.toNat * 32768 + a.toNat * 1024 + b.toNat * 32 + o.toNat * 8 + w.toNat, none)
  | .aor d a b o w => some (4, 19, d.toNat * 32768 + a.toNat * 1024 + b.toNat * 32 + o.toNat * 8 + w.toNat, none)
  | .axor d a b o w => some (4, 20, d.toNat * 32768 + a.toNat * 1024 + b.toNat * 32 + o.toNat * 8 + w.toNat, none)
  | .aswp d a b o w => some (4, 21, d.toNat * 32768 + a.toNat * 1024 + b.toNat * 32 + o.toNat * 8 + w.toNat, none)
  | .acas d a b o f w => some (4, 22, d.toNat * 32768 + a.toNat * 1024 + b.toNat * 32 + o.toNat * 8 + f.toNat * 2 + w.toNat, none)
  | .vadd d a b k f => some (5, 0, d.toNat * 32768 + a.toNat * 1024 + b.toNat * 32 + k.toNat * 8 + f.toNat, none)
  | .vsub d a b k f => some (5, 1, d.toNat * 32768 + a.toNat * 1024 + b.toNat * 32 + k.toNat * 8 + f.toNat, none)
  | .vmul d a b k f => some (5, 2, d.toNat * 32768 + a.toNat * 1024 + b.toNat * 32 + k.toNat * 8 + f.toNat, none)
  | .vmulh d a b k f => some (5, 3, d.toNat * 32768 + a.toNat * 1024 + b.toNat * 32 + k.toNat * 8 + f.toNat, none)
  | .vand d a b k f => some (5, 4, d.toNat * 32768 + a.toNat * 1024 + b.toNat * 32 + k.toNat * 8 + f.toNat, none)
  | .vor d a b k f => some (5, 5, d.toNat * 32768 + a.toNat * 1024 + b.toNat * 32 + k.toNat * 8 + f.toNat, none)
  | .vxor d a b k f => some (5, 6, d.toNat * 32768 + a.toNat * 1024 + b.toNat * 32 + k.toNat * 8 + f.toNat, none)
  | .vsll d a b k f => some (5, 7, d.toNat * 32768 + a.toNat * 1024 + b.toNat * 32 + k.toNat * 8 + f.toNat, none)
  | .vsrl d a b k f => some (5, 8, d.toNat * 32768 + a.toNat * 1024 + b.toNat * 32 + k.toNat * 8 + f.toNat, none)
  | .vsra d a b k f => some (5, 9, d.toNat * 32768 + a.toNat * 1024 + b.toNat * 32 + k.toNat * 8 + f.toNat, none)
  | .vmin d a b k f => some (5, 10, d.toNat * 32768 + a.toNat * 1024 + b.toNat * 32 + k.toNat * 8 + f.toNat, none)
  | .vmax d a b k f => some (5, 11, d.toNat * 32768 + a.toNat * 1024 + b.toNat * 32 + k.toNat * 8 + f.toNat, none)
  | .vcmpeq d a b k f => some (5, 12, d.toNat * 32768 + a.toNat * 1024 + b.toNat * 32 + k.toNat * 8 + f.toNat, none)
  | .vcmplt d a b k f => some (5, 13, d.toNat * 32768 + a.toNat * 1024 + b.toNat * 32 + k.toNat * 8 + f.toNat, none)
  | .vcmple d a b k f => some (5, 14, d.toNat * 32768 + a.toNat * 1024 + b.toNat * 32 + k.toNat * 8 + f.toNat, none)
  | .vsel d a b k f => some (5, 15, d.toNat * 32768 + a.toNat * 1024 + b.toNat * 32 + k.toNat * 8 + f.toNat, none)
  | .vlut3 d a b k f t => some (5, 16, d.toNat * 32768 + a.toNat * 1024 + b.toNat * 32 + k.toNat * 8 + f.toNat, some (.ofNat 27 t.toNat))
  | .vfshl d a b k f => some (5, 17, d.toNat * 32768 + a.toNat * 1024 + b.toNat * 32 + k.toNat * 8 + f.toNat, none)
  | .vpopc d a f => some (5, 18, d.toNat * 32768 + a.toNat * 1024 + f.toNat, none)
  | .vclz d a f => some (5, 19, d.toNat * 32768 + a.toNat * 1024 + f.toNat, none)
  | .vredadd d a r f => some (5, 20, d.toNat * 32768 + a.toNat * 1024 + r.toNat * 32 + f.toNat, none)
  | .vredmax d a r f => some (5, 21, d.toNat * 32768 + a.toNat * 1024 + r.toNat * 32 + f.toNat, none)
  | .vredmin d a r f => some (5, 22, d.toNat * 32768 + a.toNat * 1024 + r.toNat * 32 + f.toNat, none)
  | .vsplat d a b k f => some (5, 23, d.toNat * 32768 + a.toNat * 1024 + b.toNat * 32 + k.toNat * 8 + f.toNat + 16, none)
  | .vmov d a b k f => some (5, 24, d.toNat * 32768 + a.toNat * 1024 + b.toNat * 32 + k.toNat * 8 + f.toNat, none)
  | .vdot8 d a b f => some (5, 25, d.toNat * 32768 + a.toNat * 1024 + b.toNat * 32 + f.toNat, none)
  | .vfadd d a b k f => some (6, 0, d.toNat * 32768 + a.toNat * 1024 + b.toNat * 32 + k.toNat * 8 + f.toNat, none)
  | .vfsub d a b k f => some (6, 1, d.toNat * 32768 + a.toNat * 1024 + b.toNat * 32 + k.toNat * 8 + f.toNat, none)
  | .vfmul d a b k f => some (6, 2, d.toNat * 32768 + a.toNat * 1024 + b.toNat * 32 + k.toNat * 8 + f.toNat, none)
  | .vfma d a b k f => some (6, 3, d.toNat * 32768 + a.toNat * 1024 + b.toNat * 32 + k.toNat * 8 + f.toNat, none)
  | .vfmax d a b k f => some (6, 4, d.toNat * 32768 + a.toNat * 1024 + b.toNat * 32 + k.toNat * 8 + f.toNat, none)
  | .vfmin d a b k f => some (6, 5, d.toNat * 32768 + a.toNat * 1024 + b.toNat * 32 + k.toNat * 8 + f.toNat, none)
  | .vfcmpeq d a b k f => some (6, 6, d.toNat * 32768 + a.toNat * 1024 + b.toNat * 32 + k.toNat * 8 + f.toNat, none)
  | .vfcmplt d a b k f => some (6, 7, d.toNat * 32768 + a.toNat * 1024 + b.toNat * 32 + k.toNat * 8 + f.toNat, none)
  | .vfcmple d a b k f => some (6, 8, d.toNat * 32768 + a.toNat * 1024 + b.toNat * 32 + k.toNat * 8 + f.toNat, none)
  | .vcvt d a src dst rm h stream => some (6, 9, d.toNat * 32768 + a.toNat * 1024, some (.ofNat 27 (src.toNat + dst.toNat * 8 + rm.toNat * 64 + h.toNat * 512 + stream.toNat * 4096)))
  | .vfredsum d a r f => some (6, 10, d.toNat * 32768 + a.toNat * 1024 + r.toNat * 32 + f.toNat, none)
  | .vfredmax d a r f => some (6, 11, d.toNat * 32768 + a.toNat * 1024 + r.toNat * 32 + f.toNat, none)
  | .vexp2 d a f => some (6, 12, d.toNat * 32768 + a.toNat * 1024 + f.toNat, none)
  | .vlog2 d a f => some (6, 13, d.toNat * 32768 + a.toNat * 1024 + f.toNat, none)
  | .vrcp d a f => some (6, 14, d.toNat * 32768 + a.toNat * 1024 + f.toNat, none)
  | .vrsq d a f => some (6, 15, d.toNat * 32768 + a.toNat * 1024 + f.toNat, none)
  | .vsint d a f => some (6, 16, d.toNat * 32768 + a.toNat * 1024 + f.toNat, none)
  | .vcost d a f => some (6, 17, d.toNat * 32768 + a.toNat * 1024 + f.toNat, none)
  | .vtanh d a f => some (6, 18, d.toNat * 32768 + a.toNat * 1024 + f.toNat, none)
  | .rngk d a b k f => some (6, 19, d.toNat * 32768 + a.toNat * 1024 + b.toNat * 32 + k.toNat * 8 + f.toNat + 16, none)
  | .gumb d a b k f => some (6, 20, d.toNat * 32768 + a.toNat * 1024 + b.toNat * 32 + k.toNat * 8 + f.toNat + 16, none)
  | .topk d a k r f => some (6, 21, d.toNat * 32768 + a.toNat * 1024 + k.toNat * 32 + r.toNat * 8 + f.toNat, none)
  | .vscale d a b v f => some (6, 22, d.toNat * 32768 + a.toNat * 1024 + b.toNat * 32 + v.toNat * 8 + f.toNat, none)
  | .vfabs d a f => some (6, 23, d.toNat * 32768 + a.toNat * 1024 + f.toNat, none)
  | .vfneg d a f => some (6, 24, d.toNat * 32768 + a.toNat * 1024 + f.toNat, none)
  | .cmset d a => some (7, 0, d.toNat * 32768 + a.toNat * 1024, none)
  | .cmget d a => some (7, 1, d.toNat * 32768 + a.toNat * 1024, none)
  | .cmslc d a b => some (7, 2, d.toNat * 32768 + a.toNat * 1024 + b.toNat * 32, none)
  | .cmtrn d a => some (7, 3, d.toNat * 32768 + a.toNat * 1024, none)
  | .cmrev d a o => some (7, 4, d.toNat * 32768 + a.toNat * 1024 + o.toNat, none)
  | .cmcpy d a => some (7, 5, d.toNat * 32768 + a.toNat * 1024, none)
  | .cmclr d => some (7, 6, d.toNat * 32768, none)
  | .vcrd d a b p => some (7, 7, d.toNat * 32768 + a.toNat * 1024 + b.toNat * 32 + p.toNat, none)
  | .vrope d a b v f => some (7, 8, d.toNat * 32768 + a.toNat * 1024 + b.toNat * 32 + v.toNat * 8 + f.toNat, none)
  | .vshuf d a b f => some (7, 9, d.toNat * 32768 + a.toNat * 1024 + b.toNat * 32 + f.toNat, none)
  | .vrot d a b k f => some (7, 10, d.toNat * 32768 + a.toNat * 1024 + b.toNat * 32 + k.toNat * 8 + f.toNat + 16, none)
  | .cmtst d a b => some (7, 11, d.toNat * 32768 + a.toNat * 1024 + b.toNat * 32, none)
  | .vshfl d a b f => some (7, 12, d.toNat * 32768 + a.toNat * 1024 + b.toNat * 32 + f.toNat + 16, none)
  | .vld d w b => some (8, 0, d.toNat * 32768 + w.toNat * 1024 + b.toNat * 32, none)
  | .vst d w b => some (8, 1, d.toNat * 32768 + w.toNat * 1024 + b.toNat * 32, none)
  | .vldc d w b => some (8, 2, d.toNat * 32768 + w.toNat * 1024 + b.toNat * 32, none)
  | .vstc d w b => some (8, 3, d.toNat * 32768 + w.toNat * 1024 + b.toNat * 32, none)
  | .vgath d w b c => some (8, 4, d.toNat * 32768 + w.toNat * 1024 + b.toNat * 32 + c.toNat, none)
  | .vscat d w b c => some (8, 5, d.toNat * 32768 + w.toNat * 1024 + b.toNat * 32 + c.toNat, none)
  | .vcomp d a b f => some (8, 6, d.toNat * 32768 + a.toNat * 1024 + b.toNat * 32 + f.toNat, none)
  | .rgld w a b => some (8, 7, w.toNat * 32768 + a.toNat * 1024 + b.toNat * 32, none)
  | .tagq d a => some (8, 8, d.toNat * 32768 + a.toNat * 1024, none)
  | .tagset a b => some (8, 9, a.toNat * 1024 + b.toNat * 32, none)
  | .tagclr a => some (8, 10, a.toNat * 1024, none)
  | .guardSet a b => some (8, 11, a.toNat * 1024 + b.toNat * 32 + 1, none)
  | .guardClr a b => some (8, 11, a.toNat * 1024 + b.toNat * 32, none)
  | .mcall i => some (9, 0, i.toNat, none)
  | .mparm n a => some (9, 1, n.toNat * 32768 + a.toNat * 1024, none)
  | .mzero t => some (9, 2, t.toNat * 32768, none)
  | .mrel t => some (9, 3, t.toNat * 32768, none)
  | .mlda t w b => some (9, 4, t.toNat * 32768 + w.toNat * 1024 + b.toNat * 32, none)
  | .msta t w b f => some (9, 5, t.toNat * 32768 + w.toNat * 1024 + b.toNat * 32 + f.toNat, none)
  | .mwr a b => some (9, 6, a.toNat * 1024 + b.toNat * 32, none)
  | .mrd d a => some (9, 7, d.toNat * 32768 + a.toNat * 1024, none)
  | .mbgrp a => some (9, 8, a.toNat * 1024, none)
  | .mwait n => some (9, 9, n.toNat, none)
  | .cpy n a b c => some (10, 0, n.toNat * 32768 + a.toNat * 1024 + b.toNat * 32 + c.toNat, none)
  | .cpyp n a b c => some (10, 1, n.toNat * 32768 + a.toNat * 1024 + b.toNat * 32 + c.toNat, none)
  | .cpfill n a c => some (10, 2, n.toNat * 32768 + a.toNat * 1024 + c.toNat, none)
  | .cpqf m => some (10, 3, m.toNat, none)
  | .cpyz n a b c => some (10, 4, n.toNat * 32768 + a.toNat * 1024 + b.toNat * 32 + c.toNat, none)
  | .awset d a b => some (10, 5, d.toNat * 32768 + a.toNat * 1024 + b.toNat * 32, none)
  | .cpst d n => some (10, 6, d.toNat * 32768 + n.toNat * 1024, none)
  | .clapp d a b => some (10, 7, d.toNat * 32768 + a.toNat * 1024 + b.toNat * 32, none)
  | .clshr d a b c => some (10, 8, d.toNat * 32768 + a.toNat * 1024 + b.toNat * 32 + c.toNat, none)
  | .seamtag d a b => some (10, 9, d.toNat * 32768 + a.toNat * 1024 + b.toNat * 32, none)
  | .seamret d a b m => some (10, 10, d.toNat * 32768 + a.toNat * 1024 + b.toNat * 32 + m.toNat, none)
  | .hbudg d a b c => some (10, 11, d.toNat * 32768 + a.toNat * 1024 + b.toNat * 32 + c.toNat, none)
  | .fcfg n a => some (11, 0, n.toNat * 32768 + a.toNat * 1024, none)
  | .fins x n a b c => some (11, 1, x.toNat * 131072 + n.toNat * 32768 + a.toNat * 1024 + b.toNat * 32 + c.toNat, none)
  | .fmerge n m => some (11, 2, n.toNat * 32768 + m.toNat * 1024, none)
  | .fread d n => some (11, 3, d.toNat * 32768 + n.toNat * 1024, none)
  | .fcnt d n => some (11, 4, d.toNat * 32768 + n.toNat * 1024, none)
  | .fclr n => some (11, 5, n.toNat * 32768, none)
  | .fsave n b => some (11, 6, n.toNat * 1024 + b.toNat * 32, none)
  | .fload n b => some (11, 7, n.toNat * 32768 + b.toNat * 32, none)
  | .phase => some (12, 0, 0, none)
  | .fence d e => some (12, 1, d.toNat * 32768 + e.toNat, none)
  | .await a b => some (12, 2, a.toNat * 1024 + b.toNat * 32, none)
  | .barg a n => some (12, 3, a.toNat * 1024 + n.toNat, none)
  | .bard a n => some (12, 4, a.toNat * 1024 + n.toNat, none)
  | .enq n a x => some (12, 5, n.toNat * 32768 + a.toNat * 1024 + x.toNat, none)
  | .deq d n => some (12, 6, d.toNat * 32768 + n.toNat * 1024, none)
  | .retire => some (12, 7, 0, none)
  | .yield => some (12, 8, 0, none)
  | .sleept a => some (12, 9, a.toNat * 1024, none)
  | .time d => some (12, 10, d.toNat * 32768, none)
  | .trap k => some (13, 0, k.toNat, none)
  | .eret k => some (13, 1, k.toNat, none)
  | .csrr d c => some (13, 2, d.toNat * 32768 + c.toNat, none)
  | .csrw a c => some (13, 3, a.toNat * 32768 + c.toNat, none)
  | .csrs a c => some (13, 4, a.toNat * 32768 + c.toNat, none)
  | .csrc a c => some (13, 5, a.toNat * 32768 + c.toNat, none)
  | .rngp d => some (13, 6, d.toNat * 32768, none)
  | .ipf a b => some (13, 7, a.toNat * 1024 + b.toNat * 32, none)
  | .fmtt a b => some (13, 8, a.toNat * 1024 + b.toNat * 32, none)
  | .fmttAll b => some (13, 8, b.toNat * 32 + 1, none)
  | .gset a i x => some (13, 9, a.toNat * 1024 + i.toNat * 2 + x.toNat, none)
  | .flagr d => some (13, 10, d.toNat * 32768, none)
  | .flagc m f => some (13, 11, m.toNat * 128 + f.toNat, none)
  | .nop => some (13, 12, 0, none)
  | .nopBench => some (13, 12, 1, none)
  | .issue => none
  | .phaseBoundary => none
  | .perform => none
  | .gate => none
  | .commit => none
  | .atomic => none
  | .load => none
  | .trapEntry => none
  | .fpx => none
  | .shiftWake => none
  | .copyPerform => none
  | .mxqPerform => none
  | .broadcastStrip => none
  | .claimPerform => none
  | .fenceTimeout => none
  | .watchdog => none
  | .taskStart => none
  | .stageDone => none
  | .steering => none
  | .preemption => none
  | .shiftResume => none
  | .kick => none
  | .kickReread => none
  | .registerWrite => none
  | .shpinv => none
  | .image => none
  | .setchip => none
  | .fenceGalleries => none
  | .unfence => none
  | .preempt => none
  | .resume => none
  | .attest => none
  | .arbump => none
  | .hlthcfg => none
  | .syscfg => none
  | .syscfgHeads => none
  | .done => none
  | .halt => none
  | .refused => none
  | .granterr => none
  | .memerr => none
  | .linkerr => none
  | .thermal => none
  | .attlow => none
  | .thermalTrip => none
  | .cxlReset => none
  | .powerLoss => none
  | .enterSafe => none
  | .enterReduced => none
  | .enterFull => none
  | .hostMemWrite => none
  | .hostMemRead => none
  | .flit => none
  | .packet => none
  | .linkDegraded => none
  | .linkDead => none
  | .ptpMessage => none
  | .grandmasterLost => none
  | .eccError => none
  | .rngHealthFail => none
  | .resultLanding => none
  | .linkRecovery => none
  | .ppsInput => none

/-- A slot word from its fields (R19). -/
def mkWord (stop q : Bool) (oc fn low : Nat) : Word :=
  .ofNat 32 (stop.toNat * 2147483648 + oc * 134217728 + q.toNat * 67108864 + fn * 1048576 + low)

/-- An extension word (R20). -/
def mkExt (stop : Bool) (p : BitVec 27) : Word :=
  .ofNat 32 (stop.toNat * 2147483648 + 14 * 134217728 + p.toNat)

/-- The words of an instruction, as the last words of a bundle when `last` (R16, R19, R20, R47). -/
def encode (last q : Bool) (i : Instr) : List Word :=
  match i.parts with
  | none => []
  | some (oc, fn, low, none) => [mkWord last q oc fn low]
  | some (oc, fn, low, some p) => [mkWord false q oc fn low, mkExt last p]

/-- The payload of an extension word (R20). -/
def extPayload (w : Word) : BitVec 27 := .ofNat 27 (fld w 0 27)

/-- The decoder on a slot word and, where one follows, its extension word: the inverse of `encode`. -/
def decodeWords : List Word → Option Instr
  | [w] => decodeSlot w none
  | [w, e] => if fOC e = 14 then decodeSlot w (some (extPayload e)) else none
  | _ => none

/-- The instruction that the decoder reads from a table row's bits: bits 31..0 are the slot word, as R19 numbers
them; an extension word that the entry requires is laid out behind it with an all-zero payload, its mark being
framing (R20). A row's bits 31 and 26 are the slot's S and Q (R19) and belong to no instruction. -/
def decodeTableWord (nbits w : Nat) : Option Instr :=
  let sw : Word := .ofNat 32 (w % 2 ^ nbits)
  decodeSlot sw (if extRule (fOC sw) (fFN sw) = .required then some 0 else none)

end Sys2Proof
end

