-- ==== Sys2Proof/Machine/State.lean ====
section
/-! DEFINITION. The state of the BZ4 as plain data, the reasons a step can stop, and the state after reset.
One `State` is one device with the global memory of its load-store domain. Shifts, cores and galleries stand in
lists keyed by their physical numbers (01 R10); one that is not listed is as at reset. -/

namespace Sys2Proof.Machine

/-! ### Registers -/

/-- The state of a coordinate map (06 R114). -/
inductive MapSt where
  | none | affine | indexed | broken
deriving DecidableEq, Repr

/-- A coordinate map (R114). -/
structure CMap where
  st : MapSt
  tt : BitVec 6
  fmt : BitVec 4
  id : BitVec 3
  ir : Bool
  od : BitVec 3
  orev : Bool
  ie : BitVec 9
  cmp : BitVec 5
  datum : Vector (BitVec 32) 6
deriving DecidableEq, Repr

/-- The map NONE: every bit 0. -/
def CMap.none : CMap := ⟨.none, 0, 0, 0, false, 0, false, 0, 0, Vector.replicate 6 0⟩
/-- The map BROKEN: ST 3 and every other bit 0 (R117). -/
def CMap.broken : CMap := { CMap.none with st := .broken }

/-- A vector register with its map and poison marker (R111, R122). -/
structure VReg where
  data : BitVec 2048
  map : CMap
  pois : Bool
deriving DecidableEq, Repr

/-- An accumulator tile: elements by 128i + j; map, liveness (09 R192), poison. An element that is not listed is zero,
or undefined (Config.freeElem at the number) when `free` holds a number. -/
structure Tile where
  data : List (Nat × BitVec 32)
  free : Option Nat
  map : CMap
  live : Bool
  pois : Bool
deriving DecidableEq, Repr

/-- A tuple of a front (10 R204). -/
structure FTuple where
  obj : Vector (BitVec 32) 4
  pay : BitVec 32
  age : BitVec 32
deriving DecidableEq, Repr

/-- A front accumulator, its tuples oldest first (R204). Configuration 0 is unconfigured. -/
structure Front where
  cfg : Word64
  tuples : List FTuple
  age : BitVec 32
  pois : Bool
deriving DecidableEq, Repr

/-- An address iterator (12 R254). -/
structure Iter where
  base : Word64
  stride : Vector Word64 6
  dir : BitVec 6
deriving DecidableEq, Repr

/-- A layout record (04 R71): twelve 64-bit words. -/
abbrev LRec := Vector Word64 12
/-- A command block (04 R75): eight 64-bit words. -/
abbrev Blk := Vector Word64 8

/-- A window register (05 R101): record, origin block, validity. -/
structure Window where
  rcd : LRec
  org : Vector (BitVec 32) 6
  ctl : BitVec 32
  valid : Bool
deriving DecidableEq, Repr

/-- A loop level (12 R245). -/
structure Level where
  start : Addr
  stop : Addr
  trip : BitVec 32
  idx : BitVec 32
  off : BitVec 32
  act : Bool
  ord : BitVec 8
  behind : Addr             -- the bundle behind END, found by the header walk (R246, log 75)
deriving DecidableEq, Repr

/-- The CSRs that a rollback restores (11 R329). `fpOrd` is the model's own: where the event of ctx.fpfirst stands
in the order of R143. -/
structure RCsr where
  trapvec : Word64
  trapmask : Word64
  fmtlvl : BitVec 4
  cmapsoft : Bool
  pguard : BitVec 12
  nkey : Word64
  rngidx : Word64
  flags : Vector (BitVec 7) 8
  fpfirst : Word64
  fpen : BitVec 7
  fpOrd : Nat
deriving DecidableEq, Repr

/-- What the shadow holds and a rollback restores, tiles apart (11 R222 step 5). -/
structure Arch where
  g : Vector Word64 32
  gpois : BitVec 32
  v : Vector VReg 32
  fronts : Vector Front 4
  m : Vector Word64 8
  it : Vector Iter 16
  w : Vector Window 8
  l : Vector Level 6
  fmtt : Vector Word64 16
  c : RCsr
deriving DecidableEq, Repr

/-- The other CSRs of a shift (14 R291, 05 R97-R100, 06 R112, 13 R270). -/
structure KCsr where
  port : Bool
  priv : Bool
  ppriv : Bool
  inh : Bool
  pport : Bool
  nr : Bool
  cause : BitVec 9
  fpc : Addr
  spc : Addr
  fslot : BitVec 4
  finfo : Word64
  fstep : BitVec 10
  na : BitVec 4
  nf : BitVec 3
  spbase : BitVec 18
  splim : BitVec 19
  compat : Bool
  spfirst : BitVec 25
  spstall : Word64
  spfault : Word64
  deprcnt : Word64
  ttbase : BitVec 40
  ttlim : BitVec 32
  svec : Word64
  savetid : BitVec 21
  rngmode : BitVec 2
  rngtid : BitVec 20
  fencetmo : BitVec 32
  bwin : Vector (BitVec 21) 16
deriving DecidableEq, Repr

/-! ### Work in progress -/

/-- What a result in flight writes when it lands (02 R30). -/
inductive LandTo where
  | g (r : R5) (x : Word64) (pois : Bool)
  | v (r : R5) (x : VReg)
  | map (r : R5) (m : CMap)
  | win (r : BitVec 3) (x : Window)
  | flags (bits : BitVec 7)
deriving DecidableEq, Repr

/-- A result in flight: what it writes, the cycles left of its bound, the bundle and slot that issued it. -/
structure Landing where
  what : LandTo
  left : Nat
  bundle : Nat
  slot : Nat
  x : Addr
deriving DecidableEq, Repr

/-- The atomic operations (11 R234). -/
inductive AOp where
  | add | min | minu | max | maxu | and | or | xor | swp | cas
deriving DecidableEq, Repr

/-- An LSQ entry's operation (R219): global loads and stores, atomics, and the read of RNGP in REPLAY mode (14 R303). -/
inductive LsqOp where
  | load (d : R5) (a : Addr) (n : Nat) (sx : Bool)
  | store (a : Addr) (n : Nat) (data : Word64)
  | atomic (op : AOp) (d : R5) (a : Addr) (n : Nat) (b new : Word64) (ord : BitVec 2) (facq : Bool)
  | replay (d : R5) (c0 c1 : Word64)
deriving DecidableEq, Repr

structure LsqEntry where
  op : LsqOp
  x : Addr
  bundle : Nat
deriving DecidableEq, Repr

/-- The copy commands (04 R84-R89). -/
inductive CpKind where
  | cpy | cpyp | cpfill | cpyz
deriving DecidableEq, Repr

/-- A copy command with its snapshot (04 R70): the record or records, the block, and for CPYZ the descriptor in
the first four words of `dst`. -/
structure CopyCmd where
  kind : CpKind
  src : LRec
  dst : LRec
  blk : Blk
  x : Addr
  bundle : Nat
  seen : List (Nat × Bool)  -- source elements as they stood at issue (R78) or before an overlapping copy (R76), with poison
  torn : Option Nat         -- of a CPYZ whose source has changed: the elements that it had written when that was seen (R78)
deriving DecidableEq, Repr

/-- The claim instructions (03 R69) with their operands. -/
inductive ClaimOp where
  | clapp (h : Word64) (img : BitVec 128)
  | clshr (h n k : Word64)
  | seamtag (h t : Word64)
  | seamret (h t : Word64) (close : Bool)
  | hbudg (h n e : Word64)
deriving DecidableEq, Repr

/-- An entry of a copy queue (04 R70, R87; 11 R219): a command with the number of elements done, a join over the
queues of a mask, or a claim instruction, which stands in all four. -/
inductive CpEntry where
  | cmd (c : CopyCmd) (done : Nat)
  | join (id : Nat) (mask : BitVec 4)
  | claim (id : Nat) (d : R5) (x : Addr) (op : ClaimOp)
deriving DecidableEq, Repr

/-- A byte or bit position: in M (`space` none) or in a gallery's scratchpad. -/
structure Loc where
  space : Option Nat
  key : Nat
  bit : Nat
deriving DecidableEq, Repr

/-- A source element of a gated command: a location, or the fill value (04 R77). -/
inductive SrcEl where
  | loc (l : Loc)
  | fill
deriving DecidableEq, Repr

/-- An MX entry's operation (09 R175). -/
inductive MxOp where
  | call (idx : Nat)
  | zero (t : BitVec 3)
  | rel (t : BitVec 3)
  | lda (t : BitVec 3) (w : BitVec 3) (slab : Word64)
  | sta (t : BitVec 3) (w : BitVec 3) (slab : Word64) (f : BitVec 8)
  | wr (a b : Word64)
  | rd (d : R5) (a : Word64)
  | bgrp (g : Word64)
deriving DecidableEq, Repr

/-- A snapshot of an MX entry's inputs (R176). -/
structure MxSnap where
  m : Vector Word64 8
  w : Vector Window 8
  erec : LRec
  eorg : Vector Word64 4
  sva : BitVec 2048
  svb : BitVec 2048
  row : Word64
  soft : Bool
  nkey : Word64
  vs : List (Nat × BitVec 2048)   -- of a loaded routine: the registers that its SCALE may name (R188)
  sp : List Host.Cell             -- of a loaded routine: the scratchpad in which its STOREs find their records
deriving DecidableEq, Repr

/-- B as the broadcast bus delivers it (R185): the source's N, K and format, the tensor coordinates of its N and k
dimensions at their first index, the rows delivered so far by t, and whether a poisoned granule was read. -/
structure BusB where
  n : Nat
  k : Nat
  fmt : Nat
  nd : Nat
  n0 : BitVec 32
  kd : Nat
  k0 : BitVec 32
  rows : List (List Nat)
  pois : Bool
deriving DecidableEq, Repr

/-- A loop of a routine (R188): its first and last addresses, the passes left, whether it advances the chunk cursor. -/
structure MicroLoop where
  first : Nat
  last : Nat
  left : Nat
  chunked : Bool
deriving DecidableEq, Repr

/-- A stage of operands: the parameter word and orientation it was loaded with, its rows, and poison. -/
structure MicroStage where
  word : Word64
  trans : Bool
  rows : List (List Nat)
  pois : Bool
deriving DecidableEq, Repr

/-- A routine's state (R188): the next word, the parameters, the chunk cursor and its k range, whether that has its K from the
group's source (R185), the loops, the stages and
the A stage by which the chunks are counted, the scales σ by row and by column, the formats, whether it has released its
call, and the m7 words of its EPI. -/
structure MicroSt where
  pc : Nat
  m : Vector Word64 8
  cursor : Nat
  krange : Word64
  kSet : Bool
  loops : List MicroLoop
  a : Option MicroStage
  b : Option MicroStage
  plan : Option MicroStage
  sig : Option (List Nat × List Nat)
  fmts : Nat × Nat
  released : Bool
  epi : List (Nat × Word64)
deriving DecidableEq, Repr

/-- An entry of the MXQ: operation, snapshot, the bundle that issued it, what the bus has delivered to it, and its progress
(R194): chunks and rows done, the flags so far, the state of a loaded routine. -/
structure MxEntry where
  op : MxOp
  snap : MxSnap
  x : Addr
  bundle : Nat
  bus : Option BusB
  done : Nat
  fl : BitVec 7
  micro : Option MicroSt
deriving DecidableEq, Repr

/-- A gate entry (11 R219): a translated store; a gated copy command with its queue and its translated elements (a
destination of none is discarded, 03 R64); or a fused epilogue (09 R191) with the values to store. `failed` lists the
elements refused at their home (R224), `done` counts those written. -/
inductive GateEntry where
  | store (flat : Addr) (chip : Option Nat) (key n : Nat) (data : Word64) (failed : Bool) (bundle : Nat)
  | cmd (c : CopyCmd) (q : BitVec 2) (srcs : List SrcEl) (dsts : List (Option Loc)) (failed : List (Nat × Nat)) (done : Nat)
  | epi (x : Addr) (bundle fmt tid : Nat) (els : List (BitVec 32 × Loc)) (failed : List (Nat × Nat)) (done : Nat)
deriving DecidableEq, Repr

/-- The fence status (11 R233). -/
structure FStatus where
  chip : BitVec 16
  nfail : Nat
  pois : Bool
  grant : Bool
  link : Bool
deriving DecidableEq, Repr

/-- A FENCE in progress (R233): destination, scope, what it covers, nanoseconds waited. -/
structure FenceSt where
  d : R5
  scope : BitVec 3
  bundle : Nat
  waited : Nat
deriving DecidableEq, Repr

/-- The causes of R285. -/
inductive Cause where
  | illegal | priv | align | bankconf | bgroup | cmapbrk | layoutrsv | trans | perm | grant | uce | fpx | frontovf
  | queue | watchdog | emul | swtrap | profile | gateovf | lostregion | lostctx | guard | link | spwin
deriving DecidableEq, Repr

/-- A trap record before it is written (14 R287 step 2). -/
structure TrapRec where
  cause : Cause
  fpc : Addr
  fslot : BitVec 4
  finfo : Word64
  fstep : BitVec 10
deriving DecidableEq, Repr

/-- The five states of a shift (13 R258). -/
inductive RunSt where
  | running | ready | blocked | idle | free
deriving DecidableEq, Repr

/-- Where a shift stands at a phase boundary (11 R222): not at one; waiting for its twin at a bundle with the given
boundary instructions (13 R273); in step 4, with the boundary's bundle number and the signature that it ends with; in the
rest of a commit that a pre-emption cut short (14 R295); or past it, the bundle not yet issued. -/
inductive BndSt where
  | away
  | waiting (x : Addr) (bs : List Instr)
  | committing (bundle : Nat) (sig : Option Word64)
  | resuming (sig : Option Word64)
  | taken
deriving DecidableEq, Repr

/-- What a blocked shift waits on (13 R259). -/
inductive BlockWhy where
  | cpq (mask : BitVec 4)
  | await (off : BitVec 24) (gen : BitVec 16) (zero : Bool)
  | regs (gs : List R5)
  | boundary (cp : Bool)
  | seam                    -- its SEAMRET waits for room in the free queue (03 R67)
  | mwait (n : Nat)
  | deq (q : Nat)
  | enq (q : Nat)
  | sleep (until_ : Nat)
  | barrier
deriving DecidableEq, Repr

/-- A task (13 R265, R266): number, launch, stage, cycles counted by its watchdog, COMMITTED, assay signature,
whether it has issued a DEQ. -/
structure Task where
  num : BitVec 32
  seq : BitVec 32
  stage : Nat
  cycles : Nat
  committed : Bool
  sig : Word64
  deqd : Bool
deriving DecidableEq, Repr

/-- A shift's attachment to a broadcast group (09 R185, R195): group, member mask, BCAST calls taken since it joined, the step
in which it joined, the cores whose member has left the group. -/
structure BgMem where
  grp : BitVec 2
  mask : BitVec 8
  calls : Nat
  since : Nat
  gone : BitVec 8
deriving DecidableEq, Repr

/-- One of the 2,048 shifts (01 R10, 06 R111). -/
structure Shift where
  st : RunSt
  blockOn : Option BlockWhy
  pc : Addr
  arch : Arch
  tiles : Vector Tile 8
  k : KCsr
  inflight : List Landing
  soon : List (R5 × Nat × Nat)   -- vector registers whose result has landed early: cycles left of its bound, bundle (06 R116)
  lsq : List LsqEntry
  mxq : List MxEntry
  mxFault : Option (BitVec 10 × Addr × Illegal)   -- microword, MCALL's bundle, sub-code (09 R189, R200)
  cpq : Vector (List CpEntry) 4
  done : Vector (BitVec 32) 4
  cpHold : Bool             -- kept copy entries wait for the shift to resume (04 R80)
  cpTag : Vector Nat 4      -- number of the CPYP transmission of each queue
  gate : List GateEntry
  shadow : Option Arch
  liveAt : BitVec 8         -- tiles live at the last boundary (09 R192)
  tileWr : BitVec 8         -- tiles written since
  bnd : Nat                 -- number of the bundle at the last boundary
  status : FStatus
  fences : List FenceSt     -- in progress, oldest first
  grantPend : List (BitVec 13 × Nat)   -- pending refusals, oldest first: receiver and bundle (04 R83)
  closePend : List Nat
  memTrap : Option TrapRec
  trapPend : Option TrapRec -- a trap whose entry waits for loads and atomics (14 R287 step 1)
  acasGo : List Nat         -- bundles of ACASes under .facq that a later entry has gone ahead of: they succeed (11 R227)
  fpx : List (Nat × TrapRec)
  phaseStart : Word64
  task : Option Task
  bound : Option (BitVec 32 × Nat)
  allot : BitVec 4 × BitVec 3   -- tiles and fronts that the launch allotted (06 R112)
  bg : Option BgMem         -- on the bus
  bgIss : Option (BitVec 2 × BitVec 8)   -- group and mask as of issue (R201)
  mrd : List (R5 × Word64 × Nat × Bool)  -- results that arrive at an MWAIT (R200) or, marked true, at the next bundle
  mxFl : List (BitVec 7 × Nat × Addr × Bool)  -- MX flags that arrive at an MWAIT (07 R142), as in mrd
  shMrd : List (R5 × Word64 × Nat × Bool)     -- mrd at the last boundary, with the shadow (09 R193)
  shFl : List (BitVec 7 × Nat × Addr × Bool)  -- mxFl at the last boundary
  mismatch : Bool           -- its copy of an assay task has met other operands than the twin's (13 R273)
  barr : Option Bool        -- an arrival held at a barrier; true once released
  awaiting : Option Bool    -- an AWAIT has issued; true if its word was in violation then (04 R92)
  bndSt : BndSt
  loopBuf : List (Addr × List Word)
  shLoop : List (Addr × List Word)   -- bundles of the bodies active at the last boundary, as first fetched (12 R249)
  waitCy : Nat
  runCy : Nat               -- cycles in RUNNING since a bundle issued last
  idleCy : Nat
  preemptReq : Bool
  issued : Bool             -- a bundle has issued in this cycle (02 R29)
  trapBundle : Nat          -- number of the last bundle before the last trap entry (14 R289, log 23)
deriving DecidableEq, Repr

/-! ### Cores, galleries, device -/

/-- A slot of the accumulator shadow (09 R192). -/
structure AccSlot where
  holder : Nat
  tile : BitVec 3
  copy : Tile
deriving DecidableEq, Repr

/-- A launch's hold on a routine in a core's store (09 R186): its entry, first word, length and the launch. Several launches
can hold one routine. -/
structure UHold where
  entry : Nat
  base : Nat
  len : Nat
  seq : BitVec 32
deriving DecidableEq, Repr

/-- A core (01 R10). -/
structure CoreSt where
  accSh : List AccSlot
  ustore : List (Nat × Word64)
  utab : List (Nat × BitVec 16)
  uown : List UHold
  mxTurn : Nat
deriving DecidableEq, Repr

/-- The state of a stage-queue slot (13 R262). -/
inductive SlotSt where
  | rsvd | ready | taken | done
deriving DecidableEq, Repr

structure QSlot where
  q : Nat
  idx : BitVec 32
  st : SlotSt
  owner : Nat
  bundle : Nat
deriving DecidableEq, Repr

/-- A barrier (13 R275): its count and the shifts that have arrived. -/
structure Barrier where
  count : Nat
  arrivals : List Nat
deriving DecidableEq, Repr

/-- A gallery (01 R9). -/
structure Gallery where
  sp : List Host.Cell
  guard : List Nat          -- granules whose guard bit is set, rising
  tags : List (Nat × BitVec 48)
  barg : Vector Barrier 4
  slots : List QSlot
  holder : Option (BitVec 32)
  fenced : Bool
  fenceReq : Bool
  steerCy : Nat
  ctl : List Host.Cell      -- what the device has written to control blocks of stage queues (13 R261)
deriving DecidableEq, Repr

/-- A held launch (13 R269-R271). -/
structure Launch where
  seq : BitVec 32
  ngal : Nat
  assay : Bool
  wdog : Word64
  nkey : Word64
  ttbase : BitVec 40
  ttlim : BitVec 32
  args : Vector Word64 8
  svec : Word64
  savetid : BitVec 21
  rngmode : BitVec 2
  rngtid : BitVec 20
  fencetmo : BitVec 32
  bwin : Vector (BitVec 21) 16
  obj : CodeObject
  place : List Nat          -- physical gallery of each compiled gallery
  twin : List Nat           -- of an assay launch: its twin (R272)
  started : List Nat        -- tasks of each stage started
  retired : List Nat        -- tasks of each stage retired
  doneSt : List Bool        -- stages done (R267)
  nextTask : Nat
  halted : Option Nat
  reduced : Bool
  stopped : List Nat        -- compiled galleries that PREEMPT has named (R310)
deriving DecidableEq, Repr

/-- A host event (15 R309). -/
structure HostEvent where
  gtc : Word64
  kind : BitVec 8
  src : BitVec 16
  flg : BitVec 8
  task : BitVec 32
  pay : BitVec 128
deriving DecidableEq, Repr

/-- A saved context (14 R296): the row of the save tensor and the shift as it stood. -/
structure Saved where
  seq : BitVec 32
  row : Nat
  gal : Nat
  at_ : Nat                 -- the physical shift at which it stood
  vid : Nat                 -- the number, beyond the shifts', under which its queue slots and arrivals stand meanwhile
  sh : Shift
  acks : List (CpId × Option Nat)   -- answers to its CPYPs since: performed, or refused by a chip
  lost : Option Nat         -- offset of a failure while its save area was written at a move (R297)
  pers : Nat                -- persistent bytes that its area holds since a move (R296)
deriving DecidableEq, Repr

/-- An attestation report (15 R313). -/
structure Report where
  nonce : BitVec 384
  digest : BitVec 384
  secVer : Word64
  fuse : Word64
  chip : BitVec 13
  gtc : Word64
  ecdsa : BitVec 768
  lmsIdx : Nat
  lms : List Byte
deriving DecidableEq, Repr

/-- The boot states (15 R314). -/
inductive DevState where
  | cold | safe | reduced | full
deriving DecidableEq, Repr

/-- How a slot of the issuing bundle ended. `early` marks the causes of step 2 of R23, from which a false guard does
not exempt. -/
inductive SlotEnd where
  | ok
  | trap (t : TrapRec) (early : Bool)
  | blocked
deriving DecidableEq, Repr

/-- How the next bundle address is decided (12 R241). -/
inductive Ctl where
  | fall
  | taken (a : Addr)
  | lbrk (l : BitVec 3) (a : Addr)
  | skipBody (a : Addr)
deriving DecidableEq, Repr

/-- What happens after the bundle has issued. -/
inductive After where
  | nothing
  | yield
  | retire
  | softTrap (code : BitVec 10)
  | eret (skip : Bool)
  | barMis (sub : Nat) (b : BitVec 2)
  | swap (a : Addr)
deriving DecidableEq, Repr

/-- A slot of the bundle being issued: its number, whether it obeys the guard, its instruction, and the first
condition of its own that its encoding breaks (02 R22). -/
structure IssueSlot where
  slot : Nat
  q : Bool
  instr : Instr
  bad : Option Illegal
deriving DecidableEq, Repr

/-- What a step wants of an open bundle: to issue it, or only its boundary, or one COMMIT of that boundary. -/
inductive Want where
  | issue | boundary | commit
deriving DecidableEq, Repr

/-- The bundle being issued (02 R29): what was read at issue and what its slots have decided. -/
structure Cur where
  shift : Nat
  x : Addr
  len : Nat
  guard : Bool
  greg : R5                 -- guard register
  bench : Bool              -- H0.B, or the portable benchmark
  row : Word64
  slot : Nat
  bundle : Nat
  bdone : Bool              -- the boundary of this bundle has been taken
  ctl : Ctl
  after : After
  fin : SlotEnd
  slots : List IssueSlot    -- slots of the bundle, none once they have run
  want : Want
deriving DecidableEq, Repr

/-- One input of the schedule: cycles that pass, then a step and what it is about. -/
structure Input where
  cycles : Nat
  op : Instr
  arg : Arg
deriving DecidableEq, Repr

/-- A kick whose packet is still to match its CRC (14 R299), with the reads that have failed. -/
structure KickPend where
  word : Word64
  obj : CodeObject
  tries : Nat
deriving DecidableEq, Repr

/-- The registers of the BAR and the mailbox (15 R308, R310). -/
structure Bar where
  ringBase : Word64
  ringLog : BitVec 4
  kick : Word64
  kseq : BitVec 32
  evBase : BitVec 40
  evLog : BitVec 4
  evHead : BitVec 32
  evTail : BitVec 32
  chipNo : BitVec 13
  chipSet : Bool
  mbReq : Vector Word64 8
  mbRsp : Vector Word64 8
  mbBusy : Bool
deriving DecidableEq, Repr

/-- Health and its sources (15 R316, R311, R315; 14 R303). -/
structure Health where
  ce : BitVec 32
  ue : Nat
  degTh : BitVec 32
  repTh : BitVec 32
  replace : Bool
  rngBad : Bool
  hold : Bool
  dead : List (BitVec 13)
  degraded : List (BitVec 13)
deriving DecidableEq, Repr

/-- The headframe (15 R312-R315, 01 R14). -/
structure Frame where
  st : DevState
  tripped : Bool
  tripGtc : Word64
  tripDie : BitVec 2
  imageOk : Bool
  digest : BitVec 384
  secVer : Word64
  fuse : Word64
  lmsIdx : Nat
  attLow : Bool
  gmLost : Bool
  launchSeen : Bool
  hbmUp : Bool
  slew : Int                -- nanoseconds of correction still to be slewed in (13 R281)
  slewAcc : Nat
deriving DecidableEq, Repr

/-- The device-wide supervisor CSRs (03 R67, 13 R284). -/
structure DCsr where
  fqbase : BitVec 40
  fqsize : Word64
  fqhead : Word64
  fqtail : Word64
  trbase : BitVec 40
  trsize : Word64
  trhead : Word64
  trtail : Word64
  trmask : Word64
  trdrop : Word64
  fqBad : Bool              -- a head that the ring cannot have has been written (03 R67)
deriving DecidableEq, Repr

/-- The device and the global memory of its domain. -/
structure State where
  mem : List Host.Cell
  poisonM : List Nat
  poisonS : List Nat
  shifts : List (Nat × Shift)
  cores : List (Nat × CoreSt)
  gals : List (Nat × Gallery)
  launches : List Launch
  grants : List (Nat × BitVec 128)
  bard : List (Nat × Vector Barrier 4)   -- the device barriers of each launch (13 R275), by its SEQ
  d : DCsr
  ttCache : List (Nat × BitVec 1024)
  bar : Bar
  kicks : List KickPend
  events : List HostEvent
  msix : List (BitVec 3)
  health : Health
  frame : Frame
  gtc : Word64
  gtcFrac : Nat
  saved : List Saved
  savedN : Nat              -- contexts saved so far
  published : List (Addr × Addr)
  netOut : List (BitVec 13 × Packet)
  wire : List (BitVec 13 × BitVec 512)   -- what the device has put on its paths, replays among it (15 R311)
  retry : List (Nat × List (BitVec 512)) -- the retry buffer of each path, by the chip at its other end
  resends : List (Nat × Nat × Nat)       -- the flit that failed last on each path out, and how often in a row
  linkFlits : List (Nat × List (BitVec 480))   -- accepted flits not yet performed, by the chip at the other end
  replays : List (Nat × Nat)   -- failed replays in a row, by the chip at the other end of the path (15 R311)
  refusedCp : List (BitVec 13 × CpId)   -- CPYPs of other chips that a granule has stopped (04 R83)
  hostData : List Byte
  attReports : List Report    -- attestation reports returned to the host
  schedule : List Input
  arg : Arg
  freeN : Nat
  bundles : Nat
  cur : Cur
  turn : Nat
deriving DecidableEq, Repr

/-! ### Outcomes -/

/-- Why the machine stops with a fault. -/
inductive Fault where
  /-- No step raises this: the manual ends every fault in a trap, a rollback, a report or an abort (14 R285),
  all of which are next states. Safe. -/
  | unreachable
deriving DecidableEq, Repr

/-- Why a step has no meaning. -/
inductive Refusal where
  /-- Raised by an arm of `exec` whose instruction has no meaning yet. Safe. -/
  | notModelled (mnemonic : String)
deriving DecidableEq, Repr

/-! ### Reset -/

def VReg.zero : VReg := ⟨0, .none, false⟩
def Tile.zero : Tile := ⟨[], none, .none, false, false⟩
def Front.empty : Front := ⟨0, [], 0, false⟩
def Iter.zero : Iter := ⟨0, Vector.replicate 6 0, 0⟩
def Window.zero : Window := ⟨Vector.replicate 12 0, Vector.replicate 6 0, 0, false⟩
def Level.zero : Level := ⟨0, 0, 0, 0, 0, false, 0, 0⟩
def RCsr.zero : RCsr := ⟨0, 0, 0xF, false, 0, 0, 0, Vector.replicate 8 0, 0, 0, 0⟩

/-- Registers at reset (R113 for maps and windows, R146, R204, R245, R254, R147; the others are log 3). -/
def Arch.zero : Arch where
  g := Vector.replicate 32 0
  gpois := 0
  v := Vector.replicate 32 .zero
  fronts := Vector.replicate 4 .empty
  m := Vector.replicate 8 0
  it := Vector.replicate 16 .zero
  w := Vector.replicate 8 .zero
  l := Vector.replicate 6 .zero
  fmtt := Vector.replicate 16 0
  c := .zero

def KCsr.zero : KCsr where
  port := false
  priv := false
  ppriv := false
  inh := false
  pport := false
  nr := false
  cause := 0
  fpc := 0
  spc := 0
  fslot := 0
  finfo := 0
  fstep := 0
  na := 0
  nf := 0
  spbase := 0
  splim := 0
  compat := false
  spfirst := 0
  spstall := 0
  spfault := 0
  deprcnt := 0
  ttbase := 0
  ttlim := 0
  svec := 0
  savetid := 0
  rngmode := 0
  rngtid := 0
  fencetmo := 0
  bwin := Vector.replicate 16 0

def FStatus.clear : FStatus := ⟨0xFFFF, 0, false, false, false⟩

/-- A shift at reset: FREE, nothing queued (13 R258). -/
def Shift.initial : Shift where
  st := .free
  blockOn := none
  pc := 0
  arch := .zero
  tiles := Vector.replicate 8 .zero
  k := .zero
  inflight := []
  soon := []
  lsq := []
  mxq := []
  mxFault := none
  cpq := Vector.replicate 4 []
  done := Vector.replicate 4 0
  cpHold := false
  cpTag := Vector.replicate 4 0
  gate := []
  shadow := none
  liveAt := 0
  tileWr := 0
  bnd := 0
  status := .clear
  fences := []
  grantPend := []
  closePend := []
  memTrap := none
  trapPend := none
  acasGo := []
  fpx := []
  phaseStart := 0
  task := none
  bound := none
  allot := (0, 0)
  bg := none
  bgIss := none
  mrd := []
  mxFl := []
  shMrd := []
  shFl := []
  mismatch := false
  barr := none
  awaiting := none
  bndSt := .away
  loopBuf := []
  shLoop := []
  waitCy := 0
  runCy := 0
  idleCy := 0
  preemptReq := false
  issued := false
  trapBundle := 0

def CoreSt.initial : CoreSt := ⟨[], [], [], [], 0⟩
def Barrier.empty : Barrier := ⟨0, []⟩

def Gallery.initial : Gallery where
  sp := []
  guard := []
  tags := []
  barg := Vector.replicate 4 .empty
  slots := []
  holder := none
  fenced := false
  fenceReq := false
  steerCy := 0
  ctl := []

/-- No bundle is issuing. -/
def Cur.nothing : Cur where
  shift := 0
  x := 0
  len := 0
  guard := false
  greg := 0
  bench := false
  row := 0
  slot := 0
  bundle := 0
  bdone := false
  ctl := .fall
  after := .nothing
  fin := .ok
  slots := []
  want := .issue

/-- The BAR registers at reset (R308). -/
def Bar.reset : Bar where
  ringBase := 0
  ringLog := 4
  kick := 0
  kseq := 0xFFFFFFFF
  evBase := 0
  evLog := 6
  evHead := 0
  evTail := 0
  chipNo := 0
  chipSet := false
  mbReq := Vector.replicate 8 0
  mbRsp := Vector.replicate 8 0
  mbBusy := false

def Health.reset : Health := ⟨0, 0, 0xFFFFFFFF, 0xFFFFFFFF, false, false, false, [], []⟩

def Frame.reset : Frame where
  st := .cold
  tripped := false
  tripGtc := 0
  tripDie := 0
  imageOk := false
  digest := 0
  secVer := 0
  fuse := 0
  lmsIdx := 0
  attLow := false
  gmLost := false
  launchSeen := false
  hbmUp := false
  slew := 0
  slewAcc := 0

def DCsr.reset : DCsr := ⟨0, 0, 0, 0, 0, 0, 0, 0, 0, 0, false⟩

/-- The head of the free queue written: one beyond the tail, or more than the ring behind it, spoils the ring (03 R67). -/
def DCsr.withHead (d : DCsr) (v : Word64) : DCsr :=
  { d with fqhead := v, fqBad := d.fqBad || decide (d.fqsize < d.fqtail - v) }

/-- The device right after reset: COLD (R314), no launch, nothing listed. -/
def State.reset : State where
  mem := []
  poisonM := []
  poisonS := []
  shifts := []
  cores := []
  gals := []
  launches := []
  grants := []
  bard := []
  d := .reset
  ttCache := []
  bar := .reset
  kicks := []
  events := []
  msix := []
  health := .reset
  frame := .reset
  gtc := 0
  gtcFrac := 0
  saved := []
  savedN := 0
  published := []
  netOut := []
  wire := []
  retry := []
  resends := []
  linkFlits := []
  replays := []
  refusedCp := []
  hostData := []
  attReports := []
  schedule := []
  arg := .nothing
  freeN := 0
  bundles := 0
  cur := .nothing
  turn := 0

/-- What every step answers. -/
abbrev Out := Host.Outcome State Fault Refusal

end Sys2Proof.Machine
end

