-- ==== Sys2Proof/Machine/Mem.lean ====
section
/-! DEFINITION. Bytes of M and of the scratchpads, poison, and the two translations: tensor references
(03_main_memory R50-R55, R63, R64) and flat addresses (R57, R58), and the scratchpad window (05 R98-R100). -/

namespace Sys2Proof.Machine

/-! ### Keyed lists -/

/-- The value at key k, or d. -/
def lget {α : Type} : List (Nat × α) → Nat → α → α
  | [], _, d => d
  | (k', v) :: r, k, d => if k' = k then v else lget r k d

/-- The list with v at key k, keys rising. -/
def lput {α : Type} : List (Nat × α) → Nat → α → List (Nat × α)
  | [], k, v => [(k, v)]
  | (k', v') :: r, k, v =>
    if k < k' then (k, v) :: (k', v') :: r else if k = k' then (k, v) :: r else (k', v') :: lput r k v

/-- A rising list of numbers with k entered. -/
def setIns : List Nat → Nat → List Nat
  | [], k => [k]
  | x :: r, k => if k < x then k :: x :: r else if k = x then x :: r else x :: setIns r k

/-! ### Byte memories -/

/-- What an unlisted byte reads as (logs 4 and 5). -/
def memDefault : Byte := 0

/-- One byte of a memory. -/
def memByte : List Host.Cell → Nat → Byte
  | [], _ => memDefault
  | (a', b) :: r, a => if a' = a then b else memByte r a

/-- One byte written, keeping the canonical form. -/
def memPut : List Host.Cell → Nat → Byte → List Host.Cell
  | [], a, b => if b = memDefault then [] else [(a, b)]
  | (a', b') :: r, a, b =>
    if a < a' then (if b = memDefault then (a', b') :: r else (a, b) :: (a', b') :: r)
    else if a = a' then (if b = memDefault then r else (a, b) :: r)
    else (a', b') :: memPut r a b

/-- Every address of a memory lies above a bound, addresses rise, and no byte equals the default. -/
def Memory.wfFrom : Option Nat → List Host.Cell → Bool
  | _, [] => true
  | lo, (a, b) :: r =>
    (match lo with
      | none => true
      | some l => decide (l < a)) && decide (b ≠ memDefault) && Memory.wfFrom (some a) r

/-- The canonical form of a memory. -/
def Memory.wf (m : List Host.Cell) : Bool := Memory.wfFrom none m

/-- n bytes from a, little-endian, as a number (R1). -/
def memRead (m : List Host.Cell) (a : Nat) : Nat → Nat
  | 0 => 0
  | n + 1 => (memByte m a).toNat + 256 * memRead m (a + 1) n

/-- n bytes of v written at a, little-endian. -/
def memWrite (m : List Host.Cell) (a : Nat) : Nat → Nat → List Host.Cell
  | 0, _ => m
  | n + 1, v => memWrite (memPut m a (.ofNat 8 v)) (a + 1) n (v / 256)

/-- Cells of consecutive bytes from a, those that read as the default left out. -/
def cellsFrom : Nat → List Byte → List Host.Cell
  | _, [] => []
  | a, b :: r => if b = memDefault then cellsFrom (a + 1) r else (a, b) :: cellsFrom (a + 1) r

/-- A run of bytes written at a. -/
def memBlit (m : List Host.Cell) (a : Nat) (bytes : List Byte) : List Host.Cell :=
  m.filter (fun c => decide (c.1 < a)) ++ cellsFrom a bytes ++ m.filter (fun c => decide (a + bytes.length ≤ c.1))

/-- A run of n bytes from a. -/
def memBytes (m : List Host.Cell) (a n : Nat) : List Byte := (List.range n).map fun i => memByte m (a + i)

/-- Whether some byte of [a, a+n) is poisoned. -/
def anyPois (p : List Nat) (a n : Nat) : Bool := p.any fun k => decide (a ≤ k) && decide (k < a + n)
/-- The poison of [a, a+n) cleared. -/
def clearPois (p : List Nat) (a n : Nat) : List Nat := p.filter fun k => !(decide (a ≤ k) && decide (k < a + n))
/-- The bytes [a, a+n) poisoned. -/
def setPois (p : List Nat) (a n : Nat) : List Nat := (List.range n).foldl (fun q i => setIns q (a + i)) p

/-! ### Units of the device (01 R10) -/

namespace State

def sh (s : State) (n : Nat) : Shift := lget s.shifts n .initial
def setSh (s : State) (n : Nat) (x : Shift) : State := { s with shifts := lput s.shifts n x }
def modSh (s : State) (n : Nat) (f : Shift → Shift) : State := s.setSh n (f (s.sh n))
def core (s : State) (c : Nat) : CoreSt := lget s.cores c .initial
def setCore (s : State) (c : Nat) (x : CoreSt) : State := { s with cores := lput s.cores c x }
def gal (s : State) (g : Nat) : Gallery := lget s.gals g .initial
def setGal (s : State) (g : Nat) (x : Gallery) : State := { s with gals := lput s.gals g x }

/-- The launch that a shift serves. -/
def launchOf (s : State) (n : Nat) : Option Launch :=
  match (s.sh n).bound with
  | some (seq, _) => s.launches.find? fun l => l.seq = seq
  | none => none

/-- The physical gallery and core of a shift. -/
def galOf (n : Nat) : Nat := n / 32
def coreOf (n : Nat) : Nat := n / 4

end State

/-- Place of a number in a list. -/
def indexIn (l : List Nat) (k : Nat) : Option Nat := l.findIdx? (fun x => x = k)

/-- The compiled gallery at a physical gallery of a launch, twins included (R10, R272). -/
def Launch.compiledGal (l : Launch) (g : Nat) : Nat :=
  match indexIn l.place g with
  | some k => k
  | none => (indexIn l.twin g).getD 0

/-- The compiled number of the gallery in which a shift runs; 0 for a shift of no launch. -/
def State.compGal (s : State) (n : Nat) : Nat :=
  match s.launchOf n with
  | some l => l.compiledGal (n / 32)
  | none => 0

/-! ### M -/

/-- The key in M of byte b of chip c; the own chip stands first whatever its number. -/
def State.chipKey (s : State) (c : Option Nat) (b : Nat) : Nat :=
  match c with
  | none => b
  | some c => if s.bar.chipSet && s.bar.chipNo.toNat = c then b else (c + 1) * chipSpan + b

/-- Whether a chip is reached only over a dead link (R224, R311). -/
def State.deadChip (s : State) (c : Option Nat) : Bool :=
  match c with
  | none => false
  | some c => s.health.dead.any (fun d => d.toNat = c)

/-- A write of n bytes to M; good data clear poison. -/
def State.writeM (s : State) (key n v : Nat) : State :=
  { s with mem := memWrite s.mem key n v, poisonM := clearPois s.poisonM key n }

/-- n bytes of M. -/
def State.readM (s : State) (key n : Nat) : Nat := memRead s.mem key n

/-! ### Tensor entries (R50) -/

/-- How a translation ends (R54, R55, R63). -/
inductive Trans where
  /-- a byte of M and the bit within it, on a chip (none: this one) -/
  | ok (chip : Option Nat) (key : Nat) (bit : Nat)
  | outside
  | absent
  | discard
  | bad (c : Cause) (sub : Nat)
deriving DecidableEq, Repr

/-- Bits [lo+len-1:lo] of the 64-bit word k of an entry. -/
def eFld (e : BitVec 1024) (k lo len : Nat) : Nat := fld e (64 * k + lo) len

def eNdim (e : BitVec 1024) : Nat := eFld e 0 0 4
def eFmt (e : BitVec 1024) : Nat := eFld e 0 4 4
def eXm (e : BitVec 1024) : Bool := eFld e 0 9 1 = 1
def eBud (e : BitVec 1024) : Bool := eFld e 0 10 1 = 1
def eHome (e : BitVec 1024) : Nat := eFld e 0 16 13
def eL2t (e : BitVec 1024) (j : Nat) : Nat := eFld e 1 (4 * j) 4
def eExt (e : BitVec 1024) (j : Nat) : Nat := fld e (192 + 32 * j) 32
def eTtf (e : BitVec 1024) : Nat := eFld e 2 0 40
def eClf (e : BitVec 1024) : Nat := eFld e 6 0 40
def eNseq (e : BitVec 1024) : Nat := eFld e 6 40 24
def eBudf (e : BitVec 1024) : Nat := eFld e 7 0 40

/-- Bytes of k elements of a format that start at element 0 (R51, R132). -/
def fmtBytes (f k : Nat) : Nat := if f = 6 then (k + 4) / 5 * 4 else k * (fmtWidth f / 8)

/-- The byte offset of element k of a run of elements; for T6 that of its 32-bit word, and the bit within it. -/
def elemOff (f k : Nat) : Nat × Nat :=
  if f = 6 then (k / 5 * 4, 6 * (k % 5)) else (k * (fmtWidth f / 8), 0)

/-- Whether an entry is valid and well-formed (R50, R51). The model's own choices (log 76): BUD with XM = 0 and a tile that
does not fit a frame are malformed, while CLF, NSEQ and BUDF with XM = 0 count for nothing. -/
def entryOk (e : BitVec 1024) : Bool :=
  let nd := eNdim e
  eFld e 0 8 1 = 1 && 1 ≤ nd && nd ≤ 6 && eFmt e ≤ 0xC
  && eFld e 0 11 5 = 0 && eFld e 0 29 35 = 0 && eFld e 1 24 40 = 0 && eFld e 2 40 24 = 0
  && eFld e 7 40 24 = 0 && fld e 512 512 = 0
  && (List.range 6).all (fun j => j < nd || eExt e j = 0)
  && (if eXm e then nd = 3 && eL2t e 0 = 6 && eExt e 0 ≤ 16777216
      else !eBud e && decide (fmtBytes (eFmt e) (2 ^ ((List.range nd).map (eL2t e)).sum) ≤ frameBytes))

/-- The entry of tensor tid, or none when tid is beyond the table: the one in memory, or an older one that a cache
still holds (R53). The model's own choices (log 77): a table frame beyond the HBM goes on into the keys of other chips, and
poison in a table is not looked at. -/
def State.tensorEntry (s : State) (ttbase : BitVec 40) (ttlim : BitVec 32) (tid : Nat) : Option (BitVec 1024) :=
  if ttlim.toNat ≤ tid then none
  else
    let a := ttbase.toNat * frameBytes + 128 * tid
    let now : BitVec 1024 := .ofNat 1024 (s.readM a 128)
    let old := lget s.ttCache a now
    some (if old = now then now else if Config.freeBit s.freeN a then old else now)

/-- The device's caches hold the entry after its first use (R53). -/
def State.cacheEntry (s : State) (ttbase : BitVec 40) (tid : Nat) : State :=
  let a := ttbase.toNat * frameBytes + 128 * tid
  if s.ttCache.any (fun p => p.1 = a) then s
  else { s with ttCache := lput s.ttCache a (.ofNat 1024 (s.readM a 128)) }

/-- What an access needs (R54). -/
inductive Acc where
  | read | write | code | readWrite
deriving DecidableEq, Repr

/-- Whether PERM of a tile-table entry grants the access (R52). -/
def permOk (t : Nat) (acc : Acc) : Bool :=
  match acc with
  | .read => t / 2 ^ 62 % 2 = 1
  | .write => t / 2 ^ 61 % 2 = 1
  | .code => t / 2 ^ 60 % 2 = 1
  | .readWrite => t / 2 ^ 62 % 2 = 1 && t / 2 ^ 61 % 2 = 1

/-- The memory port of tile t (R53). -/
def portOf (tid t : Nat) : Nat :=
  let x := (tid + 2477 * t) % 2 ^ 32
  (x ^^^ (x >>> 5) ^^^ (x >>> 10) ^^^ (x >>> 15) ^^^ (x >>> 20) ^^^ (x >>> 25) ^^^ (x >>> 30)) % 32

/-- Row-major tile index and in-tile element index (R51), over dimensions j < nd from the outermost. -/
def tileIndex (e : BitVec 1024) (c : Nat → Nat) (nd : Nat) : Nat × Nat :=
  (List.range nd).foldl
    (fun (p : Nat × Nat) j =>
      let l := eL2t e j
      (p.1 * ((eExt e j + 2 ^ l - 1) / 2 ^ l) + c j / 2 ^ l, p.2 * 2 ^ l + c j % 2 ^ l)) (0, 0)

/-- A home of R54: this chip, or another one. -/
def State.homeOf (s : State) (h : Nat) : Option Nat :=
  if s.bar.chipSet && s.bar.chipNo.toNat = h then none else some h

/-- The home chip of an entry. Until its number is set no HOME names this device (R13, log 19). -/
def State.entryHome (s : State) (e : BitVec 1024) : Option Nat := s.homeOf (eHome e)

/-- The chip that a byte window's access reaches (R58): the one that its address names, and for this chip the entry's HOME.
Until the number is set the flat value 0x3FFF reaches the device itself (R13, log 19). -/
def State.windowHome (s : State) (e : BitVec 1024) (chip : Option Nat) : Option Nat :=
  match chip with
  | some c => some c
  | none => if s.bar.chipSet then s.entryHome e else none

/-- Whether a coordinate lies outside an entry's extents (R54). -/
def outsideExt (e : BitVec 1024) (c : List Int) : Bool :=
  (List.range (eNdim e)).any fun j => decide (c.getD j 0 < 0) || decide ((eExt e j : Int) ≤ c.getD j 0)

/-- Where a reference ends whose home lies behind a dead link: nothing is found out there, so it leads to that home, at the byte
that its tables would give, or else to one beyond the home's HBM (R54, 11 R224, log 21). -/
def State.behindDead (s : State) (home : Option Nat) (r : Trans) : Trans :=
  if s.deadChip home then (match r with
    | .ok c key bit => .ok c key bit
    | _ => .ok home (s.chipKey home (framesPerChip * frameBytes)) 0)
  else r

/-- Translation of an ordinary tensor from the extent check on, on chip `home` (R54). Poison in its tile table is not
looked at (log 77). -/
def State.transTile (s : State) (tid : Nat) (e : BitVec 1024) (home : Option Nat) (c : List Int) (acc : Acc) : Trans :=
  let nd := eNdim e
  let cs := c.take nd
  if outsideExt e cs then .outside
  else
    let (t, k) := tileIndex e (fun j => (cs.getD j 0).toNat) nd
    let w := s.readM (s.chipKey home (eTtf e * frameBytes + 8 * t)) 8
    if w / 2 ^ 63 = 0 || w / 2 ^ 56 % 16 != 0 || w % 2 ^ 16 != 0 then .bad .trans 3
    else if !permOk w acc then .bad .perm 0
    else
      let fr := w / 2 ^ 16 % 2 ^ 40
      if framesPerChip ≤ fr || fr % 32 != portOf tid t then .bad .trans 8
      else
        let (b, bit) := elemOff (eFmt e) k
        .ok home (s.chipKey home (fr * frameBytes + b)) bit

/-! ### Claim lists (R60-R64) -/

/-- The key of the claim block of a sequence. -/
def State.claimKey (s : State) (e : BitVec 1024) (seq : Nat) : Nat :=
  s.chipKey (s.entryHome e) (eClf e * frameBytes + 1024 * seq)

/-- The extents in use of a claim list, lowest position first. -/
def State.extents (s : State) (key : Nat) : List (BitVec 128) :=
  let next := s.readM (key + 4) 1 % 64
  (List.range next).map fun i => .ofNat 128 (s.readM (key + 64 + 16 * i) 16)

def xBasef (x : BitVec 128) : Nat := fld x 0 40
def xLen (x : BitVec 128) : Nat := fld x 40 24
def xPos (x : BitVec 128) : Nat := fld x 64 24
def xTag (x : BitVec 128) : Nat := fld x 88 3
def xSh (x : BitVec 128) : Bool := fld x 91 1 = 1
def xFpo (x : BitVec 128) : Nat := fld x 92 6
def xStride (x : BitVec 128) : Nat := fld x 98 8
def xRunp (x : BitVec 128) : Nat := fld x 106 14
def xRef (x : BitVec 128) : Nat := fld x 120 8

/-- The position at which a head's token stands (R64): none when it is absent. -/
def State.ringSlot (s : State) (e : BitVec 1024) (cur h p : Nat) : Option Nat :=
  if !eBud e || 256 ≤ h then some p
  else
    let w := s.readM (s.chipKey (s.entryHome e) (eBudf e * frameBytes + 8 * h)) 8
    if w % 2 = 0 then some p
    else
      let sn := w / 2 ^ 8 % 128
      let win := w / 2 ^ 32 % 2 ^ 24
      if p < sn then some p
      else if decide (max sn (cur - win) ≤ p) && decide (p < cur) then some (sn + (p - sn) % win)
      else none

/-- Whether a head streams (R64). -/
def State.isStream (s : State) (e : BitVec 1024) (h : Nat) : Bool :=
  eBud e && h < 256 && s.readM (s.chipKey (s.entryHome e) (eBudf e * frameBytes + 8 * h)) 1 % 2 = 1

/-- Resolution of (p, h, x) of sequence seq (R63). -/
def State.transClaim (s : State) (e : BitVec 1024) (seq : Nat) (c : List Int) (acc : Acc) : Trans :=
  if acc = .code then .bad .perm 0
  else if eNseq e ≤ seq then .bad .trans 7
  else
    let p := c.getD 0 0
    let h := c.getD 1 0
    let x := c.getD 2 0
    if p < 0 || decide ((eExt e 0 : Int) ≤ p) || h < 0 || decide ((eExt e 1 : Int) ≤ h) || x < 0
        || decide ((eExt e 2 : Int) ≤ x) then .outside
    else
      let key := s.claimKey e seq
      let cur := s.readM key 3
      let isWrite : Bool := decide (acc = .write) || decide (acc = .readWrite)
      match s.ringSlot e cur h.toNat p.toNat with
      | none => if isWrite then .discard else .absent
      | some q0 =>
        match (s.extents key).find? fun w => decide (xPos w ≤ q0) && decide (q0 < xPos w + xLen w) with
        | none => if isWrite then .bad .trans 6 else .absent
        | some w =>
          let q := q0 - xPos w + xFpo w
          let k := (q % 64) * eExt e 1 * eExt e 2 + h.toNat * eExt e 2 + x.toNat
          let (b, bit) := elemOff (eFmt e) k
          let fr := xBasef w + q / 64 * xStride w + b / frameBytes
          if framesPerChip ≤ fr then .bad .trans 8
          else .ok (s.entryHome e) (s.chipKey (s.entryHome e) (fr * frameBytes + b % frameBytes)) bit

/-- Whether a home is a chip of the domain (R13, R55): this one, or another that the domain holds (log 28). -/
def homeInDomain (home : Option Nat) : Bool := match home with
  | none => true
  | some c => decide (c ≤ 6143) && Config.assigned c

/-- A tensor reference (R54), from an entry already read. -/
def State.transEntry (s : State) (tid : Nat) (e : BitVec 1024) (seq : Nat) (c : List Int) (acc : Acc) : Trans :=
  if !entryOk e then .bad .trans 1
  else if !homeInDomain (s.entryHome e) then .bad .trans 5
  else s.behindDead (s.entryHome e) (if eXm e then s.transClaim e seq c acc else s.transTile tid e (s.entryHome e) c acc)

/-- Translate (R54) for a shift's launch. -/
def State.translate (s : State) (n tid seq : Nat) (c : List Int) (acc : Acc) : Trans :=
  match s.tensorEntry (s.sh n).k.ttbase (s.sh n).k.ttlim tid with
  | none => .bad .trans 1
  | some e => s.transEntry tid e seq c acc

/-! ### Flat addresses (R57, R58) -/

/-- Where a flat address leads. -/
inductive Flat where
  | sp (off : Nat)
  | m (chip : Option Nat) (key : Nat)
  | bad (c : Cause) (sub tid : Nat)
deriving DecidableEq, Repr

/-- The chip that a flat address or record names: none for this one (R57, R13). -/
def State.chipField (s : State) (c : Nat) : Option (Option Nat) :=
  if c = 0x3FFF then some none
  else if homeInDomain (s.homeOf c) then some (s.homeOf c)
  else none

/-- Resolution of a flat address for a shift. Accesses are aligned, so they stay within one tile (R58). The model's own
choices (log 78): a fault that names no tensor has TID 0, and of the conditions of a window-0 address TRANS comes first,
for a code fetch too. -/
def State.flat (s : State) (n : Nat) (a : Addr) (acc : Acc) : Flat :=
  let w := fld a 46 4
  match s.chipField (fld a 50 14) with
  | none => .bad .trans 5 0
  | some chip =>
    if w = 0 then
      if fld a 30 16 != 0 then .bad .trans 4 0
      else if acc = .code || chip.isSome || fld a 24 6 != s.compGal n then .bad .perm 0 0
      else .sp (fld a 0 24)
    else
      let k := (s.sh n).k
      let b := k.bwin[w]?.getD 0
      let tid := fld b 0 20
      if fld b 20 1 = 0 then .bad .trans 4 tid
      else
        match s.tensorEntry k.ttbase k.ttlim tid with
        | none => .bad .trans 1 tid
        | some e =>
          if eFld e 0 8 1 = 0 || eNdim e != 1 || (eFmt e != 8 && eFmt e != 9) || eXm e || eL2t e 0 < 3 then .bad .trans 4 tid
          else if !entryOk e then .bad .trans 1 tid
          else if !homeInDomain (s.windowHome e chip) then .bad .trans 5 tid
          else
            -- TRANS (BOUND) is found on the issuing device (R58)
            match (if outsideExt e [(fld a 0 46 : Int)] then Trans.outside else s.behindDead (s.windowHome e chip)
                (s.transTile tid e (s.windowHome e chip) [(fld a 0 46 : Int)] acc)) with
            | .ok c key _ => .m c key
            | .bad c sub => .bad c sub tid
            | _ => .bad .trans 2 tid

/-- ctx.finfo of TRANS and PERM (R55). -/
def transInfo (sub tid : Nat) : Word64 := .ofNat 64 (sub + tid * 256)

/-! ### The scratchpad (R98-R100) -/

/-- How a byte violates: 1 GUARD, 2 SPWIN. -/
def State.violation (s : State) (n off : Nat) : Option Nat :=
  let k := (s.sh n).k
  let g := off / 64
  if g < k.spbase.toNat || k.splim.toNat ≤ g then some 2
  else if (s.gal (n / 32)).guard.any (fun x => x = g) then some 1
  else none

/-- The first violating byte among offsets, with its kind. -/
def State.firstViol (s : State) (n : Nat) (offs : List Nat) : Option (Nat × Nat) :=
  offs.findSome? fun o => (s.violation n o).map fun k => (o, k)

/-- One violating access recorded (R99, R100). -/
def State.recordViol (s : State) (n : Nat) (write : Bool) (v : Option (Nat × Nat)) : State :=
  match v with
  | none => s
  | some (off, kind) =>
    s.modSh n fun x =>
      if x.k.compat then
        if x.k.spfirst.toNat / 2 ^ 24 = 1 then x
        else { x with k := { x.k with spfirst := .ofNat 25 (2 ^ 24 + off % spBytes) } }
      else
        let f := x.k.spfault
        let cnt := min 255 (fld f 40 8 + 1)
        let low := if fld f 32 2 = 0 then
            off % spBytes + (off / 64 % 128) * 2 ^ 24 + (if write then 2 ^ 31 else 0) + kind * 2 ^ 32
          else fld f 0 34
        { x with k := { x.k with spfault := .ofNat 64 (low + cnt * 2 ^ 40) } }

/-- Key of a scratchpad byte in the poison list. -/
def spKey (g off : Nat) : Nat := g * spBytes + off

/-- The byte that a shift reads: 0 in violation. -/
def State.spByte (s : State) (n off : Nat) : Byte :=
  match s.violation n off with
  | some _ => 0
  | none => memByte (s.gal (n / 32)).sp off

/-- A checked read of len bytes: the value, its poison, the state with the violation recorded. -/
def State.spRead (s : State) (n off len : Nat) : Nat × Bool × State :=
  let offs := (List.range len).map (off + ·)
  let v := offs.foldr (fun o acc => (s.spByte n o).toNat + 256 * acc) 0
  let p := offs.any fun o => (s.violation n o).isNone && s.poisonS.any (fun k => k = spKey (n / 32) o)
  (v, p, s.recordViol n false (s.firstViol n offs))

/-- A raw write of bytes to a gallery. -/
def State.spPoke (s : State) (g off len v : Nat) : State :=
  { s.setGal g { s.gal g with sp := memWrite (s.gal g).sp off len v } with
    poisonS := clearPois s.poisonS (spKey g off) len }

/-- The bytes written that are not in violation. -/
def State.spPokeOk (s : State) (n off v : Nat) : Nat → State
  | 0 => s
  | len + 1 =>
    let s1 := match s.violation n off with
      | some _ => s
      | none => s.spPoke (n / 32) off 1 (v % 256)
    s1.spPokeOk n (off + 1) (v / 256) len

/-- A checked write of len bytes. -/
def State.spWrite (s : State) (n off len v : Nat) : State :=
  (s.spPokeOk n off v len).recordViol n true (s.firstViol n ((List.range len).map (off + ·)))

end Sys2Proof.Machine
end

