-- ==== Sys2Proof/Machine/Flags.lean ====
section
/-! DEFINITION. The flag register: which bits are raised, in what order, and what they make pending (07 R142-R144).
The conditions themselves come with each operation of Numeric. -/

namespace Sys2Proof.Machine

/-- The lowest flag bit that is set. -/
def lowFlag (f : Flags) : Nat := ((List.range 7).find? fun i => f.getLsbD i).getD 0

/-- Flag bits raised by slot i of bundle b at address x, as they land (R142, R143, R144): ctx.fpen is looked at then
(the model's choice, log 96). `free` stands for a field that the manual does not give. -/
def Shift.raiseFlags (s : Shift) (bits : Flags) (slot bundle : Nat) (x : Addr) (free : BitVec 4) : Shift :=
  if bits = 0 then s
  else
    let c := s.arch.c
    let ord := bundle * 64 + slot * 8 + lowFlag bits
    let take := c.fpfirst.getLsbD 63 = false || decide (ord < c.fpOrd)
    let first : Word64 := .ofNat 64 (2 ^ 63 + slot % 8 * 2 ^ 60 + lowFlag bits * 2 ^ 57 + x.toNat % 2 ^ 50)
    let c' := { c with
      flags := c.flags.setIfInBounds slot ((c.flags[slot]?.getD 0) ||| bits)
      fpfirst := if take then first else c.fpfirst
      fpOrd := if take then ord else c.fpOrd }
    let en := bits &&& c.fpen
    let rec_ : TrapRec := ⟨.fpx, 0, free, .ofNat 64 (en.toNat + slot % 8 * 256 + x.toNat % 2 ^ 50 * 2 ^ 14), 0⟩
    { s with
      arch := { s.arch with c := c' }
      fpx := if en = 0 then s.fpx else s.fpx ++ [(bundle * 8 + slot, rec_)] }

end Sys2Proof.Machine
end

