-- ==== Sys2Proof/Machine/Maps.lean ====
section
/-! DEFINITION. Coordinate maps (06_registers R114-R122): their image, coordinates, and how maps follow data. -/

namespace Sys2Proof.Machine

/-! ### Images (R114) -/

def MapSt.code : MapSt → Nat
  | .none => 0 | .affine => 1 | .indexed => 2 | .broken => 3

def MapSt.ofCode (n : Nat) : MapSt := if n = 0 then .none else if n = 1 then .affine else if n = 2 then .indexed else .broken

namespace CMap

/-- The 256-bit image of a map. -/
def image (m : CMap) : Nat :=
  m.st.code + m.tt.toNat * 2 ^ 2 + m.fmt.toNat * 2 ^ 8 + m.id.toNat * 2 ^ 12 + m.ir.toNat * 2 ^ 15 + m.od.toNat * 2 ^ 16
    + m.orev.toNat * 2 ^ 19 + m.ie.toNat * 2 ^ 20 + m.cmp.toNat * 2 ^ 29
    + ((List.range 6).map fun j => (m.datum[j]?.getD 0).toNat * 2 ^ (64 + 32 * j)).sum

/-- The map of a 256-bit image, taken as it stands. -/
def ofImage (i : Nat) : CMap where
  st := .ofCode (i % 4)
  tt := .ofNat 6 (i / 2 ^ 2)
  fmt := .ofNat 4 (i / 2 ^ 8)
  id := .ofNat 3 (i / 2 ^ 12)
  ir := i / 2 ^ 15 % 2 = 1
  od := .ofNat 3 (i / 2 ^ 16)
  orev := i / 2 ^ 19 % 2 = 1
  ie := .ofNat 9 (i / 2 ^ 20)
  cmp := .ofNat 5 (i / 2 ^ 29)
  datum := Vector.ofFn fun (j : Fin 6) => .ofNat 32 (i / 2 ^ (64 + 32 * j.val))

/-- A map of which every bit is a free value (R3, R116). -/
def freed (n place : Nat) : CMap :=
  ofImage ((List.range 4).map fun k => (Config.freeWord n (place + k)).toNat * 2 ^ (64 * k)).sum

/-- A format whose elements have width w. -/
def fmtOf (w : Nat) : BitVec 4 := if w = 6 then 6 else if w = 8 then 9 else if w = 16 then 1 else 0xB

/-- A free map as a coordinate read of width w takes it: the read is not refused (R116, log 38). -/
def readable (m : CMap) (w : Nat) : CMap :=
  { m with st := .affine, fmt := fmtOf w, ie := if m.ie = 0 then 1 else m.ie, cmp := 0 }

/-- The map that CMSET writes to vd from an image (R124). -/
def ofCmset (d : R5) (i : Nat) : CMap :=
  let m := ofImage i
  match m.st with
  | .none => .none
  | .broken => .broken
  | _ =>
    if i / 2 ^ 34 % 2 ^ 30 != 0 || m.id = m.od || 5 < m.id.toNat || 5 < m.od.toNat || m.ie = 0 || 320 < m.ie.toNat
        || 0xB < m.fmt.toNat || (m.st = .affine && m.cmp != 0) || (m.st = .indexed && (m.cmp = d || m.fmt = 6))
    then .broken else m

/-- Width of the elements that a map describes (R114); 6 stands for T6. -/
def width (m : CMap) : Nat := fmtWidth m.fmt.toNat

/-- Equal(M1, M2) (R117). -/
def equal (a b : CMap) : Bool :=
  let same := a.tt = b.tt && a.id = b.id && a.ir = b.ir && a.od = b.od && a.orev = b.orev && a.ie = b.ie
    && decide (a.datum = b.datum) && a.width = b.width
  match a.st, b.st with
  | .none, .none => true
  | .affine, .affine => same
  | .indexed, .indexed => same && a.cmp = b.cmp
  | _, _ => false

/-- Whether a map gives coordinates. -/
def live (m : CMap) : Bool := m.st = .affine || m.st = .indexed

/-- A datum moved by an integer, modulo 2^32. -/
def shift (m : CMap) (d : Nat) (k : Int) : CMap :=
  { m with datum := m.datum.setIfInBounds d ((m.datum[d]?.getD 0) + .ofInt 32 k) }

/-- Advance(M, k, n) (R117). -/
def advance (m : CMap) (k n : Nat) : CMap :=
  if !m.live || k = 0 then m
  else if m.st = .indexed then .broken
  else
    let q := k / m.ie.toNat
    let s := k % m.ie.toNat
    if s != 0 && m.ie.toNat < s + n then .broken
    else (m.shift m.od.toNat (if m.orev then -(q : Int) else q)).shift m.id.toNat (if m.ir then -(s : Int) else s)

/-- A map with the format code F. -/
def withFmt (m : CMap) (f : Nat) : CMap := if m.live then { m with fmt := .ofNat 4 f } else m

/-- A map that must not name register d as its companion (R120). -/
def notSelf (m : CMap) (d : R5) : CMap := if m.st = .indexed && m.cmp = d then .broken else m

/-- The combination of R119 at format F, before the destination is looked at. -/
def combine' (f : Nat) (ms : List CMap) : CMap :=
  match ms.filter fun m => m.st != .none with
  | [] => .none
  | m :: r =>
    if (m :: r).any fun x => x.st = .broken || x.width != fmtWidth f || !x.equal m then .broken
    else m.withFmt f

/-- The combination of R119 at format F into register d. -/
def combine (f : Nat) (d : R5) (ms : List CMap) : CMap := (combine' f ms).notSelf d

/-- The map of a VCVT from format sf to format tf, part h, into register d whose map was p (R121). -/
def convert (sf tf h ns nd : Nat) (m p : CMap) (d : R5) : CMap :=
  if !m.live then m
  else if m.st = .indexed && ns != nd then .broken
  else if ns = nd then (m.withFmt tf).notSelf d
  else if nd < ns && ns % nd = 0 then (m.advance (h * nd) nd).withFmt tf
  else if ns < nd && nd % ns = 0 then
    if h = 0 then m.withFmt tf
    else if ((p.withFmt sf).advance (h * ns) ns).equal m then p.withFmt tf else .broken
  else .broken

/-- Coordinate d of element e of an affine form (R115). -/
def coord (m : CMap) (e d : Nat) : Int :=
  let ie := e % m.ie.toNat
  let oe := e / m.ie.toNat
  let x : Int := (m.datum[d]?.getD 0).toInt
  let x1 := if d = m.id.toNat then x + (if m.ir then -(ie : Int) else ie) else x
  let x2 := if d = m.od.toNat then x1 + (if m.orev then -(oe : Int) else oe) else x1
  (BitVec.ofInt 32 x2).toInt

end CMap

/-- What a coordinate read has of a register (R116): its map; or, for a read within a bound, a map of which only ID, OD, IE
and the width count, and the place of the free values that its coordinates and Lin are. -/
structure MapRead where
  map : CMap
  late : Option Nat
deriving DecidableEq, Repr

/-- The absent coordinate 0x8000_0000 (R115). -/
def absentCoord : Int := -2147483648

end Sys2Proof.Machine
end

