-- ==== Sys2Proof/Machine/Regs.lean ====
section
/-! DEFINITION. Register access of the issuing shift, results in flight and how they land (02 R27-R33), trace records and host events (13 R284, 15 R309). -/

namespace Sys2Proof.Machine

/-! ### Landing -/

/-- A result lands (R30). -/
def Shift.land (free : BitVec 4) (s : Shift) (l : Landing) : Shift :=
  match l.what with
  | .g r x p =>
    if r = 0 then s
    else { s with arch := { s.arch with
            g := s.arch.g.setIfInBounds r.toNat x
            gpois := if p then s.arch.gpois ||| (1#32 <<< r.toNat) else s.arch.gpois &&& ~~~ (1#32 <<< r.toNat) } }
  | .v r x => { s with arch := { s.arch with v := s.arch.v.setIfInBounds r.toNat x } }
  | .map r m =>
    let v := s.arch.v[r.toNat]?.getD .zero
    { s with arch := { s.arch with v := s.arch.v.setIfInBounds r.toNat { v with map := m } } }
  | .win r x => { s with arch := { s.arch with w := s.arch.w.setIfInBounds r.toNat x } }
  | .flags b => s.raiseFlags b l.slot l.bundle l.x free

/-- MRD results that an MWAIT has covered arrive (09 R200), and those to registers that `also` names. -/
def Shift.landMrd (free : BitVec 4) (s : Shift) (also : R5 → Bool := fun _ => false) : Shift :=
  if s.mrd.isEmpty then s
  else (s.mrd.filter fun p => p.2.2.2 || also p.1).foldl (fun t p => t.land free ⟨.g p.1 p.2.1 false, 0, 0, 0, 0⟩)
    { s with mrd := s.mrd.filter fun p => !(p.2.2.2 || also p.1) }

/-- MX flags that an MWAIT has covered show in their CSR (07 R142, 09 R175); with `all`, every one. -/
def Shift.landFl (free : BitVec 4) (s : Shift) (all : Bool := false) : Shift :=
  if s.mxFl.isEmpty then s
  else (s.mxFl.filter fun p => p.2.2.2 || all).foldl (fun t p => t.raiseFlags p.1 5 p.2.1 p.2.2.1 free)
    { s with mxFl := s.mxFl.filter fun p => !(p.2.2.2 || all) }

/-- What an MWAIT has covered arrives. -/
def Shift.landCovered (free : BitVec 4) (s : Shift) : Shift := (s.landMrd free).landFl free

/-- Every result in flight lands, in issue order (R33). -/
def Shift.landAll (free : BitVec 4) (s : Shift) : Shift :=
  s.inflight.foldl (Shift.land free) { s.landCovered free with inflight := [], soon := [] }

/-- Every result lands that there is, of an MRD or a matrix call without its MWAIT too (R38). -/
def Shift.landEvery (free : BitVec 4) (s : Shift) : Shift := ((s.landMrd free fun _ => true).landFl free true).landAll free

/-- Results whose bound has passed after `cy` cycles land; the others come nearer. -/
def Shift.landDue (free : BitVec 4) (cy : Nat) (s : Shift) : Shift :=
  let due := s.inflight.filter fun l => decide (l.left ≤ cy)
  let rest := (s.inflight.filter fun l => decide (cy < l.left)).map fun l => { l with left := l.left - cy }
  due.foldl (Shift.land free) { s with
    inflight := rest
    soon := (s.soon.filter fun p => decide (cy < p.2.1)).map fun p => (p.1, p.2.1 - cy, p.2.2) }

/-- The vector register that a landing writes, with what is left of its bound. -/
def Landing.soon (l : Landing) : Option (R5 × Nat × Nat) := match l.what with
  | .v r _ => some (r, l.left, l.bundle)
  | .map r _ => some (r, l.left, l.bundle)
  | _ => none

/-- The result in flight of index i lands early: coordinates read within its bound stay undefined (06 R116). -/
def Shift.landIdx (free : BitVec 4) (i : Nat) (s : Shift) : Shift :=
  match s.inflight[i]? with
  | none => s
  | some l => Shift.land free { s with inflight := s.inflight.eraseIdx i, soon := s.soon ++ l.soon.toList } l

namespace State

/-- A 4-bit field of a trap record that no rule gives. -/
def freeSlot (s : State) : BitVec 4 := (Config.freeWord s.freeN 1000).setWidth 4
/-- A 64-bit field of a trap record that no rule gives. -/
def freeInfo (s : State) : Word64 := Config.freeWord s.freeN 1001

def landAll (s : State) (n : Nat) : State := s.modSh n (Shift.landAll s.freeSlot)
def landEvery (s : State) (n : Nat) : State := s.modSh n (Shift.landEvery s.freeSlot)

/-! ### Operands of the issuing shift -/

/-- The issuing shift. -/
def me (s : State) : Shift := s.sh s.cur.shift
/-- The gallery of the issuing shift. -/
def myGal (s : State) : Nat := s.cur.shift / 32
def setMe (s : State) (x : Shift) : State := s.setSh s.cur.shift x
def modMe (s : State) (f : Shift → Shift) : State := s.modSh s.cur.shift f
def modArch (s : State) (f : Arch → Arch) : State := s.modMe fun x => { x with arch := f x.arch }
def modC (s : State) (f : RCsr → RCsr) : State := s.modArch fun a => { a with c := f a.c }
def modK (s : State) (f : KCsr → KCsr) : State := s.modMe fun x => { x with k := f x.k }

/-- Whether a result of an earlier bundle is in flight to gr (R29, R30), an MRD's until its MWAIT (09 R200). -/
def gLate (s : State) (r : R5) : Bool :=
  s.me.inflight.any (fun l => decide (l.bundle < s.cur.bundle) && (match l.what with | .g d _ _ => d = r | _ => false))
  || s.me.mrd.any (fun p => p.1 = r && decide (p.2.2.1 < s.cur.bundle))
  || s.me.mxq.any fun e => decide (e.bundle < s.cur.bundle) && (match e.op with | .rd d _ => d = r | _ => false)

/-- Whether a result of an earlier bundle is in flight to vr. -/
def vLate (s : State) (r : R5) : Bool :=
  s.me.inflight.any fun l => decide (l.bundle < s.cur.bundle) && (match l.what with
    | .v d _ => d = r
    | .map d _ => d = r
    | _ => false)

/-- Whether coordinates of vr are read within the bound of an earlier bundle's result, landed or not (06 R116). -/
def mapLate (s : State) (r : R5) : Bool :=
  s.vLate r || s.me.soon.any fun p => p.1 = r && decide (p.2.2 < s.cur.bundle)

/-- gr as read at issue: g0 is zero; within a bound the value is undefined (R30). -/
def rdG (s : State) (r : R5) : Word64 :=
  if r = 0 then 0
  else if s.gLate r then Config.freeWord s.freeN (s.cur.slot * 32 + r.toNat)
  else s.me.arch.g[r.toNat]?.getD 0

/-- vr as read at issue. Within a bound its data and its map are undefined (R30, R116). -/
def rdV (s : State) (r : R5) : VReg :=
  if s.vLate r then
    let k := s.cur.slot * 32 + r.toNat
    ⟨Config.freeVec s.freeN k, .freed s.freeN (2000 + 8 * k), false⟩
  else s.me.arch.v[r.toNat]?.getD .zero

/-- A general register carries the poison marker. -/
def poisG (s : State) (r : R5) : Bool := r != 0 && !s.gLate r && s.me.arch.gpois.getLsbD r.toNat
/-- A vector register carries the poison marker. -/
def poisV (s : State) (r : R5) : Bool := (s.rdV r).pois

/-- A result enters flight with bound `lat` (R30). -/
def fly (s : State) (what : LandTo) (lat : Nat) : State :=
  s.modMe fun x => { x with inflight := x.inflight ++ [⟨what, lat, s.cur.bundle, s.cur.slot, s.cur.x⟩] }

/-- G[d] := x, landing within `lat` cycles; a write to g0 is discarded (R4). -/
def wrG (s : State) (d : R5) (x : Word64) (lat : Nat) : State := if d = 0 then s else s.fly (.g d x false) lat
/-- G[d] with a poison marker. -/
def wrGp (s : State) (d : R5) (x : Word64) (p : Bool) (lat : Nat) : State := if d = 0 then s else s.fly (.g d x p) lat
/-- V[d] := x with its map. -/
def wrV (s : State) (d : R5) (data : BitVec 2048) (map : CMap) (lat : Nat) : State := s.fly (.v d ⟨data, map, false⟩) lat
/-- Flags of the slot in which the instruction stands (R142). -/
def wrFlags (s : State) (f : Flags) (lat : Nat) : State := if f = 0 then s else s.fly (.flags f) lat

/-- An interlocked result of the issuing bundle, which arrives when the shift's next bundle opens (R29, R32). -/
def arriveNext (s : State) (d : R5) (x : Word64) : State :=
  s.modMe fun y => { y with mrd := y.mrd ++ [(d, x, s.cur.bundle, true)] }

/-- An interlocked result arrives (R32). -/
def arriveG (s : State) (n : Nat) (d : R5) (x : Word64) (p : Bool) : State :=
  s.modSh n fun sh => Shift.land s.freeSlot sh ⟨.g d x p, 0, 0, 0, 0⟩

/-! ### Records -/

/-- The source number of unit u of a shift (R284). -/
def srcOf (n u : Nat) : Nat := n / 512 * 2 ^ 14 + n / 32 % 16 * 2 ^ 10 + n / 4 % 8 * 2 ^ 7 + u * 8 + n % 4

/-- The 32 bytes of a record. -/
def recordBits (gtc : Word64) (src kind flg : Nat) (task : BitVec 32) (pay : BitVec 128) : Nat :=
  gtc.toNat + src * 2 ^ 64 + kind * 2 ^ 80 + flg * 2 ^ 88 + task.toNat * 2 ^ 96 + pay.toNat * 2 ^ 128

/-- A trace record (R284). -/
def trace (s : State) (kind src flg : Nat) (task : BitVec 32) (pay : BitVec 128) : State :=
  if s.d.trmask.getLsbD kind = false then s
  else if s.d.trtail - s.d.trhead = s.d.trsize then { s with d := { s.d with trdrop := s.d.trdrop + 1 } }
  else
    let k := s.d.trtail.toNat % s.d.trsize.toNat
    let s1 := s.writeM (s.d.trbase.toNat * frameBytes + 32 * k) 32 (recordBits s.gtc src kind flg task pay)
    { s1 with d := { s1.d with trtail := s1.d.trtail + 1 } }

/-- The task number of a shift for records. -/
def taskNo (s : State) (n : Nat) : BitVec 32 := match (s.sh n).task with
  | some t => t.num
  | none => 0xFFFFFFFF

/-- A record of a shift's unit with a payload whose layout the manual does not give. -/
def traceSh (s : State) (n kind unit flg : Nat) (items : List Nat) : State :=
  s.trace kind (srcOf n unit) flg (s.taskNo n) (Config.payload kind items)

/-- A host event joins those waiting for the queue (R309). -/
def event (s : State) (kind : BitVec 8) (src : BitVec 16) (flg : BitVec 8) (task : BitVec 32) (items : List Nat) : State :=
  { s with events := s.events ++ [⟨s.gtc, kind, src, flg, task, Config.payload kind.toNat items⟩] }

/-- The oldest waiting event enters the queue when there is room, and wakes vector 0 from empty (R309). -/
def postOne (s : State) : State :=
  match s.events with
  | [] => s
  | e :: rest =>
    let size := 2 ^ s.bar.evLog.toNat
    let occ := (s.bar.evTail - s.bar.evHead).toNat
    if size ≤ occ || !s.frame.hbmUp then s
    else
      let k := s.bar.evTail.toNat % size
      let s1 := s.writeM (s.bar.evBase.toNat * frameBytes + 32 * k) 32
        (recordBits e.gtc e.src.toNat e.kind.toNat e.flg.toNat e.task e.pay)
      { s1 with
        events := rest
        bar := { s1.bar with evTail := s1.bar.evTail + 1 }
        msix := if occ = 0 then s1.msix ++ [0] else s1.msix }

/-- Waiting events enter the queue. -/
def postAll (s : State) : State := (List.range s.events.length).foldl (fun t _ => t.postOne) s

end State

end Sys2Proof.Machine
end

