-- ==== Sys2Proof/Machine/Layout.lean ====
section
/-! DEFINITION. Layout records, command blocks and their checks (04_copy_engine R71-R77), element locations. -/

namespace Sys2Proof.Machine

/-- Bits [lo+len-1:lo] of word k of a record. -/
def LRec.f (r : LRec) (k lo len : Nat) : Nat := fld (r[k]?.getD 0) lo len

namespace LRec

def ndim (r : LRec) : Nat := r.f 0 0 4
def fmt (r : LRec) : Nat := r.f 0 4 4
def kind (r : LRec) : Nat := r.f 0 8 2
def extmap (r : LRec) : Bool := r.f 0 10 1 = 1
def fillen (r : LRec) : Bool := r.f 0 11 1 = 1
def ilv (r : LRec) : Nat := r.f 0 12 2
def tid (r : LRec) : Nat := r.f 0 16 20
def chip (r : LRec) : Nat := r.f 0 36 13
def galF (r : LRec) : Nat := r.f 0 49 6
def base (r : LRec) : Nat := r.f 1 0 24
def ext (r : LRec) (j : Nat) : Nat := r.f (2 + j / 2) (32 * (j % 2)) 32
def strideBits (r : LRec) (j : Nat) : Nat := r.f (5 + j / 2) (32 * (j % 2)) 32
def stride (r : LRec) (j : Nat) : Int := signedOf 32 (r.strideBits j)
def win (r : LRec) (j : Nat) : Nat := if j < 4 then r.f 8 (16 * j) 16 else r.f 9 (16 * (j - 4)) 16
def fill (r : LRec) : Nat := r.f 9 32 32
def xorm (r : LRec) : Nat := r.f 10 16 8
def pitchg (r : LRec) : Nat := r.f 10 0 16
def scen (r : LRec) : Bool := r.f 11 24 1 = 1
def scoff (r : LRec) : Nat := r.f 11 0 24

/-- FILL's low bits at the element width (R77). -/
def fillVal (r : LRec) : Nat := r.fill % 2 ^ fmtWidth r.fmt

/-- Number of elements of the window (R76). -/
def count (r : LRec) : Nat := ((List.range r.ndim).map r.win).prod

end LRec

/-- A record from 96 bytes. -/
def recOf (bytes : Nat) : LRec := Vector.ofFn fun (k : Fin 12) => .ofNat 64 (bytes / 2 ^ (64 * k.val))

/-- Row-major index of rank i in a window (R76). -/
def winIndex (r : LRec) (i : Nat) : List Nat :=
  (List.range r.ndim).map fun j =>
    i / ((List.range r.ndim).map fun k => if j < k then r.win k else 1).prod % r.win j

/-- Byte offset of the element at coordinates c, and the bit within its word for T6 (R74). -/
def recOff (r : LRec) (c : List Int) : Nat × Nat :=
  let s := r.ndim - 2
  let es : Int := if r.fmt = 6 then 1 else (fmtWidth r.fmt / 8 : Nat)
  let lin (skip : Bool) : Int :=
    ((List.range r.ndim).map fun j => if skip && j = s then 0 else r.stride j * c.getD j 0).sum
  let scaled (n : Int) : Int := if r.fmt = 6 then 4 * (n / 5) else es * n
  let wrap (b : Int) : Nat := (b % 16777216).toNat
  let bit (n : Int) : Nat := if r.fmt = 6 then 6 * (n % 5).toNat else 0
  let row : Int := 64 * r.pitchg * c.getD s 0
  if r.ilv = 0 then
    let n := lin false
    (wrap (r.base + scaled n), bit n)
  else if r.ilv = 1 then
    let n := lin true
    (wrap (r.base + row + scaled n), bit n)
  else
    let n := lin true
    let u := scaled n
    -- the bits below XORM's width are exchanged, those above stay (R74)
    let q : Int := u / 64
    let g : Int := q - q % 256 + ((q % 256).toNat ^^^ ((c.getD s 0 % 256).toNat &&& r.xorm) : Nat)
    (wrap (r.base + row + 64 * g + u % 64), bit n)

/-- Whether a position lies within the extents of a record of KIND 1 or 2 (R103). -/
def recInside (r : LRec) (c : List Int) : Bool :=
  (List.range r.ndim).all fun j => decide (0 ≤ c.getD j 0) && decide (c.getD j 0 < r.ext j)

/-! ### Checks (R73) -/

def rsvBit : Nat := 1
def rsvVal : Nat := 2
def rangeBad : Nat := 3
def comboBad : Nat := 4

/-- The fields that R72 makes zero. -/
def recZeros (r : LRec) : Bool :=
  match r.kind with
  | 0 =>
    r.chip = 0 && r.galF = 0 && r.base = 0 && (List.range 6).all (fun j => r.ext j = 0 && r.strideBits j = 0)
      && r.ilv = 0 && r.pitchg = 0 && r.xorm = 0 && !r.scen && r.scoff = 0
  | 1 => r.tid = 0 && r.chip = 0 && r.galF = 0x3F && !r.extmap
  | _ => r.tid = 0 && !r.extmap

def isPow2 (n : Nat) : Bool := n != 0 && n == 2 ^ Nat.log2 n

/-- Index of the first window extent whose factor makes the product reach 2^32: the running product decides, whatever a later extent
is (the model's choice, log 92). -/
def winOverflow (r : LRec) : Option Nat :=
  (List.range r.ndim).find? fun j => decide (2 ^ 32 ≤ ((List.range (j + 1)).map r.win).prod)

/-- The lowest reason that word k of a record fails with, 0 for none. `src` asks for the WIN checks; `gals` is NGAL
when the record names the issuing device. -/
def recWord (r : LRec) (src : Bool) (gals : Option Nat) (k : Nat) : Nat :=
  let nd := r.ndim
  let rng (c : Bool) (v : Nat) (rest : Nat) : Nat := if c then v else rest
  let extBad (j : Nat) : Bool := if j < nd then r.kind != 0 && r.ext j = 0 else r.ext j != 0
  let strideBad (j : Nat) : Bool := decide (nd ≤ j) && r.strideBits j != 0
  let strideCombo (j : Nat) : Bool := (r.ilv = 1 || r.ilv = 2) && j + 2 = nd && r.strideBits j != 0
  let winBad (j : Nat) : Bool :=
    if j < nd then src && (r.win j = 0 || winOverflow r = some j) else r.win j != 0
  match k with
  | 0 =>
    rng (r.f 0 55 9 != 0 || r.f 0 14 2 != 0) rsvBit
      (rng (r.kind = 3 || r.ilv = 3 || 0xC ≤ r.fmt || nd = 0 || 6 < nd || !recZeros r) rsvVal
        (rng (r.kind = 2 && (match gals with | some g => decide (g ≤ r.galF) | none => false)) rangeBad
          (rng (1 ≤ r.ilv && nd = 1) comboBad 0)))
  | 1 => rng (r.f 1 24 40 != 0) rsvBit 0
  | 2 => rng (extBad 0 || extBad 1) rangeBad 0
  | 3 => rng (extBad 2 || extBad 3) rangeBad 0
  | 4 => rng (extBad 4 || extBad 5) rangeBad 0
  | 5 => rng (strideBad 0 || strideBad 1) rangeBad (rng (strideCombo 0 || strideCombo 1) comboBad 0)
  | 6 => rng (strideBad 2 || strideBad 3) rangeBad (rng (strideCombo 2 || strideCombo 3) comboBad 0)
  | 7 => rng (strideBad 4 || strideBad 5) rangeBad (rng (strideCombo 4 || strideCombo 5) comboBad 0)
  | 8 => rng (winBad 0 || winBad 1 || winBad 2 || winBad 3) rangeBad 0
  | 9 => rng (winBad 4 || winBad 5) rangeBad 0
  | 10 =>
    rng (r.f 10 24 40 != 0) rsvBit
      (rng ((r.ilv = 1 && r.pitchg % 2 = 0) || (r.ilv = 2 && (!isPow2 (r.xorm + 1) || r.pitchg % (r.xorm + 1) != 0))
          || (r.ilv = 0 && (r.pitchg != 0 || r.xorm != 0))) comboBad 0)
  | 11 => rng (r.f 11 25 39 != 0) rsvBit 0
  | _ => 0

/-- The first failing word of a record with its reason. -/
def recCheck (r : LRec) (src : Bool) (gals : Option Nat) : Option (Nat × Nat) :=
  (List.range 12).findSome? fun k => let v := recWord r src gals k; if v = 0 then none else some (k, v)

def blkOf (bytes : Nat) : Blk := Vector.ofFn fun (k : Fin 8) => .ofNat 64 (bytes / 2 ^ (64 * k.val))
def Blk.org (b : Blk) (j : Nat) : Int := signedOf 32 (fld (b[j / 2]?.getD 0) (32 * (j % 2)) 32)
def Blk.aw (b : Blk) : Nat := (b[3]?.getD 0).toNat
def Blk.pres (b : Blk) : Nat := (b[4]?.getD 0).toNat
def Blk.seq (b : Blk) : Nat := fld (b[5]?.getD 0) 0 32
def Blk.perm (b : Blk) : Nat := fld (b[5]?.getD 0) 32 18
/-- The window dimension that becomes destination dimension j. -/
def Blk.pi (b : Blk) (j : Nat) : Nat := if b.perm = 0 then j else b.perm / 2 ^ (3 * j) % 8

/-- The lowest reason that word k of a command block fails with. -/
def blkWord (b : Blk) (k : Nat) : Nat :=
  let addr (a : Nat) : Nat := if a % 8 != 0 || 2 ^ 24 ≤ a then rangeBad else 0
  match k with
  | 3 => addr b.aw
  | 4 => addr b.pres
  | 5 => if fld (b[5]?.getD 0) 50 14 != 0 then rsvBit else 0
  | 6 => if b[6]?.getD 0 != 0 then rsvBit else 0
  | 7 => if b[7]?.getD 0 != 0 then rsvBit else 0
  | _ => 0

def blkCheck (b : Blk) : Option (Nat × Nat) :=
  (List.range 8).findSome? fun k => let v := blkWord b k; if v = 0 then none else some (k, v)

/-- Whether PERM is the identity or a permutation of 0..n-1 (R75). -/
def permOkFor (b : Blk) (n : Nat) : Bool :=
  b.perm = 0 ||
    ((List.range n).all (fun j => decide (b.pi j < n) && (List.range j).all (fun i => b.pi i != b.pi j))
      && (List.range 6).all (fun j => j < n || b.perm / 2 ^ (3 * j) % 8 = 0))

/-- ctx.finfo of LAYOUTRSV (R73): a word number takes the 8 bits of its field. -/
def layoutInfo (item word reason : Nat) : Word64 := .ofNat 64 (item + word % 256 * 2 ^ 8 + reason * 2 ^ 16)

/-! ### Front images (10 R209, R218) -/

/-- A tuple record's four words. -/
def tupleWords (t : FTuple) : List Word64 :=
  [(t.obj[1]) ++ (t.obj[0]), (t.obj[3]) ++ (t.obj[2]), t.age ++ t.pay, 0]

/-- The front image as 64-bit words. -/
def Front.image (f : Front) : List Word64 :=
  [f.cfg, f.age ++ BitVec.ofNat 32 f.tuples.length, 0, 0, 0, 0, 0, 0] ++ f.tuples.flatMap tupleWords

/-- Words as a number, the first lowest. -/
def packWords (l : List Word64) : Nat := l.foldr (fun w acc => w.toNat + 2 ^ 64 * acc) 0

/-! ### Elements at a location -/

/-- Bytes that an element of format f occupies at a location: a T6 element stands in its 32-bit word. -/
def locBytes (f : Nat) : Nat := if f = 6 then 4 else fmtWidth f / 8

/-- An element's bits out of the bytes at its location. -/
def locExtract (f bit v : Nat) : Nat := if f = 6 then v / 2 ^ bit % 64 else v

/-- The bytes with an element put in; bits [31:30] of a T6 word are written as 0 (R132). -/
def locInsert (f bit old x : Nat) : Nat :=
  if f = 6 then (old % 2 ^ 30) - (old / 2 ^ bit % 64) * 2 ^ bit + x % 64 * 2 ^ bit else x

namespace State

/-- An element of a location, its poison, and the state: scratchpad bytes of gallery g are checked as shift n's
accesses when `chk` holds (R98). -/
def readLoc (s : State) (n : Nat) (chk : Bool) (l : Loc) (f : Nat) : Nat × Bool × State :=
  match l.space with
  | none => (locExtract f l.bit (s.readM l.key (locBytes f)), anyPois s.poisonM l.key (locBytes f), s)
  | some g =>
    if chk then
      let (v, p, s') := s.spRead n l.key (locBytes f)
      (locExtract f l.bit v, p, s')
    else (locExtract f l.bit (memRead (s.gal g).sp l.key (locBytes f)),
          anyPois s.poisonS (spKey g l.key) (locBytes f), s)

/-- An element written to a location; poison moves with the data (R77). -/
def writeLoc (s : State) (n : Nat) (chk : Bool) (l : Loc) (f x : Nat) (pois : Bool) : State :=
  match l.space with
  | none =>
    let s1 := s.writeM l.key (locBytes f) (locInsert f l.bit (s.readM l.key (locBytes f)) x)
    if pois then { s1 with poisonM := setPois s1.poisonM l.key (locBytes f) } else s1
  | some g =>
    let v := locInsert f l.bit (memRead (s.gal g).sp l.key (locBytes f)) x
    let s1 := if chk then s.spWrite n l.key (locBytes f) v else s.spPoke g l.key (locBytes f) v
    if pois && !(chk && (s.firstViol n ((List.range (locBytes f)).map (l.key + ·))).isSome) then
      { s1 with poisonS := setPois s1.poisonS (spKey g l.key) (locBytes f) }
    else s1

end State

end Sys2Proof.Machine
end

