-- ==== Sys2Proof/Machine/Order.lean ====
section
/-! DEFINITION. The ordering machine's queues (11_ordering_machine R219-R224, R227, R234): the load-store queue, the
gate and its commits, the elements of copy commands (04 R76-R83), arrival words, signatures (13 R272), and the flits in
which a packet leaves (15 R311). -/

namespace Sys2Proof.Machine

/-! ### Arrival words (04 R81) -/

/-- An arrival word after nbytes have arrived. -/
def arrivalAdd (w : Word64) (nbytes : Nat) : Word64 :=
  let target := fld w 24 24
  if target = 0 then w
  else
    let c := fld w 0 24 + nbytes
    .ofNat 64 (c % target + target * 2 ^ 24 + (fld w 48 16 + c / target) % 2 ^ 16 * 2 ^ 48)

/-- The bytes that n elements of a format count (R81). -/
def countBytes (f n : Nat) : Nat := fmtBytes f n

/-! ### Check sums -/

/-- One bit of a reflected CRC of 32 bits. -/
def crcBit (poly c : BitVec 32) : BitVec 32 := if c.getLsbD 0 then (c >>> 1) ^^^ poly else c >>> 1

/-- One byte of it. -/
def crcByte (poly c : BitVec 32) (b : Byte) : BitVec 32 :=
  (List.range 8).foldl (fun x _ => crcBit poly x) (c ^^^ b.setWidth 32)

/-- A CRC over bytes. -/
def crc32 (poly : BitVec 32) (l : List Byte) : BitVec 32 := ~~~ (l.foldl (crcByte poly) 0xFFFFFFFF)

/-- The IEEE 802.3 polynomial, reflected (R299). -/
def polyIeee : BitVec 32 := 0xEDB88320
/-- The CRC-32C polynomial, reflected (15 R311). -/
def polyC : BitVec 32 := 0x82F63B78

/-! ### The sending side of the Boluz link (15 R311) -/

/-- Bytes of a flit's content, the first lowest. -/
def State.flitBytes (c : BitVec 480) : List Byte := (List.range 60).map fun i => .ofNat 8 (fld c (8 * i) 8)

/-- A flit: 60 bytes of content and their CRC-32C. -/
def flitOf (c : BitVec 480) : BitVec 512 := crc32 polyC (State.flitBytes c) ++ c

/-- The flits of a packet: its header with destination and source chip, and at most 16 data flits; the rest of the header and
the data are opaque (log 69). -/
def packetToFlits (dst src : BitVec 13) (b : PacketBody) : List (BitVec 512) :=
  ((Config.packetHead b ++ src ++ dst) :: (Config.packetData b).take 16).map flitOf

/-- A packet leaves for a chip: its flits go on the path, and stay in the retry buffer. Its source is the device's own number, 0
before SETCHIP (the model's choice, log 19). -/
def State.send (s : State) (chip : BitVec 13) (b : PacketBody) : State :=
  let fl := packetToFlits chip s.bar.chipNo b
  { s with
    netOut := s.netOut ++ [(chip, ⟨s.bar.chipNo, b⟩)]
    wire := s.wire ++ fl.map fun f => (chip, f)
    retry := lput s.retry chip.toNat (lget s.retry chip.toNat [] ++ fl) }

/-! ### Grants (04 R82, R83) -/

/-- Whether an entry admits a granule of a physical gallery for a source chip. -/
def grantOk (e : BitVec 128) (chip gal granule : Nat) : Bool :=
  fld e 26 1 = 1 && decide (fld e 0 13 ≤ chip) && decide (chip ≤ fld e 13 13)
    && decide (fld e (64 + gal) 1 = 1) && decide (fld e 28 18 ≤ granule) && decide (granule ≤ fld e 46 18)

/-- Whether some entry admits a granule; an arrival word also needs AW. -/
def State.admits (s : State) (chip gal granule : Nat) (aw : Bool) : Bool :=
  s.grants.any fun p => grantOk p.2 chip gal granule && (!aw || fld p.2 27 1 = 1)

/-! ### Signatures (13 R272) -/

def sigMix (sig a n d : Word64) : Word64 := mix (mix (mix (sig ^^^ a) ^^^ n) ^^^ d)

namespace State

/-- Fold one item into the signature of an assay task. -/
def foldSig (s : State) (n : Nat) (a len d : Word64) : State :=
  match s.launchOf n with
  | some l =>
    if l.assay then
      s.modSh n fun x => { x with task := x.task.map fun t => { t with sig := sigMix t.sig a len d } }
    else s
  | none => s

/-- The other copy of an assay task's shift, and whether n is the primary. -/
def assayPair (s : State) (n : Nat) : Option (Nat × Bool) :=
  match s.launchOf n with
  | none => none
  | some l =>
    if !l.assay then none
    else
      match indexIn l.place (n / 32) with
      | some k => (l.twin[k]?).map fun g => (g * 32 + n % 32, true)
      | none => ((indexIn l.twin (n / 32)).bind fun k => l.place[k]?).map fun g => (g * 32 + n % 32, false)

/-- A memory fault becomes pending; the first stands (R229). -/
def memFault (s : State) (n : Nat) (r : TrapRec) : State :=
  s.modSh n fun x => { x with memTrap := some (x.memTrap.getD r) }

/-- A failed store or element is counted (R224). -/
def countFail (s : State) (n chip : Nat) : State :=
  s.modSh n fun x => { x with status := { x.status with
    chip := if x.status.chip = 0xFFFF then .ofNat 16 chip else x.status.chip
    nfail := min 255 (x.status.nfail + 1)
    link := true } }

/-! ### Elements of copy commands (04 R76, R77) -/

/-- The tensor of a KIND 0 record, or why its use faults (R72). -/
def recTrans (s : State) (n : Nat) (r : LRec) (seq : Nat) (c : List Int) (acc : Acc) : Trans :=
  match s.tensorEntry (s.sh n).k.ttbase (s.sh n).k.ttlim r.tid with
  | none => .bad .trans 1
  | some e =>
    if !entryOk e then .bad .trans 1
    else if eFmt e != r.fmt || eNdim e != r.ndim || (eXm e && !r.extmap) then .bad .trans 1
    else if r.extmap && !eXm e then .bad .trans 9
    else s.transEntry r.tid e seq c acc

end State

namespace State

/-- The entry of a tensor that shift n has used stands in the device's caches (R53). -/
def noteTid (s : State) (n tid : Nat) : State :=
  let k := (s.sh n).k
  if tid < k.ttlim.toNat then s.cacheEntry k.ttbase tid else s

/-- The tensor of a record's elements, when it names one. -/
def noteRec (s : State) (n : Nat) (r : LRec) : State := if r.kind = 0 then s.noteTid n r.tid else s

end State

/-- A source element: where it is read, its presence bit, or a fault. -/
inductive SrcRes where
  | el (e : SrcEl) (p : Bool)
  | bad (c : Cause) (sub tid : Nat)
deriving DecidableEq, Repr

/-- A destination element: where it is written (none: discarded), or a fault. -/
inductive DstRes where
  | at_ (l : Option Loc)
  | bad (c : Cause) (sub tid : Nat)
deriving DecidableEq, Repr

/-- Whether the block origin applies to the source (R76). CPYZ has no destination record (log 20). -/
def CopyCmd.srcOrigin (c : CopyCmd) : Bool :=
  match c.kind with
  | .cpfill => false
  | .cpyz => true
  | _ => !(LRec.kind c.src = 1 && LRec.kind c.dst = 0)

/-- The record that the destination coordinates use. -/
def CopyCmd.dstRec (c : CopyCmd) : LRec := if c.kind = .cpfill then c.src else c.dst

/-- A destination of KIND 0 makes a command gated (R78). -/
def CopyCmd.gated (c : CopyCmd) : Bool := c.kind = .cpyz || LRec.kind c.dstRec = 0

/-- Number of elements of a command's window. -/
def CopyCmd.n (c : CopyCmd) : Nat := LRec.count c.src

/-- Source coordinates of element i. -/
def CopyCmd.srcCoord (c : CopyCmd) (i : Nat) : List Int :=
  (winIndex c.src i).zipIdx.map fun (w, j) => (w : Int) + (if c.srcOrigin then Blk.org c.blk j else 0)

/-- Destination coordinates of element i. -/
def CopyCmd.dstCoord (c : CopyCmd) (i : Nat) : List Int :=
  let w := winIndex c.src i
  (List.range w.length).map fun j =>
    (w.getD (Blk.pi c.blk j) 0 : Int) + (if c.srcOrigin then 0 else Blk.org c.blk j)

/-- Whether an entry of a copy queue is a CPYP. -/
def CpEntry.isCpyp (e : CpEntry) : Bool := match e with
  | .cmd c _ => c.kind = .cpyp
  | _ => false

namespace State

/-- The CPYP in transmission of queue q, that an answer is about: the first of its queue, once it has sent something. An answer
to a transmission that a rollback or an abort has discarded finds none (R80). -/
def sentBy (x : Shift) (id : CpId) : Option CopyCmd :=
  if x.cpTag[id.q.toNat]?.getD 0 != id.tag then none
  else match (x.cpq[id.q.toNat]?.getD []).find? CpEntry.isCpyp with
    | some (.cmd c d) => if d = 0 then none else some c
    | _ => none

/-- Source element i of a command of shift n (R77). -/
def srcEl (s : State) (n : Nat) (c : CopyCmd) (i : Nat) : SrcRes :=
  let r : LRec := c.src
  if c.kind = .cpfill then .el .fill true
  else
    let co := c.srcCoord i
    if r.kind = 0 then
      match s.recTrans n r (Blk.seq c.blk) co .read with
      | .ok _ key bit => .el (.loc ⟨none, key, bit⟩) true
      | .absent => .el .fill false
      | .discard => .el .fill false
      | .outside => if r.fillen then .el .fill false else .bad .trans 2 r.tid
      | .bad ca sub => .bad ca sub r.tid
    else if recInside r co then
      let (b, bit) := recOff r co
      .el (.loc ⟨some (n / 32), b, bit⟩) true
    else if r.fillen then .el .fill false
    else .bad .trans 2 0

/-- Destination element i of a CPY or CPFILL command of shift n (R76, R77). -/
def dstEl (s : State) (n : Nat) (c : CopyCmd) (i : Nat) : DstRes :=
  let r := c.dstRec
  let co := c.dstCoord i
  if LRec.kind r = 0 then
    match s.recTrans n r (Blk.seq c.blk) co .write with
    | .ok _ key bit => .at_ (some ⟨none, key, bit⟩)
    | .discard => .at_ none
    | .absent => .at_ none
    | .outside => .bad .trans 2 (LRec.tid r)
    | .bad ca sub => .bad ca sub (LRec.tid r)
  else if recInside r co then
    let (b, bit) := recOff r co
    .at_ (some ⟨some (n / 32), b, bit⟩)
  else .bad .trans 2 0

/-- The value of a source element: the stored element or FILL. -/
def readSrc (s : State) (n : Nat) (r : LRec) (e : SrcEl) : Nat × Bool × State :=
  match e with
  | .fill => (r.fillVal, false, s)
  | .loc l => s.readLoc n true l r.fmt

/-- The record of a copy command's memory fault (R80). -/
def copyFault (c : CopyCmd) (q : BitVec 2) (side count : Nat) (ca : Cause) (sub tid : Nat) : TrapRec :=
  ⟨ca, c.x, 6, .ofNat 64 (sub + tid * 2 ^ 8 + q.toNat * 2 ^ 28 + side * 2 ^ 30 + count * 2 ^ 32), 0⟩

/-- One count of the queue's DONE (R91). -/
def queueDone (s : State) (n : Nat) (q : BitVec 2) : State :=
  s.modSh n fun x => { x with done := x.done.setIfInBounds q.toNat ((x.done[q.toNat]?.getD 0) + 1) }

def setCpq (s : State) (n : Nat) (q : BitVec 2) (l : List CpEntry) : State :=
  s.modSh n fun x => { x with cpq := x.cpq.setIfInBounds q.toNat l }

/-- A checked arrival update by shift n in its gallery (R81, R98). An update that violates leaves one record, that of its read
(the model's choice, log 93). -/
def arrive (s : State) (n aw nbytes : Nat) : State :=
  if aw = 0 then s
  else
    let (v, _, s1) := s.spRead n aw 8
    s1.spPokeOk n aw (arrivalAdd (.ofNat 64 v) nbytes).toNat 8

/-- A presence bit written (R77); the last element clears the rest of its byte. -/
def putPres (s : State) (n pres i total : Nat) (p : Bool) : State :=
  if pres = 0 then s
  else
    let a := pres + i / 8
    let old := (s.spByte n a).toNat
    let low := old % 2 ^ (i % 8) + (if p then 2 ^ (i % 8) else 0)
    let v := if i + 1 = total then low else low + old / 2 ^ (i % 8 + 1) * 2 ^ (i % 8 + 1)
    s.spWrite n a 1 v

/-! ### CPYP (04 R85) -/

/-- The physical gallery and chip of a peer record: none for the issuing device (R72). -/
def peerOf (s : State) (n : Nat) (r : LRec) : Option Nat × Nat :=
  let own : Bool := s.bar.chipSet && s.bar.chipNo.toNat = r.chip
  if own then
    (none, match s.launchOf n with
      | some l => (if (indexIn l.twin (n / 32)).isSome then l.twin else l.place)[r.galF]?.getD r.galF
      | none => r.galF)
  else (some r.chip, r.galF)

/-- A refusal held pending at the issuing shift (R83). -/
def refuse (s : State) (n chip bundle : Nat) : State :=
  s.modSh n fun x => { x with grantPend := x.grantPend ++ [(.ofNat 13 chip, bundle)] }

/-- The own chip's number for grant checks. -/
def ownChip (s : State) : Nat := s.bar.chipNo.toNat

/-- The GRANTERR event (R309). -/
def grantErr (s : State) (src dst gal granule : Nat) : State :=
  s.event 0x13 (.ofNat 16 (8 * 8)) 0 0xFFFFFFFF [src, dst, gal, granule]

/-- One byte put into a gallery from outside: the bits of its mask are written, poison comes or goes with the data (R77). -/
def putBits (s : State) (gal off : Nat) (b : Byte × Byte) (pois : Bool) : State :=
  let old := memByte (s.gal gal).sp off
  let s1 := s.spPoke gal off 1 ((old &&& ~~~ b.2) ||| (b.1 &&& b.2)).toNat
  if pois then { s1 with poisonS := setPois s1.poisonS (spKey gal off) 1 } else s1

/-- Bytes of a CPYP arriving in a gallery of this device, up to the first whose granule is refused (R83). -/
def takeBits (s : State) (src gal off : Nat) (pois : Bool) : List (Byte × Byte) → State × Option Nat
  | [] => (s, none)
  | b :: r =>
    if s.admits src gal (off / 64) false then (s.putBits gal off b pois).takeBits src gal (off + 1) pois r
    else (s, some (off / 64))

/-- An arrival update at this device under the grant table. -/
def deliverArrive (s : State) (src gal off nbytes : Nat) : Option State :=
  if s.admits src gal (off / 64) true then
    some (s.spPoke gal off 8 (arrivalAdd (.ofNat 64 (memRead (s.gal gal).sp off 8)) nbytes).toNat)
  else none

/-- The transmission of a CPYP in progress. -/
def cpId (s : State) (n : Nat) (q : BitVec 2) : CpId := ⟨q, (s.sh n).cpTag[q.toNat]?.getD 0⟩

/-- Bytes of a CPYP leave for the peer, or are taken here: the first refused granule, if any. -/
def peerWrite (s : State) (n : Nat) (c : CopyCmd) (q : BitVec 2) (off : Nat) (bytes : List (Byte × Byte)) (pois : Bool) :
    State × Option Nat :=
  match s.peerOf n c.dst with
  | (none, g) => s.takeBits s.ownChip g off pois bytes
  | (some chip, g) => (s.send (.ofNat 13 chip) (.copy (s.cpId n q) g off bytes pois), none)

/-- The bytes of an element at its location, each with the bits that it writes; a T6 element also writes the top two bits
of its word (07 R132). -/
def elemBits (f bit v : Nat) : List (Byte × Byte) :=
  let mask := if f = 6 then 63 * 2 ^ bit + 3 * 2 ^ 30 else 2 ^ (8 * locBytes f) - 1
  let data := if f = 6 then v % 64 * 2 ^ bit else v
  (List.range (locBytes f)).map fun j => (.ofNat 8 (data / 256 ^ j), .ofNat 8 (mask / 256 ^ j))

/-- The byte that holds presence bit i of a bitmap: the last element clears the bits beyond its own (R77). -/
def presBits (i total : Nat) (p : Bool) : Byte × Byte :=
  (if p then .ofNat 8 (2 ^ (i % 8)) else 0, .ofNat 8 (if i + 1 = total then 256 - 2 ^ (i % 8) else 2 ^ (i % 8)))

/-! ### Bytes that a copy leaves undefined (R76, R78, R80; log 35) -/

/-- A source element's value without a record of violations. -/
def peekSrc (s : State) (n : Nat) (r : LRec) (e : SrcEl) : Nat × Bool :=
  let (v, p, _) := s.readSrc n r e
  (v, p)

/-- What a source element holds, whether the shift may read it or not. -/
def heldSrc (s : State) (n : Nat) (r : LRec) (e : SrcEl) : Nat × Bool :=
  match e with
  | .fill => (r.fillVal, false)
  | .loc l =>
    let (v, p, _) := s.readLoc n false l r.fmt
    (v, p)

/-- An element's value as shift n reads it at a location: bytes in violation read 0 (05 R99). -/
def maskedAt (s : State) (n : Nat) (f : Nat) (l : Loc) (v : Nat) : Nat :=
  let w := locInsert f l.bit 0 v
  locExtract f l.bit ((List.range (locBytes f)).map fun j =>
    if (s.violation n (l.key + j)).isSome then 0 else w / 256 ^ j % 256 * 256 ^ j).sum

/-- The source elements of a gated command from the scratchpad as they stand at issue (R78). -/
def seenOf (s : State) (n : Nat) (c : CopyCmd) : List (Nat × Bool) :=
  if c.gated && c.src.kind = 1 then
    (List.range c.n).map fun i => match s.srcEl n c i with
      | .el e _ => s.heldSrc n c.src e
      | .bad .. => (0, false)
  else []

/-- The bytes of a location, each with its space. -/
def locKeys (f : Nat) (l : Loc) : List (Option Nat × Nat) := (List.range (locBytes f)).map fun j => (l.space, l.key + j)

/-- Destination bytes that are source bytes too. -/
def overlap (fs fd : Nat) (srcs dsts : List Loc) : List (Option Nat × Nat) :=
  let lo := srcs.foldl (fun m l => min m l.key) (srcs.headD ⟨none, 0, 0⟩).key
  let hi := srcs.foldl (fun m l => max m (l.key + locBytes fs)) 0
  let ds := (dsts.flatMap (locKeys fd)).filter fun k => decide (lo ≤ k.2) && decide (k.2 < hi)
  if ds.isEmpty then [] else
    let ss := srcs.flatMap (locKeys fs)
    ds.filter ss.contains

/-- One byte of a copy's destination, its poison mark as it stands: a gallery's only where shift n may write it. -/
def putRaw (s : State) (n : Nat) (chk : Bool) (k : Option Nat × Nat) (b : Byte) : State :=
  match k.1 with
  | none => { s with mem := memPut s.mem k.2 b }
  | some g =>
    if chk && (s.violation n k.2).isSome then s
    else s.setGal g { s.gal g with sp := memPut (s.gal g).sp k.2 b }

/-- The place of a byte among the free values of a step. -/
def freePlace (k : Option Nat × Nat) : Nat :=
  match k.1 with
  | none => 2 * k.2 + 1
  | some g => 2 * spKey g k.2

/-- Bytes that become undefined. -/
def spoilKeys (s : State) (n : Nat) (chk : Bool) (ks : List (Option Nat × Nat)) : State :=
  ks.foldl (fun t k => t.putRaw n chk k (Config.freeByte t.freeN (freePlace k))) s

/-- An element that becomes undefined. -/
def spoilLoc (s : State) (n : Nat) (chk : Bool) (f : Nat) (l : Loc) : State :=
  let old (j : Nat) : Byte := match l.space with
    | none => memByte s.mem (l.key + j)
    | some g => memByte (s.gal g).sp (l.key + j)
  let o := ((List.range (locBytes f)).map fun j => (old j).toNat * 256 ^ j).sum
  let w := ((List.range (locBytes f)).map fun j => (Config.freeByte s.freeN (freePlace (l.space, l.key + j))).toNat * 256 ^ j).sum
  let v := locInsert f l.bit o (locExtract f l.bit w)
  (List.range (locBytes f)).foldl (fun t j => t.putRaw n chk (l.space, l.key + j) (.ofNat 8 (v / 256 ^ j))) s

/-- The destination of element i on this device: for a CPYP, in the gallery of a peer that is this device. -/
def localDst (s : State) (n : Nat) (c : CopyCmd) (i : Nat) : Option Loc :=
  if c.kind = .cpyp then
    let co := c.dstCoord i
    match s.peerOf n c.dst with
    | (none, g) => if recInside c.dst co then
        let (b, bit) := recOff c.dst co
        some ⟨some g, b, bit⟩ else none
    | _ => none
  else match s.dstEl n c i with
    | .at_ l => l
    | .bad .. => none

/-- The source locations of a command. -/
def srcLocs (s : State) (n : Nat) (c : CopyCmd) : List Loc :=
  (List.range c.n).filterMap fun i => match s.srcEl n c i with
    | .el (.loc l) _ => some l
    | _ => none

/-- The overlap of a command between scratchpads (R76). -/
def overlapOf (s : State) (n : Nat) (c : CopyCmd) : List (Option Nat × Nat) :=
  if c.kind = .cpfill || c.src.kind = 0 then []
  else overlap c.src.fmt c.dst.fmt (s.srcLocs n c) ((List.range c.n).filterMap fun i => s.localDst n c i)

/-- The command as it starts: where its source and its destination overlap it takes all of its source first. -/
def startCopy (s : State) (n : Nat) (c : CopyCmd) : CopyCmd :=
  { c with seen := if (s.overlapOf n c).isEmpty then [] else
      (List.range c.n).map fun i => match s.srcEl n c i with
        | .el e _ => s.peekSrc n c.src e
        | .bad .. => (0, false) }

/-- What a fault at element i leaves of the elements from i on (R80). -/
def spoilRest (s : State) (n : Nat) (c : CopyCmd) (i : Nat) : State :=
  (List.range (c.n - i)).foldl (fun t j => match t.localDst n c (i + j) with
    | some l => t.spoilLoc n (c.kind ≠ .cpyp) (LRec.fmt c.dstRec) l
    | none => t) s

/-- Poisoned data that a covered copy moves show in the fence status (R233). -/
def notePois (s : State) (n : Nat) (p : Bool) : State :=
  if p then s.modSh n fun x => { x with status := { x.status with pois := true } } else s

/-- How moving one element ended. The granules of a CPYP's bitmap are admitted like its data, without AW (the model's choice, log
90). -/
def copyElem (s : State) (n : Nat) (c : CopyCmd) (q : BitVec 2) (i : Nat) : Except (State × Bool) State :=
  let total := c.n
  match s.srcEl n c i with
  | .bad ca sub tid => .error (s.memFault n (copyFault c q 0 i ca sub tid), false)
  | .el e p =>
    let (now, dirty, s1) := s.readSrc n c.src e
    let (v, pois) := (c.seen[i]?).getD (now, dirty)
    let s1 := s1.notePois n pois
    if c.kind = .cpyp then
      let r : LRec := c.dst
      let co := c.dstCoord i
      if !homeInDomain (s1.peerOf n r).1 then .error (s1.memFault n (copyFault c q 1 i .trans 5 0), false)
      else if !recInside r co then .error (s1.memFault n (copyFault c q 1 i .trans 2 0), false)
      else if s1.deadChip (s1.peerOf n r).1 then .error (s1.countFail n r.chip, true)
      else
        let (b, bit) := recOff r co
        let refused (t : State) (g : Nat) : State × Bool :=
          ((t.refuse n t.ownChip c.bundle).grantErr t.ownChip t.ownChip (t.peerOf n r).2 g, true)
        match s1.peerWrite n c q b (elemBits r.fmt bit v) pois with
        | (s2, some g) => .error (refused s2 g)
        | (s2, none) =>
          if Blk.pres c.blk = 0 then .ok s2
          else match s2.peerWrite n c q (Blk.pres c.blk + i / 8) [presBits i total p] false with
            | (s3, some g) => .error (refused s3 g)
            | (s3, none) => .ok s3
    else
      match s1.dstEl n c i with
      | .bad ca sub tid => .error (s1.memFault n (copyFault c q 1 i ca sub tid), false)
      | .at_ none => .ok (s1.putPres n (Blk.pres c.blk) i total p)
      | .at_ (some l) =>
        .ok ((s1.writeLoc n true l c.dstRec.fmt v pois).putPres n (Blk.pres c.blk) i total p)

/-- Elements i, i+1, … of a command, `k` of them. -/
def copyRun (s : State) (n : Nat) (c : CopyCmd) (q : BitVec 2) : Nat → Nat → Except (State × Bool) State
  | _, 0 => .ok s
  | i, k + 1 =>
    match s.copyElem n c q i with
    | .error (s1, fin) => .error (if fin then s1 else s1.spoilRest n c i, fin)
    | .ok s1 => s1.copyRun n c q (i + 1) k

/-- Elements of a slab by its 64 KiB (R79). -/
def slabElems (f : Nat) : Nat := if f = 6 then 81920 else 65536 / (fmtWidth f / 8)

/-- Elements of a slab of a global destination, which also keeps to one tile's frame (R79): `u` elements of frame `fr` have
been counted. An extent-mapped destination has no tile table: a frame of 64 KiB counts as its tile (the model's choice, log 91). -/
def slabRun (most : Nat) : Nat → Option Nat → List (Option Loc) → Nat
  | _, _, [] => 0
  | u, fr, none :: r => 1 + slabRun most u fr r
  | u, fr, some l :: r =>
    if most ≤ u || !(fr.isNone || fr = some (l.key / frameBytes)) then 0
    else 1 + slabRun most (u + 1) (some (l.key / frameBytes)) r

/-- The first slab boundary at or behind element `at_` of a global destination. -/
def slabEnd (most at_ : Nat) (ds : List (Option Loc)) : Nat :=
  (List.range ds.length).foldl (fun b _ => if at_ ≤ b then b else b + max 1 (slabRun most 0 none (ds.drop b))) 0

/-- The elements, at most k, that a command moves on from element at_ without passing its slab's end (R79, R226). -/
def slabLeft (f at_ k : Nat) : Nat := min (max 1 k) (slabElems f - at_ % slabElems f)

/-- A finished command leaves its queue (R70, R91). -/
def popCpq (s : State) (n : Nat) (q : BitVec 2) : State :=
  (s.setCpq n q (((s.sh n).cpq[q.toNat]?.getD []).drop 1)).queueDone n q

/-- The two copies of an assay task have met different operands: a mismatch, which ends both (13 R273). -/
def assayMiss (s : State) (n : Nat) : State := s.modSh n fun x => { x with mismatch := true }

/-- The first CPYP of queue q leaves: the one in transmission. A rollback can have put gated commands ahead of it (R80). -/
def popCpyp (s : State) (n : Nat) (q : BitVec 2) : State :=
  (s.setCpq n q (((s.sh n).cpq[q.toNat]?.getD []).eraseP CpEntry.isCpyp)).queueDone n q

/-- A CPYP of shift n is finished; in an assay launch for both copies, its operands folded in (R273). -/
def endCpyp (s : State) (n : Nat) (c : CopyCmd) (q : BitVec 2) : State :=
  match s.assayPair n with
  | some (m, true) =>
    let a : Word64 := c.dst[0]?.getD 0
    let d : Word64 := c.blk[3]?.getD 0
    (((s.popCpyp n q).popCpyp m q).foldSig n a 0 d).foldSig m a 0 d
  | _ => s.popCpyp n q

/-- The end of a CPYP whose elements have all been moved: the arrival update here, or the last packet to the peer,
whose answer the command then awaits at the head of its queue. -/
def lastCpyp (s : State) (n : Nat) (c : CopyCmd) (q : BitVec 2) : State :=
  let aw := Blk.aw c.blk
  let bytes := countBytes c.src.fmt c.n
  match s.peerOf n c.dst with
  | (none, g) =>
    if aw = 0 then s.endCpyp n c q
    else match s.deliverArrive s.ownChip g aw bytes with
      | some s1 => s1.endCpyp n c q
      | none => ((s.refuse n s.ownChip c.bundle).grantErr s.ownChip s.ownChip g (aw / 64)).endCpyp n c q
  | (some chip, g) =>
    (s.setCpq n q (.cmd c c.n :: (((s.sh n).cpq[q.toNat]?.getD []).drop 1))).send (.ofNat 13 chip) (.arrive (s.cpId n q) g aw bytes)

/-- The head command of queue q moves its next elements, at most k and none of the next slab (R70, R79): the elements of one
step see one state of M and of the claim lists, those of different steps each their own (11 R226, 03 R63). A CPYP with none
left waits for its receiver. -/
def copyNonGated (s0 : State) (n : Nat) (c0 : CopyCmd) (q : BitVec 2) (at_ k : Nat) : State :=
  if c0.n ≤ at_ then s0
  else
    let c := if at_ = 0 then s0.startCopy n c0 else c0
    let s0 := s0.noteRec n c.src
    let s := if c.kind = .cpyp && at_ = 0 then
        s0.modSh n fun x => { x with cpTag := x.cpTag.setIfInBounds q.toNat (s0.freeN + 1) } else s0
    let k' := min (slabLeft c.src.fmt at_ k) (c.n - at_)
    match s.copyRun n c q at_ k' with
    | .error (s1, fin) => if fin then s1.endCpyp n c q else s1
    | .ok s1 =>
      if at_ + k' < c.n then
        s1.setCpq n q (.cmd c (at_ + k') :: (((s1.sh n).cpq[q.toNat]?.getD []).drop 1))
      else
      let s1 := if c.seen.isEmpty then s1 else s1.spoilKeys n (c.kind ≠ .cpyp) (s1.overlapOf n c)
      if c.kind = .cpyp then s1.lastCpyp n c q
      else (s1.arrive n (Blk.aw c.blk) (countBytes c.src.fmt c.n)).popCpq n q

/-! ### The gate (R220, R223, R224) -/

def gateStores (g : List GateEntry) : Nat := (g.filter fun e => match e with | .store .. => true | _ => false).length
def gateCmds (g : List GateEntry) : Nat := (g.filter fun e => match e with | .store .. => false | _ => true).length

def pushGate (s : State) (n : Nat) (e : GateEntry) : State := s.modSh n fun x => { x with gate := x.gate ++ [e] }

/-- The chip of a location in M: none for this one. -/
def chipOfKey (s : State) (key : Nat) : Option Nat :=
  if key < chipSpan then none else s.homeOf (key / chipSpan - 1)

/-- What has been written to M of another chip leaves for it as a packet (15 R311); M holds it from the same step on (log 29). -/
def sendStore (s : State) (key len : Nat) : State :=
  match s.chipOfKey key with
  | none => s
  | some c => s.send (.ofNat 13 c) (.store (key % chipSpan) (memBytes s.mem key len))

/-- Elements whose home lies behind a dead link, with the chip (R224). -/
def deadEls (s : State) (ds : List (Option Loc)) : List (Nat × Nat) :=
  ds.zipIdx.filterMap fun (d, i) =>
    match d with
    | some ⟨none, key, _⟩ => match s.chipOfKey key with
      | some ch => if s.deadChip (some ch) then some (i, ch) else none
      | none => none
    | _ => none

/-- All destination elements of a command translated, or the first fault. -/
def allDst (s : State) (n : Nat) (c : CopyCmd) : Except (Cause × Nat × Nat) (List (Option Loc)) :=
  (List.range c.n).mapM fun i =>
    match s.dstEl n c i with
    | .at_ l => .ok l
    | .bad ca sub tid => .error (ca, sub, tid)

/-- All source elements of a command translated, or the first fault. -/
def allSrc (s : State) (n : Nat) (c : CopyCmd) : Except (Cause × Nat × Nat) (List SrcEl) :=
  (List.range c.n).mapM fun i =>
    match s.srcEl n c i with
    | .el e _ => .ok e
    | .bad ca sub tid => .error (ca, sub, tid)

def isNonzero (f v : Nat) : Bool := !(decodeNum f v).1.isZero

/-- Element k of a one-dimensional tensor named by a CPYZ descriptor (R89). A tensor of another NDIM or FMT, or with XM = 1, is
TRANS (NOTID) at gate entry (the model's choice, log 89). -/
def cpyzLoc (s : State) (n tid fmt k : Nat) : Except (Cause × Nat × Nat) (Option Loc) :=
  match s.tensorEntry (s.sh n).k.ttbase (s.sh n).k.ttlim tid with
  | none => .error (.trans, 1, tid)
  | some e =>
    if !entryOk e || eNdim e != 1 || eFmt e != fmt || eXm e then .error (.trans, 1, tid)
    else match s.transEntry tid e 0 [(k : Int)] .write with
      | .ok _ key bit => .ok (some ⟨none, key, bit⟩)
      | .outside => .error (.trans, 2, tid)
      | .bad ca sub => .error (ca, sub, tid)
      | _ => .ok none

/-- The destinations of a CPYZ command: values, column indices, row pointers (R89). -/
def cpyzDst (s : State) (n : Nat) (c : CopyCmd) (nnz : Nat) : Except (Cause × Nat × Nat) (List (Option Loc)) := do
  let d0 := c.dst[0]?.getD 0
  let d1 := c.dst[1]?.getD 0
  let d2 := c.dst[2]?.getD 0
  let nz0 := fld d2 0 32
  let rp0 := fld d2 32 32
  let vals ← (List.range nnz).mapM fun k => s.cpyzLoc n (fld d0 0 20) c.src.fmt (nz0 + k)
  let cols ← (List.range nnz).mapM fun k => s.cpyzLoc n (fld d0 32 20) 0xB (nz0 + k)
  let rows ← (List.range (c.src.win 0 + 1)).mapM fun k => s.cpyzLoc n (fld d1 0 20) 0xB (rp0 + k)
  pure (vals ++ cols ++ rows)

/-- A source element of a CPYZ as its commit reads it: a global one that the destination overlaps as it stood before. -/
def cpyzVal (s : State) (n : Nat) (c : CopyCmd) (srcs : List SrcEl) (i : Nat) : Nat × Bool :=
  let now := s.peekSrc n c.src (srcs.getD i .fill)
  if c.src.kind = 0 then (c.seen[i]?).getD now else now

/-- The nonzeros of a CPYZ's source, and what it writes at commit, in order: a destination index, a format, a value and its
poison (R89, R77). -/
def cpyzWrites (s : State) (n : Nat) (c : CopyCmd) (srcs : List SrcEl) (nnz : Nat) : Nat × List (Nat × Nat × Nat × Bool) :=
  let d2 := c.dst[2]?.getD 0
  let nz0 := fld d2 0 32
  let w1 := c.src.win 1
  let (k, body, rows) := (List.range (c.src.win 0)).foldl
    (fun (acc : Nat × List (Nat × Nat × Nat × Bool) × List Nat) r =>
      let (k0, out, rp) := acc
      let (k1, out1) := (List.range w1).foldl
        (fun (a : Nat × List (Nat × Nat × Nat × Bool)) col =>
          let (v, p) := s.cpyzVal n c srcs (r * w1 + col)
          if isNonzero c.src.fmt v then (a.1 + 1, a.2 ++ [(a.1, c.src.fmt, v, p), (nnz + a.1, 0xB, col, false)]) else a)
        (k0, out)
      (k1, out1, rp ++ [k1])) (0, [], [0])
  (k, body ++ rows.zipIdx.map fun (k, i) => (2 * nnz + i, 0xB, (nz0 + k) % 2 ^ 32, false))

/-- A read of every source element in order, for the violations that it records (05 R99). -/
def touchSrc (s : State) (n : Nat) (c : CopyCmd) (srcs : List SrcEl) : State :=
  srcs.foldl (fun t e => (t.readSrc n c.src e).2.2) s

/-- The writes that a gated command makes at most: a torn CPYZ writes elements again. -/
def cmdTotal (c : CopyCmd) (dsts : List (Option Loc)) : Nat := if c.kind = .cpyz then 2 * dsts.length else c.n

/-- The tensor that a gated element belongs to, for the signature. -/
def elemTid (c : CopyCmd) (dst nnz : Nat) : Nat :=
  if c.kind = .cpyz then
    (if dst < nnz then fld (c.dst[0]?.getD 0) 0 20 else if dst < 2 * nnz then fld (c.dst[0]?.getD 0) 32 20
     else fld (c.dst[1]?.getD 0) 0 20)
  else LRec.tid c.dstRec

/-- One element written, counted or discarded; the Bool says that bytes of M changed (R224). -/
def commitEl (s : State) (n tid i f v : Nat) (l : Option Loc) (failed : List (Nat × Nat)) (pois : Bool) : State × Bool :=
  let s0 := s.foldSig n (.ofNat 64 (2 ^ 63 + tid * 2 ^ 32 + i)) (.ofNat 64 (locBytes f)) (.ofNat 64 v)
  match failed.find? fun p => p.1 = i with
  | some p => (s0.countFail n p.2, false)
  | none => match l with
    | none => (s0, false)
    | some l =>
      let s1 := s0.writeLoc n false l f v pois
      (if l.space.isNone then s1.sendStore l.key (locBytes f) else s1, true)

/-- The gate without its head. -/
def popGate (s : State) (n : Nat) : State := s.modSh n fun x => { x with gate := x.gate.drop 1 }
def setHead (s : State) (n : Nat) (e : GateEntry) : State := s.modSh n fun x => { x with gate := e :: x.gate.drop 1 }

def markCommitted (s : State) (n : Nat) (b : Bool) : State :=
  if b then s.modSh n fun x => { x with task := x.task.map fun t => { t with committed := true } } else s

/-- The locations of source elements. -/
def elLocs (l : List SrcEl) : List Loc := l.filterMap fun e => match e with
  | .loc l => some l
  | .fill => none

/-- The nonzeros whose places a CPYZ has translated at gate entry. -/
def gateNnz (c : CopyCmd) (dsts : List (Option Loc)) : Nat := (dsts.length - (c.src.win 0 + 1)) / 2

/-- Destination bytes of a gated command in M that are source bytes too; a destination of CPYZ by its format. -/
def gateOverlap (c : CopyCmd) (srcs : List SrcEl) (dsts : List (Option Loc)) : List (Option Nat × Nat) :=
  if c.kind = .cpfill || c.src.kind != 0 then []
  else if c.kind = .cpyz then
    let nnz := gateNnz c dsts
    overlap c.src.fmt c.src.fmt (elLocs srcs) ((dsts.take nnz).filterMap id)
      ++ overlap c.src.fmt 0xB (elLocs srcs) ((dsts.drop nnz).filterMap id)
  else overlap c.src.fmt c.src.fmt (elLocs srcs) (dsts.filterMap id)

/-- A gated command whose commit starts: its global source is taken first where it overlaps the destination (R76). -/
def startGated (s : State) (n : Nat) (c : CopyCmd) (srcs : List SrcEl) (dsts : List (Option Loc)) : CopyCmd :=
  if c.src.kind != 0 || c.kind = .cpfill then c
  else { c with seen := if (gateOverlap c srcs dsts).isEmpty then [] else srcs.map (s.peekSrc n c.src) }

/-- Whether a program has changed the scratchpad source of a gated command since its issue (R78). -/
def sourceChanged (s : State) (n : Nat) (c : CopyCmd) (srcs : List SrcEl) : Bool :=
  c.src.kind = 1 && c.kind ≠ .cpfill && (srcs.map (s.heldSrc n c.src)).map Prod.fst != c.seen.map Prod.fst

/-- What source element i of a gated command, that now reads so, counts as at commit: itself, but for an overlapping source
as it stood before, and for a scratchpad source that has changed since issue either of the two values, of which the commit reads
the bytes in violation as 0 (R76, R78, 05 R99). -/
def gatedVal (s : State) (n : Nat) (c : CopyCmd) (e : SrcEl) (i now : Nat) (p : Bool) : Nat × Bool :=
  if c.kind = .cpfill then (now, p)
  else match c.seen[i]? with
    | none => (now, p)
    | some (old, p0) =>
      if c.src.kind = 0 then (old, p0)
      else match e with
        | .fill => (now, p)
        | .loc l => (if old ≠ (s.heldSrc n c.src e).1 && Config.freeBit s.freeN (50000 + i) then s.maskedAt n c.src.fmt l old
            else now, p)

/-- A gated command has made its last write: overlapping bytes are undefined, then its arrival word is updated. -/
def endGated (s : State) (n : Nat) (c : CopyCmd) (srcs : List SrcEl) (dsts : List (Option Loc)) (failed : List (Nat × Nat))
    (bytes : Nat) : State :=
  let ks := if c.seen.isEmpty then []
    else gateOverlap c srcs (dsts.zipIdx.map fun p => if failed.any fun e => e.1 = p.2 then none else p.1)
  ((s.spoilKeys n false ks).arrive n (Blk.aw c.blk) bytes).popGate n

/-- The place of a CPYZ's i-th write when every place is written: values and columns in turn, then the row pointers (R89). -/
def placeZ (nnz i : Nat) : Nat := if i < 2 * nnz then (if i % 2 = 0 then i / 2 else nnz + i / 2) else i

/-- The bytes of a CPYZ of k nonzeros, all three ranges (R89). -/
def bytesZ (c : CopyCmd) (k : Nat) : Nat := countBytes c.src.fmt k + 4 * k + 4 * (c.src.win 0 + 1)

/-- Write i of a CPYZ whose source has changed since the command was gated, seen when j elements stood written: every element takes a
free value, one a step, those from the j-th on first and then again those before it (R78, R220, log 51). -/
def tearZ (s : State) (n : Nat) (c : CopyCmd) (dsts : List (Option Loc)) (failed : List (Nat × Nat)) (i : Nat) : State :=
  let nnz := gateNnz c dsts
  let d := placeZ nnz (i % dsts.length)
  let f := if d < nnz then c.src.fmt else 0xB
  if i < dsts.length then
    let v := (Config.freeElem s.freeN (50000 + d)).toNat % 2 ^ fmtWidth f
    let (s1, w) := s.commitEl n (elemTid c d nnz) d f v (dsts.getD d none) failed false
    s1.markCommitted n w
  else match dsts.getD d none with
    | some l => if failed.any fun e => e.1 = d then s else s.spoilLoc n false f l
    | none => s

/-- The next write of a CPYZ at the head of the gate (R89). Where the commit finds more nonzeros than the gate entry has translated
places for, the source has changed too (log 51). -/
def commitZ (s0 : State) (n : Nat) (c0 : CopyCmd) (q : BitVec 2) (srcs : List SrcEl) (dsts : List (Option Loc))
    (failed : List (Nat × Nat)) (done : Nat) : State :=
  let s := if done = 0 then s0.touchSrc n c0 srcs else s0
  let nnz := gateNnz c0 dsts
  let (k, ws) := s.cpyzWrites n c0 srcs nnz
  let c := if c0.torn.isNone && (nnz < k || s.sourceChanged n c0 srcs) then { c0 with torn := some done } else c0
  let go (t : State) (total bytes : Nat) : State :=
    if done + 1 < total then t.setHead n (.cmd c q srcs dsts failed (done + 1)) else t.endGated n c srcs dsts failed bytes
  match c.torn with
  | some j => go (s.tearZ n c dsts failed done) (dsts.length + j) (bytesZ c nnz)
  | none => match ws[done]? with
    | none => s.endGated n c srcs dsts failed (bytesZ c k)
    | some (d, f, v, p) =>
      let (s1, w) := (s.notePois n p).commitEl n (elemTid c d nnz) d f v (dsts.getD d none) failed p
      go (s1.markCommitted n w) ws.length (bytesZ c k)

/-- The next element of a gated command at the head of the gate (R78). -/
def commitCmd (s : State) (n : Nat) (c : CopyCmd) (q : BitVec 2) (srcs : List SrcEl) (dsts : List (Option Loc))
    (failed : List (Nat × Nat)) (done : Nat) : State :=
  let e := srcs.getD done .fill
  let (now, dirty, s0) := s.readSrc n c.src e
  let (v, pois) := s.gatedVal n c e done now dirty
  let (s1, w) := (s0.notePois n pois).commitEl n (elemTid c done 0) done c.dstRec.fmt v (dsts.getD done none) failed pois
  let s2 := s1.markCommitted n w
  if done + 1 < c.n then s2.setHead n (.cmd c q srcs dsts failed (done + 1))
  else s2.endGated n c srcs dsts failed (countBytes c.src.fmt c.n)

/-- COMMIT: the gate's oldest entry, one element of it when it is a command (R220). -/
def commitOne (s : State) (n : Nat) : State :=
  match (s.sh n).gate with
  | [] => s
  | .store flat chip key len data failed _ :: _ =>
    let s0 := s.foldSig n flat (.ofNat 64 len) (.ofNat 64 (data.toNat % 2 ^ (8 * len)))
    if failed then (s0.countFail n (chip.getD s.ownChip)).popGate n
    else (((s0.writeM key len data.toNat).sendStore key len).markCommitted n true).popGate n
  | .cmd c0 q srcs dsts failed done :: _ =>
    let c := if done = 0 then s.startGated n c0 srcs dsts else c0
    if c.kind = .cpyz then s.commitZ n c q srcs dsts failed done else s.commitCmd n c q srcs dsts failed done
  | .epi x b f tid els failed done :: _ =>
    match els[done]? with
    | none => s.popGate n
    | some (v, l) =>
      let (s1, w) := s.commitEl n tid done f v.toNat (some l) failed false
      let s2 := s1.markCommitted n w
      if done + 1 < els.length then s2.setHead n (.epi x b f tid els failed (done + 1)) else s2.popGate n

/-- The places that a gate entry writes, in its order, and the format by which its slabs are counted (04 R79). -/
def entryDsts (s : State) (n : Nat) : GateEntry → Nat × List (Option Loc)
  | .store .. => (0, [])
  | .cmd c _ srcs dsts _ _ =>
    (c.src.fmt, if c.kind = .cpyz then (match c.torn with
        | some j => (List.range (dsts.length + j)).map fun i => dsts.getD (placeZ (gateNnz c dsts) (i % dsts.length)) none
        | none => (s.cpyzWrites n c srcs (gateNnz c dsts)).2.map fun w => dsts.getD w.1 none)
      else dsts)
  | .epi _ _ f _ els _ _ => (f, els.map fun e => some e.2)

/-- The elements of the gate's oldest entry that a commit still writes before it can stop (04 R79, 14 R294). -/
def slabRest (s : State) (n : Nat) : Nat :=
  match (s.sh n).gate with
  | [] => 0
  | e :: _ =>
    let done := match e with
      | .store .. => 0
      | .cmd _ _ _ _ _ d => d
      | .epi _ _ _ _ _ _ d => d
    let p := s.entryDsts n e
    if done = 0 then 0 else slabEnd (slabElems p.1) done p.2 - done

/-- A commit in progress goes on to the end of its slab. -/
def finishSlab (s : State) (n : Nat) : State := (List.range (s.slabRest n)).foldl (fun t _ => t.commitOne n) s

/-- The steps that empty the gate. -/
def gateSteps (s : State) (n : Nat) : Nat :=
  ((s.sh n).gate.map fun e => match e with
    | .store .. => 1
    | .cmd c _ _ dsts _ done => cmdTotal c dsts + 1 - done
    | .epi _ _ _ _ els _ done => els.length + 1 - done).sum

/-- A command at the head of queue q that has begun a slab goes on to that slab's end (04 R79). -/
def endSlab (s : State) (n : Nat) (q : BitVec 2) : State := match ((s.sh n).cpq[q.toNat]?.getD []).head? with
  | some (.cmd c d) =>
    if !c.gated && decide (d < c.n) && d % slabElems c.src.fmt != 0 then s.copyNonGated n c q d (slabElems c.src.fmt) else s
  | _ => s

/-- What shift n's copy engine and commit have begun goes on to the next slab boundary (04 R79, 13 R274). -/
def endSlabs (s : State) (n : Nat) : State :=
  (([0, 1, 2, 3] : List (BitVec 2)).foldl (fun t q => t.endSlab n q) s).finishSlab n

/-- COMMIT until the gate is empty (R222 step 4). -/
def commitAll (s : State) (n : Nat) : State :=
  ((List.range (s.gateSteps n)).foldl (fun t _ => t.commitOne n) s).modSh n fun x => { x with gate := [] }

/-- The tensors that a command names stand in the caches from then on (R53). -/
def noteCmd (s : State) (n : Nat) (c : CopyCmd) : State :=
  let d (i lo : Nat) : Nat := fld (c.dst[i]?.getD 0) lo 20
  let s1 := s.noteRec n c.src
  if c.kind = .cpyz then ((s1.noteTid n (d 0 0)).noteTid n (d 0 32)).noteTid n (d 1 0) else s1.noteRec n c.dstRec

/-- The head command of queue q enters the gate (R78). The nonzeros of a CPYZ are counted in its source as the commit will
read it, every gated entry ahead included (R78, R89). Where both ranges fault, the source is reported, side 0 (the model's
choice, log 89); a full gate is reported with the destination, side 1 (R80, R223, log 89). -/
def gateCmd (s : State) (n : Nat) (c : CopyCmd) (q : BitVec 2) : State :=
  let bad (side : Nat) (e : Cause × Nat × Nat) : State := (s.noteCmd n c).memFault n (copyFault c q side 0 e.1 e.2.1 e.2.2)
  match s.allSrc n c with
  | .error e => bad 0 e
  | .ok srcs =>
    let nnz := if c.kind = .cpyz then
        let t := s.commitAll n
        (srcs.filter fun e => isNonzero c.src.fmt (t.peekSrc n c.src e).1).length else 0
    match (if c.kind = .cpyz then s.cpyzDst n c nnz else s.allDst n c) with
    | .error e => bad 1 e
    | .ok dsts =>
      let s1 := s.noteCmd n c
      if 64 ≤ gateCmds (s.sh n).gate then s1.memFault n (copyFault c q 1 0 .gateovf 1 (elemTid c 0 1))
      else
        let s2 := if c.kind = .cpyz then s1.touchSrc n c srcs else s1
        (s2.pushGate n (.cmd c q srcs dsts (s.deadEls dsts) 0)).popCpq n q

/-! ### The load-store queue -/

/-- One byte of a load: the youngest gated store that covers it, or M (R220). -/
def loadByte (s : State) (n key : Nat) : Nat × Bool :=
  let cover := (s.sh n).gate.foldl (fun (acc : Option Nat) e =>
    match e with
    | .store _ _ k len d _ _ => if k ≤ key ∧ key < k + len then some (d.toNat / 256 ^ (key - k) % 256) else acc
    | _ => acc) none
  match cover with
  | some b => (b, false)
  | none => ((memByte s.mem key).toNat, s.poisonM.any fun k => k = key)

/-- LOAD of n bytes: value and poison (R220). -/
def loadBytes (s : State) (n key : Nat) : Nat → Nat × Bool
  | 0 => (0, false)
  | len + 1 =>
    let (b, p) := s.loadByte n key
    let (v, p') := s.loadBytes n (key + 1) len
    (b + 256 * v, p || p')

/-- The new value of an atomic (R234): none for a failed ACAS. -/
def atomicNew (op : AOp) (len : Nat) (old b new : Nat) : Option Nat :=
  let w := 8 * len
  match op with
  | .add => some ((old + b) % 2 ^ w)
  | .min => some (if signedOf w old ≤ signedOf w b then old else b)
  | .minu => some (Nat.min old b)
  | .max => some (if signedOf w old ≥ signedOf w b then old else b)
  | .maxu => some (Nat.max old b)
  | .and => some (old &&& b)
  | .or => some (old ||| b)
  | .xor => some (old ^^^ b)
  | .swp => some b
  | .cas => if old = b then some new else none

/-- The head of the LSQ leaves. -/
def popLsq (s : State) (n : Nat) : State := s.modSh n fun x => { x with
  lsq := x.lsq.drop 1, acasGo := x.acasGo.filter fun k => some k != x.lsq.head?.map LsqEntry.bundle }

/-- A record of a memory fault of an LS-slot operation. -/
def lsFault (_ : State) (x : Addr) (c : Cause) (info : Word64) : TrapRec := ⟨c, x, 4, info, 0⟩

/-- The read-modify-write of an atomic (R234): the old value, or a fault. One that violates in window 0 leaves one record, that
of its read (the model's choice, log 93). -/
def atomicStep (s : State) (n : Nat) (x : Addr) (op : AOp) (a : Addr) (len : Nat) (b new : Word64) :
    Except State (Word64 × State) :=
  let bb := b.toNat % 2 ^ (8 * len)
  let nn := new.toNat % 2 ^ (8 * len)
  match s.flat n a .readWrite with
  | .bad c sub tid => .error (s.memFault n (s.lsFault x c (transInfo sub tid)))
  | .sp off =>
    let (old, p, s1) := s.spRead n off len
    if p then .error (s1.memFault n (s1.lsFault x .uce s1.freeInfo))
    else
      match atomicNew op len old bb nn with
      | some v => .ok (.ofNat 64 old, s1.spPokeOk n off v len)
      | none => .ok (.ofNat 64 old, s1)
  | .m _ key =>
    let old := s.readM key len
    if anyPois s.poisonM key len then .error (s.memFault n (s.lsFault x .uce s.freeInfo))
    else
      match atomicNew op len old bb nn with
      | some v => .ok (.ofNat 64 old, s.writeM key len v)
      | none => .ok (.ofNat 64 old, s)

/-- Whether the head of the LSQ can be performed: an access over a dead link waits (R234, log 21). -/
def lsqReady (s : State) (n : Nat) : Bool :=
  match (s.sh n).lsq with
  | [] => false
  | e :: _ =>
    if (s.sh n).memTrap.isSome then false
    else !(s.sh n).fences.any fun f => f.bundle < e.bundle

/-- Whether an address leads over a dead link. -/
def deadAddr (s : State) (n : Nat) (a : Addr) (acc : Acc) : Bool :=
  match s.flat n a acc with
  | .m chip _ => s.deadChip chip
  | _ => false

/-- The entry of an access through a byte window stands in the caches from then on (R53). -/
def noteFlat (s : State) (n : Nat) (a : Addr) : State :=
  let w := fld a 46 4
  let b := (s.sh n).k.bwin[w]?.getD 0
  if w = 0 || fld b 20 1 = 0 then s else s.noteTid n (fld b 0 20)

/-- LOAD (R220, R59). -/
def perfLoad (s : State) (n : Nat) (x : Addr) (d : R5) (a : Addr) (len : Nat) (sx : Bool) : State :=
  if s.deadAddr n a .read then s
  else
    let ext (v : Nat) : Word64 := if sx then .ofInt 64 (signedOf (8 * len) v) else .ofNat 64 v
    match s.flat n a .read with
    | .bad c sub tid => ((s.noteFlat n a).popLsq n).memFault n (s.lsFault x c (transInfo sub tid))
    | .sp off =>
      let (v, p, s1) := s.spRead n off len
      (s1.popLsq n).arriveG n d (ext v) p
    | .m _ key =>
      let (v, p) := s.loadBytes n key len
      ((s.noteFlat n a).popLsq n).arriveG n d (ext v) p

/-- GATE (R220, R223, R224). -/
def perfStore (s : State) (n : Nat) (x : Addr) (bundle : Nat) (a : Addr) (len : Nat) (data : Word64) : State :=
  match s.flat n a .write with
  | .bad c sub tid => ((s.noteFlat n a).popLsq n).memFault n (s.lsFault x c (transInfo sub tid))
  | .sp off => (s.spWrite n off len data.toNat).popLsq n
  | .m chip key =>
    if 256 ≤ gateStores (s.sh n).gate then (s.popLsq n).memFault n (s.lsFault x .gateovf 0)
    else ((s.noteFlat n a).popLsq n).pushGate n (.store a chip key len data (s.deadChip chip) bundle)

/-- How an atomic is paired in an assay launch (R273): none while it waits for the other copy; otherwise the twin,
with whether its operands agree. -/
def assayAtomic (s : State) (n : Nat) (e : LsqEntry) : Option (Option (Nat × Bool)) :=
  match s.assayPair n with
  | none => some none
  | some (m, primary) =>
    if !primary then none
    else match (s.sh m).lsq with
      | [] => none
      | e' :: _ => match e.op, e'.op with
        | .atomic o _ a k b w _ _, .atomic o' _ a' k' b' w' _ _ =>
          if o = o' ∧ a = a' ∧ k = k' ∧ b = b' ∧ w = w' then some (some (m, true)) else some (some (m, false))
        | _, _ => none

/-- The gate of shift n discarded, its entries folded into the signature as a commit folds them: the twin's at a release
atomic, whose gate the primary's ATOMIC empties (R273). -/
def dropGate (s : State) (n : Nat) : State :=
  let sig := ((s.commitAll n).sh n).task.map Task.sig
  s.modSh n fun x => { x with gate := [], task := x.task.map fun t => { t with sig := sig.getD t.sig } }

/-- Whether a later entry of a shift has gone ahead of the atomic at the head of its LSQ. -/
def overtaken (x : Shift) : Bool := match x.lsq.head? with
  | some e => x.acasGo.contains e.bundle
  | none => false

/-- Whether the ACAS at the head of shift n's LSQ would fail although a later entry has gone ahead of it, or of its copy in an
assay launch, as the success alone allows (R227): it waits. A poisoned old value raises UCE instead (R234). -/
def acasWaits (s : State) (n : Nat) (op : AOp) (a : Addr) (len : Nat) (b : Word64) : Bool :=
  op = .cas && (overtaken (s.sh n) || (match s.assayPair n with
      | some (m, true) => overtaken (s.sh m)
      | _ => false)) && (match s.flat n a .readWrite with
    | .m _ key => !anyPois s.poisonM key len && decide (s.readM key len ≠ b.toNat % 2 ^ (8 * len))
    | .sp off => !(s.spRead n off len).2.1 && decide ((s.spRead n off len).1 ≠ b.toNat % 2 ^ (8 * len))
    | .bad .. => false)

/-- ATOMIC (R220, R234, R273). A release takes one COMMIT of the shift's gate a step until the gate is empty. The twin's copy
gets the primary's result. -/
def perfAtomic (s : State) (n : Nat) (e : LsqEntry) (op : AOp) (d : R5) (a : Addr) (len : Nat) (b new : Word64)
    (ord : BitVec 2) (twin : Option Nat) : State :=
  if s.deadAddr n a .readWrite || s.acasWaits n op a len b then s
  else if 2 ≤ ord.toNat && !(s.sh n).gate.isEmpty then s.commitOne n
  else
    let s0 := if ord.toNat < 2 then s else match twin with
      | none => s
      | some m => s.dropGate m
    match s0.atomicStep n e.x op a len b new with
    | .error s1 => (s1.noteFlat n a).popLsq n
    | .ok (old, s1) =>
      let s2 := ((s1.noteFlat n a).popLsq n).arriveG n d old false
      let s3 := s2.foldSig n a 0 b
      match twin with
      | none => s3
      | some m =>
        let dm := match (s3.sh m).lsq with
          | ⟨.atomic _ d' _ _ _ _ _ _, _, _⟩ :: _ => d'
          | _ => d
        ((s3.popLsq m).arriveG m dm old false).foldSig m a 0 b

/-- The read of RNGP in REPLAY mode (14 R303). -/
def perfReplay (s : State) (n : Nat) (x : Addr) (d : R5) (c0 c1 : Word64) : State :=
  let k := (s.sh n).k
  let tid := k.rngtid.toNat
  let r := match s.tensorEntry k.ttbase k.ttlim tid with
    | none => Trans.bad .trans 1
    | some e =>
      if !entryOk e || eNdim e != 2 || eFmt e != 0xC || eXm e then .bad .trans 1
      else s.transEntry tid e 0 [(c0.toNat : Int), (c1.toNat : Int)] .read
  match r with
  | .ok chip key _ =>
    if s.deadChip chip then s
    else
      let (v, p) := s.loadBytes n key 8
      ((s.noteTid n tid).popLsq n).arriveG n d (.ofNat 64 v) p
  | .bad c sub => ((s.noteTid n tid).popLsq n).memFault n ⟨c, x, 7, transInfo sub tid, 0⟩
  | _ => ((s.noteTid n tid).popLsq n).memFault n ⟨.trans, x, 7, transInfo 2 tid, 0⟩

/-- PERFORM of the LSQ's head (R220). -/
def perfLsq (s : State) (n : Nat) : State :=
  if !s.lsqReady n then s
  else match (s.sh n).lsq with
    | [] => s
    | e :: _ => match e.op with
      | .load d a len sx => s.perfLoad n e.x d a len sx
      | .store a len data => s.perfStore n e.x e.bundle a len data
      | .replay d c0 c1 => s.perfReplay n e.x d c0 c1
      | .atomic op d a len b new ord _ =>
        match s.assayAtomic n e with
        | none => s
        | some none => s.perfAtomic n e op d a len b new ord none
        | some (some (m, same)) => if same then s.perfAtomic n e op d a len b new ord (some m) else s.assayMiss n

/-- The LSQ performed to its end, or to a fault or an entry that waits. A store can put an entry into the gate that a release
then commits. -/
def completeLsq (s : State) (n : Nat) : State :=
  (List.range (2 * (s.sh n).lsq.length + s.gateSteps n)).foldl (fun t _ => t.perfLsq n) s

/-- Whether the head of shift n's LSQ is a release atomic that still empties the gate (R220). -/
def draining (s : State) (n : Nat) : Bool := s.lsqReady n && !(s.sh n).gate.isEmpty && (match (s.sh n).lsq.head? with
  | some e => (match e.op with
    | .atomic op _ a len b _ ord _ => 2 ≤ ord.toNat && !s.deadAddr n a .readWrite && !s.acasWaits n op a len b
        && (match s.assayAtomic n e with
          | some none => true
          | some (some (_, same)) => same
          | none => false)
    | _ => false)
  | none => false)

/-- The ACASes of an entry list under `.facq` alone that stand ahead of an MX or copy entry of bundle b. -/
def acasAhead (l : List LsqEntry) (b : Nat) : List Nat :=
  (l.filter fun e => decide (e.bundle ≤ b) && (match e.op with
    | .atomic op _ _ _ _ _ ord facq => op = .cas && facq && ord != 1 && ord != 3
    | _ => false)).map LsqEntry.bundle

/-- Whether an acquire of shift n holds an MX or copy entry of bundle b (R227): those of its own bundle stand behind it in
slot order (R220). An ACAS under `.facq` alone holds them if it fails: whether an entry goes ahead of it is a free choice, and
one that an entry has gone ahead of does not fail (log 79). -/
def heldByAcquire (s : State) (n b : Nat) : Bool :=
  ((s.sh n).lsq.any fun e => decide (e.bundle ≤ b) && (match e.op with
    | .atomic _ _ _ _ _ _ ord _ => ord = 1 || ord = 3
    | _ => false))
  || (acasAhead (s.sh n).lsq b).any fun k => !(s.sh n).acasGo.contains k && !Config.freeBit s.freeN (60000 + k)

/-- An MX or copy entry of bundle b goes ahead of the ACASes under `.facq` that stand in front of it. -/
def goAhead (s : State) (n b : Nat) : State :=
  match acasAhead (s.sh n).lsq b with
  | [] => s
  | l => s.modSh n fun x => { x with acasGo := x.acasGo ++ l.filter fun k => !x.acasGo.contains k }

/-- Whether a FENCE of shift n holds an entry of bundle b (R233). -/
def heldByFence (s : State) (n b : Nat) : Bool := (s.sh n).fences.any fun f => decide (f.bundle < b)

/-- Whether a FENCE or an acquire of shift n holds an MX or copy entry of bundle b. -/
def held (s : State) (n b : Nat) : Bool := s.heldByFence n b || s.heldByAcquire n b

end State

end Sys2Proof.Machine
end

