-- ==== Sys2Proof/Machine/Ops.lean ====
section
/-! DEFINITION. The shared operations of the machine: stage-queue slots (13 R261-R263), the choice of the running
shift (R260), rollback (11 R229), abort (13 R274), taking an exception and returning from one (14 R287-R293, R301),
and the phase boundary (11 R222). -/

namespace Sys2Proof.Machine

/-! ### Causes (14 R285) -/

def Cause.code : Cause → Nat
  | .illegal => 0x01 | .priv => 0x03 | .align => 0x04 | .bankconf => 0x05 | .bgroup => 0x06 | .cmapbrk => 0x07
  | .layoutrsv => 0x08 | .trans => 0x09 | .perm => 0x0A | .grant => 0x0B | .uce => 0x0C | .fpx => 0x0D
  | .frontovf => 0x0E | .queue => 0x0F | .watchdog => 0x10 | .emul => 0x11 | .swtrap => 0x12 | .profile => 0x13
  | .gateovf => 0x14 | .lostregion => 0x15 | .lostctx => 0x16 | .guard => 0x20 | .link => 0x21 | .spwin => 0x22

/-- Memory causes roll the shift back. -/
def Cause.memory : Cause → Bool
  | .trans | .perm | .grant | .uce | .gateovf => true
  | _ => false

def Cause.imprecise : Cause → Bool
  | .guard | .link | .spwin => true
  | _ => false

/-- Whether a cause code is that of a memory cause (R301). -/
def memoryCode (c : Nat) : Bool := c = 0x09 || c = 0x0A || c = 0x0B || c = 0x0C || c = 0x14

/-- Bits of ctx.trapmask that read 0: memory, host and abort causes (R291). -/
def trapmaskFixed : Word64 := .ofNat 64
  (2 ^ 0x09 + 2 ^ 0x0A + 2 ^ 0x0B + 2 ^ 0x0C + 2 ^ 0x10 + 2 ^ 0x14 + 2 ^ 0x15 + 2 ^ 0x16)

/-- The status word of FENCE (11 R233). -/
def FStatus.word (f : FStatus) (tmo : Bool) : Word64 :=
  .ofNat 64 ((if f.link then 1 else 0) + (if f.grant then 2 else 0) + (if f.pois then 4 else 0) + (if tmo then 8 else 0)
    + f.nfail * 2 ^ 8 + f.chip.toNat * 2 ^ 48)

/-! ### Matrix entries and loop bodies -/

/-- Whether a routine has released its entry and only runs on (09 R188 REL). -/
def MxEntry.released (e : MxEntry) : Bool := e.micro.any MicroSt.released

/-- The MXQ entries that have not been released. A routine fault stops its call unreleased, behind a REL too (09 R189). -/
def Shift.mxLive (x : Shift) : List MxEntry := if x.mxFault.isSome then x.mxq else x.mxq.filter fun e => !MxEntry.released e

/-- The group and mask to which a shift is attached: what its joins and leaves come to when its queued ones are discarded. -/
def Shift.attached (x : Shift) : Option (BitVec 2 × BitVec 8) := x.bg.map fun b => (b.grp, b.mask)

/-- Whether a level's body holds an address. -/
def bodyHolds (l : Level) (a : Addr) : Bool := l.act && l.start.toNat ≤ a.toNat && decide (a.toNat ≤ l.stop.toNat)
/-- Whether the body of some active level holds an address. -/
def inBody (ls : Vector Level 6) (a : Addr) : Bool := ls.toList.any fun l => bodyHolds l a

namespace State

/-! ### Stage queues (13 R261-R263) -/

/-- The declaration of queue q for a shift whose gallery holds it. -/
def queueDecl (s : State) (n q : Nat) : Option QueueDecl :=
  match s.launchOf n with
  | none => none
  | some l => match l.obj.queues.find? fun p => p.1 = q with
    | some (_, d) => if d.gal = s.compGal n then some d else none
    | none => none

def cbRead (s : State) (g : Nat) (d : QueueDecl) (off len : Nat) : Nat := memRead (s.gal g).sp (d.cb + off) len
/-- The device writes to a control block. -/
def cbWrite (s : State) (g : Nat) (d : QueueDecl) (off len v : Nat) : State :=
  let t := s.spPoke g (d.cb + off) len v
  t.setGal g { t.gal g with ctl := memWrite (t.gal g).ctl (d.cb + off) len v }
/-- Whether a control block holds what the device wrote there. Once a program has changed it, what the device takes from it
is a free value (R261: the queue's behaviour is undefined then; log 34). -/
def cbSound (s : State) (g : Nat) (d : QueueDecl) : Bool :=
  memRead (s.gal g).sp d.cb 64 = memRead (s.gal g).ctl d.cb 64
def qHead (s : State) (g : Nat) (d : QueueDecl) : Nat :=
  if s.cbSound g d then s.cbRead g d 8 4 else (Config.freeWord s.freeN (3 * d.cb + 10000)).toNat % 2 ^ 32
def qRes (s : State) (g : Nat) (d : QueueDecl) : Nat :=
  if s.cbSound g d then s.cbRead g d 12 4 else (Config.freeWord s.freeN (3 * d.cb + 10001)).toNat % 2 ^ 32
def qClosed (s : State) (g : Nat) (d : QueueDecl) : Bool :=
  if s.cbSound g d then s.cbRead g d 20 1 % 2 = 1 else (Config.freeWord s.freeN (3 * d.cb + 10002)).getLsbD 0
/-- Occupancy (R262). -/
def qOcc (s : State) (g : Nat) (d : QueueDecl) : Nat := (s.qRes g d + 2 ^ 32 - s.qHead g d) % 2 ^ 32
/-- Offset of slot i (R261). -/
def slotOff (d : QueueDecl) (i : Nat) : Nat := (d.ring + 64 * (i % d.cap)) % 2 ^ 24

def modSlots (s : State) (g : Nat) (f : List QSlot → List QSlot) : State := s.setGal g { s.gal g with slots := f (s.gal g).slots }

/-- Slots of queue q in state st. -/
def slotsIn (s : State) (g q : Nat) (st : SlotSt) : List QSlot :=
  (s.gal g).slots.filter fun x => x.q = q && x.st = st

/-- HEAD passes the DONE slot at its position (R262). -/
def headStep (s : State) (g q : Nat) (d : QueueDecl) : State :=
  let h := s.qHead g d
  if (s.gal g).slots.any fun x => x.q = q && x.idx.toNat = h && x.st = .done then
    ((s.modSlots g fun l => l.filter fun x => !(x.q = q && x.idx.toNat = h)).cbWrite g d 8 4 ((h + 1) % 2 ^ 32))
  else s

/-- HEAD advanced, NRDY and NTKN counted anew. -/
def refreshQ (s : State) (g q : Nat) (d : QueueDecl) : State :=
  let s1 := (List.range (s.gal g).slots.length).foldl (fun t _ => t.headStep g q d) s
  (s1.cbWrite g d 16 2 (s1.slotsIn g q .ready).length).cbWrite g d 18 2 (s1.slotsIn g q .taken).length

/-- Every queue that shift n's launch has in shift n's gallery. -/
def myQueues (s : State) (n : Nat) : List (Nat × QueueDecl) :=
  match s.launchOf n with
  | none => []
  | some l => l.obj.queues.filter fun p => p.2.gal = s.compGal n

def refreshAll (s : State) (n : Nat) : State :=
  (s.myQueues n).foldl (fun t p => t.refreshQ (n / 32) p.1 p.2) s

/-- A state change of the slots that a shift owns. -/
def mapSlots (s : State) (n : Nat) (f : QSlot → QSlot) : State :=
  (s.modSlots (n / 32) fun l => l.map fun x => if x.owner = n then f x else x).refreshAll n

/-- Provisional queue effects of bundles from `b` on are taken back (R263). -/
def undoSlots (s : State) (n b : Nat) : State :=
  s.mapSlots n fun x =>
    if x.bundle < b then x
    else match x.st with
      | .rsvd => { x with st := .done }
      | .taken => { x with st := .ready }
      | _ => x

/-- The queue effects of a boundary (R262): RSVD slots become READY, then pending closes. -/
def boundaryQueues (s : State) (n : Nat) : State :=
  let s1 := s.mapSlots n fun x => if x.st = .rsvd then { x with st := .ready } else x
  let s2 := (s1.sh n).closePend.foldl (fun t q => match t.queueDecl n q with
    | some d => t.cbWrite (n / 32) d 20 1 1
    | none => t) s1
  s2.modSh n fun x => { x with closePend := [] }

/-! ### The running shift (13 R258-R260) -/

/-- The stage of a shift. -/
def stageOf (s : State) (n : Nat) : Option StageDecl :=
  match s.launchOf n, (s.sh n).bound with
  | some l, some (_, k) => l.obj.stages[k]?
  | _, _ => none

/-- READY count of a queue, 0 for one that the stage lacks. -/
def readyCount (s : State) (n : Nat) (q : Option Nat) : Nat :=
  match q with
  | none => 0
  | some q => (s.slotsIn (n / 32) q .ready).length

/-- The pressure of a shift's stage (R260). -/
def pressure (s : State) (n : Nat) : Int :=
  match s.stageOf n with
  | none => 0
  | some st => (s.readyCount n st.input : Int) - ((st.outputs.map fun q => s.readyCount n (some q)).foldl Nat.max 0 : Nat)

def prio (s : State) (n : Nat) : Nat := match s.stageOf n with
  | some st => st.prio
  | none => 0

/-- Whether shift a is preferred to shift b (R260). -/
def preferred (s : State) (a b : Nat) : Bool :=
  if s.prio a != s.prio b then s.prio a < s.prio b
  else if s.pressure a != s.pressure b then decide (s.pressure b < s.pressure a)
  else if (s.sh a).waitCy != (s.sh b).waitCy then (s.sh b).waitCy < (s.sh a).waitCy
  else a < b

def shiftsOf (c : Nat) : List Nat := [4 * c, 4 * c + 1, 4 * c + 2, 4 * c + 3]

/-- The running shift of a core. -/
def runningOf (s : State) (c : Nat) : Option Nat := (shiftsOf c).find? fun n => (s.sh n).st = .running

/-- The core chooses among its READY shifts when none runs; a yielding shift only when no other is READY (R260). -/
def choose (s : State) (c : Nat) (yielding : Option Nat) : State :=
  match s.runningOf c with
  | some _ => s
  | none =>
    let ready := (shiftsOf c).filter fun n => (s.sh n).st = .ready
    let cand := if ready.any (fun n => some n != yielding) then ready.filter (fun n => some n != yielding) else ready
    match cand with
    | [] => s
    | a :: r =>
      let best := r.foldl (fun x y => if s.preferred y x then y else x) a
      s.modSh best fun x => { x with st := .running, waitCy := 0, runCy := 0 }

/-- A shift leaves RUNNING for state st. -/
def leave (s : State) (n : Nat) (st : RunSt) (why : Option BlockWhy) : State :=
  (s.modSh n fun x => { x with st := st, blockOn := why, waitCy := 0 }).choose (n / 4) (if st = .ready then some n else none)

/-- A blocked shift becomes READY (R259). -/
def wake (s : State) (n : Nat) : State :=
  match (s.sh n).st with
  | .blocked => (s.modSh n fun x => { x with st := .ready, blockOn := none }).choose (n / 4) none
  | _ => s

/-! ### Code ranges (02 R40) -/

/-- Whether an address lies in a portable range of the shift's launch. -/
def portableAt (s : State) (n : Nat) (a : Addr) : Bool :=
  match s.launchOf n with
  | some l => l.obj.portable.any fun p => p.1.toNat ≤ a.toNat && decide (a.toNat < p.2.toNat)
  | none => false

/-- The next bundle is at a, by a control transfer (R40). -/
def transfer (s : State) (n : Nat) (a : Addr) : State :=
  s.modSh n fun x => { x with pc := a, k := { x.k with port := s.portableAt n a } }

/-! ### Accumulator shadow (09 R192) -/

def releaseSlots (s : State) (n : Nat) : State :=
  let c := s.core (n / 4)
  if c.accSh.any fun a => a.holder = n then s.setCore (n / 4) { c with accSh := c.accSh.filter fun a => a.holder != n }
  else s

/-- The tiles of a shift after a rollback (R192). -/
def tilesBack (s : State) (n : Nat) : Vector Tile 8 :=
  let x := s.sh n
  Vector.ofFn fun (k : Fin 8) =>
    match (s.core (n / 4)).accSh.find? fun a => a.holder = n && a.tile.toNat = k.val with
    | some a => a.copy
    | none =>
      let t := x.tiles[k]
      if x.liveAt.getLsbD k.val then { t with live := true }
      else if t.live || x.tileWr.getLsbD k.val then ⟨[], some (s.freeN * 8 + k.val), .none, false, false⟩
      else t

/-! ### Rollback (11 R229, R230) -/

/-- A copy queue after a rollback to the boundary of bundle b (04 R80): later entries go, earlier ones restart, and
gated commands issued before the boundary return to the head. A CPYP that has sent everything still awaits its answer: it
is not performed twice. -/
def cpqBack (b : Nat) (gate : List GateEntry) (q : BitVec 2) (l : List CpEntry) : List CpEntry :=
  let kept := l.filterMap fun e => match e with
    | .cmd c d => if c.bundle < b then some (.cmd c (if c.kind = .cpyp && c.n ≤ d then d else 0)) else none
    | .join id m => if id / 8 < b then some (.join id m) else none
    | .claim id d x op => if id / 8 < b then some (.claim id d x op) else none
  let back := gate.filterMap fun e => match e with
    | .cmd c q' _ _ _ _ => if q' = q && decide (c.bundle < b) then some (.cmd c 0) else none
    | _ => none
  back ++ kept

/-- The shift is put back at its last phase boundary. The loop buffer is that of the activations that go on there (12 R249). -/
def rollback (s : State) (n : Nat) : State :=
  let x := s.sh n
  let tiles := s.tilesBack n
  let s1 := (s.undoSlots n x.bnd).releaseSlots n
  s1.modSh n fun y =>
    { y with
      arch := x.shadow.getD x.arch
      tiles := tiles
      tileWr := 0
      inflight := []
      soon := []
      lsq := []
      mxq := []
      mxFault := none
      bgIss := Shift.attached x
      mrd := x.shMrd
      mxFl := x.shFl
      cpq := Vector.ofFn fun (q : Fin 4) => cpqBack x.bnd x.gate (.ofNat 2 q.val) x.cpq[q]
      cpHold := true
      gate := []
      fences := x.fences.filter fun f => f.bundle < x.bnd
      awaiting := none
      closePend := []
      memTrap := none
      trapPend := none
      acasGo := []
      fpx := []
      bndSt := .away
      loopBuf := x.shLoop
      pc := x.k.spc }

/-! ### Abort (13 R274) -/

/-- A waiting barrier arrival is withdrawn. -/
def withdraw (s : State) (n : Nat) : State :=
  let strip (b : Barrier) : Barrier := { b with arrivals := b.arrivals.filter fun a => a != n }
  let g := s.gal (n / 32)
  { s.setGal (n / 32) { g with barg := g.barg.map strip } with bard := s.bard.map fun p => (p.1, p.2.map strip) }

def modLaunch (s : State) (seq : BitVec 32) (f : Launch → Launch) : State :=
  { s with launches := s.launches.map fun l => if l.seq = seq then f l else l }

/-- The launch halts with its first cause. -/
def haltLaunch (s : State) (n code : Nat) : State :=
  match (s.sh n).task with
  | some t => s.modLaunch t.seq fun l => { l with halted := some (l.halted.getD code) }
  | none => s

/-- The task of one shift is given up: `dbl` marks a double trap, `items` go into the ABORT record. What its copy engine and
its commit have begun goes on to the next slab boundary first. -/
def abortOne (s0 : State) (n code : Nat) (dbl : Bool) (items : List Nat) : State :=
  let s := s0.endSlabs n
  let com := match (s.sh n).task with
    | some t => t.committed
    | none => false
  let s1 := ((s.undoSlots n 0).withdraw n).releaseSlots n
  let s2 := s1.traceSh n 0x03 0 ((if com then 1 else 0) + (if dbl then 2 else 0)) (code :: items)
  let s3 := s2.haltLaunch n code
  (s3.modSh n fun x =>
    { x with
      cpHold := false, gate := [], mxq := [], mxFault := none, mrd := [], mxFl := []
      shMrd := [], shFl := [], mismatch := false, lsq := [], inflight := [], soon := [], fences := []
      awaiting := none, memTrap := none, trapPend := none, acasGo := [], fpx := [], bgIss := Shift.attached x
      cpq := Vector.replicate 4 [], grantPend := [], closePend := [], bndSt := .away, task := none, barr := none
      idleCy := 0, preemptReq := false }).leave n .idle none

/-- Abort of a task, both copies of it in an assay launch (log 22). -/
def abortTask (s : State) (n code : Nat) (dbl : Bool) (items : List Nat) : State :=
  match s.assayPair n with
  | none => s.abortOne n code dbl items
  | some (m, _) => if (s.sh m).task.isSome then (s.abortOne n code dbl items).abortOne m code false items
      else s.abortOne n code dbl items

/-! ### Taking an exception (14 R287-R293) -/

/-- The supervisor handler (R288). -/
def supervisor (k : KCsr) : Option (Word64 × Bool) :=
  if k.svec.getLsbD 0 then some (k.svec &&& ~~~ 3#64, true) else none

/-- The handler of a cause and whether it runs as supervisor (R288): none aborts the task. -/
def handlerOf (x : Shift) (c : Cause) : Option (Word64 × Bool) :=
  let vec := x.arch.c.trapvec &&& ~~~ 3#64
  let user := some (vec, false)
  match c with
  | .trans | .perm | .grant | .uce | .gateovf => supervisor x.k
  | .lostregion | .lostctx | .watchdog => none
  | .swtrap | .emul => if vec != 0 then user else supervisor x.k
  | _ => if !x.k.priv && vec != 0 && x.arch.c.trapmask.getLsbD c.code then user else supervisor x.k

/-- Steps 2 to 4 of R287: the record, the status, the handler. A trap while INH is set aborts the task (R289). -/
def deliverTrap (s : State) (n : Nat) (r : TrapRec) : State :=
  let x := s.sh n
  if x.k.inh then s.abortTask n r.cause.code true []
  else match handlerOf x r.cause with
    | none => s.abortTask n r.cause.code false []
    | some (vec, sup) =>
      let s1 := s.modSh n fun y =>
        { y with
          pc := vec
          bndSt := .away
          awaiting := none
          trapBundle := s.bundles
          k := { y.k with
            cause := .ofNat 9 (r.cause.code + (if r.cause.imprecise then 256 else 0))
            fpc := r.fpc
            fslot := r.fslot
            finfo := r.finfo
            fstep := r.fstep
            ppriv := y.k.priv
            pport := y.k.port
            inh := true
            priv := sup
            port := s.portableAt n vec } }
      (s1.traceSh n 0x07 0 0 [r.cause.code, r.fpc.toNat]).wake n

/-- A memory fault: a double trap while INH is set (R289), LOSTREGION in a non-restartable phase (R293), else rolled back
(R292). -/
def memoryTrap (s : State) (n : Nat) (r : TrapRec) : State :=
  if (s.sh n).k.inh then s.abortTask n r.cause.code true []
  else if (s.sh n).k.nr then s.abortTask n Cause.lostregion.code false [r.cause.code]
  else (s.rollback n).deliverTrap n r

/-- A trap of shift n (R287). Results in flight land and pending loads and atomics complete first; a memory fault
met there is taken in its place, after the rollback that undoes the interrupted bundle. Where a load or an atomic waits, so
does the entry of the trap, and no bundle opens. -/
def enterTrap (s : State) (n : Nat) (r : TrapRec) : State :=
  if r.cause.memory then s.memoryTrap n r
  else
    let s1 := (s.landAll n).completeLsq n
    match (s1.sh n).memTrap with
    | some m => s1.memoryTrap n m
    | none => if (s1.sh n).lsq.isEmpty then s1.deliverTrap n r else s1.modSh n fun x => { x with trapPend := some r }

/-- A trap whose entry has waited is taken once the last load or atomic is complete. -/
def takePending (s : State) (n : Nat) : State :=
  match (s.sh n).trapPend with
  | none => s
  | some r => if (s.sh n).lsq.isEmpty then (s.modSh n fun x => { x with trapPend := none }).deliverTrap n r else s

/-- Return from an exception to t (R301): privilege and INH from the record, the form by R40. -/
def returnTrap (s : State) (n : Nat) (t : Addr) : State :=
  (s.modSh n fun x => { x with cpHold := false, k := { x.k with priv := x.k.ppriv, inh := false } }).transfer n t

/-! ### How a slot of the issuing bundle ends -/

/-- A slot raises a trap with the state as it stands before the bundle. -/
def raise (s : State) (r : TrapRec) (early : Bool) : State :=
  { s.enterTrap s.cur.shift r with cur := { s.cur with fin := .trap r early } }

/-- An execution-time precise cause of the issuing slot (02 R23 step 3). -/
def trapAt (s : State) (c : Cause) (info : Word64) : State :=
  s.raise ⟨c, s.cur.x, .ofNat 4 s.cur.slot, info, 0⟩ false

/-- ILLEGAL of the issuing slot by its encoding, formats or allotment (02 R22, R23 step 2). -/
def illegalAt (s : State) (sub : Illegal) : State :=
  s.raise ⟨.illegal, s.cur.x, .ofNat 4 s.cur.slot, .ofNat 64 sub.code, 0⟩ true

/-- PRIV of the issuing slot (02 R23 step 2, 14 R291). -/
def privAt (s : State) (csr : Nat) : State :=
  s.raise ⟨.priv, s.cur.x, .ofNat 4 s.cur.slot, .ofNat 64 csr, 0⟩ true

/-- The issuing slot blocks the shift (13 R259). -/
def blockAt (s : State) (w : BlockWhy) : State :=
  { s.leave s.cur.shift .blocked (some w) with cur := { s.cur with fin := .blocked } }

/-- Poison consumed by the issuing bundle (08 R154, 14 R285): a memory fault. -/
def uceAt (s : State) : State := s.raise ⟨.uce, s.cur.x, .ofNat 4 s.cur.slot, s.freeInfo, 0⟩ false

/-- A routine fault raised by the issuing bundle, which waits for the call (09 R189). -/
def mxTrap (s : State) (f : BitVec 10 × Addr × Illegal) : State :=
  (s.modSh s.cur.shift fun x => { x with mxFault := none, mxq := [], bgIss := Shift.attached x }).raise
    ⟨.illegal, s.cur.x, 5, .ofNat 64 (f.2.2.code + f.2.1.toNat % 2 ^ 50 * 2 ^ 14), f.1⟩ false

end State

/-- Entry k of a list of counts raised by 1. -/
def bump : List Nat → Nat → List Nat
  | [], 0 => [1]
  | [], k + 1 => 0 :: bump [] k
  | x :: r, 0 => (x + 1) :: r
  | x :: r, k + 1 => x :: bump r k

namespace State

/-! ### The end of a task (13 R279) -/

/-- Counted once in an assay launch, by the primary. -/
def isTwin (s : State) (n : Nat) : Bool := match s.assayPair n with
  | some (_, primary) => !primary
  | none => false

/-- Steps 3 to 5 of RETIRE: TAKEN slots become DONE, the record is written, the shift becomes IDLE. -/
def retireTask (s : State) (n : Nat) : State :=
  let s1 := s.mapSlots n fun x => if x.st = .taken then { x with st := .done } else x
  let used := match (s.sh n).task with
    | some t => t.cycles
    | none => 0
  let s2 := s1.traceSh n 0x02 0 0 [used]
  let s3 := match (s.sh n).bound with
    | some (seq, k) => if s.isTwin n then s2 else s2.modLaunch seq fun l => { l with retired := bump l.retired k }
    | none => s2
  (s3.modSh n fun x => { x with task := none, idleCy := 0, bndSt := .away, awaiting := none, preemptReq := false }).leave n .idle none

/-! ### The phase boundary (11 R222) -/

/-- Whether shift n still waits in steps 1 and 2: for loads, atomics, FENCE and claim results (03 R69, 11 R233) and for the
matrix unit; `cp` asks that its copy queues be empty too. Kept claims that a rollback holds back are not waited for (04 R80). -/
def boundaryWaits (s : State) (n : Nat) (cp : Bool) : Bool :=
  let x := s.sh n
  !x.lsq.isEmpty || !x.fences.isEmpty || (x.mxFault.isNone && !(Shift.mxLive x).isEmpty) || (cp && x.cpq.toList.any fun l => !l.isEmpty)
    || (!x.cpHold && x.cpq.toList.flatten.any fun e => match e with
      | .claim .. => true
      | _ => false)

/-- What a shift takes with it at a boundary, after the commit (step 5). -/
def takeShadow (s : State) (n : Nat) (x : Addr) (bundle : Nat) : State :=
  (s.releaseSlots n).modSh n fun y =>
    { y with
      shadow := some y.arch
      liveAt := .ofNat 8 (((List.range 8).map fun k =>
        if (y.tiles[k]?.getD .zero).live then 2 ^ k else 0).sum)
      tileWr := 0
      shMrd := y.mrd
      shFl := y.mxFl
      shLoop := y.loopBuf.filter fun p => inBody y.arch.l p.1
      bnd := bundle
      phaseStart := s.gtc
      bndSt := .taken
      k := { y.k with spc := x, nr := false } }

/-- The signature that an assay task has at the end of a commit (13 R272). -/
def setSig (s : State) (n : Nat) (sig : Option Word64) : State :=
  match sig with
  | none => s
  | some v => s.modSh n fun y => { y with task := y.task.map fun t => { t with sig := v } }

/-- Step 5 behind a commit that has gone entry by entry. -/
def endCommit (s : State) (n bundle : Nat) (sig : Option Word64) : State :=
  ((s.setSig n sig).boundaryQueues n).takeShadow n (s.sh n).pc bundle

/-- The shift whose gate must be empty before shift n goes on from a commit: in an assay launch its twin's too. -/
def commitRest (s : State) (n : Nat) : Bool :=
  !(s.sh n).gate.isEmpty || (match s.assayPair n with
    | some (m, _) => (match (s.sh m).bndSt with
        | .committing .. => !(s.sh m).gate.isEmpty
        | .resuming _ => !(s.sh m).gate.isEmpty
        | _ => false)
    | none => false)

/-- Whether a shift is in step 4, or finishes a commit after a resume. -/
def inCommit (x : Shift) : Bool := match x.bndSt with
  | .committing .. => true
  | .resuming _ => true
  | _ => false

/-- The pending memory fault of a shift is taken, or the trap whose entry has waited. A fault that a copy command
brings during step 4 waits for the commit and its
step 5, since the commit is not undone (R223). -/
def takeMemTrap (s : State) (n : Nat) : State :=
  match (s.sh n).memTrap with
  | none => s.takePending n
  | some r => match (s.sh n).bndSt with
    | .committing b sig => if s.commitRest n then s else (s.endCommit n b sig).memoryTrap n r
    | .resuming sig => if s.commitRest n then s else (s.setSig n sig).memoryTrap n r
    | _ => s.memoryTrap n r

/-- Steps 4 and 5 for a shift outside assay. -/
def commitBoundary (s : State) (n : Nat) (x : Addr) (bundle : Nat) : State :=
  ((s.commitAll n).boundaryQueues n).takeShadow n x bundle

/-- The signature after the gate has been committed, and at a RETIRE the front images after it (13 R272). -/
def sigAfter (s : State) (n : Nat) (ret : Bool) : Word64 :=
  let x := s.sh n
  let words := if ret then (x.arch.fronts.toList.take x.k.nf.toNat).flatMap Front.image else []
  words.foldl (fun a w => sigMix a 0 8 w) (match ((s.commitAll n).sh n).task with
    | some t => t.sig
    | none => 0)

/-- The twin's boundary: its gate is discarded without writing, its signature is the one it had computed (13 R273). -/
def twinBoundary (s : State) (n : Nat) (x : Addr) (bundle : Nat) (sig : Word64) : State :=
  let s1 := (s.modSh n fun y => { y with gate := [] }).setSig n (some sig)
  (s1.boundaryQueues n).takeShadow n x bundle

/-- The boundary of both copies of an assay task: the primary p commits, the twin t does not (R273). -/
def pairBoundary (s : State) (p t bundle : Nat) (sp st : Word64) : State :=
  (((s.commitBoundary p (s.sh p).pc bundle).setSig p (some sp)).twinBoundary t (s.sh t).pc bundle st)

/-- The codes of the causes (14 R285). -/
def causeCodes : List Nat :=
  [0x01, 0x03, 0x04, 0x05, 0x06, 0x07, 0x08, 0x09, 0x0A, 0x0B, 0x0C, 0x0D, 0x0E, 0x0F, 0x10, 0x11, 0x12, 0x13, 0x14, 0x15,
    0x16, 0x20, 0x21, 0x22]

/-- The code with which a mismatch aborts: the manual names none of the causes for it (log 80). -/
def assayCode (s : State) : Nat := causeCodes.getD ((Config.freeWord s.freeN 1008).toNat % 24) 1

/-- A mismatch: both gates are discarded, both copies aborted, the launch halts (13 R273). -/
def assayFail (s : State) (p t : Nat) (ret : Bool) : State :=
  let s1 := s.traceSh p 0x06 0 0 [(s.sigAfter p ret).toNat, (s.sigAfter t ret).toNat]
  (s1.abortOne p s.assayCode false []).abortOne t s.assayCode false []

/-- Copies that have met different operands are ended (R273). -/
def settleMiss (s : State) : State :=
  s.shifts.foldl (fun t x => if x.2.mismatch && x.2.task.isSome then
      (match t.assayPair x.1 with
        | some (m, true) => t.assayFail x.1 m false
        | some (m, false) => t.assayFail m x.1 false
        | none => t) else t) s

/-- Step 3 of R222 and the report of RETIRE: what the boundary bundle of shift n raises before the commit. `rep`: the
bundle reports violations; `ret`: it is a RETIRE. -/
def boundaryCause (s : State) (n : Nat) (x : Addr) (rep ret : Bool) : Option TrapRec :=
  let y := s.sh n
  match y.grantPend with
  | (chip, _) :: _ => some ⟨.grant, x, s.freeSlot, chip.setWidth 64, 0⟩
  | [] =>
    let kind := fld y.k.spfault 32 2
    -- in compatibility mode nothing is reported (05 R100)
    if rep && kind != 0 && !y.k.compat then
      some ⟨if kind = 1 then .guard else .spwin, x, s.freeSlot, y.k.spfault, 0⟩
    else if ret && (y.status.link || y.status.nfail != 0) then
      some ⟨.link, x, s.freeSlot, y.status.word false, 0⟩
    else none

/-- The record that a report clears (05 R99, 11 R224): of several pending refusals the one reported, the oldest (log 64). -/
def clearReport (s : State) (n : Nat) (c : Cause) : State :=
  s.modSh n fun y => match c with
    | .guard | .spwin => { y with k := { y.k with spfault := 0 } }
    | .link => { y with status := .clear }
    | .grant => { y with grantPend := y.grantPend.drop 1 }
    | _ => y

end State

end Sys2Proof.Machine
end

