-- ==== Sys2Proof/Machine/Issue.lean ====
section
/-! DEFINITION. Issue of a bundle (02_bundles_and_opcode_map R16-R41): fetch, the checks of R22 and R23, guard, the
phase boundary in front of it, its slots, and the address of the next bundle (12 R241-R248). -/

namespace Sys2Proof.Machine

/-! ### Registers that a slot names (02 R27, R28, R32) -/

def rD (low : Nat) : Nat := low / 2 ^ 15 % 32
def rA (low : Nat) : Nat := low / 2 ^ 10 % 32
def rB (low : Nat) : Nat := low / 2 ^ 5 % 32
def rC (low : Nat) : Nat := low % 32

/-- Elements per register (05 R102). -/
def elemCount (f : Nat) : Nat := if f = 6 then 320 else if fmtWidth f = 32 then 64 else if fmtWidth f = 16 then 128 else 256

/-- An entry of a format row (07 R146). -/
def rowFmt (row : Word64) (slot : Nat) : Nat := fld row (8 * slot) 4
def rowRm (row : Word64) (slot : Nat) : Nat := fld row (8 * slot + 4) 3

/-- The mask registers of n lanes from base (08 R157). -/
def maskRegs (base n : Nat) : List Nat := (List.range ((n + 63) / 64)).map (base + ·)

/-- General registers that a slot word names as destinations (R28). -/
def gDests (row : Word64) (oc fn low : Nat) : List Nat :=
  let d := [rD low]
  let masks := maskRegs (rD low) (elemCount (rowFmt row (low % 8)))
  match oc with
  | 0 | 1 | 2 => d
  | 3 => if fn = 1 ∨ fn = 2 ∨ fn = 8 ∨ fn = 10 then d else []
  | 4 => if fn < 7 ∨ fn = 11 ∨ 13 ≤ fn then d else []
  | 5 => if 12 ≤ fn ∧ fn ≤ 14 then masks else []
  | 6 => if 6 ≤ fn ∧ fn ≤ 8 then masks else []
  | 7 => if fn = 11 then d else []
  | 8 => if fn = 8 then d else []
  | 9 => if fn = 7 then d else []
  | 10 => if 5 ≤ fn then d else []
  | 11 => if fn = 4 then d else []
  | 12 => if fn = 1 ∨ fn = 6 ∨ fn = 10 then d else []
  | 13 => if fn = 2 ∨ fn = 6 ∨ fn = 10 then d else []
  | _ => []

/-- Vector registers that a slot word names as destinations (R28). `nobj` gives NOBJ of each front. -/
def vDests (nobj : Nat → Nat) (oc fn low : Nat) : List Nat :=
  let d := [rD low]
  match oc with
  | 5 => if 12 ≤ fn ∧ fn ≤ 14 then [] else d
  | 6 => if 6 ≤ fn ∧ fn ≤ 8 then [] else if fn = 21 then [rD low, rD low + 1] else d
  | 7 => if fn = 11 then [] else d
  | 8 => if fn = 0 ∨ fn = 2 ∨ fn = 4 then d else if fn = 6 then [rD low, rD low + 1] else []
  | 11 => if fn = 3 then (List.range (nobj (rA low % 4) + 1)).map (rD low + ·) else []
  | _ => []

/-- General registers that a slot reads at issue, mask registers included. -/
def gSources (row : Word64) (oc fn low : Nat) : List Nat :=
  let a := rA low
  let b := rB low
  let c := rC low
  let d := rD low
  let n := elemCount (rowFmt row (low % 8))
  let kb : List Nat := if low / 8 % 4 = 2 then [b] else []
  match oc with
  | 0 => if 26 ≤ fn ∧ fn ≤ 28 then [a] else if fn = 33 then [a, b, c] else [a, b]
  | 1 => if fn = 12 then [] else [a]
  | 2 => if fn = 9 ∨ fn = 10 ∨ fn = 12 then [a] else [a, b]
  | 3 => if fn = 2 ∨ fn = 3 ∨ fn = 5 ∨ fn = 6 then [a] else []
  | 4 => if fn < 7 ∨ fn = 11 then [a] else if fn < 13 then [a, d] else if fn = 22 then [a, b, d] else [a, b]
  | 5 => if fn = 15 then maskRegs a n ++ kb else if fn < 18 ∨ fn = 23 ∨ fn = 24 then kb else []
  | 6 => if fn < 9 ∨ fn = 19 ∨ fn = 20 then kb else []
  | 7 => if fn = 2 then [b] else if fn = 10 ∨ fn = 12 then kb else []
  | 8 => if fn < 4 then [b] else if fn < 6 then [c] else if fn = 6 then maskRegs b n else if fn = 8 ∨ fn = 10 then [a]
         else [a, b]
  | 9 => if fn = 1 ∨ fn = 7 ∨ fn = 8 then [a] else if fn = 4 ∨ fn = 5 then [b] else if fn = 6 then [a, b] else []
  | 10 => if fn < 2 ∨ fn = 4 ∨ fn = 8 ∨ fn = 11 then [a, b, c] else if fn = 2 then [a, c]
          else if fn = 3 ∨ fn = 6 then [] else [a, b]
  | 11 => if fn = 0 then [a] else if fn = 1 then [c] else if fn = 6 ∨ fn = 7 then [b] else []
  | 12 => if fn = 2 then [a, b] else if fn = 3 ∨ fn = 4 ∨ fn = 5 ∨ fn = 9 then [a] else []
  | 13 => if 3 ≤ fn ∧ fn ≤ 5 then [d] else if fn = 6 then [28] else if fn = 7 ∨ fn = 8 then [a, b] else []
  | _ => []

/-- The register that an MRD entry writes. -/
def MxEntry.rdDest (e : MxEntry) : Option R5 := match e.op with
  | .rd d _ => some d
  | _ => none

/-- General registers whose interlocked result is pending (R32, 03 R69, 11 R233). -/
def Shift.pendingG (x : Shift) : List R5 :=
  (x.lsq.filterMap fun e => match e.op with
    | .load d _ _ _ => some d
    | .atomic _ d _ _ _ _ _ _ => some d
    | .replay d _ _ => some d
    | .store _ _ _ => none)
  ++ (x.cpq.toList.flatten.filterMap fun e => match e with
    | .claim _ d _ _ => some d
    | _ => none)
  ++ x.fences.map FenceSt.d

/-- General registers that an MRD in the MXQ is still to write. -/
def Shift.pendingMx (x : Shift) : List R5 := x.mxq.filterMap MxEntry.rdDest

/-! ### Profiles (R8, R42) -/

/-- Whether a launch's declarations do not contain an instruction. -/
def profileBad (p : Profile) (i : Instr) : Bool :=
  match i.parts with
  | none => false
  | some (oc, fn, low, _) =>
    let vec := p.vec = 0 || (p.vec = 1 && ((oc = 8 && fn = 6) || (oc = 7 && (fn = 8 || fn = 11))
      || (oc = 6 && (fn = 19 || fn = 20 || fn = 21 || fn = 22))))
    match oc with
    | 5 | 6 | 7 | 8 => vec
    | 9 => p.mtx = 0 || (p.mtx = 1 && (fn = 8 || (fn = 0 && low % 1024 = 4)))
    | 10 => if fn < 7 then p.copy = 0 || (p.copy = 1 && fn = 4) else p.seam = 0
    | 11 => p.front = 0
    | _ => false

namespace State

/-! ### Fetch (R16, R37, 12 R242, R249) -/

/-- A code word, or the memory fault of its fetch. -/
def codeWord (s : State) (n : Nat) (a : Addr) : Except TrapRec Word :=
  match s.flat n a .code with
  | .m _ key => .ok (.ofNat 32 (s.readM key 4))
  | .bad c sub tid => .error ⟨c, a, s.freeSlot, transInfo sub tid, 0⟩
  | .sp _ => .error ⟨.perm, a, s.freeSlot, 0, 0⟩

/-- k code words from a. -/
def codeWords (s : State) (n : Nat) (a : Addr) : Nat → Except TrapRec (List Word)
  | 0 => .ok []
  | k + 1 =>
    match s.codeWord n a with
    | .error e => .error e
    | .ok w => match s.codeWords n (a + 4) k with
      | .error e => .error e
      | .ok r => .ok (w :: r)

def isH0 (w : Word) : Bool := fld w 26 5 = 0x1E
def isH1 (w : Word) : Bool := fld w 26 5 = 0x1F
def hdrP (h : Word) : Nat := fld h 18 8
def popBits (k : Nat) : Nat := ((List.range 8).filter fun i => k / 2 ^ i % 2 = 1).length
/-- Length in words of a native bundle (R16). -/
def bundleLen (h : Word) : Nat := 1 + fld h 12 1 + popBits (hdrP h)

/-- The words that begin at a bundle's first word in the given form (R16, R37): the whole bundle, or its first word when
that is no header. -/
def fetchForm (s : State) (n : Nat) (a : Addr) (port : Bool) : Except TrapRec (List Word) :=
  match s.codeWord n a with
  | .error e => .error { e with fpc := a }
  | .ok h =>
    let len := if port then (if fS h then 1 else 2) else if isH0 h then bundleLen h else 1
    match s.codeWords n (a + 4) (len - 1) with
    | .error e => .error { e with fpc := a }
    | .ok r => .ok (h :: r)

/-- The words that begin at a bundle's first word, in the form that the shift fetches. -/
def fetchRaw (s : State) (n : Nat) (a : Addr) : Except TrapRec (List Word) := s.fetchForm n a (s.sh n).k.port

/-- The innermost active level (12 R245). -/
def innermost (ls : Vector Level 6) : Option Nat :=
  ((List.range 6).filter fun k => (ls[k]?.getD .zero).act).foldl
    (fun (p : Option Nat) k => match p with
      | none => some k
      | some j => if (ls[j]?.getD .zero).ord.toNat < (ls[k]?.getD .zero).ord.toNat then some k else some j) none

/-- A bundle of an active body enters the loop buffer of 64 (12 R249). What no active body holds leaves it; where it is
full the oldest bundle outside the innermost body makes room. -/
def buffered (x : Shift) (a : Addr) (ws : List Word) : List (Addr × List Word) :=
  let ls := x.arch.l
  let l := x.loopBuf.filter fun p => p.1 != a && inBody ls p.1
  if l.length < 64 then l ++ [(a, ws)]
  else
    let inner (b : Addr) : Bool := match innermost ls with
      | some k => bodyHolds (ls[k]?.getD .zero) b
      | none => false
    match l.findIdx? fun p => !inner p.1 with
    | some i => l.eraseIdx i ++ [(a, ws)]
    | none => l

/-- What a rollback brings back of the loop buffer: a bundle that a body active at the last boundary fetches for the first time since
then (12 R249). -/
def keptLoop (x : Shift) (a : Addr) (ws : List Word) : List (Addr × List Word) :=
  if x.shadow.any (fun h => inBody h.l a) && !(x.shLoop.any fun p => p.1 = a) && decide (x.shLoop.length < 64) then x.shLoop ++ [(a, ws)]
  else x.shLoop

/-- What the loop buffer holds of the bundle at an address of an active body. -/
def replayed (x : Shift) (ls : Vector Level 6) (a : Addr) : Option (List Word) :=
  if inBody ls a then (x.loopBuf.find? fun p => p.1 = a).map Prod.snd else none

/-- Fetch through the loop buffer (12 R249). -/
def fetch (s : State) (n : Nat) (a : Addr) : Except TrapRec (List Word × State) :=
  let x := s.sh n
  match replayed x x.arch.l a with
  | some ws => .ok (ws, s)
  | none => match s.fetchRaw n a with
    | .error e => .error e
    | .ok ws =>
      if inBody x.arch.l a then .ok (ws, (s.noteFlat n a).modSh n fun y => { y with
        loopBuf := buffered y a ws, shLoop := keptLoop y a ws })
      else .ok (ws, s.noteFlat n a)

/-! ### The checks of R22 and R23 -/

/-- Whether a template bit is set for pair p (R17). -/
def tmpl (h : Word) (p : Nat) : Bool := fld h (14 + p) 1 = 1

/-- Port allotted to slot i: read ports and write ports (R18). -/
def allot (h1 : Option Word) (i : Nat) : Nat × Nat :=
  match h1 with
  | none => (0, 0)
  | some h =>
    let hit (k : Nat) : Bool := fld h (4 * k) 4 = 8 + i
    (((List.range 4).filter hit).length, ((List.range 2).filter fun k => hit (4 + k)).length)

/-- Step 1 of R23: the header conditions. -/
def headerBad (s : State) (n : Nat) (x : Addr) (ws : List Word) : Option Illegal :=
  let h := ws.headD 0
  let x1 := fld h 12 1 = 1
  if !isH0 h then some .noth0
  else if x1 && !(match ws with | _ :: w :: _ => isH1 w | _ => false) then some .noh1
  else if hdrP h = 0 then some .empty
  else if ws.dropLast.any fS || !fS (ws.getLastD 0) then some .stop
  else if (List.range ws.length).any (fun i => s.portableAt n (x + .ofNat 64 (4 * i))) then some .mode
  else if x1 && fld (ws.getD 1 0) 24 2 != 0 then some .rsv
  else if (List.range 4).any (fun p => tmpl h p && !(hdrP h / 2 ^ (2 * p) % 2 = 1 && hdrP h / 2 ^ (2 * p + 1) % 2 = 1))
    then some .templ
  else if x1 && (List.range 6).any (fun k =>
      let f := fld (ws.getD 1 0) (4 * k) 4
      (f ≥ 8 && f % 8 < 2) || (f < 8 && f != 0)) then some .port
  else none

/-- Word of slot i of a native bundle. -/
def slotWord (ws : List Word) (i : Nat) : Option Word :=
  let h := ws.headD 0
  if hdrP h / 2 ^ i % 2 = 1 then ws[1 + fld h 12 1 + popBits (hdrP h % 2 ^ i)]? else none

/-- NOBJ of a front's configuration (10 R205). -/
def nobjOf (x : Shift) (k : Nat) : Nat := fld ((x.arch.fronts[k]?.getD .empty).cfg) 0 2 + 1

/-- The static conditions of a slot (R22, R23 step 2), with its instruction. A word `e` that is no EXT word is not carried
as an extension: the condition is that of its own position (R26). `prevG`, `prevV`: destinations of lower slots. `port` is none
in portable form, where pool, template and DUPDST do not apply (R38). -/
def slotCheck (row : Word64) (x : Shift) (i : Nat) (w : Word) (e : Option Word) (surrendered : Bool)
    (port : Option (Nat × Nat)) (prevG prevV : List Nat) : IssueSlot :=
  let oc := fOC w
  let fn := fFN w
  let ext := (e.filter fun w => fOC w = 14).map extPayload
  let q := fQ w
  let bad (c : Illegal) : IssueSlot := ⟨i, q, .nop, some c⟩
  let rule := extRule oc fn
  let known := oc < 14 && fnAssigned oc fn
  if surrendered then (if oc = 14 then ⟨i, false, .nop, none⟩ else bad .templ)
  else if oc = 14 then bad .templ
  else if known && ((rule = .required && ext.isNone) || (rule = .forbidden && ext.isSome)) then bad .templ
  else if oc < 14 && !slotAllows i oc fn ext.isSome then bad .slot
  else if !known then bad .func
  else if rsvBad w ext then bad .rsv
  else if port.isSome && ((gDests row oc fn (w.toNat % 2 ^ 20)).any (fun r => prevG.contains r)
      || (vDests (nobjOf x) oc fn (w.toNat % 2 ^ 20)).any (fun r => prevV.contains r)) then bad .dupdst
  else if (match port with
      | none => false
      | some (r, wr) => decide (r < readDemand w) || decide (wr < writeDemand w)) then bad .port
  else match decodeSlot w ext with
    | none => bad .opnd
    | some ins => if wellFormed ins && ins != .nopBench then ⟨i, q, ins, none⟩ else bad .opnd

/-- The slots of a native bundle in ascending order. -/
def nativeSlots (row : Word64) (x : Shift) (ws : List Word) : List IssueSlot :=
  let h := ws.headD 0
  let h1 := if fld h 12 1 = 1 then ws[1]? else none
  ((List.range 8).foldl
    (fun (acc : List IssueSlot × List Nat × List Nat) i =>
      match slotWord ws i with
      | none => acc
      | some w =>
        let t := tmpl h (i / 2)
        let sur := t && i % 2 = 1
        let left := t && i % 2 = 0
        let e := if left then slotWord ws (i + 1) else none
        let sl := slotCheck row x i w e sur (if i < 2 then some (64, 64) else some (allot h1 i)) acc.2.1 acc.2.2
        let low := w.toNat % 2 ^ 20
        let (g, v) := if sur then ([], []) else
          (gDests row (fOC w) (fFN w) low, vDests (nobjOf x) (fOC w) (fFN w) low)
        (if sur && sl.bad = none then acc.1 else acc.1 ++ [sl], acc.2.1 ++ g, acc.2.2 ++ v))
    ([], [], [])).1

/-- The one slot of a portable bundle, or the condition of R37 that its words break: the sub-code of an S = 0 word that no
EXT word with S = 1 follows is the model's choice, STOP (log 73). NOP with C = 1 is the portable benchmark (R39). -/
def portableSlot (row : Word64) (x : Shift) (ws : List Word) : Except Illegal IssueSlot :=
  match ws with
  | [] => .error .func
  | w :: r =>
    let oc := fOC w
    if oc = 15 then .error .func
    else if oc = 14 then .error .templ
    else if !fS w && !(match r with | [e] => fOC e = 14 && fS e | _ => false) then .error .stop
    else
      let e := r.head?
      let sl := slotCheck row x (homeSlot oc (fFN w) e.isSome) w e false none [] []
      .ok (if w.toNat = 2 ^ 31 + 0x68C00001 then { sl with instr := .nopBench, bad := none } else sl)

/-! ### The bundle opens -/

/-- The format row of a bundle (07 R147). -/
def formatRow (x : Shift) : Word64 :=
  let k := x.arch.c.fmtlvl.toNat
  match x.arch.l[k]? with
  | some l => if l.act then x.arch.fmtt[l.idx.toNat % 16]?.getD 0 else x.arch.fmtt[0]?.getD 0
  | none => x.arch.fmtt[0]?.getD 0

/-- Whether an instruction is a phase boundary when its guard holds (11 R222). -/
def isBoundary (i : Instr) : Bool :=
  match i with
  | .phase | .barg .. | .bard .. | .seamret .. | .retire | .nopBench => true
  | .aadd _ _ _ o _ | .amin _ _ _ o _ | .aminu _ _ _ o _ | .amax _ _ _ o _ | .amaxu _ _ _ o _ | .aand _ _ _ o _
  | .aor _ _ _ o _ | .axor _ _ _ o _ | .aswp _ _ _ o _ | .acas _ _ _ o _ _ => 2 ≤ o.toNat
  | _ => false

/-- Whether a boundary instruction reports violations (05 R99). -/
def reports (i : Instr) : Bool :=
  match i with
  | .phase | .barg .. | .bard .. | .retire => true
  | _ => false

/-- Whether a boundary also waits for the copy queues: a release atomic and RETIRE (11 R222, 13 R279). -/
def waitsCopies (i : Instr) : Bool :=
  match i with
  | .retire => true
  | .phase | .barg .. | .bard .. | .seamret .. | .nopBench => false
  | i => isBoundary i

/-- Slots of the open bundle that act: Q = 0, or a true guard (R24). -/
def acting (c : Cur) : List IssueSlot := c.slots.filter fun t => !t.q || c.guard

/-- Header bits of an open bundle: benchmark (R34) kept beside its slots. -/
def openAt (s : State) (n : Nat) (x : Addr) (len : Nat) (guard : Bool) (greg : R5) (bench : Bool) (row : Word64)
    (slots : List IssueSlot) :
    State :=
  { s with
    bundles := s.bundles + 1
    cur :=
      { shift := n
        x := x
        len := len
        guard := guard
        greg := greg
        bench := bench
        row := row
        slot := 8
        bundle := s.bundles + 1
        bdone := false
        ctl := .fall
        after := .nothing
        fin := .ok
        slots := slots
        want := .issue } }

/-- A trap of the shift about to issue, which holds no slot. -/
def trapOpen (s : State) (n : Nat) (r : TrapRec) : State :=
  { s.enterTrap n r with cur := { Cur.nothing with shift := n, fin := .trap r true } }

/-- Guard value of GREG, GBIT, GSENSE as in H0[11:0] (R24). -/
def guardOf (s : State) (n : Nat) (g : BitVec 12) (late : Bool) : Bool :=
  let r := fld g 7 5
  let v : Word64 := if r = 0 then 0 else if late then Config.freeWord s.freeN 1002 else (s.sh n).arch.g[r]?.getD 0
  (v.getLsbD (fld g 1 6)) != (fld g 0 1 = 1)

/-- Whether a landing writes general register r. -/
def toG (r : Nat) (l : Landing) : Bool := match l.what with
  | .g d _ _ => d.toNat = r
  | _ => false

/-- Whether a result of the shift to a general register has not landed: in flight, or an MRD's (09 R200). -/
def lateG (s : State) (n r : Nat) : Bool :=
  (s.sh n).inflight.any (toG r) || (s.sh n).mrd.any (fun p => p.1.toNat = r)
    || (s.sh n).mxq.any fun e => (MxEntry.rdDest e).any fun d => d.toNat = r

/-- A bundle that can be a boundary reads its guard when the results in flight to its register have landed (R24, 11 R222):
the wait lets whatever is due by then land too. -/
def landGuard (s : State) (n r : Nat) : State :=
  let s1 := s.modSh n fun x => x.landMrd s.freeSlot fun d => d.toNat = r
  match (s1.sh n).inflight.filter (toG r) with
  | [] => s1
  | l :: ls => s1.modSh n (Shift.landDue s.freeSlot (ls.foldl (fun m y => max m y.left) l.left))

/-- The FPX trap that is due, in issue order (07 R144). While a handler holds its record an FPX of the interrupted program
waits; one that the handler's own bundles raise is due at once, a double trap (14 R289, log 23). -/
def fpxDue (s : State) (n : Nat) : Option (TrapRec × State) :=
  let x := s.sh n
  match if x.k.inh then x.fpx.filter fun p => decide (8 * x.trapBundle + 7 < p.1) else x.fpx with
  | [] => none
  | p :: r =>
    let best := r.foldl (fun a b => if b.1 < a.1 then b else a) p
    some ({ best.2 with fpc := x.pc }, s.modSh n fun y => { y with fpx := y.fpx.filter fun q => q != best })

/-- Whether the next bundle of shift n is to be fetched over a dead link: it waits (log 21). -/
def codeHeld (s : State) (n : Nat) : Bool :=
  !s.health.dead.isEmpty && (s.fpxDue n).isNone && (replayed (s.sh n) (s.sh n).arch.l (s.sh n).pc).isNone
    && s.deadAddr n (s.sh n).pc .code

/-- Whether shift n can open a bundle: RUNNING, with no memory fault, no trap entry and no pre-emption pending (14 R287, R294),
on a device that runs (15 R314). -/
def canOpen (s : State) (n : Nat) : Bool :=
  (s.sh n).st = .running && (s.sh n).memTrap.isNone && (s.sh n).trapPend.isNone && !((s.sh n).preemptReq && (s.sh n).task.isSome)
    && !s.codeHeld n

/-- Whether a bundle's words hold an LS slot. -/
def hasLs (port : Bool) (ws : List Word) : Bool := match ws with
  | [] => false
  | w :: r => if port then decide (homeSlot (fOC w) (fFN w) (!r.isEmpty) = 4) else isH0 w && hdrP w / 2 ^ 4 % 2 = 1

/-- Whether a FENCE stalls the next bundle of shift n, which has an LS slot (11 R233, 13 R259). -/
def lsHeld (s : State) (n : Nat) : Bool :=
  !(s.sh n).fences.isEmpty && (s.fpxDue n).isNone && (match s.fetch n (s.sh n).pc with
    | .ok (ws, _) => hasLs (s.sh n).k.port ws
    | .error _ => false)

/-- Whether shift n can issue: one bundle a cycle (R29), none that a FENCE stalls. -/
def canIssue (s : State) (n : Nat) : Bool := s.canOpen n && !(s.sh n).issued && !s.lsHeld n

/-- Whether an MRD that is to write a guard register has not been performed. -/
def guardMx (s : State) (n r : Nat) : Bool := (s.sh n).pendingMx.any fun d => d.toNat = r

/-- The bundle stalls for an MRD result to its guard register, and no other shift of the core issues (13 R259). -/
def holdGuard (s : State) (n : Nat) : State := { s with cur := { Cur.nothing with shift := n, fin := .blocked } }

/-- ISSUE for shift n, up to the slots: pending FPX, fetch, header checks, guard (R22-R24). -/
def openBundle (s0 : State) (n : Nat) : State :=
  let s := { s0 with freeN := s0.freeN + 1, cur := Cur.nothing }
  -- kept copy commands restart when the shift is back at its boundary (04 R80)
  let s := if (s.sh n).cpHold && (s.sh n).pc = (s.sh n).k.spc then s.modSh n fun x => { x with cpHold := false } else s
  -- portable code reads every earlier result (R38)
  let s := if (s.sh n).k.port then s.landEvery n else s.modSh n (Shift.landCovered s.freeSlot)
  match s.fpxDue n with
  | some (r, s1) => s1.trapOpen n r
  | none =>
    let x := (s.sh n).pc
    match s.fetch n x with
    | .error r => (s.noteFlat n x).trapOpen n { r with fpc := x }
    | .ok (ws, s1) =>
      let ill (c : Illegal) : State := s1.trapOpen n ⟨.illegal, x, 15, .ofNat 64 c.code, 0⟩
      let row := formatRow (s1.sh n)
      let go (slots : List IssueSlot) (g : BitVec 12) (bench : Bool) : State :=
        let r := fld g 7 5
        let able := bench || slots.any fun t => isBoundary t.instr
        if able && r != 0 && s1.guardMx n r then s1.holdGuard n
        else
          let s2 := if able then s1.landGuard n r else s1
          let guard := s2.guardOf n g (s2.lateG n r)
          -- a boundary waits for every result in flight (R222)
          let bnd := bench || slots.any fun t => isBoundary t.instr && (!t.q || guard)
          let s3 := if bnd then s2.landAll n else s2
          match (if bnd then s3.fpxDue n else none) with
          | some (t, s4) => s4.trapOpen n t
          | none => s3.openAt n x ws.length guard (.ofNat 5 r) bench row slots
      if (s1.sh n).k.port then
        if !(s1.portableAt n x && (ws.length < 2 || s1.portableAt n (x + 4))) then ill .mode
        else match portableSlot row (s1.sh n) ws with
          | .error c => s1.trapOpen n ⟨.illegal, x, s1.freeSlot, .ofNat 64 c.code, 0⟩
          | .ok sl =>
            go [sl] (s1.sh n).arch.c.pguard (decide (sl.instr = .nopBench))
      else
        match s1.headerBad n x ws with
        | some c => ill c
        | none =>
          let h := ws.headD 0
          go (nativeSlots row (s1.sh n) ws) (.ofNat 12 (h.toNat % 2 ^ 12)) (fld h 13 1 = 1)

/-! ### The next bundle (12 R241, R248) -/

/-- End processing at address x (R248): the levels, and the address of the next bundle. -/
def endProc (ls : Vector Level 6) (x : Addr) : Nat → Vector Level 6 × Option Addr
  | 0 => (ls, none)
  | fuel + 1 =>
    -- the innermost active level that ends at x
    let c := (List.range 6).filter fun k => (ls[k]?.getD .zero).act && (ls[k]?.getD .zero).stop = x
    match c with
    | [] => (ls, none)
    | a :: r =>
      let k := r.foldl (fun p q => if (ls[p]?.getD .zero).ord.toNat < (ls[q]?.getD .zero).ord.toNat then q else p) a
      let l := ls[k]?.getD .zero
      let l1 := { l with idx := l.idx + 1 }
      if l1.idx.toNat < l1.trip.toNat then (ls.setIfInBounds k l1, some l.start)
      else endProc (ls.setIfInBounds k { l1 with act := false, ord := 0 }) x fuel

/-- Level k and every level that it encloses deactivated (R246, R250). -/
def dropLevel (ls : Vector Level 6) (k : Nat) : Vector Level 6 :=
  let o := (ls[k]?.getD .zero).ord.toNat
  ls.map fun l => if l.act && o ≤ l.ord.toNat then { l with act := false, ord := 0 } else l

/-- Levels and next address after the bundle at x of len words (R241), and whether that address is a target, which sets
PORT (02 R40). -/
def nextBundle (ls : Vector Level 6) (ctl : Ctl) (x : Addr) (len : Nat) : Vector Level 6 × Addr × Bool :=
  let seq := x + .ofNat 64 (4 * len)
  match ctl with
  | .taken a => (ls, a, true)
  | .skipBody a => (ls, a, true)
  | .lbrk k a =>
    let p := endProc (dropLevel ls k.toNat) (ls[k.toNat]?.getD .zero).stop 6
    (p.1, p.2.getD a, true)
  | .fall =>
    let p := endProc ls x 6
    (p.1, p.2.getD seq, p.2.isSome)

/-- Maps that name a register written by the bundle break (06 R120). `own` is the slot that wrote it. -/
def breakMaps (s : State) (n bundle : Nat) : State :=
  s.modSh n fun x =>
    let wr : List (Nat × R5) := x.inflight.filterMap fun l =>
      if l.bundle = bundle then (match l.what with | .v r _ => some (l.slot, r) | _ => none) else none
    if wr.isEmpty then x
    else
      let names (m : CMap) (except : Option Nat) : Bool :=
        m.st = .indexed && wr.any fun p => p.2 = m.cmp && some p.1 != except
      let fix (v : VReg) (except : Option Nat) : VReg := if names v.map except then { v with map := .broken } else v
      { x with
        arch := { x.arch with v := x.arch.v.map fun v => fix v none }
        inflight := x.inflight.map fun l => match l.what with
          | .v r v => { l with what := .v r (fix v (if l.bundle = bundle then some l.slot else none)) }
          | .map r m => if names m none then { l with what := .map r .broken } else l
          | _ => l }

/-- The words of the bundle at t that ERET skips, in its own form, as the loop buffer holds it (14 R301, 12 R252). -/
def skipped (s : State) (n : Nat) (t : Addr) : Except TrapRec (List Word) :=
  match replayed (s.sh n) (s.sh n).arch.l t with
  | some ws => .ok ws
  | none => s.fetchForm n t (s.portableAt n t)

/-- The cycles among cy that a bundle with an LS access to the scratchpad has lost to the arbitration of its gallery's banks, which
the model does not time: any number of them (05 R96, R97, log 85). -/
def lostCycles (fr n cy : Nat) : Nat := (Config.freeWord fr (80000 + n)).toNat % (cy + 1)

/-- The address operand of a load, store or atomic at a flat address. -/
def flatOperand (s : State) (i : Instr) : Option (Addr × Acc) :=
  let off (i : BitVec 10) (x : Option (BitVec 27)) : Word64 := match x with
    | none => i.signExtend 64
    | some p => (p ++ i).signExtend 64
  let ld (a : R5) (i : BitVec 10) (x : Option (BitVec 27)) : Option (Addr × Acc) := some (s.rdG a + off i x, .read)
  let st (a : R5) (i : BitVec 10) (x : Option (BitVec 27)) : Option (Addr × Acc) := some (s.rdG a + off i x, .write)
  let at_ (a : R5) : Option (Addr × Acc) := some (s.rdG a, .readWrite)
  match i with
  | .ldb _ a i x | .ldh _ a i x | .ldw _ a i x | .ldd _ a i x | .ldbx _ a i x | .ldhx _ a i x | .ldwx _ a i x => ld a i x
  | .stb _ a i x | .sth _ a i x | .stw _ a i x | .std _ a i x => st a i x
  | .aadd _ a _ _ _ | .amin _ a _ _ _ | .aminu _ a _ _ _ | .amax _ a _ _ _ | .amaxu _ a _ _ _ | .aand _ a _ _ _
  | .aor _ a _ _ _ | .axor _ a _ _ _ | .aswp _ a _ _ _ | .acas _ a _ _ _ _ => at_ a
  | _ => none

/-- Whether an instruction is an LS access to the scratchpad, or performs one as such (10 R218, 12 R247, 13 R277). -/
def usesBanks (s : State) (i : Instr) : Bool := match i with
  | .sld .. | .sst .. | .vld .. | .vst .. | .vldc .. | .vstc .. | .vgath .. | .vscat .. | .rgld .. => true
  | .loopr .. | .fsave .. | .fload .. | .enq .. => true
  | i => match s.flatOperand i with
    | none => false
    | some (a, acc) => match s.flat s.cur.shift a acc with
      | .sp _ => true
      | _ => false

/-- The counter ctx.spstall when the open bundle issues (05 R97). -/
def countLost (s : State) : Word64 :=
  let c := s.me.k.spstall
  let arb := if (acting s.cur).any fun t => s.usesBanks t.instr then lostCycles s.freeN s.cur.shift (s.me.runCy - 1) else 0
  if arb = 0 then c else .ofNat 64 (fld c 0 32 + (fld c 32 32 + arb) % 2 ^ 32 * 2 ^ 32)

/-- The bundle has issued: maps break, levels advance, the next bundle is chosen, and what follows it happens. -/
def closeBundle (s : State) : State :=
  let n := s.cur.shift
  let s1 := s.breakMaps n s.cur.bundle
  let (ls, nxt, xfer) := nextBundle (s1.sh n).arch.l s1.cur.ctl s1.cur.x s1.cur.len
  let s2 := s1.modSh n fun x =>
    { x with
      arch := { x.arch with l := ls }
      pc := nxt
      bndSt := .away
      awaiting := none
      issued := true
      runCy := 0
      k := { x.k with spstall := s1.countLost, port := if xfer then s1.portableAt n nxt else x.k.port } }
  match s.cur.after with
  | .nothing => s2
  | .yield => s2.leave n .ready none
  | .softTrap code => s2.enterTrap n ⟨.swtrap, nxt, 7, code.setWidth 64, 0⟩
  | .eret skip =>
    let x := (s2.landAll n).sh n
    let t := if memoryCode (fld x.k.cause 0 8) then x.k.spc else x.k.fpc
    if skip then
      match s2.skipped n t with
      | .error r => s2.enterTrap n r
      | .ok ws =>
        let (ls', a, _) := nextBundle x.arch.l .fall t ws.length
        ((s2.landAll n).modSh n fun y => { y with arch := { y.arch with l := ls' } }).returnTrap n a
    else (s2.landAll n).returnTrap n t
  | .barMis sub b => s2.enterTrap n ⟨.queue, nxt, 7, .ofNat 64 (sub + b.toNat * 256), 0⟩
  | .retire => s2.retireTask n
  | .swap a =>
    -- the translator's counterpart stands for the portable benchmark just performed (02 R41)
    (s2.modSh n fun x => { x with pc := a, bndSt := .taken, k := { x.k with port := false } })

end State

/-! ### The slots of the open bundle -/

/-- The access of an AWAIT to the word at G[a], counted once while it waits (05 R99). -/
def State.awaitSeen (s : State) (a : R5) : State :=
  if s.me.awaiting.isSome then s
  else s.recordViol s.cur.shift false (s.firstViol s.cur.shift ((List.range 8).map ((s.rdG a).toNat + ·)))

/-- An outcome's state when it is a next state. -/
def Out.state? (o : Out) : Option State :=
  match o with
  | .next s => some s
  | _ => none

/-- What slot t of the open bundle does by itself, from the state before the bundle. -/
def trySlot (exec : Instr → State → Out) (s : State) (t : IssueSlot) : Out :=
  exec t.instr { s with cur := { s.cur with slot := t.slot, bdone := true, fin := .ok } }

/-- The first failure of step 2 of R23 among the slots. -/
def earlyTrap (exec : Instr → State → Out) (s : State) (p : Option Profile) : List IssueSlot → Option State
  | [] => none
  | t :: r =>
    let at_ := { s with cur := { s.cur with slot := t.slot } }
    match t.bad with
    | some c => some (at_.illegalAt c)
    | none =>
      match trySlot exec s t with
      | .next s1 =>
        match s1.cur.fin with
        | .trap rc true =>
          if rc.cause != .illegal && (p.map fun p => profileBad p t.instr) = some true then
            some (at_.raise ⟨.profile, s.cur.x, .ofNat 4 t.slot, s.freeInfo, 0⟩ true)
          else some s1
        | _ => if (p.map fun p => profileBad p t.instr) = some true then
            some (at_.raise ⟨.profile, s.cur.x, .ofNat 4 t.slot, s.freeInfo, 0⟩ true)
          else earlyTrap exec s p r
      | _ => earlyTrap exec s p r

/-- The first execution-time cause among the acting slots (R23 step 3). -/
def lateTrap (exec : Instr → State → Out) (s : State) : List IssueSlot → Option State
  | [] => none
  | t :: r =>
    match trySlot exec s t with
    | .next s1 => match s1.cur.fin with
      | .trap _ _ => some s1
      | _ => lateTrap exec s r
    | _ => lateTrap exec s r

/-- The first acting slot that blocks (13 R259). -/
def blockedBy (exec : Instr → State → Out) (s : State) : List IssueSlot → Option State
  | [] => none
  | t :: r =>
    match trySlot exec s t with
    | .next s1 => match s1.cur.fin with
      | .blocked => some s1
      | _ => blockedBy exec s r
    | _ => blockedBy exec s r

/-- The acting slots run in ascending order. None of them has trapped or blocked from the state before the bundle: a trap that a
slot finds only because of a lower slot of its own bundle waits for a later bundle. An AWAIT, which has found its word as it
asks for, only counts its own violation, whatever the LS slot beside it does (05 R99, 04 R92). -/
def runSlots (exec : Instr → State → Out) : List IssueSlot → State → Out
  | [], s => .next s
  | t :: r, s =>
    let at_ := { s with cur := { s.cur with slot := t.slot, fin := .ok } }
    match t.instr with
    | .await a _ => runSlots exec r (at_.awaitSeen a)
    | _ =>
      match exec t.instr at_ with
      | .next s1 => match s1.cur.fin with
        | .ok => runSlots exec r s1
        | .trap .. => runSlots exec r s
        | .blocked => .next s1
      | o => o

namespace State

/-- Whether the guard is an operand of the open bundle: of every native one (R24), and in portable form of an instruction
that obeys it or is SEL (R38, 12 R238). -/
def readsGuard (s : State) : Bool := !s.me.k.port || s.cur.slots.any fun t => t.q || (match t.instr with
  | .sel .. => true
  | _ => false)

/-- Whether the guard register carries the poison marker (14 R285). -/
def guardPois (s : State) : Bool := s.readsGuard && s.poisG s.cur.greg

/-- The general registers that the acting and non-acting slots read, guard included. -/
def readsG (s : State) : List Nat :=
  (if s.readsGuard then [s.cur.greg.toNat] else []) ++ s.cur.slots.flatMap fun t => match t.instr.parts with
    | some (oc, fn, low, _) => gSources s.cur.row oc fn low
    | none => []

/-- The registers that the open bundle reads, that are pending: an interlocked result (R32), in portable form that of an MRD too
(R38). -/
def interlock (s : State) : List R5 :=
  let pend := s.me.pendingG ++ if s.me.k.port then s.me.pendingMx else []
  if pend.isEmpty then [] else pend.filter fun r => r != 0 && s.readsG.contains r.toNat

/-- The open bundle waits for registers: the shift blocks for an interlocked result, and stalls for an MRD's (13 R259). -/
def waitRegs (s : State) (l : List R5) : State := match l.filter s.me.pendingG.contains with
  | [] => { s with cur := { s.cur with fin := .blocked } }
  | rs => s.blockAt (.regs rs)

/-- One COMMIT (R220): the gate's oldest entry, or one element of it, of a shift in step 4 or with a release atomic that empties
its gate. -/
def commitStep (s : State) (n : Nat) : State := if inCommit (s.sh n) || s.draining n then s.commitOne n else s

/-- Step 4 begins, to go entry by entry: the shift is blocked until its gate is empty (R222). -/
def startCommit (s : State) (n bundle : Nat) (sig : Option Word64) : State :=
  s.modSh n fun x => { x with bndSt := .committing bundle sig }

/-- Steps 3 to 5 for a boundary whose bundle has passed steps 1 and 2. -/
def boundaryRest (s : State) (bs : List IssueSlot) (ret : Bool) : State × Bool :=
  let n := s.cur.shift
  match s.boundaryCause n s.cur.x (bs.any fun t => reports t.instr) ret with
  | some r => ((s.clearReport n r.cause).raise r false, false)
  | none =>
    let fin (t : State) : State × Bool := ({ t with cur := { t.cur with bdone := true } }, s.cur.want = .issue)
    match s.assayPair n with
    | none =>
      if s.cur.want = .commit then
        (if s.me.gate.isEmpty then s else ((s.startCommit n s.cur.bundle none).commitStep n).blockAt (.boundary false), false)
      else fin (s.commitBoundary n s.cur.x s.cur.bundle)
    | some (m, primary) =>
      let here : BndSt := .waiting s.cur.x (bs.map IssueSlot.instr)
      if (s.sh m).bndSt != here then
        ((s.modMe fun x => { x with bndSt := here }).blockAt (.boundary false), false)
      else
        let (p, t) := if primary then (n, m) else (m, n)
        let sp := s.sigAfter p ret
        let st := s.sigAfter t ret
        if sp != st then ({ s.assayFail p t ret with cur := { s.cur with fin := .blocked } }, false)
        else if s.cur.want = .commit then
          (((((s.modSh t fun x => { x with gate := [] }).startCommit t s.cur.bundle (some st)).startCommit p s.cur.bundle
            (some sp)).commitStep p).blockAt (.boundary false), false)
        else fin ((s.pairBoundary p t s.cur.bundle sp st).wake m)

/-- The boundary in front of the open bundle (11 R222), or what keeps it: a wait, a cause, the twin. Answers the
state in which the bundle then issues. -/
def boundaryOf (s0 : State) (exec : Instr → State → Out) : State × Bool :=
  let n := s0.cur.shift
  -- the rest of a commit that a pre-emption cut short has been made: the boundary begins anew (14 R295)
  let s := match s0.me.bndSt with
    | .resuming sig => (s0.setSig n sig).modMe fun x => { x with bndSt := .away }
    | _ => s0
  let act := acting s.cur
  let bs := act.filter fun t => isBoundary t.instr
  let ret := bs.any fun t => t.instr = .retire
  let cp := bs.any fun t => waitsCopies t.instr
  let done (t : State) : State × Bool := ({ t with cur := { t.cur with bdone := true } }, s.cur.want = .issue)
  if bs.isEmpty && !s.cur.bench then done s
  else match s.me.bndSt with
    | .taken => done s
    | .committing b sig => done (s.endCommit n b sig)
    | _ =>
      if s.boundaryWaits n cp then (s.blockAt (.boundary cp), false)
      else match s.me.mxFault with
        | some f => (s.mxTrap f, false)
        | none => match lateTrap exec s act with
          | some s1 => (s1, false)
          | none => s.boundaryRest bs ret

/-- The profile declarations that the issuing shift's launch has loaded. -/
def myProfile (s : State) : Option Profile := (s.launchOf s.cur.shift).map fun l => l.obj.profile

end State

/-- The open bundle's checks, boundary and slots, and then the next bundle (R23, R29, R222, R241). -/
def finishBundle (exec : Instr → State → Out) (s : State) : Out :=
  match s.cur.fin with
  | .ok =>
    match earlyTrap exec s s.myProfile s.cur.slots with
    | some s1 => .next s1
    | none =>
      match s.interlock with
      | r :: rs => .next (s.waitRegs (r :: rs))
      | [] => if s.guardPois then .next { s with cur := { s.cur with slot := s.freeSlot.toNat } }.uceAt else
        match s.boundaryOf exec with
        | (s1, false) => .next s1
        | (s1, true) =>
          let act := State.acting s1.cur
          match lateTrap exec s1 act with
          | some s2 => .next s2
          | none => match blockedBy exec s1 act with
            | some s2 => .next s2
            | none => match runSlots exec act s1 with
              -- a wait that a lower slot of the bundle has brought stalls the whole bundle
              | .next s2 => if s2.cur.fin = .blocked then .next { s1 with cur := s2.cur } else .next s2.closeBundle
              | o => o
  | _ => .next s

end Sys2Proof.Machine
end

