-- ==== Sys2Proof/Machine/Operands.lean ====
section
/-! DEFINITION. The operand forms of the instructions: general registers with their poison (14 R285), immediates
with and without an extension word (02 R19, R20), LS effective addresses (03 R57, 05 R104). -/

namespace Sys2Proof.Machine

/-- An imm10, or the 37-bit immediate of an extension word, sign-extended (R20, R240). -/
def immOf (i : BitVec 10) (x : Option (BitVec 27)) : Word64 :=
  match x with
  | none => i.signExtend 64
  | some p => (p ++ i).signExtend 64

namespace State

/-- Operands read from general registers: a poisoned one raises UCE (R285). -/
def usesG (s : State) (rs : List R5) (k : Out) : Out := if rs.any s.poisG then .next s.uceAt else k

/-- The bundle stalls: nothing happens and the shift keeps its place (13 R259). -/
def stall (s : State) : Out := .next { s with cur := { s.cur with fin := .blocked } }

/-- An LS access at issue: the earlier entries of the load-store queue are performed first (05 R96, log 14), and a
FENCE holds it (11 R233). -/
def lsFirst (s : State) (k : State → Out) : Out :=
  let s1 := s.completeLsq s.cur.shift
  if s.heldByFence s.cur.shift s.cur.bundle then s.stall
  else match s1.me.memTrap with
  | some r => .next { s1.takeMemTrap s.cur.shift with cur := { s1.cur with fin := .trap r false } }
  | none => if s1.me.lsq.isEmpty then k s1 else s.stall

/-- An access of another slot that is performed as an LS access (10 R218, 13 R277): after the shift's earlier ones. -/
def lsOrdered (s : State) (k : State → Out) : Out :=
  let s1 := s.completeLsq s.cur.shift
  match s1.me.memTrap with
  | some r => .next { s1.takeMemTrap s.cur.shift with cur := { s1.cur with fin := .trap r false } }
  | none => if s1.me.lsq.isEmpty then k s1 else s.stall

/-- NGAL for a record that names the issuing device (04 R72). -/
def galLimit (s : State) (r : LRec) : Option Nat :=
  if r.kind = 2 && s.bar.chipSet && s.bar.chipNo.toNat = r.chip then (s.launchOf s.cur.shift).map fun l => l.ngal else none

/-- One general-register result of a function of one register. -/
def reg1 (s : State) (d a : R5) (lat : Nat) (f : Word64 → Word64) : Out :=
  s.usesG [a] (.next (s.wrG d (f (s.rdG a)) lat))

/-- One general-register result of a function of two registers. -/
def reg2 (s : State) (d a b : R5) (lat : Nat) (f : Word64 → Word64 → Word64) : Out :=
  s.usesG [a, b] (.next (s.wrG d (f (s.rdG a) (s.rdG b)) lat))

/-- One general-register result of a function of three registers. -/
def reg3 (s : State) (d a b c : R5) (lat : Nat) (f : Word64 → Word64 → Word64 → Word64) : Out :=
  s.usesG [a, b, c] (.next (s.wrG d (f (s.rdG a) (s.rdG b) (s.rdG c)) lat))

/-- A result with the flags of its slot (07 R142). -/
def regF (s : State) (d : R5) (lat : Nat) (r : Word64 × Flags) : State := (s.wrG d r.1 lat).wrFlags r.2 lat

/-- The effective address G[A] + i of an LS instruction. -/
def effAddr (s : State) (a : R5) (i : BitVec 10) (x : Option (BitVec 27)) : Word64 := s.rdG a + immOf i x

/-- What the bundle decides about the address that follows it. -/
def setCtl (s : State) (c : Ctl) : State := { s with cur := { s.cur with ctl := c } }
/-- What happens after the bundle. -/
def setAfter (s : State) (a : After) : State := { s with cur := { s.cur with after := a } }

/-- A phase boundary in front of an instruction (11 R222), unless its bundle has taken it already. `rep`: the
instruction reports violations; `ret`: it is a RETIRE; `cp`: it waits for the copy queues. -/
def atBoundary (s : State) (rep ret cp : Bool) (k : State → Out) : Out :=
  if s.cur.bdone then k s
  else
    let n := s.cur.shift
    let s1 := s.landAll n
    if s1.boundaryWaits n cp then .next (s1.blockAt (.boundary cp))
    else match s1.me.mxFault with
      | some f => .next (s1.mxTrap f)
      | none => match s1.boundaryCause n s1.cur.x rep ret with
        | some r => .next ((s1.clearReport n r.cause).raise r false)
        | none =>
          let s2 := s1.commitBoundary n s1.cur.x s1.cur.bundle
          k { s2 with cur := { s2.cur with bdone := true } }

/-- An operation joins the load-store queue (11 R219). -/
def pushLsq (s : State) (op : LsqOp) : State :=
  s.modMe fun x => { x with lsq := x.lsq ++ [⟨op, s.cur.x, s.cur.bundle⟩] }

end State

end Sys2Proof.Machine
end

