-- ==== Sys2Proof/Machine/Scalar.lean ====
section
/-! DEFINITION. Scalar integer arithmetic, classes 0 and 1 (12_scalar_and_control R235-R240). -/

namespace Sys2Proof.Machine

/-! ### Operations on 64-bit values -/

def boolWord (b : Bool) : Word64 := if b then 1 else 0
/-- A shift amount taken modulo 64 (R236). -/
def amount (b : Word64) : Nat := b.toNat % 64
/-- Bits [127:64] of a signed product. -/
def mulHigh (a b : Word64) : Word64 := (a.signExtend 128 * b.signExtend 128).extractLsb' 64 64
/-- Bits [127:64] of an unsigned product. -/
def mulHighU (a b : Word64) : Word64 := (a.setWidth 128 * b.setWidth 128).extractLsb' 64 64
/-- DIV (R237). -/
def divS (a b : Word64) : Word64 := if b = 0 then BitVec.allOnes 64 else a.sdiv b
/-- REM (R237). -/
def remS (a b : Word64) : Word64 := if b = 0 then a else a.srem b
/-- DIVU (R237). -/
def divU (a b : Word64) : Word64 := if b = 0 then BitVec.allOnes 64 else a / b
/-- REMU (R237). -/
def remU (a b : Word64) : Word64 := if b = 0 then a else a % b
def minS (a b : Word64) : Word64 := if b.slt a then b else a
def maxS (a b : Word64) : Word64 := if a.slt b then b else a
def minU (a b : Word64) : Word64 := if b.ult a then b else a
def maxU (a b : Word64) : Word64 := if a.ult b then b else a
/-- Leading zero bits of the low w bits. -/
def leadZeros (w n : Nat) : Nat := if n = 0 then w else w - 1 - Nat.log2 n
/-- Trailing zero bits; 64 for 0. -/
def trailZeros (a : Word64) : Nat := ((List.range 64).find? fun i => a.getLsbD i).getD 64
/-- One bits among the low w. -/
def oneBits (w n : Nat) : Nat := ((List.range w).filter fun i => n / 2 ^ i % 2 = 1).length
/-- BEXT (R238). -/
def bitExtract (a b : Word64) : Word64 :=
  .ofNat 64 ((List.range 64).foldl
    (fun (p : Nat × Nat) i => if b.getLsbD i then (p.1 + (if a.getLsbD i then 2 ^ p.2 else 0), p.2 + 1) else p) (0, 0)).1
/-- BDEP (R238). -/
def bitDeposit (a b : Word64) : Word64 :=
  .ofNat 64 ((List.range 64).foldl
    (fun (p : Nat × Nat) i => if b.getLsbD i then (p.1 + (if a.getLsbD p.2 then 2 ^ i else 0), p.2 + 1) else p) (0, 0)).1
/-- FSHL by s (R238). -/
def funnelL (a b : Word64) (s : Nat) : Word64 := if s = 0 then a else (a <<< s) ||| (b >>> (64 - s))
/-- FSHR by s (R238). -/
def funnelR (a b : Word64) (s : Nat) : Word64 := if s = 0 then b else (b >>> s) ||| (a <<< (64 - s))
/-- LUT3: bit i is bit 4·a[i] + 2·b[i] + c[i] of the table (R238, 08 R160). -/
def lutBits (n : Nat) (t : BitVec 8) (a b c : BitVec n) : BitVec n :=
  let pick (k : Nat) (x y z : BitVec n) : BitVec n := if t.getLsbD k then x &&& y &&& z else 0
  pick 0 (~~~a) (~~~b) (~~~c) ||| pick 1 (~~~a) (~~~b) c ||| pick 2 (~~~a) b (~~~c) ||| pick 3 (~~~a) b c
    ||| pick 4 a (~~~b) (~~~c) ||| pick 5 a (~~~b) c ||| pick 6 a b (~~~c) ||| pick 7 a b c
def bitSet (a : Word64) (k : Nat) : Word64 := a ||| (1#64 <<< k)
def bitClr (a : Word64) (k : Nat) : Word64 := a &&& ~~~(1#64 <<< k)
def bitTest (a : Word64) (k : Nat) : Word64 := boolWord (a.getLsbD k)

/-! ### Class 0, SIA (R236) -/


/-- ADD (R236). -/
def execAdd (d a b : R5) (s : State) : Out := s.reg2 d a b 1 fun a b => a + b

/-- SUB (R236). -/
def execSub (d a b : R5) (s : State) : Out := s.reg2 d a b 1 fun a b => a - b

/-- AND (R236). -/
def execAnd (d a b : R5) (s : State) : Out := s.reg2 d a b 1 fun a b => a &&& b

/-- OR (R236). -/
def execOr (d a b : R5) (s : State) : Out := s.reg2 d a b 1 fun a b => a ||| b

/-- XOR (R236). -/
def execXor (d a b : R5) (s : State) : Out := s.reg2 d a b 1 fun a b => a ^^^ b

/-- ANDN (R236). -/
def execAndn (d a b : R5) (s : State) : Out := s.reg2 d a b 1 fun a b => a &&& ~~~b

/-- SLL (R236). -/
def execSll (d a b : R5) (s : State) : Out := s.reg2 d a b 1 fun a b => a <<< amount b

/-- SRL (R236). -/
def execSrl (d a b : R5) (s : State) : Out := s.reg2 d a b 1 fun a b => a >>> amount b

/-- SRA (R236). -/
def execSra (d a b : R5) (s : State) : Out := s.reg2 d a b 1 fun a b => a.sshiftRight (amount b)

/-- ROL (R236). -/
def execRol (d a b : R5) (s : State) : Out := s.reg2 d a b 1 fun a b => a.rotateLeft (amount b)

/-- ROR (R236). -/
def execRor (d a b : R5) (s : State) : Out := s.reg2 d a b 1 fun a b => a.rotateRight (amount b)

/-- MUL (R236). -/
def execMul (d a b : R5) (s : State) : Out := s.reg2 d a b 3 fun a b => a * b

/-- MULH (R236). -/
def execMulh (d a b : R5) (s : State) : Out := s.reg2 d a b 3 fun a b => mulHigh a b

/-- MULHU (R236). -/
def execMulhu (d a b : R5) (s : State) : Out := s.reg2 d a b 3 fun a b => mulHighU a b

/-- DIV (R237). -/
def execDiv (d a b : R5) (s : State) : Out := s.reg2 d a b 18 fun a b => divS a b

/-- DIVU (R237). -/
def execDivu (d a b : R5) (s : State) : Out := s.reg2 d a b 18 fun a b => divU a b

/-- REM (R237). -/
def execRem (d a b : R5) (s : State) : Out := s.reg2 d a b 18 fun a b => remS a b

/-- REMU (R237). -/
def execRemu (d a b : R5) (s : State) : Out := s.reg2 d a b 18 fun a b => remU a b

/-- MIN (R236). -/
def execMin (d a b : R5) (s : State) : Out := s.reg2 d a b 1 fun a b => minS a b

/-- MAX (R236). -/
def execMax (d a b : R5) (s : State) : Out := s.reg2 d a b 1 fun a b => maxS a b

/-- MINU (R236). -/
def execMinu (d a b : R5) (s : State) : Out := s.reg2 d a b 1 fun a b => minU a b

/-- MAXU (R236). -/
def execMaxu (d a b : R5) (s : State) : Out := s.reg2 d a b 1 fun a b => maxU a b

/-- SLT (R236). -/
def execSlt (d a b : R5) (s : State) : Out := s.reg2 d a b 1 fun a b => boolWord (a.slt b)

/-- SLTU (R236). -/
def execSltu (d a b : R5) (s : State) : Out := s.reg2 d a b 1 fun a b => boolWord (a.ult b)

/-- SEQ (R236). -/
def execSeq (d a b : R5) (s : State) : Out := s.reg2 d a b 1 fun a b => boolWord (a = b)

/-- SNE (R236). -/
def execSne (d a b : R5) (s : State) : Out := s.reg2 d a b 1 fun a b => boolWord (a != b)

/-- CLZ (R236). -/
def execClz (d a : R5) (s : State) : Out := s.reg1 d a 1 fun a => .ofNat 64 (leadZeros 64 a.toNat)

/-- CTZ (R236). -/
def execCtz (d a : R5) (s : State) : Out := s.reg1 d a 1 fun a => .ofNat 64 (trailZeros a)

/-- POPC (R236). -/
def execPopc (d a : R5) (s : State) : Out := s.reg1 d a 1 fun a => .ofNat 64 (oneBits 64 a.toNat)

/-- BEXT (R238). -/
def execBext (d a b : R5) (s : State) : Out := s.reg2 d a b 1 bitExtract
/-- BDEP (R238). -/
def execBdep (d a b : R5) (s : State) : Out := s.reg2 d a b 1 bitDeposit
/-- FSHL (R238): the amount is the field C. -/
def execFshl (d a b c : R5) (s : State) : Out := s.reg2 d a b 1 fun a b => funnelL a b c.toNat
/-- FSHR (R238). -/
def execFshr (d a b c : R5) (s : State) : Out := s.reg2 d a b 1 fun a b => funnelR a b c.toNat
/-- LUT3 (R238). -/
def execLut3 (d a b c : R5) (t : BitVec 8) (s : State) : Out := s.reg3 d a b c 1 fun a b c => lutBits 64 t a b c
/-- SEL (R238): the bundle's guard value chooses, whether or not Q is set. -/
def execSel (d a b : R5) (s : State) : Out := s.reg2 d a b 1 fun a b => if s.cur.guard then a else b
/-- BSET (R236). -/
def execBset (d a b : R5) (s : State) : Out := s.reg2 d a b 1 fun a b => bitSet a (amount b)
/-- BCLR (R236). -/
def execBclr (d a b : R5) (s : State) : Out := s.reg2 d a b 1 fun a b => bitClr a (amount b)
/-- BTST (R236). -/
def execBtst (d a b : R5) (s : State) : Out := s.reg2 d a b 1 fun a b => bitTest a (amount b)

/-! ### Class 1, SIM (R240) -/

/-- ADDI (R240). -/
def execAddi (d a : R5) (i : BitVec 10) (x : Option (BitVec 27)) (s : State) : Out :=
  s.reg1 d a 1 fun a => let i := immOf i x; a + i

/-- ANDI (R240). -/
def execAndi (d a : R5) (i : BitVec 10) (x : Option (BitVec 27)) (s : State) : Out :=
  s.reg1 d a 1 fun a => let i := immOf i x; a &&& i

/-- ORI (R240). -/
def execOri (d a : R5) (i : BitVec 10) (x : Option (BitVec 27)) (s : State) : Out :=
  s.reg1 d a 1 fun a => let i := immOf i x; a ||| i

/-- XORI (R240). -/
def execXori (d a : R5) (i : BitVec 10) (x : Option (BitVec 27)) (s : State) : Out :=
  s.reg1 d a 1 fun a => let i := immOf i x; a ^^^ i

/-- SLLI (R240). -/
def execSlli (d a : R5) (i : BitVec 10) (x : Option (BitVec 27)) (s : State) : Out :=
  s.reg1 d a 1 fun a => let i := immOf i x; a <<< amount i

/-- SRLI (R240). -/
def execSrli (d a : R5) (i : BitVec 10) (x : Option (BitVec 27)) (s : State) : Out :=
  s.reg1 d a 1 fun a => let i := immOf i x; a >>> amount i

/-- SRAI (R240). -/
def execSrai (d a : R5) (i : BitVec 10) (x : Option (BitVec 27)) (s : State) : Out :=
  s.reg1 d a 1 fun a => let i := immOf i x; a.sshiftRight (amount i)

/-- RORI (R240). -/
def execRori (d a : R5) (i : BitVec 10) (x : Option (BitVec 27)) (s : State) : Out :=
  s.reg1 d a 1 fun a => let i := immOf i x; a.rotateRight (amount i)

/-- MULI (R240). -/
def execMuli (d a : R5) (i : BitVec 10) (x : Option (BitVec 27)) (s : State) : Out :=
  s.reg1 d a 3 fun a => let i := immOf i x; a * i

/-- SLTI (R240). -/
def execSlti (d a : R5) (i : BitVec 10) (x : Option (BitVec 27)) (s : State) : Out :=
  s.reg1 d a 1 fun a => let i := immOf i x; boolWord (a.slt i)

/-- SLTUI (R240). -/
def execSltui (d a : R5) (i : BitVec 10) (x : Option (BitVec 27)) (s : State) : Out :=
  s.reg1 d a 1 fun a => let i := immOf i x; boolWord (a.ult i)

/-- SEQI (R240). -/
def execSeqi (d a : R5) (i : BitVec 10) (x : Option (BitVec 27)) (s : State) : Out :=
  s.reg1 d a 1 fun a => let i := immOf i x; boolWord (a = i)

/-- LI (R240). -/
def execLi (d : R5) (i : BitVec 10) (x : Option (BitVec 27)) (s : State) : Out := .next (s.wrG d (immOf i x) 1)

/-- BSETI (R240). -/
def execBseti (d a : R5) (i : BitVec 10) (x : Option (BitVec 27)) (s : State) : Out :=
  s.reg1 d a 1 fun a => let i := immOf i x; bitSet a (amount i)

/-- BCLRI (R240). -/
def execBclri (d a : R5) (i : BitVec 10) (x : Option (BitVec 27)) (s : State) : Out :=
  s.reg1 d a 1 fun a => let i := immOf i x; bitClr a (amount i)

/-- BTSTI (R240). -/
def execBtsti (d a : R5) (i : BitVec 10) (x : Option (BitVec 27)) (s : State) : Out :=
  s.reg1 d a 1 fun a => let i := immOf i x; bitTest a (amount i)

/-- MINI (R240). -/
def execMini (d a : R5) (i : BitVec 10) (x : Option (BitVec 27)) (s : State) : Out :=
  s.reg1 d a 1 fun a => let i := immOf i x; minS a i

/-- MAXI (R240). -/
def execMaxi (d a : R5) (i : BitVec 10) (x : Option (BitVec 27)) (s : State) : Out :=
  s.reg1 d a 1 fun a => let i := immOf i x; maxS a i

end Sys2Proof.Machine
end

