-- ==== Sys2Proof/Machine/Control.lean ====
section
/-! DEFINITION. Control transfer, loop levels and address iterators, class 3 (12_scalar_and_control R241-R257). -/

namespace Sys2Proof.Machine

/-- A word offset, sign-extended and times 4. -/
def wordOff {n : Nat} (o : BitVec n) : Addr := o.signExtend 64 * 4

namespace State

/-- The address of the bundle that follows the issuing one. -/
def seqAddr (s : State) : Addr := s.cur.x + .ofNat 64 (4 * s.cur.len)

/-- A taken transfer to t (R242): a misaligned target raises ALIGN, whose detail no rule gives. -/
def jumpTo (s : State) (t : Addr) : Out :=
  if t.toNat % 4 != 0 then .next (s.trapAt .align s.freeInfo) else .next (s.setCtl (.taken t))

/-- A taken transfer to t that leaves a link in gd (R244). -/
def linkTo (s : State) (d : R5) (t : Addr) : Out :=
  if t.toNat % 4 != 0 then .next (s.trapAt .align s.freeInfo)
  else .next ((s.wrG d s.seqAddr 1).setCtl (.taken t))

/-- A level of the issuing shift. -/
def level (s : State) (l : Nat) : Level := s.me.arch.l[l]?.getD .zero

/-- Length in words of the body bundle at address a, read from its header (R246), or as a level among `ls` replays it
(R249). -/
def headerLen (s : State) (ls : Vector Level 6) (a : Addr) (idx : Nat) : Except State Nat :=
  let n := s.cur.shift
  let w : Except TrapRec Word := match replayed s.me ls a with
    | some ws => .ok (ws.headD 0)
    | none => s.codeWord n a
  match w with
  | .error r => .error (s.raise { r with fpc := a } false)
  | .ok h =>
    if s.me.k.port then .ok (if fS h then 1 else 2)
    else if isH0 h then .ok (bundleLen h)
    else .error (s.raise ⟨.illegal, s.cur.x, 1, .ofNat 64 (Illegal.noth0.code + idx * 256), 0⟩ false)

/-- The header walk of R246 over k more bundles: the last one's address and the address behind it. -/
def bodyWalk (s : State) (ls : Vector Level 6) (a last : Addr) (idx : Nat) : Nat → Except State (Addr × Addr)
  | 0 => .ok (last, a)
  | k + 1 =>
    match s.headerLen ls a idx with
    | .error e => .error e
    | .ok len => s.bodyWalk ls (a + .ofNat 64 (4 * len)) a (idx + 1) k

/-- Activation of level l with a body of n bundles (R246). -/
def activate (s : State) (l n : Nat) (trip off : BitVec 32) : Out :=
  let x := s.cur.x
  let ls := s.me.arch.l
  let start := s.seqAddr
  let kept := if (s.level l).act then dropLevel ls l else ls
  match s.bodyWalk kept start start 0 n with
  | .error e => .next e
  | .ok (stop, behind) =>
    if kept.toList.any fun m => m.act && m.start.toNat ≤ x.toNat && x.toNat ≤ m.stop.toNat && m.stop.toNat < stop.toNat then
      .next (s.trapAt .illegal (.ofNat 64 Illegal.opnd.code))
    else if trip = 0 then
      .next ((s.modArch fun a => { a with l := kept }).setCtl (.skipBody behind))
    else
      let ord := match innermost kept with
        | none => 0
        | some k => (kept[k]?.getD .zero).ord + 1
      let lv : Level := ⟨start, stop, trip, 0, off, true, ord, behind⟩
      -- R249: the new body is fetched again, unless it lies in a body that is still being replayed
      let keep (p : Addr × List Word) : Bool :=
        !(start.toNat ≤ p.1.toNat && p.1.toNat ≤ stop.toNat)
          || inBody kept p.1
      .next (s.modMe fun y => { y with
        arch := { y.arch with l := kept.setIfInBounds l lv }
        loopBuf := y.loopBuf.filter keep })

/-- Pos(l) of R254. -/
def position (dir : BitVec 6) (l : Nat) (lv : Level) : Nat :=
  if lv.act then lv.off.toNat + (if dir.getLsbD l then lv.trip.toNat - 1 - lv.idx.toNat else lv.idx.toNat) else 0

/-- Addr(i) of R254. -/
def iterAddr (it : Iter) (ls : Vector Level 6) : Word64 :=
  (List.range 6).foldl (fun acc l => acc + (it.stride[l]?.getD 0) * .ofNat 64 (position it.dir l (ls[l]?.getD .zero))) it.base

def iter (s : State) (i : BitVec 4) : Iter := s.me.arch.it[i.toNat]?.getD .zero
def setIter (s : State) (i : BitVec 4) (x : Iter) : State :=
  s.modArch fun a => { a with it := a.it.setIfInBounds i.toNat x }

end State

/-- BR (R243). -/
def execBr (o : BitVec 20) (s : State) : Out := s.jumpTo (s.cur.x + wordOff o)

/-- JAL (R244). -/
def execJal (d : R5) (o : BitVec 15) (s : State) : Out := s.linkTo d (s.cur.x + wordOff o)

/-- JALR (R244). -/
def execJalr (d a : R5) (i : BitVec 10) (s : State) : Out :=
  s.usesG [a] (s.linkTo d (s.rdG a + wordOff i))

/-- LOOP (R246): the field n holds the body length less 1. -/
def execLoop (n : BitVec 6) (l : BitVec 3) (a : R5) (s : State) : Out :=
  s.usesG [a] (s.activate l.toNat (n.toNat + 1) (.ofNat 32 (Nat.min (s.rdG a).toNat (2 ^ 32 - 1))) 0)

/-- LOOPI (R246). -/
def execLoopi (n : BitVec 6) (l : BitVec 3) (k : BitVec 10) (s : State) : Out :=
  s.activate l.toNat (n.toNat + 1) (k.setWidth 32) 0

/-- LOOPR (R247): the trip count from two row pointers in the scratchpad. One that traps leaves no record of a
violation (log 104). -/
def execLoopr (n : BitVec 6) (l : BitVec 3) (a : R5) (v : BitVec 1) (s : State) : Out :=
  s.usesG [a]
    (if (s.rdG a).toNat % 4 != 0 then .next (s.trapAt .align s.freeInfo)
     else s.lsFirst fun s1 =>
       let i := match State.innermost s1.me.arch.l with
         | none => 0
         | some k =>
           let p := s1.level k
           if v = 1 then p.trip.toNat - 1 - p.idx.toNat else p.idx.toNat
       let p0 := ((s.rdG a).toNat + 4 * i) % spBytes
       let (lo, e0, s2) := s1.spRead s.cur.shift p0 4
       let (hi, e1, s3) := s2.spRead s.cur.shift ((p0 + 4) % spBytes) 4
       let go (t : State) : Out := t.activate l.toNat (n.toNat + 1) (.ofNat 32 (if lo ≤ hi then hi - lo else 0)) (.ofNat 32 lo)
       if e0 || e1 then .next s3.uceAt
       else match go s1 with
         | .next t => if t.cur.fin = s1.cur.fin then go s3 else .next t
         | o => o)

/-- ITSET.base (R255). -/
def execItsetBase (i : BitVec 4) (a : R5) (s : State) : Out :=
  s.usesG [a] (.next (s.setIter i ⟨s.rdG a, Vector.replicate 6 0, 0⟩))

/-- ITSET.str (R255). -/
def execItsetStr (i : BitVec 4) (a : R5) (l : BitVec 3) (s : State) : Out :=
  s.usesG [a] (.next (s.setIter i { s.iter i with stride := (s.iter i).stride.setIfInBounds l.toNat (s.rdG a) }))

/-- ITREV (R257). -/
def execItrev (i : BitVec 4) (m : BitVec 6) (s : State) : Out :=
  .next (s.setIter i { s.iter i with dir := (s.iter i).dir ^^^ m })

/-- ITGET (R256). -/
def execItget (d : R5) (i : BitVec 4) (m : BitVec 10) (s : State) : Out :=
  .next (s.wrG d (State.iterAddr (s.iter i) s.me.arch.l + m.signExtend 64) 1)

/-- LBRK (R250): where no level is left to go on, the next bundle is the one behind END. -/
def execLbrk (l : BitVec 3) (s : State) : Out :=
  .next (if (s.level l.toNat).act then s.setCtl (.lbrk l (s.level l.toNat).behind) else s)

/-- LCNT (R251). -/
def execLcnt (d : R5) (l : BitVec 3) (s : State) : Out :=
  let p := s.level l.toNat
  .next (s.wrG d (if p.act then p.trip ++ p.idx else 0) 1)

end Sys2Proof.Machine
end

