-- ==== Sys2Proof/Machine/Copy.lean ====
section
/-! DEFINITION. The copy engine's instructions and the performance of copy queues, class 10 (04_copy_engine R70-R91, 03 R60-R69):
copies, joins, arrival words, claim instructions. -/

namespace Sys2Proof.Machine

/-! ### Checks at issue (R73) -/

/-- The lowest reason that word k of a CPYZ descriptor fails with (R88). -/
def descWord (d : Nat) (k : Nat) : Nat :=
  let w := d / 2 ^ (64 * k) % 2 ^ 64
  let bad := match k with
    | 0 => w / 2 ^ 20 % 2 ^ 12 != 0 || w / 2 ^ 52 != 0
    | 1 => w / 2 ^ 20 != 0
    | 3 => w != 0
    | _ => false
  if bad then rsvBit else 0

/-- The first failure of a copy command's items: item, word, reason. `desc` holds CPYZ's descriptor. -/
def State.copyCheck (s : State) (c : CopyCmd) (desc : Nat) : Option (Nat × Nat × Nat) :=
  let item (i : Nat) (r : Option (Nat × Nat)) : Option (Nat × Nat × Nat) := r.map fun p => (i, p.1, p.2)
  let src : LRec := c.src
  let dst : LRec := c.dst
  let two : Bool := c.kind = .cpy || c.kind = .cpyp
  let pass1 := [item 1 (recCheck src true (s.galLimit src)),
    if two then item 2 (recCheck dst false (s.galLimit dst)) else none,
    item 3 (blkCheck c.blk),
    if c.kind = .cpyz then item 4 ((List.range 4).findSome? fun k =>
      let v := descWord desc k
      if v = 0 then none else some (k, v)) else none]
  let combo (b : Bool) (i w : Nat) : Option (Nat × Nat × Nat) := if b then some (i, w, comboBad) else none
  let pres := Blk.pres c.blk != 0
  let pass2 := [combo (src.kind = 2 || (c.kind = .cpyz && src.ndim != 2)) 1 0,
    combo (two && (dst.kind = 2) != (c.kind = .cpyp)) 2 0,
    combo (two && (src.ndim != dst.ndim || src.fmt != dst.fmt)) 2 0,
    combo (!permOkFor c.blk src.ndim) 3 5,
    combo (pres && (c.kind = .cpfill || c.kind = .cpyz || (c.kind = .cpy && dst.kind = 0))) 3 4,
    combo (c.kind = .cpyz && Blk.perm c.blk != 0) 3 5]
  (pass1 ++ pass2).findSome? id

namespace State

/-- Whether some queue of a mask is full (R70, R87). -/
def cpqFull (s : State) (m : BitVec 4) : Bool :=
  (List.range 4).any fun q => m.getLsbD q && decide (16 ≤ (s.me.cpq[q]?.getD []).length)

/-- An entry joins each queue of a mask; a full one blocks the shift. -/
def pushCpq (s : State) (m : BitVec 4) (e : CpEntry) : Out :=
  if s.cpqFull m then .next (s.blockAt (.cpq m))
  else .next (s.modMe fun x => { x with
    cpq := Vector.ofFn fun (q : Fin 4) => if m.getLsbD q.val then x.cpq[q] ++ [e] else x.cpq[q] })

/-- The number by which a join or claim of the issuing bundle is known. -/
def joinId (s : State) : Nat := s.cur.bundle * 8 + s.cur.slot

/-- Bytes that a copy instruction reads at issue: the value, whether they are poisoned, whether they violate, the
state with the violation recorded (R70). -/
def readItem (s : State) (off len : Nat) : Nat × Bool × Bool × State :=
  let viol := (s.firstViol s.cur.shift ((List.range len).map (off + ·))).isSome
  let (v, p, s1) := s.spRead s.cur.shift off len
  (v, p, viol, s1)

/-- A copy instruction at issue (R70, R73). `b` is the second record's or the descriptor's register, `bl` its bytes. -/
def copyIssue (s : State) (kind : CpKind) (q : BitVec 2) (a b c : R5) : Out :=
  let regs := if kind = .cpfill then [a, c] else [a, b, c]
  s.usesG regs
    (let pa := (s.rdG a).toNat
     let pb := if kind = .cpfill then 0 else (s.rdG b).toNat
     let pc := (s.rdG c).toNat
     let bl := if kind = .cpfill then 0 else if kind = .cpyz then 32 else 96
     if pa % 8 != 0 || pb % 8 != 0 || pc % 8 != 0 then .next (s.trapAt .align s.freeInfo)
     else
       let (rv, e1, v1, s1) := s.readItem pa 96
       let (dv, e2, v2, s2) := s1.readItem pb bl
       let (kv, e3, v3, s3) := s2.readItem pc 64
       if v1 || v2 || v3 then .next s3
       else if e1 || e2 || e3 then .next s3.uceAt
       else
         let cmd : CopyCmd :=
           { kind := kind
             src := recOf rv
             dst := if kind = .cpfill then recOf rv else recOf dv
             blk := blkOf kv
             x := s.cur.x
             bundle := s.cur.bundle
             seen := []
             torn := none }
         match s3.copyCheck cmd dv with
         | some (i, w, v) => .next (s3.trapAt .layoutrsv (layoutInfo i w v))
         | none => s3.pushCpq (1#4 <<< q.toNat) (.cmd { cmd with seen := s3.seenOf s.cur.shift cmd } 0))

end State

/-! ### Claim lists (03 R60-R68) -/

/-- An extent with length, position, tag, SH and REF replaced (R61). -/
def xWith (x : BitVec 128) (len pos tag : Nat) (sh : Bool) (ref : Nat) : BitVec 128 :=
  .ofNat 128 (xBasef x + len % 2 ^ 24 * 2 ^ 40 + pos % 2 ^ 24 * 2 ^ 64 + tag % 8 * 2 ^ 88 + sh.toNat * 2 ^ 91
    + xFpo x * 2 ^ 92 + xStride x * 2 ^ 98 + xRunp x * 2 ^ 106 + ref % 256 * 2 ^ 120)

/-- An extent whose run one more claim list refers to (R65). -/
def xRise (x : BitVec 128) : BitVec 128 :=
  xWith x (xLen x) (xPos x) (xTag x) true (if xSh x then xRef x + 1 else 2)

/-- An extent whose run one claim list less refers to (R66); one that counts a single list stays as it is (log 86). -/
def xFall (x : BitVec 128) : BitVec 128 :=
  if !xSh x then x
  else if xRef x ≤ 2 then xWith x (xLen x) (xPos x) (xTag x) false 0
  else xWith x (xLen x) (xPos x) (xTag x) true (xRef x - 1)

/-- Fields of a claim handle (R69). -/
def hTid (h : Word64) : Nat := fld h 0 20
def hSeq (h : Word64) : Nat := fld h 32 24

/-- How a claim instruction ends, or what it waits for: its home, or room in the free queue. -/
inductive ClaimRes where
  | wait
  | full
  | fault (c : Cause) (sub tid : Nat)
  | done (v : Word64) (s : State)

/-- A negative status (R69). -/
def claimFail (n : Nat) : Word64 := .ofInt 64 (-(n : Int))

namespace State

/-- CUR, CTAG, NEXT of a claim block (R60). -/
def claimHead (s : State) (key : Nat) : Nat × Nat × Nat :=
  let w := s.readM key 8
  (w % 2 ^ 24, w / 2 ^ 24 % 8, w / 2 ^ 32 % 64)

/-- CUR, CTAG and NEXT written; the other bits stay. -/
def setClaimHead (s : State) (key cur ctag next : Nat) : State :=
  let w := s.readM key 8
  s.writeM key 8 (cur % 2 ^ 24 + ctag % 8 * 2 ^ 24 + w / 2 ^ 27 % 32 * 2 ^ 27 + next % 64 * 2 ^ 32 + w / 2 ^ 38 * 2 ^ 38)

/-- The first extents of a claim list replaced. -/
def setExtents (s : State) (key : Nat) (l : List (BitVec 128)) : State :=
  l.zipIdx.foldl (fun t p => t.writeM (key + 64 + 16 * p.2) 16 p.1.toNat) s

/-- Every extent of the tensor that has BASEF b, in any claim list, is counted anew (R65, R66); an extent
of the run with SH = 0 among shared ones: log 86. -/
def recount (s : State) (e : BitVec 1024) (b : Nat) (f : BitVec 128 → BitVec 128) : State :=
  (List.range (eNseq e)).foldl (fun t q =>
    let key := t.claimKey e q
    let l := t.extents key
    if l.any fun x => xBasef x = b then t.setExtents key (l.map fun x => if xBasef x = b then f x else x)
    else t) s

/-- Whether some extent of the tensor with BASEF b counts 255 lists (R69). -/
def refFull (s : State) (e : BitVec 1024) (b : Nat) : Bool :=
  (List.range (eNseq e)).any fun q => (s.extents (s.claimKey e q)).any fun x => xBasef x = b && xSh x && decide (255 ≤ xRef x)

/-- The tensor of a claim handle, or the fault of R69. -/
def claimEntry (s : State) (n : Nat) (h : Word64) : Except (Cause × Nat × Nat) (BitVec 1024) :=
  let k := (s.sh n).k
  if fld h 20 12 != 0 || fld h 56 8 != 0 then .error (.trans, 1, hTid h)
  else match s.tensorEntry k.ttbase k.ttlim (hTid h) with
    | none => .error (.trans, 1, hTid h)
    | some e =>
      if !entryOk e then .error (.trans, 1, hTid h)
      else if !eXm e then .error (.trans, 9, hTid h)
      else if !homeInDomain (s.entryHome e) then .error (.trans, 5, hTid h)
      else if eNseq e ≤ hSeq h then .error (.trans, 7, hTid h)
      else .ok e

/-- CLAPP at the claim home. A cursor that comes to 2^24 does not fit CUR's 24 bits: what CUR then holds and what is answered are
free values (log 88). -/
def claimAppend (s : State) (e : BitVec 1024) (h : Word64) (img : BitVec 128) : Word64 × State :=
  let key := s.claimKey e (hSeq h)
  let (cur, ctag, next) := s.claimHead key
  if next = 32 then (claimFail 1, s)
  else if xLen img = 0 || xStride img = 0 || xRunp img = 0 || decide (64 * xRunp img < xFpo img + xLen img)
      || decide (eExt e 0 < cur + xLen img) then (claimFail 2, s)
  else
    let s1 := s.writeM (key + 64 + 16 * next) 16 (xWith img (xLen img) cur ctag false 0).toNat
    let sum := cur + xLen img
    if sum < 2 ^ 24 then (.ofNat 64 sum, s1.setClaimHead key sum ctag (next + 1))
    else (Config.freeWord s.freeN 4301, s1.setClaimHead key ((Config.freeWord s.freeN 4300).toNat % 2 ^ 24) ctag (next + 1))

/-- SEAMTAG at the claim home. -/
def claimTag (s : State) (e : BitVec 1024) (h t : Word64) : Word64 × State :=
  let key := s.claimKey e (hSeq h)
  let (cur, ctag, next) := s.claimHead key
  if 7 < t.toNat then (claimFail 2, s) else (.ofNat 64 ctag, s.setClaimHead key cur t.toNat next)

/-- CLSHR at the claim home (R65). -/
def claimShare (s : State) (e : BitVec 1024) (h n k : Word64) : Word64 × State :=
  let ks := s.claimKey e (hSeq h)
  let kn := s.claimKey e (hSeq n)
  let (curS, ctagS, _) := s.claimHead ks
  let (curN, _, nextN) := s.claimHead kn
  if hTid h != hTid n then (claimFail 5, s)
  else if nextN != 0 || curN != 0 then (claimFail 3, s)
  else if k = 0 || curS < k.toNat then (claimFail 2, s)
  else
    let l := ((s.extents ks).filter fun x => xPos x < k.toNat).map fun x =>
      if k.toNat < xPos x + xLen x then xWith x (k.toNat - xPos x) (xPos x) (xTag x) (xSh x) (xRef x) else x
    let runs := (l.map xBasef).eraseDups
    if runs.any (s.refFull e) then (claimFail 4, s)
    else
      let s1 := (s.setExtents kn l).setClaimHead kn k.toNat ctagS l.length
      (.ofNat 64 l.length, runs.foldl (fun t b => t.recount e b xRise) s1)

/-- The first extent of tag t leaves its list (R66); a run that it frees is answered. -/
def retireOne (s : State) (e : BitVec 1024) (key t : Nat) : State × Option (BitVec 128) :=
  let l := s.extents key
  match l.findIdx? fun x => xTag x = t with
  | none => (s, none)
  | some i =>
    let x := l[i]?.getD 0
    let rest := l.eraseIdx i
    let (cur, ctag, next) := s.claimHead key
    let s1 := (s.setExtents key rest).setClaimHead key cur ctag (next - 1)
    if rest.any fun y => xBasef y = xBasef x then (s1, none)
    else if xSh x then (s1.recount e (xBasef x) xFall, none)
    else (s1, some x)

/-- Every extent of tag t leaves its list; the freed runs in order. -/
def retireTag (s : State) (e : BitVec 1024) (key t : Nat) : State × List (BitVec 128) :=
  (List.range (s.extents key).length).foldl (fun acc _ =>
    let (s1, r) := acc.1.retireOne e key t
    (s1, acc.2 ++ r.toList)) (s, [])

/-- A freed run enters the free queue of the device that issues the SEAMRET, wherever the claim home is (R66, R67; that choice
of queue is the model's own, log 81); a ring that a bad head has spoiled takes free values (log 34). -/
def pushFree (s : State) (x : BitVec 128) : State :=
  let k := s.d.fqtail.toNat % s.d.fqsize.toNat
  let a := s.d.fqbase.toNat * frameBytes + 16 * k
  let v := if s.d.fqBad then ((List.range 16).map fun j => (Config.freeByte s.freeN (2 * (a + j) + 1)).toNat * 256 ^ j).sum
    else xBasef x + (xRunp x * xStride x) % 2 ^ 24 * 2 ^ 40 + s.gtc.toNat * 2 ^ 64
  let s1 := s.writeM a 16 v
  { s1 with d := { s1.d with fqtail := s1.d.fqtail + 1 } }

/-- SEAMRET at the claim home (R67, R68): none while the free queue lacks room. -/
def claimRetire (s : State) (e : BitVec 1024) (h t : Word64) (close : Bool) : Option (Word64 × State) :=
  if 7 < t.toNat then some (claimFail 2, s)
  else
    let key := s.claimKey e (hSeq h)
    let old := s.extents key
    let gone := old.filter fun x => xTag x = t.toNat
    let n := (gone.map xLen).sum
    let (s1, freed) := s.retireTag e key t.toNat
    if (s.d.fqsize - (s.d.fqtail - s.d.fqhead)).toNat < freed.length then none
    else
      let s2 := freed.foldl pushFree s1
      let s3 := if !close then s2 else
        let (cur, ctag, next) := s2.claimHead key
        (s2.setExtents key ((s2.extents key).map fun x =>
          xWith x (xLen x) (xPos x - ((gone.filter fun y => xPos y < xPos x).map xLen).sum) (xTag x) (xSh x) (xRef x))).setClaimHead
            key (cur - n) ctag next
      some (.ofNat 64 n, s3.writeM (key + 8) 8 ((s3.readM (key + 8) 8 + n) % 2 ^ 64))

/-- HBUDG at the claim home (R64, R69). A SEQ of the handle other than 0 is not looked at (the model's choice, log 88). -/
def claimBudget (s : State) (e : BitVec 1024) (hd v : Word64) : Word64 × State :=
  let w := fld v 32 24
  if !eBud e || 256 ≤ hd.toNat || eExt e 1 ≤ hd.toNat || fld v 56 8 != 0 || fld v 15 17 != 0 || fld v 1 7 != 0
      || 64 < fld v 8 7 || (fld v 0 1 = 1 && (w = 0 || w % 64 != 0)) then (claimFail 2, s)
  else (0, s.writeM (s.chipKey (s.entryHome e) (eBudf e * frameBytes + 8 * hd.toNat)) 8 v.toNat)

end State

/-- The handles of a claim instruction. -/
def ClaimOp.handles (op : ClaimOp) : List Word64 :=
  match op with
  | .clapp h _ => [h]
  | .clshr h n _ => [h, n]
  | .seamtag h _ => [h]
  | .seamret h _ _ => [h]
  | .hbudg h _ _ => [h]

/-- The operand that is folded into a signature beside the handle (13 R273). -/
def ClaimOp.operand (op : ClaimOp) : Word64 :=
  match op with
  | .clapp _ img => img.setWidth 64
  | .clshr _ _ k => k
  | .seamtag _ t => t
  | .seamret _ t _ => t
  | .hbudg _ _ v => v

namespace State

/-- A claim instruction at its home, as one atomic operation (R60, R69). A SEAMRET of a tag above 7 ends before its handle is
looked at. It waits while its home lies behind a dead link (11 R234, log 21). A fault of either handle of a CLSHR comes before
its status -5 (the model's choice, log 88). -/
def claimRun (s : State) (n : Nat) (op : ClaimOp) : ClaimRes :=
  let noTag : Bool := match op with
    | .seamret _ t _ => decide (7 < t.toNat)
    | _ => false
  if noTag then .done (claimFail 2) s
  else match op.handles.mapM (s.claimEntry n) with
  | .error (c, sub, tid) => .fault c sub tid
  | .ok [] => .wait
  | .ok (e :: _) =>
    if s.deadChip (s.entryHome e) then .wait
    else
      let fin (r : Word64 × State) : ClaimRes := .done r.1 r.2
      match op with
      | .clapp h img => fin (s.claimAppend e h img)
      | .clshr h m k => fin (s.claimShare e h m k)
      | .seamtag h t => fin (s.claimTag e h t)
      | .seamret h t close => match s.claimRetire e h t close with
        | none => .full
        | some r => fin r
      | .hbudg _ hd v => fin (s.claimBudget e hd v)

/-- The claim instruction that stands at the head of all four queues of shift n (11 R219). -/
def claimHeadOf (s : State) (n : Nat) : Option (Nat × R5 × Addr × ClaimOp) :=
  let x := s.sh n
  let heads := x.cpq.toList.map List.head?
  match heads with
  | some (.claim id d a op) :: _ =>
    if x.memTrap.isNone && !x.cpHold && !s.held n (id / 8) && heads.all fun h => h = some (.claim id d a op) then some (id, d, a, op) else none
  | _ => none

/-- The heads of all four queues leave. -/
def popAll (s : State) (n : Nat) : State := s.modSh n fun x => { x with cpq := x.cpq.map fun l => l.drop 1 }

/-- The tensors that a claim instruction's handles name stand in the caches from then on (R53). -/
def noteHandles (s : State) (n : Nat) (op : ClaimOp) : State := op.handles.foldl (fun t h => t.noteTid n (hTid h)) s

/-- A claim instruction's result arrives; its handle and operand join an assay task's signature (R273). -/
def claimEnd (s : State) (n : Nat) (d : R5) (op : ClaimOp) (v : Word64) : State :=
  (((s.noteHandles n op).popAll n).arriveG n d v false).foldSig n (op.handles.headD 0) 0
    op.operand

/-- A shift whose SEAMRET waits for room in the free queue is blocked (R67, 13 R259). -/
def blockSeam (s : State) (n : Nat) : State := match (s.sh n).st with
  | .running => s.leave n .blocked (some .seam)
  | .ready => s.modSh n fun x => { x with st := .blocked, blockOn := some .seam }   -- its wait goes on (13 R260)
  | _ => s

/-- Whether a SEAMRET stands in a shift's copy queues. -/
def hasSeam (x : Shift) : Bool := x.cpq.toList.flatten.any fun e => match e with
  | .claim _ _ _ (.seamret ..) => true
  | _ => false

/-- CLAIM_PERFORM for shift n. In an assay launch the primary performs for both copies (R273). -/
def claimPerform (s : State) (n : Nat) : State :=
  match s.claimHeadOf n with
  | none => s
  | some (id, d, x, op) =>
    match s.assayPair n with
    | none => match s.claimRun n op with
      | .wait => s
      | .full => s.blockSeam n
      | .fault c sub tid => ((s.noteHandles n op).memFault n ⟨c, x, 6, transInfo sub tid, 0⟩).goAhead n (id / 8)
      | .done v s1 => (s1.claimEnd n d op v).goAhead n (id / 8)
    | some (_, false) => s
    | some (m, true) => match s.claimHeadOf m with
      | none => s
      | some (id', d', x', op') =>
        let ahead (t : State) : State := (t.goAhead n (id / 8)).goAhead m (id' / 8)
        if op ≠ op' then s.assayMiss n else match s.claimRun n op with
        | .wait => s
        | .full => (s.blockSeam n).blockSeam m
        | .fault c sub tid =>
          ahead (((s.noteHandles n op).memFault n ⟨c, x, 6, transInfo sub tid, 0⟩).memFault m ⟨c, x', 6, transInfo sub tid, 0⟩)
        | .done v s1 => ahead ((s1.claimEnd n d op v).claimEnd m d' op' v)

/-! ### Copy queues (R70, R87) -/

/-- A join leaves the queues that it stands in, once it is at the head of each (R87). -/
def joinStep (s : State) (n id : Nat) (m : BitVec 4) : State :=
  let x := s.sh n
  if (List.range 4).all fun q => !m.getLsbD q || (x.cpq[q]?.getD []).head? = some (.join id m) then
    (s.modSh n fun y => { y with
      cpq := Vector.ofFn fun (q : Fin 4) => if m.getLsbD q.val then (y.cpq[q]).drop 1 else y.cpq[q] }).goAhead n (id / 8)
  else s

/-- Whether element i of a command's source lies behind a dead link: the command waits for it (log 21). -/
def srcDead (s : State) (n : Nat) (c : CopyCmd) (i : Nat) : Bool :=
  decide (i < c.n) && (match s.srcEl n c i with
    | .el (.loc l) _ => l.space.isNone && s.deadChip (s.chipOfKey l.key)
    | _ => false)

/-- The head command of queue q goes up to k elements on, or enters the gate. -/
def copyHead (s0 : State) (n : Nat) (q : BitVec 2) (c : CopyCmd) (done k : Nat) : State :=
  if s0.srcDead n c done then s0 else
  let s := s0.goAhead n c.bundle
  if c.gated then s.gateCmd n c q else s.copyNonGated n c q done k

/-- A CPYP of an assay launch: performed by the primary once its twin has come to the same (R273). A command or join that the
twin has still ahead of it is waited for; another CPYP, or a claim instruction, which both copies perform together, is a
mismatch. -/
def copyAssay (s : State) (n m : Nat) (q : BitVec 2) (c : CopyCmd) (done k : Nat) : State :=
  match ((s.sh m).cpq[q.toNat]?.getD []).head? with
  | some (.cmd c' _) =>
    if c'.kind ≠ .cpyp then s
    else if c'.src = c.src && c'.dst = c.dst && c'.blk = c.blk then s.copyHead n q c done k else s.assayMiss n
  | some (.claim ..) => s.assayMiss n
  | _ => s

/-- COPY_PERFORM for queue q of shift n: a command moves at most k elements, or the rest of its slab. -/
def copyPerform (s : State) (n : Nat) (q : BitVec 2) (k : Option Nat := none) : State :=
  let x := s.sh n
  if x.memTrap.isSome || x.cpHold then s
  else match (x.cpq[q.toNat]?.getD []).head? with
    | none => s
    | some (.join id m) => if s.held n (id / 8) then s else s.joinStep n id m
    | some (.claim ..) => s
    | some (.cmd c done) =>
      let k' := k.getD (slabElems c.src.fmt)
      if s.held n c.bundle then s
      else if c.kind = .cpyp then
        match s.assayPair n with
        | none => s.copyHead n q c done k'
        | some (_, false) => s
        | some (m, true) => s.copyAssay n m q c done k'
      else s.copyHead n q c done k'

/-- Whether COPY_PERFORM or CLAIM_PERFORM changes something for queue q of shift n. -/
def copyReady (s : State) (n : Nat) (q : BitVec 2) : Bool :=
  match ((s.sh n).cpq[q.toNat]?.getD []).head? with
  | none => false
  | some (.claim ..) => false
  | some _ => (s.copyPerform n q).sh n != s.sh n

/-- A claim instruction of shift n at issue: it stands in all four queues (11 R219). -/
def claimIssue (s : State) (d : R5) (op : ClaimOp) : Out := s.pushCpq 0xF (.claim s.joinId d s.cur.x op)

end State

/-- CPY (R84). -/
def execCpy (n : BitVec 2) (a b c : R5) (s : State) : Out := s.copyIssue .cpy n a b c
/-- CPYP (R85). -/
def execCpyp (n : BitVec 2) (a b c : R5) (s : State) : Out := s.copyIssue .cpyp n a b c
/-- CPFILL (R86). -/
def execCpfill (n : BitVec 2) (a c : R5) (s : State) : Out := s.copyIssue .cpfill n a a c
/-- CPQF (R87). -/
def execCpqf (m : BitVec 4) (s : State) : Out := s.pushCpq m (.join s.joinId m)
/-- CPYZ (R89). -/
def execCpyz (n : BitVec 2) (a b c : R5) (s : State) : Out := s.copyIssue .cpyz n a b c

/-- AWSET (R90), performed at issue (log 15): the word is checked like a store. -/
def execAwset (d a b : R5) (s : State) : Out :=
  s.usesG [a, b]
    (let p := (s.rdG a).toNat
     if p % 8 != 0 then .next (s.trapAt .align s.freeInfo)
     else
       let n := s.cur.shift
       let (v, e, _) := s.spRead n p 8
       if e then .next s.uceAt
       else
         let gen := v / 2 ^ 48
         .next ((s.spWrite n p 8 (fld (s.rdG b) 0 24 * 2 ^ 24 + gen * 2 ^ 48)).arriveNext d (.ofNat 64 gen)))

/-- CPST (R91). -/
def execCpst (d : R5) (n : BitVec 2) (s : State) : Out :=
  let l := s.me.cpq[n.toNat]?.getD []
  let act : Bool := match l.head? with
    | some (.cmd _ done) => done != 0
    | _ => false
  .next (s.wrG d (.ofNat 64 (l.length + act.toNat * 2 ^ 5 + (s.me.done[n.toNat]?.getD 0).toNat * 2 ^ 16)) 2)

/-- CLAPP (R69): the image is read at issue, at G[b] modulo 2^24 (the model's choice, log 88). It is none of the accesses that 05
R98 checks against the window. -/
def execClapp (d a b : R5) (s : State) : Out :=
  s.usesG [a, b]
    (let p := (s.rdG b).toNat
     if p % 16 != 0 then .next (s.trapAt .align s.freeInfo)
     else
       let o := p % spBytes
       let img : BitVec 128 := .ofNat 128 (memRead (s.gal s.myGal).sp o 16)
       if anyPois s.poisonS (spKey s.myGal o) 16 then .next s.uceAt
       else if xPos img != 0 || xTag img != 0 || xSh img || xRef img != 0 then
         .next (s.trapAt .layoutrsv (layoutInfo 7 1 rsvVal))
       else s.claimIssue d (.clapp (s.rdG a) img))

/-- CLSHR (R65, R69). -/
def execClshr (d a b c : R5) (s : State) : Out :=
  s.usesG [a, b, c] (s.claimIssue d (.clshr (s.rdG a) (s.rdG b) (s.rdG c)))
/-- SEAMTAG (R69). -/
def execSeamtag (d a b : R5) (s : State) : Out := s.usesG [a, b] (s.claimIssue d (.seamtag (s.rdG a) (s.rdG b)))
/-- SEAMRET (R69): a phase boundary in front of the retirement. -/
def execSeamret (d a b : R5) (m : BitVec 1) (s : State) : Out :=
  s.usesG [a, b] (s.atBoundary false false false fun t => t.claimIssue d (.seamret (s.rdG a) (s.rdG b) (m = 1)))
/-- HBUDG (R64, R69). -/
def execHbudg (d a b c : R5) (s : State) : Out :=
  s.usesG [a, b, c] (s.claimIssue d (.hbudg (s.rdG a) (s.rdG b) (s.rdG c)))

end Sys2Proof.Machine
end

