-- ==== Sys2Proof/Machine/Lanes.lean ====
section
/-! DEFINITION. Lanes of the vector registers and their operands (02 R35, R36; 06 R115, R116; 07 R132, R140; 08 R154-R157). -/

namespace Sys2Proof.Machine

/-! ### Elements (07 R132) -/

/-- Element k at format f of a register's data. -/
def getEl (f : Nat) (x : BitVec 2048) (k : Nat) : Nat :=
  if f = 6 then fld x (32 * (k / 5) + 6 * (k % 5)) 6 else fld x (fmtWidth f * k) (fmtWidth f)

/-- All elements of a register at format f. -/
def elems (f : Nat) (x : BitVec 2048) : List Nat := (List.range (elemCount f)).map (getEl f x)

/-- Numbers of w bits packed from the low end. -/
def packW (w : Nat) (l : List Nat) : Nat := l.foldr (fun e acc => e % 2 ^ w + 2 ^ w * acc) 0

/-- Register data from elements; bits [31:30] of a T6 word are 0. -/
def packEls (f : Nat) (l : List Nat) : BitVec 2048 :=
  if f = 6 then .ofNat 2048 (packW 32 ((List.range 64).map fun j => packW 6 ((l.drop (5 * j)).take 5)))
  else .ofNat 2048 (packW (fmtWidth f) l)

/-- Elements with the flags that each raised. -/
def withFlags (l : List (Nat × Flags)) : List Nat × Flags := (l.map Prod.fst, l.foldl (fun a p => a ||| p.2) 0)

/-- A computation that can end in a trap; an error carries the state after it. -/
abbrev Res (α : Type) := Except State α

/-- The outcome of a computation that ends in a state. -/
def Res.out (r : Res State) : Out :=
  match r with
  | .ok s => .next s
  | .error s => .next s

/-- Sel values of R36. -/
def selDiff (inner outer : Int) : Int := (BitVec.ofInt 32 (inner - outer)).toInt

namespace State

/-- The format code and mode of format slot f in the bundle's row (07 R147). -/
def slotFmt (s : State) (f : BitVec 3) : Nat := rowFmt s.cur.row f.toNat
def slotRm (s : State) (f : BitVec 3) : Nat := rowRm s.cur.row f.toNat

/-- An early refusal of a slot entry (07 R148). -/
def unsuitable (s : State) : Out := .next (s.illegalAt .opnd)

/-- The general and vector registers that an instruction consumes (08 R154). -/
def uses (s : State) (vs gs : List R5) : Res Unit :=
  if vs.any s.poisV || gs.any s.poisG then .error s.uceAt else .ok ()

/-! ### Coordinates (06 R115, R116) -/

/-- Coordinate d of element e of a register with map m. -/
def coordOf (s : State) (m : CMap) (e d : Nat) : Int :=
  if m.st = .indexed then
    let c := getEl m.fmt.toNat (s.rdV m.cmp).data e
    if c = 2 ^ m.width - 1 then absentCoord else m.coord c d
  else m.coord e d

/-- A coordinate read of register r at width w: its map, none in soft mode, or CMAPBRK. `tile` marks an accumulator
tile. -/
def readMapOf (s : State) (m : CMap) (r w : Nat) (tile : Bool) : Res (Option MapRead) :=
  if !m.live || m.width != w then
    if s.me.arch.c.cmapsoft then .ok none
    else .error (s.trapAt .cmapbrk (.ofNat 64 (r + (if tile then 32 else 0) + m.st.code * 64)))
  else if m.st = .indexed && s.poisV m.cmp then .error s.uceAt
  else .ok (some ⟨m, none⟩)

/-- A coordinate read of vr. Within a bound it gives undefined values and raises nothing (R116). -/
def readMap (s : State) (r : R5) (w : Nat) : Res (Option MapRead) :=
  if s.mapLate r then .ok (some ⟨(s.rdV r).map.readable w, some ((s.cur.slot * 32 + r.toNat) * 5000)⟩)
  else s.readMapOf (s.rdV r).map r.toNat w false

/-- Lin(e) of a map read (R115): none for an absent element. -/
def linOf (s : State) (r : MapRead) (e : Nat) : Option Nat :=
  match r.late with
  | some k =>
    if Config.freeBit s.freeN (200000 + k + 8 * e) then none else some (Config.freeElem s.freeN (200000 + k + 8 * e + 7)).toNat
  | none =>
    if r.map.st = .indexed then
      let i := getEl r.map.fmt.toNat (s.rdV r.map.cmp).data e
      if i = 2 ^ r.map.width - 1 then none else some i
    else some e

/-- Coordinate d of element e of a map read. -/
def coordAt (s : State) (m : Option MapRead) (e d : Nat) : Int :=
  match m with
  | none => absentCoord
  | some r => match r.late with
    | none => s.coordOf r.map e d
    | some k => (Config.freeElem s.freeN (200000 + k + 8 * e + d)).toInt

/-- The value of selector b for element e (R36). -/
def select (s : State) (m : Option MapRead) (b : R5) (e : Nat) : Int :=
  match m with
  | none => absentCoord
  | some r =>
    let c (d : Nat) : Int := s.coordAt m e d
    if (s.linOf r e).isNone then absentCoord
    else match b.toNat / 8 with
      | 0 => c (b.toNat % 8)
      | 1 => selDiff (c r.map.id.toNat) (c r.map.od.toNat)
      | 2 => selDiff (c r.map.od.toNat) (c r.map.id.toNat)
      | _ => (BitVec.ofInt 32 (selDiff (c r.map.id.toNat) (c r.map.od.toNat)).natAbs).toInt

/-! ### Operand B (02 R35, 08 R155) -/

/-- Whether operand B's kind suits format F (R155). -/
def kindFits (f : Nat) (k : BitVec 2) (b : R5) : Bool :=
  if f = 7 then k = 0 || k = 2 else if f = 9 then !(k = 3 && b.toInt < 0) else true

/-- The elements of operand B at format f; `src` is the register whose coordinates kind COORD reads. -/
def opB (s : State) (f : Nat) (k : BitVec 2) (b src : R5) : Res (List Nat × Flags) :=
  let n := elemCount f
  match k.toNat with
  | 0 => .ok (elems f (s.rdV b).data, 0)
  | 1 => do
    let m ← s.readMap src (fmtWidth f)
    pure (withFlags ((List.range n).map fun e => round f (.ofInt (s.select m b e)) 0 0))
  | 2 => .ok (List.replicate n ((s.rdG b).toNat % 2 ^ fmtWidth f), 0)
  | _ =>
    let (v, fl) := round f (.ofInt b.toInt) 0 0
    .ok (List.replicate n v, fl)

/-- Vector and general registers of operand B. -/
def bV (k : BitVec 2) (b : R5) : List R5 := if k = 0 then [b] else []
def bG (k : BitVec 2) (b : R5) : List R5 := if k = 2 then [b] else []

/-! ### Stochastic rounding (07 R140) -/

/-- The random bits of each destination element under mode rm, for a destination whose map m comes from the maps of the registers
`from_`. Where one of them was read within its bound the coordinates are undefined and nothing is raised (06 R116). -/
def randomBits (s : State) (from_ : List R5) (d : R5) (m : CMap) (f rm : Nat) (stream : BitVec 8) : Res (Nat → Nat) :=
  if rm < 4 then .ok fun _ => 0
  else do
    let r ← if from_.any s.mapLate then .ok (some ⟨m, some ((s.cur.slot * 32 + d.toNat) * 5000)⟩)
      else s.readMapOf m d.toNat (fmtWidth f) false
    let c (e j : Nat) : BitVec 32 := .ofInt 32 (s.coordAt r e j)
    pure fun e => (noise s.me.arch.c.nkey (c e 0) (c e 1) (c e 2) (c e 3) stream).toNat

/-! ### Results -/

/-- vd := elements at format f with map m, and the slot's flags. -/
def vres (s : State) (d : R5) (f : Nat) (r : List Nat × Flags) (m : CMap) (lat : Nat) : State :=
  (s.wrV d (packEls f r.1) m lat).wrFlags r.2 lat

/-- Mask registers written from base (08 R157). -/
def maskRes (s : State) (base : R5) (bits : List Bool) (lat : Nat) : State :=
  (List.range ((bits.length + 63) / 64)).foldl
    (fun t i => t.wrG (base + .ofNat 5 i)
      (.ofNat 64 (packW 1 (((bits.drop (64 * i)).take 64).map fun b => if b then 1 else 0))) lat) s

/-- Mask bit e from base; registers past g31 read as 0 (08 R157, R162). -/
def maskBit (s : State) (base : R5) (e : Nat) : Bool :=
  if 31 < base.toNat + e / 64 then false else (s.rdG (base + .ofNat 5 (e / 64))).getLsbD (e % 64)

/-- The mask registers of n elements that exist. -/
def maskSrc (base : R5) (n : Nat) : List R5 :=
  ((List.range ((n + 63) / 64)).filter fun i => base.toNat + i ≤ 31).map fun i => base + .ofNat 5 i

/-- Whether the mask registers of n elements fit (R157). -/
def maskFits (base : R5) (n : Nat) : Bool := base.toNat + (n + 63) / 64 ≤ 32

end State

end Sys2Proof.Machine
end

