-- ==== Sys2Proof/Machine/Front.lean ====
section
/-! DEFINITION. Front accumulators, class 11 (10_front_accumulators R204-R218). The insertion engine performs an
instruction within its bundle; its flags land within its bound. -/

namespace Sys2Proof.Machine

/-! ### Configuration (R205, R206) -/

namespace Front

def nobj (f : Front) : Nat := fld f.cfg 0 2 + 1
def dir (f : Front) (k : Nat) : Bool := fld f.cfg (2 + k) 1 = 1
def ena (f : Front) (k : Nat) : Bool := fld f.cfg (6 + k) 1 = 1
def isI32 (f : Front) : Bool := fld f.cfg 10 1 = 1
def cap (f : Front) : Nat := fld f.cfg 11 7
def ovf (f : Front) : Nat := fld f.cfg 18 3
def keepAll (f : Front) : Bool := fld f.cfg 21 1 = 1
def spill (f : Front) : Nat := fld f.cfg 22 24

end Front

/-- A valid configuration (R206). -/
def frontCfgOk (c : Word64) : Bool :=
  let n := fld c 0 2 + 1
  fld c 46 18 = 0 && 1 ≤ fld c 11 7 && fld c 11 7 ≤ 64 && fld c 18 3 ≤ 4 && fld c 6 4 != 0
    && fld c 6 4 / 2 ^ n = 0 && fld c 2 4 / 2 ^ n = 0 && (fld c 18 3 != 4 || fld c 22 24 % 64 = 0)

/-! ### Dominance (R207) -/

namespace Front

/-- The value of an objective. -/
def val (f : Front) (x : BitVec 32) : Num := if f.isI32 then .ofInt x.toInt else decodeFloat 0 x.toNat

/-- How objective k of a compares with that of b: positive when a is better, 0 when equal. -/
def cmp (f : Front) (k : Nat) (a b : FTuple) : Int :=
  let c := cmpNum (f.val (a.obj[k]?.getD 0)) (f.val (b.obj[k]?.getD 0))
  if f.dir k then c else -c

/-- The enabled objectives. -/
def keys (f : Front) : List Nat := (List.range f.nobj).filter f.ena

def dominates (f : Front) (a b : FTuple) : Bool :=
  f.keys.all (fun k => decide (0 ≤ f.cmp k a b)) && f.keys.any fun k => decide (0 < f.cmp k a b)

def equals (f : Front) (a b : FTuple) : Bool := f.keys.all fun k => f.cmp k a b = 0

/-- The held tuple least good in objective 0, the oldest among equals. -/
def worst (f : Front) : List FTuple → Option FTuple
  | [] => none
  | t :: r => some (r.foldl (fun b x => if f.cmp 0 x b < 0 then x else b) t)

/-- A tuple entered as the youngest. -/
def enter (f : Front) (l : List FTuple) (t : FTuple) : Front := { f with tuples := l ++ [{ t with age := f.age }], age := f.age + 1 }

end Front

/-! ### Images (R218) -/

/-- A tuple from its record's words. -/
def tupleOf (w0 w1 w2 : Nat) : FTuple :=
  ⟨#v[.ofNat 32 w0, .ofNat 32 (w0 / 2 ^ 32), .ofNat 32 w1, .ofNat 32 (w1 / 2 ^ 32)], .ofNat 32 w2, .ofNat 32 (w2 / 2 ^ 32)⟩

/-- The reason that word k of an image fails with, for a header f of that image. -/
def imageWord (f : Front) (count k w : Nat) : Nat :=
  let objBad (i : Nat) : Bool :=
    let x : BitVec 32 := .ofNat 32 (w / 2 ^ (32 * (i % 2)))
    if f.nobj ≤ i then x != 0 else f.ena i && !f.isI32 && (f.val x).isNan
  if k = 0 then (if w != 0 && !frontCfgOk f.cfg then rsvVal else 0)
  else if k = 1 then (if (if f.cfg = 0 then count != 0 else decide (f.cap < count)) then rangeBad else 0)
  else if k < 8 then (if w != 0 then rsvBit else 0)
  else match k % 4 with
    | 0 => if objBad 0 || objBad 1 then rangeBad else 0
    | 1 => if objBad 2 || objBad 3 then rangeBad else 0
    | 3 => if w != 0 then rsvBit else 0
    | _ => 0

namespace State

def front (s : State) (k : Nat) : Front := s.me.arch.fronts[k]?.getD .empty
def setFront (s : State) (k : Nat) (f : Front) : State :=
  s.modArch fun a => { a with fronts := a.fronts.setIfInBounds k f }

/-- A front that the shift is allotted (06 R112). -/
def frontOp (s : State) (l : List (BitVec 2)) (k : Out) : Out :=
  if l.any fun x => s.me.k.nf.toNat ≤ x.toNat then .next (s.illegalAt .opnd)
  else if l.any fun x => (s.front x.toNat).pois then .next s.uceAt
  else k

/-- ILLEGAL (OPND) by the state of a front. -/
def frontBad (s : State) : State := s.trapAt .illegal (.ofNat 64 Illegal.opnd.code)

/-! ### The spill ring (R209) -/

/-- SpillWrite: the accesses are the issuing shift's, each checked (05 R98). -/
def spillWrite (s : State) (f : Front) (t : FTuple) : State :=
  let n := s.cur.shift
  let p := f.spill
  let (nr, e0, s1) := s.spRead n (p + 8) 4
  let (wi, e1, s2) := s1.spRead n (p + 12) 4
  let s3 := s2.spWrite n (p + 64 + 32 * (wi % (if nr = 0 then 1 else nr))) 32 (packWords (tupleWords { t with age := f.age }))
  let s4 := s3.spWrite n (p + 12) 4 ((wi + 1) % 2 ^ 32)
  let (aw, e2, s5) := s4.spRead n p 8
  let s6 := s5.spPokeOk n p (arrivalAdd (.ofNat 64 aw) 32).toNat 8
  if e0 || e1 || e2 then s6.memFault n ⟨.uce, s.cur.x, .ofNat 4 s.cur.slot, s.freeInfo, 0⟩ else s6

/-! ### Insertion (R208) -/

/-- The held tuples without the one that WORST0 removes. Which goes is open where objective 0 of a held tuple is a NaN,
which only an objective that is not enabled can be (DESIGN CHOICE, log 33). -/
def displace (s : State) (f : Front) (l : List FTuple) : List FTuple :=
  if !f.isI32 && l.any fun h => (f.val (h.obj[0]?.getD 0)).isNan then
    l.eraseIdx ((Config.freeWord s.freeN (2 ^ 40 + 8 * f.age.toNat + s.cur.slot)).toNat % l.length)
  else match f.worst l with
    | some w => l.erase w
    | none => l

/-- One arrival into a front: the state with its spill writes, the front, NV; none when the policy TRAP meets a full
front. -/
def insert (s : State) (f : Front) (t : FTuple) : Option (State × Front × Bool) :=
  if !f.isI32 && f.keys.any fun k => (f.val (t.obj[k]?.getD 0)).isNan then some (s, f, true)
  else if f.tuples.any fun h => f.dominates h t then some (s, f, false)
  else if !f.keepAll && f.tuples.any fun h => f.equals h t then some (s, f, false)
  else
    let l := f.tuples.filter fun h => !f.dominates t h
    if l.length = f.cap then
      match f.ovf with
      | 0 => some (s, { f with tuples := l }, false)
      | 1 => some (s, f.enter (l.drop 1) t, false)
      | 2 => some (s, f.enter (s.displace f l) t, false)
      | 3 => none
      | _ => some (s.spillWrite f t, { f with tuples := l, age := f.age + 1 }, false)
    else some (s, f.enter l t, false)

/-- Arrivals in order, each with the number by which FRONTOVF names it. -/
def insertAll (s : State) (f : Front) (nv : Bool) : List (Nat × FTuple) → Except Nat (State × Front × Bool)
  | [] => .ok (s, f, nv)
  | (i, t) :: r =>
    match s.insert f t with
    | none => .error i
    | some (s1, f1, b) => s1.insertAll f1 (nv || b) r

/-- Arrivals into front k of the issuing shift (R210). -/
def insertInto (s : State) (k : BitVec 2) (l : List (Nat × FTuple)) : Out :=
  match s.insertAll (s.front k.toNat) false l with
  | .error i => .next (s.trapAt .frontovf (.ofNat 64 (i + k.toNat * 256)))
  | .ok (s1, f, nv) => .next ((s1.setFront k.toNat f).wrFlags (flagIf nv flagNV) 70)

/-- Bytes read 64 at a time. -/
def readBlocks (s : State) (off : Nat) : Nat → Nat → Nat × Bool × State
  | 0, _ => (0, false, s)
  | fuel + 1, len =>
    if len = 0 then (0, false, s)
    else
      let m := min len 64
      let (v, p, s1) := s.spRead s.cur.shift off m
      let (r, q, s2) := s1.readBlocks (off + m) fuel (len - m)
      (v + 2 ^ (8 * m) * r, p || q, s2)

/-- Bytes written 64 at a time. -/
def writeBlocks (s : State) (off : Nat) : Nat → Nat → Nat → State
  | 0, _, _ => s
  | fuel + 1, len, v =>
    if len = 0 then s
    else
      let m := min len 64
      (s.spWrite s.cur.shift off m v).writeBlocks (off + m) fuel (len - m) (v / 2 ^ (8 * m))

end State

/-- FCFG (R213). -/
def execFcfg (n : BitVec 2) (a : R5) (s : State) : Out :=
  if s.me.k.nf.toNat ≤ n.toNat then .next (s.illegalAt .opnd)
  else s.usesG [a]
    (if frontCfgOk (s.rdG a) then .next (s.setFront n.toNat ⟨s.rdG a, [], 0, false⟩) else .next s.frontBad)

/-- FINS (R214): x = 1 is `.crd`. -/
def execFins (x : BitVec 1) (n : BitVec 2) (a b c : R5) (s : State) : Out :=
  s.frontOp [n]
    (let f := s.front n.toNat
     if f.cfg = 0 || 31 < a.toNat + f.nobj - 1 then .next s.frontBad
     else
       let regs := (List.range f.nobj).map fun k => a + .ofNat 5 k
       match (do
         s.uses (if x = 1 then regs else regs ++ [b]) [c]
         let m ← if x = 1 then s.readMap a 32 else pure none
         let el (r : R5) (e : Nat) : BitVec 32 := .ofNat 32 (getEl 0xB (s.rdV r).data e)
         let pay (e : Nat) : Option (BitVec 32) :=
           if x = 0 then some (el b e)
           else match m with
             | none => some 0x80000000
             | some q => (s.linOf q e).map (.ofNat 32)
         pure (((List.range 64).filter fun e => (s.rdG c).getLsbD e).filterMap fun e => (pay e).map fun p =>
           (e, (⟨Vector.ofFn fun (k : Fin 4) => if k.val < f.nobj then el (a + .ofNat 5 k.val) e else 0, p, 0⟩ : FTuple)))
         : Res (List (Nat × FTuple))) with
       | .error e => .next e
       | .ok l => s.insertInto n l)

/-- FMERGE (R215). -/
def execFmerge (n m : BitVec 2) (s : State) : Out :=
  if n = m then .next (s.illegalAt .opnd)
  else s.frontOp [n, m]
    (let f := s.front n.toNat
     let g := s.front m.toNat
     if f.cfg = 0 || g.cfg = 0 || fld f.cfg 0 22 != fld g.cfg 0 22 then .next s.frontBad
     else s.insertInto n (g.tuples.zipIdx.map fun p => (p.2, p.1)))

/-- FREAD (R216). -/
def execFread (d : R5) (n : BitVec 2) (s : State) : Out :=
  s.frontOp [n]
    (let f := s.front n.toNat
     if f.cfg = 0 || 31 < d.toNat + f.nobj then .next s.frontBad
     else
       let col (g : FTuple → BitVec 32) : BitVec 2048 := packEls 0xB (f.tuples.map fun t => (g t).toNat)
       .next ((List.range (f.nobj + 1)).foldl
         (fun t k => t.wrV (d + .ofNat 5 k) (col fun u => if k < f.nobj then u.obj[k]?.getD 0 else u.pay) .none 8) s))

/-- FCNT (R217). -/
def execFcnt (d : R5) (n : BitVec 2) (s : State) : Out :=
  s.frontOp [n]
    (let f := s.front n.toNat
     .next (s.wrG d (if f.cfg = 0 then 0 else f.age ++ BitVec.ofNat 32 f.tuples.length) 2))

/-- FCLR (R217). -/
def execFclr (n : BitVec 2) (s : State) : Out :=
  if s.me.k.nf.toNat ≤ n.toNat then .next (s.illegalAt .opnd)
  else .next (s.setFront n.toNat { s.front n.toNat with tuples := [], age := 0, pois := false })

/-- FSAVE (R218). -/
def execFsave (n : BitVec 2) (b : R5) (s : State) : Out :=
  s.frontOp [n] (s.usesG [b]
    (let p := (s.rdG b).toNat
     let f := s.front n.toNat
     if p % 64 != 0 then .next (s.trapAt .align s.freeInfo)
     else s.lsOrdered fun s1 =>
       let img := if f.cfg = 0 then List.replicate 8 0 else f.image
       .next (s1.writeBlocks p 34 (8 * img.length) (packWords img))))

/-- FLOAD (R218). One that traps LAYOUTRSV leaves no record of a violation (log 104). -/
def execFload (n : BitVec 2) (b : R5) (s : State) : Out :=
  if s.me.k.nf.toNat ≤ n.toNat then .next (s.illegalAt .opnd)
  else s.usesG [b]
    (let p := (s.rdG b).toNat
     if p % 64 != 0 then .next (s.trapAt .align s.freeInfo)
     else s.lsOrdered fun s1 =>
       let (hv, e0, s2) := s1.readBlocks p 1 64
       let hd : Front := ⟨.ofNat 64 hv, [], .ofNat 32 (hv / 2 ^ 96), false⟩
       let count := hv / 2 ^ 64 % 2 ^ 32
       let early := (List.range 8).findSome? fun k =>
         let v := imageWord hd count k (hv / 2 ^ (64 * k) % 2 ^ 64)
         if v = 0 then none else some (k, v)
       if e0 then .next s2.uceAt
       else match early with
       | some (k, v) => .next (s1.trapAt .layoutrsv (layoutInfo 6 k v))
       | none =>
         let (rv, e1, s3) := s2.readBlocks (p + 64) 33 (32 * count)
         let w (k : Nat) : Nat := rv / 2 ^ (64 * k) % 2 ^ 64
         if e1 then .next s3.uceAt
         else match (List.range (4 * count)).findSome? (fun k =>
             let v := imageWord hd count (8 + k) (w k)
             if v = 0 then none else some (8 + k, v)) with
         | some (k, v) => .next (s1.trapAt .layoutrsv (layoutInfo 6 k v))
         | none => .next (s3.setFront n.toNat { hd with
             tuples := (List.range count).map fun i => tupleOf (w (4 * i)) (w (4 * i + 1)) (w (4 * i + 2)) }))

end Sys2Proof.Machine
end

