-- ==== Sys2Proof/Machine/Syn.lean ====
section
/-! DEFINITION. Synchronisation, class 12 (11 R232, R233; 04 R92; 13 R264, R275-R283): boundaries, fences, waits,
barriers, stage queues, time. -/

namespace Sys2Proof.Machine

namespace State

/-! ### Fences (11 R233) -/

/-- Whether what a FENCE waits for has come about. COMMIT writes M at once, so no earlier COMMIT is outstanding. -/
def fenceDone (s : State) (n : Nat) (f : FenceSt) : Bool :=
  let x := s.sh n
  let sc := f.scope.toNat
  x.lsq.all (fun e => decide (f.bundle < e.bundle)) && (Shift.mxLive x).all (fun e => decide (f.bundle < e.bundle))
    && x.cpq.toList.flatten.all fun e => match e with
      | .cmd c _ => decide (f.bundle < c.bundle)
          || (if c.kind = .cpyp then decide (sc < 4) else if c.gated then decide (sc < 2) else false)
      | _ => true

/-- A FENCE of shift n completes: the status word is delivered and cleared, covered refusals too. -/
def endFence (s : State) (n : Nat) (f : FenceSt) (tmo : Bool) : State :=
  let x := s.sh n
  let cov := x.grantPend.any fun g => decide (g.2 ≤ f.bundle)
  let w := ({ x.status with grant := x.status.grant || cov } : FStatus).word tmo
  (s.modSh n fun y => { y with
    fences := y.fences.erase f
    status := .clear
    grantPend := y.grantPend.filter fun g => decide (f.bundle < g.2) }).arriveG n f.d w false

/-- FENCEs of shift n that are done complete. -/
def settleFences (s : State) (n : Nat) : State :=
  (s.sh n).fences.foldl (fun t f => if t.fenceDone n f then t.endFence n f false else t) s

/-- Whether the time of a FENCE of shift n has run out. -/
def fenceLate (s : State) (n : Nat) : Option FenceSt :=
  let x := s.sh n
  if x.k.fencetmo = 0 then none else x.fences.find? fun f => x.k.fencetmo.toNat ≤ f.waited

/-- FENCE_TIMEOUT for shift n. -/
def fenceTimeout (s : State) (n : Nat) : State := match s.fenceLate n with
  | some f => s.endFence n f true
  | none => s

/-! ### Reports (05 R99) -/

/-- The report of a violation at a barrier that is no boundary. -/
def reportViol (s : State) : Option TrapRec :=
  let kind := fld s.me.k.spfault 32 2
  -- nothing in compatibility mode (R100)
  if kind = 0 || s.me.k.compat then none else some ⟨if kind = 1 then .guard else .spwin, s.cur.x, s.freeSlot, s.me.k.spfault, 0⟩

/-- A report raised at an AWAIT: the record is cleared once it is reported, not where a memory fault comes in its place
(14 R287). -/
def reportAt (s : State) (r : TrapRec) : State :=
  let n := s.cur.shift
  if (((s.landAll n).completeLsq n).sh n).memTrap.isSome then s.raise r false else (s.clearReport n r.cause).raise r false

/-! ### Queues (13 R264, R277, R278) -/

/-- A QUEUE trap. -/
def queueTrap (s : State) (sub : Nat) (q : R5) : Out := .next (s.trapAt .queue (.ofNat 64 (sub + q.toNat * 256)))

/-- The stage of the issuing shift. -/
def myStage (s : State) : Option Nat := s.me.bound.map Prod.snd

/-- Whether some shift of the gallery holds a close of queue q pending, a pre-empted one among them. -/
def closePending (s : State) (q : Nat) : Bool :=
  ((List.range 32).any fun k => (s.sh (s.myGal * 32 + k)).closePend.contains q)
    || s.saved.any fun v => v.at_ / 32 = s.myGal && v.sh.closePend.contains q

/-- A stage queue for a use that the stage may make of it. -/
def withQueue (s : State) (q : R5) (side : QueueDecl → Option Nat) (k : QueueDecl → Out) : Out :=
  match s.queueDecl s.cur.shift q.toNat with
  | none => s.queueTrap 1 q
  | some d => if (side d).isNone || side d != s.myStage then s.queueTrap 2 q else k d

/-- The oldest READY slot of a queue. -/
def oldestReady (s : State) (g q : Nat) (d : QueueDecl) : Option QSlot :=
  let age (x : QSlot) : Nat := (x.idx.toNat + 2 ^ 32 - s.qHead g d) % 2 ^ 32
  match s.slotsIn g q .ready with
  | [] => none
  | x :: r => some (r.foldl (fun a b => if age b < age a then b else a) x)

/-- 64 bytes copied within the gallery as the shift's accesses, poison with them (R277). -/
def copySlot (s : State) (src dst : Nat) : State :=
  let n := s.cur.shift
  let (v, p, s1) := s.spRead n src 64
  let s2 := s1.spWrite n dst 64 v
  if p && (s2.firstViol n ((List.range 64).map (dst + ·))).isNone then
    { s2 with poisonS := setPois s2.poisonS (spKey s.myGal dst) 64 }
  else s2

/-- A close becomes pending for the shift's next boundary. -/
def addClose (s : State) (q : Nat) : State := s.modMe fun x => { x with closePend := x.closePend ++ [q] }

/-! ### Barriers (R275, R276) -/

/-- The SEQ of the launch whose device barriers shift n meets (R275). -/
def bardKey (s : State) (n : Nat) : Nat := match (s.sh n).bound with
  | some (q, _) => q.toNat
  | none => 0

/-- The device barriers of a launch. -/
def bardOf (s : State) (seq : Nat) : Vector Barrier 4 := lget s.bard seq (Vector.replicate 4 .empty)

/-- A barrier as shift n meets it: of its gallery, or of its launch's device barriers. -/
def barrier (s : State) (n : Nat) (dev : Bool) (b : BitVec 2) : Barrier :=
  if dev then (s.bardOf (s.bardKey n))[b.toNat]?.getD .empty else (s.gal (n / 32)).barg[b.toNat]?.getD .empty

def setBarrier (s : State) (n : Nat) (dev : Bool) (b : BitVec 2) (x : Barrier) : State :=
  if dev then { s with bard := lput s.bard (s.bardKey n) ((s.bardOf (s.bardKey n)).setIfInBounds b.toNat x) }
  else s.setGal (n / 32) { s.gal (n / 32) with barg := (s.gal (n / 32)).barg.setIfInBounds b.toNat x }

/-- The saved context that stands under a number beyond the shifts'. -/
def savedAs (s : State) (m : Nat) : Option Saved := s.saved.find? fun v => v.vid = m

/-- In an assay launch, the number under which the other copy of an arrival stands and whether this one is the primary's. -/
def arrivalPair (s : State) (m : Nat) : Option (Nat × Bool) :=
  match s.savedAs m with
  | none => s.assayPair m
  | some v => match s.launches.find? fun l => l.seq = v.seq with
    | none => none
    | some l =>
      if !l.assay then none
      else
        let prim : Bool := decide (v.row < 32 * l.ngal)
        let row := if prim then v.row + 32 * l.ngal else v.row - 32 * l.ngal
        some (((s.saved.find? fun w => w.seq = v.seq && w.row = row).map Saved.vid).getD m, prim)

/-- The arrivals that count: in an assay launch, the primary's once both copies have arrived (R273). `n` arrives itself, `t`
is its twin. -/
def counted (s : State) (n : Nat) (dev : Bool) (b : BitVec 2) (l : List Nat) : Nat :=
  let other : List Nat := match s.assayPair n with
    | none => []
    | some (m, _) => if dev then l else (s.barrier m dev b).arrivals
  (l.filter fun k => match s.arrivalPair k with
    | none => true
    | some (m, primary) => (primary || !dev) && other.contains m).length

/-- Every arrival of a barrier is released, and it is empty again. -/
def releaseBarrier (s : State) (n : Nat) (dev : Bool) (b : BitVec 2) : State :=
  let x := s.barrier n dev b
  let free (y : Shift) : Shift := { y with barr := some true }
  let step (t : State) (m : Nat) : State :=
    if (t.savedAs m).isSome then
      { t with saved := t.saved.map fun v => if v.vid = m then { v with sh := free v.sh } else v }
    else t.modSh m free
  (x.arrivals.foldl step s).setBarrier n dev b .empty

/-- Shift n arrives; the last arrival releases all, in an assay launch those of the twin gallery with them. -/
def arriveBarrier (s : State) (n : Nat) (dev : Bool) (b : BitVec 2) (c : Nat) : State :=
  let old := s.barrier n dev b
  let x : Barrier := ⟨if old.arrivals.isEmpty then c else old.count, old.arrivals ++ [n]⟩
  let s1 := (s.setBarrier n dev b x).modSh n fun y => { y with barr := some false }
  let full : Bool := x.count ≤ s1.counted n dev b x.arrivals
  if !full then s1
  else
    let s2 := s1.traceSh n 0x04 4 0 [(if dev then 4 else 0) + b.toNat, x.count, x.arrivals.length]
    let s3 := s2.releaseBarrier n dev b
    match s.assayPair n with
    | some (m, _) => if dev then s3 else s3.releaseBarrier m dev b
    | none => s3

/-- BARG and BARD (R276). -/
def barrierOp (s : State) (a : R5) (dev : Bool) (b : BitVec 2) : Out :=
  s.usesG [a]
    (let c := fld (s.rdG a) 0 16
     let n := s.cur.shift
     if c = 0 || (if dev then 2044 else 32) < c then .next (s.trapAt .queue (.ofNat 64 (4 + b.toNat * 256)))
     else s.atBoundary true false false fun t =>
       match t.me.barr with
       | some true => .next (t.modMe fun y => { y with barr := none })
       | some false => .next (t.blockAt .barrier)
       | none =>
         let old := t.barrier n dev b
         if !old.arrivals.isEmpty && old.count != c then .next (t.setAfter (.barMis 5 b))
         else
           let t1 := t.arriveBarrier n dev b c
           if t1.me.barr = some true then .next (t1.modMe fun y => { y with barr := none })
           else .next (t1.blockAt .barrier))

/-! ### Arrival words (04 R92) -/

/-- GEN of the word at off as an AWAIT of shift n sees it, and whether the word is poisoned. -/
def awaitGen (s : State) (n off : Nat) (zero : Bool) : Nat × Bool :=
  if zero then (0, false)
  else (memRead (s.gal (n / 32)).sp (off + 6) 2, anyPois s.poisonS (spKey (n / 32) off) 8)

/-! ### The end of a wait (13 R259) -/

/-- Whether what a blocked shift waits for has come about. -/
def canWake (s : State) (n : Nat) : Bool :=
  let x := s.sh n
  let g := n / 32
  if x.st != .blocked || x.memTrap.isSome then false
  else match x.blockOn with
    | none => true
    | some (.cpq m) => (List.range 4).all fun q => !m.getLsbD q || decide ((x.cpq[q]?.getD []).length < 16)
    | some (.await off gen zero) => decide ((s.awaitGen n off.toNat zero).1 ≠ gen.toNat) || (s.awaitGen n off.toNat zero).2
    | some (.regs gs) => gs.all fun r => !x.pendingG.contains r
    | some (.boundary cp) => (match x.bndSt with
      | .waiting .. => false
      | .committing .. => !s.commitRest n
      | .resuming _ => !s.commitRest n
      | _ => !s.boundaryWaits n cp)
    | some .seam => x.cpq.toList.flatten.all fun e => match e with
      | .claim _ _ _ (.seamret ..) => false
      | _ => true
    | some (.mwait k) => x.mxFault.isSome || decide ((Shift.mxLive x).length ≤ k)
    | some (.deq q) => match s.queueDecl n q with
      | none => true
      | some d => !(s.slotsIn g q .ready).isEmpty || (s.qClosed g d && (s.slotsIn g q .rsvd).isEmpty)
    | some (.enq q) => match s.queueDecl n q with
      | none => true
      | some d => decide (s.qOcc g d < d.cap)
    | some (.sleep u) => decide (u ≤ s.gtc.toNat)
    | some .barrier => x.barr = some true

end State

/-- PHASE (R232). -/
def execPhase (s : State) : Out := s.atBoundary true false false fun t => .next t

/-- FENCE (R233): its result is interlocked; it completes when what it covers is done. -/
def execFence (d : R5) (e : BitVec 3) (s : State) : Out :=
  .next (s.modMe fun x => { x with fences := x.fences ++ [⟨d, e, s.cur.bundle, 0⟩] })

/-- AWAIT (04 R92). -/
def execAwait (a b : R5) (s : State) : Out :=
  s.usesG [a, b]
    (let p := (s.rdG a).toNat
     let gen : BitVec 16 := (s.rdG b).setWidth 16
     let n := s.cur.shift
     if p % 8 != 0 then .next (s.trapAt .align s.freeInfo)
     else match s.reportViol with
       | some r => .next (s.reportAt r)
       | none =>
         let zero := s.me.awaiting.getD (s.firstViol n ((List.range 8).map (p + ·))).isSome
         let s1 := s.awaitSeen a
         let (g, pois) := s1.awaitGen n p zero
         if pois then .next s1.uceAt
         else if g = gen.toNat then
           .next ((s1.modMe fun x => { x with awaiting := some zero }).blockAt (.await (.ofNat 24 p) gen zero))
         else .next s1)

/-- BARG (R276). -/
def execBarg (a : R5) (n : BitVec 2) (s : State) : Out := s.barrierOp a false n
/-- BARD (R276). -/
def execBard (a : R5) (n : BitVec 2) (s : State) : Out := s.barrierOp a true n

/-- ENQ (R277): x = 1 is `.close`. -/
def execEnq (n a : R5) (x : BitVec 1) (s : State) : Out :=
  s.usesG [a] (s.withQueue n QueueDecl.prod fun d =>
    let g := s.myGal
    let q := n.toNat
    let p := (s.rdG a).toNat
    if s.qClosed g d || s.closePending q then s.queueTrap 3 n
    else if x = 1 && a = 0 then .next (s.addClose q)
    else if p % 64 != 0 then .next (s.trapAt .align s.freeInfo)
    else if s.qOcc g d = d.cap then .next (s.blockAt (.enq q))
    else s.lsOrdered fun s1 =>
      let i := s1.qRes g d
      let s2 := s1.cbWrite g d 12 4 ((i + 1) % 2 ^ 32)
      let s3 := s2.modSlots g fun l => l ++ [⟨q, .ofNat 32 i, .rsvd, s.cur.shift, s.cur.bundle⟩]
      let s4 := s3.copySlot p (State.slotOff d i)
      .next (if x = 1 then s4.addClose q else s4))

/-- DEQ (R278). -/
def execDeq (d n : R5) (s : State) : Out :=
  s.withQueue n QueueDecl.cons fun q =>
    let g := s.myGal
    let fin (t : State) (v : Word64) : Out :=
      .next ((t.modMe fun x => { x with task := x.task.map fun k => { k with deqd := true } }).arriveNext d v)
    match s.oldestReady g n.toNat q with
    | some x =>
      let s1 := (s.modSlots g fun l => l.map fun y =>
        if y = x then { y with st := .taken, owner := s.cur.shift, bundle := s.cur.bundle } else y).refreshQ g n.toNat q
      fin s1 (.ofNat 64 (State.slotOff q x.idx.toNat))
    | none =>
      if s.qClosed g q && (s.slotsIn g n.toNat .rsvd).isEmpty then fin s (BitVec.allOnes 64)
      else .next (s.blockAt (.deq n.toNat))

/-- What the commit at a RETIRE's boundary has brought to report, before its own effects: a violation, of a command that it
wrote, or a store or element that failed (05 R99, 11 R224). -/
def State.retireCause (s : State) : Option TrapRec :=
  if s.me.bndSt = .taken then s.boundaryCause s.cur.shift s.cur.x true true else none

/-- RETIRE (R279): the task ends when its bundle has issued. -/
def execRetire (s : State) : Out := s.atBoundary true true true fun t =>
  match t.retireCause with
  | some r => .next ((t.clearReport t.cur.shift r.cause).raise r false)
  | none => .next (t.setAfter .retire)

/-- YIELD (R280). -/
def execYield (s : State) : Out := .next (s.setAfter .yield)

/-- SLEEPT (R283). -/
def execSleept (a : R5) (s : State) : Out :=
  s.usesG [a]
    (let u := ((s.rdG a).toNat + 99) / 100 * 100
     if s.gtc.toNat < u then .next (s.blockAt (.sleep u)) else .next s)

/-- TIME (R282). -/
def execTime (d : R5) (s : State) : Out := .next (s.wrG d s.gtc 2)

end Sys2Proof.Machine
end

