-- ==== Sys2Proof/Machine/Sys.lean ====
section
/-! DEFINITION. The system instructions, class 13 (14 R300-R306; 07 R149; 02 R39): software traps and returns, CSR
access, random numbers, the format table, the portable guard, slot flags, NOP. -/

namespace Sys2Proof.Machine

/-! ### CSR numbers (14 R302 and the chapters that define them) -/

/-- Whether a chapter assigns the number. -/
def csrKnown (c : Nat) : Bool :=
  decide (c ≤ 7) || c = 0x10 || c = 0x11 || (decide (0x20 ≤ c) && decide (c ≤ 0x25))
    || (decide (0x30 ≤ c) && decide (c ≤ 0x35)) || (decide (0x40 ≤ c) && decide (c ≤ 0x49)) || c = 0x60 || c = 0x61
    || c = 0x100 || c = 0x101 || c = 0x102 || (decide (0x111 ≤ c) && decide (c ≤ 0x11F))
    || (decide (0x120 ≤ c) && decide (c ≤ 0x124)) || (decide (0x130 ≤ c) && decide (c ≤ 0x135))
    || (decide (0x140 ≤ c) && decide (c ≤ 0x143)) || c = 0x180

/-- The CSRs that are wholly read-only: ctx.spc (R291), dev.oldphase, dev.health (15 R316), and the counts that only
the device writes (13 R270). -/
def csrReadOnly (c : Nat) : Bool := c = 4 || c = 0x60 || c = 0x61 || c = 0x123 || c = 0x133 || c = 0x135

/-- The user-readable CSRs that only supervisor code writes (05 R98, R112, R303). -/
def csrSupWrite (c : Nat) : Bool := c = 0x23 || c = 0x25 || c = 0x30 || c = 0x31 || c = 0x32

/-- The word of dev.health (15 R316). -/
def Health.word (h : Health) : Word64 :=
  let link : Bool := !h.dead.isEmpty || !h.degraded.isEmpty
  let state := if h.replace then 2
    else if link || h.hold || h.rngBad || decide (h.degTh.toNat ≤ h.ce.toNat) then 1 else 0
  .ofNat 64 (h.ce.toNat * 2 ^ 32 + link.toNat * 2 ^ 10 + h.hold.toNat * 2 ^ 9 + h.rngBad.toNat * 2 ^ 8 + state)

/-- ctx.status (R291). -/
def KCsr.status (k : KCsr) : Word64 :=
  .ofNat 64 (k.nr.toNat * 16 + k.pport.toNat * 8 + k.inh.toNat * 4 + k.ppriv.toNat * 2 + k.priv.toNat)

namespace State

/-- dev.oldphase (03 R67): the start of the oldest phase that a task still has open, pre-empted ones among them. -/
def oldPhase (s : State) : Word64 :=
  let live := s.shifts.filterMap fun p => if p.2.task.isSome then some p.2.phaseStart else none
  let kept := s.saved.map fun v => v.sh.phaseStart
  (live ++ kept).foldl (fun a b => if b.toNat < a.toNat then b else a) s.gtc

/-- The value of CSR c as shift n reads it. The word of sys.shpinv is not given: a free value. -/
def csrGet (s : State) (n c : Nat) : Word64 :=
  let x := s.sh n
  let k := x.k
  let r := x.arch.c
  match c with
  | 0x000 => if k.port then 1 else 0
  | 0x001 => k.status
  | 0x002 => k.cause.setWidth 64
  | 0x003 => k.fpc
  | 0x004 => k.spc
  | 0x005 => k.fslot.setWidth 64
  | 0x006 => k.finfo
  | 0x007 => k.fstep.setWidth 64
  | 0x010 => r.trapvec
  | 0x011 => r.trapmask
  | 0x020 => r.fmtlvl.setWidth 64
  | 0x021 => if r.cmapsoft then 1 else 0
  | 0x022 => r.pguard.setWidth 64
  | 0x023 => .ofNat 64 (k.na.toNat + 16 * k.nf.toNat)
  | 0x024 => r.nkey
  | 0x025 => r.rngidx
  | 0x030 => .ofNat 64 (k.spbase.toNat * 64)
  | 0x031 => .ofNat 64 (k.splim.toNat * 64)
  | 0x032 => if k.compat then 1 else 0
  | 0x033 => k.spfirst.setWidth 64
  | 0x034 => k.spstall
  | 0x035 => k.spfault
  | 0x048 => r.fpfirst
  | 0x049 => r.fpen.setWidth 64
  | 0x060 => s.oldPhase
  | 0x061 => s.health.word
  | 0x100 => k.ttbase.setWidth 64
  | 0x101 => k.ttlim.setWidth 64
  | 0x102 => Config.freeWord s.freeN 1003 &&& 1
  | 0x120 => s.d.fqbase.setWidth 64
  | 0x121 => s.d.fqsize
  | 0x122 => s.d.fqhead
  | 0x123 => s.d.fqtail
  | 0x124 => k.fencetmo.setWidth 64
  | 0x130 => s.d.trbase.setWidth 64
  | 0x131 => s.d.trsize
  | 0x132 => s.d.trhead
  | 0x133 => s.d.trtail
  | 0x134 => s.d.trmask
  | 0x135 => s.d.trdrop
  | 0x140 => k.svec
  | 0x141 => k.savetid.setWidth 64
  | 0x142 => k.rngmode.setWidth 64
  | 0x143 => k.rngtid.setWidth 64
  | 0x180 => k.deprcnt
  | c =>
    if 0x40 ≤ c ∧ c ≤ 0x47 then (r.flags[c - 0x40]?.getD 0).setWidth 64
    else if 0x111 ≤ c ∧ c ≤ 0x11F then (k.bwin[c - 0x110]?.getD 0).setWidth 64
    else 0

/-- ctx.fpfirst and ctx.spfault with their reserved bits zero (R2). -/
def fpfirstOf (v : Word64) : Word64 := .ofNat 64 (fld v 0 50 + fld v 57 7 * 2 ^ 57)
def spfaultOf (v : Word64) : Word64 := .ofNat 64 (fld v 0 34 + fld v 40 8 * 2 ^ 40)

/-- The issuing shift's CSR c := v, reserved and read-only bits apart (R2, R291, R302). -/
def csrSet (s : State) (c : Nat) (v : Word64) : State :=
  match c with
  | 0x001 => s.modK fun k => { k with pport := v.getLsbD 3, inh := v.getLsbD 2, ppriv := v.getLsbD 1 }
  | 0x002 => s.modK fun k => { k with cause := v.setWidth 9 }
  | 0x003 => s.modK fun k => { k with fpc := v }
  | 0x005 => s.modK fun k => { k with fslot := v.setWidth 4 }
  | 0x006 => s.modK fun k => { k with finfo := v }
  | 0x007 => s.modK fun k => { k with fstep := v.setWidth 10 }
  | 0x010 => s.modC fun r => { r with trapvec := v &&& ~~~ 3#64 }
  | 0x011 => s.modC fun r => { r with trapmask := v &&& ~~~ trapmaskFixed }
  | 0x020 => s.modC fun r => { r with fmtlvl := if fld v 0 4 < 6 then v.setWidth 4 else 0xF }
  | 0x021 => s.modC fun r => { r with cmapsoft := v.getLsbD 0 }
  | 0x022 => s.modC fun r => { r with pguard := v.setWidth 12 }
  | 0x023 => s.modK fun k => { k with na := v.setWidth 4, nf := (v >>> 4).setWidth 3 }
  | 0x024 => s.modC fun r => { r with nkey := v }
  | 0x025 => s.modC fun r => { r with rngidx := v }
  | 0x030 => s.modK fun k => { k with spbase := (v >>> 6).setWidth 18 }
  | 0x031 => s.modK fun k => { k with splim := (v >>> 6).setWidth 19 }
  | 0x032 => s.modK fun k => { k with compat := v.getLsbD 0 }
  | 0x033 => s.modK fun k => { k with spfirst := v.setWidth 25 }
  | 0x034 => s.modK fun k => { k with spstall := v }
  | 0x035 => s.modK fun k => { k with spfault := spfaultOf v }
  | 0x048 => s.modC fun r => { r with fpfirst := fpfirstOf v, fpOrd := 0 }
  | 0x049 => s.modC fun r => { r with fpen := v.setWidth 7 }
  | 0x100 => s.modK fun k => { k with ttbase := v.setWidth 40 }
  | 0x101 => s.modK fun k => { k with ttlim := v.setWidth 32 }
  | 0x102 => if v.getLsbD 0 then { s with ttCache := [] } else s
  | 0x120 => { s with d := { s.d with fqbase := v.setWidth 40 } }
  | 0x121 => { s with d := { s.d with fqsize := v } }
  | 0x122 => { s with d := s.d.withHead v }
  | 0x124 => s.modK fun k => { k with fencetmo := v.setWidth 32 }
  | 0x130 => { s with d := { s.d with trbase := v.setWidth 40 } }
  | 0x131 => { s with d := { s.d with trsize := v } }
  | 0x132 => { s with d := { s.d with trhead := v } }
  | 0x134 => { s with d := { s.d with trmask := v } }
  | 0x140 => s.modK fun k => { k with svec := v &&& ~~~ 2#64 }
  | 0x141 => s.modK fun k => { k with savetid := v.setWidth 21 }
  | 0x142 => s.modK fun k => { k with rngmode := v.setWidth 2 }
  | 0x143 => s.modK fun k => { k with rngtid := v.setWidth 20 }
  | 0x180 => s.modK fun k => { k with deprcnt := v }
  | c =>
    if 0x40 ≤ c ∧ c ≤ 0x47 then s.modC fun r => { r with flags := r.flags.setIfInBounds (c - 0x40) (v.setWidth 7) }
    else if 0x111 ≤ c ∧ c ≤ 0x11F then s.modK fun k => { k with bwin := k.bwin.setIfInBounds (c - 0x110) (v.setWidth 21) }
    else s

/-- A write of CSR c by an instruction of CSRW's kind (R302): `f` gives the new value from the old one and G[A];
`sets` marks a form that can set a bit. ctx.mode.PORT cannot be changed (02 R40). While G[A] waits for an interlocked result
(02 R32) its value decides nothing. -/
def csrWrite (s : State) (a : R5) (c : BitVec 12) (sets : Bool) (f : Word64 → Word64 → Word64) : Out :=
  let n := c.toNat
  let v := s.rdG a
  let user : Bool := !s.me.k.priv
  if !csrKnown n || csrReadOnly n then .next (s.illegalAt .opnd)
  else if user && (decide (0x100 ≤ n) || csrSupWrite n || (n = 1 && sets && v.getLsbD 1 && !s.me.pendingG.contains a
      && !(s.me.k.port && s.me.pendingMx.contains a))) then .next (s.privAt n)
  else s.usesG [a]
    (let old := s.csrGet s.cur.shift n
     let new := f old v
     if n = 0 then
       if new.getLsbD 0 != old.getLsbD 0 then .next (s.trapAt .illegal (.ofNat 64 Illegal.opnd.code)) else .next s
     else .next (s.csrSet n new))

end State

/-- Whether the issuing shift's launch has that counterpart (02 R41). -/
def State.ownPair (s : State) (p : Addr × Addr) : Bool := match s.launchOf s.cur.shift with
  | some l => l.obj.counterparts.contains p
  | none => false

/-- TRAP (R300). -/
def execTrap (k : BitVec 10) (s : State) : Out := .next (s.setAfter (.softTrap k))

/-- ERET (R301): k = 1 is `.skip`. -/
def execEret (k : BitVec 1) (s : State) : Out :=
  if !s.me.k.priv && s.me.k.ppriv then .next (s.privAt 0xFFF)
  else if k = 1 && memoryCode (fld s.me.k.cause 0 8) then .next (s.trapAt .illegal (.ofNat 64 Illegal.opnd.code))
  else .next (s.setAfter (.eret (k = 1)))

/-- CSRR (R302). -/
def execCsrr (d : R5) (c : BitVec 12) (s : State) : Out :=
  if !csrKnown c.toNat then .next (s.illegalAt .opnd)
  else if !s.me.k.priv && decide (0x100 ≤ c.toNat) then .next (s.privAt c.toNat)
  else .next (s.wrG d (s.csrGet s.cur.shift c.toNat) 2)

/-- CSRW (R302). -/
def execCsrw (a : R5) (c : BitVec 12) (s : State) : Out := s.csrWrite a c true fun _ v => v
/-- CSRS (R302). -/
def execCsrs (a : R5) (c : BitVec 12) (s : State) : Out := s.csrWrite a c true fun o v => o ||| v
/-- CSRC (R302). -/
def execCsrc (a : R5) (c : BitVec 12) (s : State) : Out := s.csrWrite a c false fun o v => o &&& ~~~ v

/-- RNGP (R303). -/
def execRngp (d : R5) (s : State) : Out :=
  let m := s.me.k.rngmode.toNat
  let k := s.me.arch.c.rngidx
  let next (t : State) : Out := .next (t.modC fun r => { r with rngidx := r.rngidx + 1 })
  let v : Word64 := if s.health.rngBad then 0 else Config.entropy s.freeN
  match m with
  | 0 => next (s.wrG d v 8)
  | 1 =>
    let pay : BitVec 128 := .ofNat 128 (v.toNat + fld k 0 32 * 2 ^ 64 + fld (Config.freeWord s.freeN 1004) 0 32 * 2 ^ 96)
    next ((s.wrG d v 8).trace 0x0A (State.srcOf s.cur.shift 4) 0 (s.taskNo s.cur.shift) pay)
  | 2 => s.usesG [28] (next (s.pushLsq (.replay d (s.rdG 28) k)))
  | _ => .next (s.illegalAt .opnd)

/-- IPF (03 R69) has no architectural effect. -/
def execIpf (_a _b : R5) (s : State) : Out := .next s

/-- The lowest slot whose byte is no format entry (07 R149); that it is the lowest of several is the model's choice (log 95). -/
def fmttBad (t : Word64) : Option Nat :=
  (List.range 8).find? fun j => fld t (8 * j + 7) 1 = 1 || decide (0xB < fld t (8 * j) 4) || decide (5 < fld t (8 * j + 4) 3)

/-- FMTT (07 R149). -/
def execFmtt (a b : R5) (s : State) : Out :=
  s.usesG [a, b]
    (match fmttBad (s.rdG b) with
     | some j => .next (s.trapAt .illegal (.ofNat 64 (Illegal.opnd.code + 256 * j)))
     | none => .next (s.modArch fun x => { x with fmtt := x.fmtt.setIfInBounds (fld (s.rdG a) 0 4) (s.rdG b) }))

/-- FMTT.ALL (07 R149). -/
def execFmttAll (b : R5) (s : State) : Out :=
  s.usesG [b]
    (match fmttBad (s.rdG b) with
     | some j => .next (s.trapAt .illegal (.ofNat 64 (Illegal.opnd.code + 256 * j)))
     | none => .next (s.modArch fun x => { x with fmtt := Vector.replicate 16 (s.rdG b) }))

/-- GSET (R304). -/
def execGset (a : R5) (i : BitVec 6) (x : BitVec 1) (s : State) : Out :=
  .next (s.modC fun r => { r with pguard := a ++ i ++ x })

/-- FLAGR (R305). -/
def execFlagr (d : R5) (s : State) : Out :=
  .next (s.wrG d (.ofNat 64 (s.me.arch.c.flags.toList.foldr (fun f acc => f.toNat + 256 * acc) 0)) 2)

/-- FLAGC (R305). -/
def execFlagc (m : BitVec 8) (f : BitVec 7) (s : State) : Out :=
  .next (s.modC fun r => { r with flags := Vector.ofFn fun (i : Fin 8) =>
    if (m.getLsbD i.val) = true then (r.flags[i] &&& ~~~ f) else r.flags[i] })

/-- NOP (R306). -/
def execNop (s : State) : Out := .next s

/-- NOP.BENCH (02 R34, R39, R41): the benchmark; a published counterpart takes over behind it. -/
def execNopBench (s : State) : Out :=
  s.atBoundary false false false fun t =>
    match (if t.me.arch.l.toList.any Level.act then none else t.published.find? fun p => p.1 = t.cur.x && t.ownPair p) with
    | some p => .next (t.setAfter (.swap p.2))
    | none => .next t

end Sys2Proof.Machine
end

