-- ==== Sys2Proof/Machine/Tasks.lean ====
section
/-! DEFINITION. Tasks, stages and launches while they run (13 R266-R268, R274; 15 R309): task start, stages done,
steering, the watchdog, the end of a launch, and the host events that report it. -/

namespace Sys2Proof.Machine

/-- The launch with a SEQ. -/
def State.launchAt (s : State) (seq : BitVec 32) : Option Launch := s.launches.find? fun l => l.seq = seq

/-- Physical galleries of a launch, twins included. -/
def Launch.gals (l : Launch) : List Nat := l.place ++ l.twin

/-- A count of a stage. -/
def Launch.count (l : List Nat) (k : Nat) : Nat := l[k]?.getD 0

namespace State

/-- Shifts bound to a launch, with their stage. -/
def boundTo (s : State) (seq : BitVec 32) : List (Nat × Nat) :=
  s.shifts.filterMap fun p => match p.2.bound with
    | some (q, k) => if q = seq then some (p.1, k) else none
    | none => none

/-- Tasks of stage k of a launch in one gallery that run or are saved. -/
def tasksOf (s : State) (seq : BitVec 32) (k g : Nat) : List Task :=
  (s.shifts.filterMap fun p => match p.2.bound, p.2.task with
    | some (q, j), some t => if q = seq && j = k && p.1 / 32 = g then some t else none
    | _, _ => none)
  ++ s.saved.filterMap fun v => match v.sh.bound, v.sh.task with
    | some (q, j), some t => if q = seq && j = k && v.at_ / 32 = g then some t else none
    | _, _ => none

/-- Whether every task of a launch has ended. -/
def noTasks (s : State) (seq : BitVec 32) : Bool :=
  (s.shifts.all fun p => match p.2.bound with
    | some (q, _) => q != seq || p.2.task.isNone
    | none => true)
  && s.saved.all fun v => v.seq != seq

/-! ### Task start (R266) -/

/-- Whether stage k of launch l lets a task start in physical gallery g. -/
def stageReady (s : State) (l : Launch) (k : Nat) (st : StageDecl) (g : Nat) : Bool :=
  match st.input with
  | none => decide (Launch.count l.started k < st.tasks)
  | some q => decide (((s.tasksOf l.seq k g).filter fun t => !t.deqd).length < (s.slotsIn g q .ready).length)

/-- Whether a task may start on shift n: its launch, stage number and stage. In an assay launch n is the primary's
shift, and its twin is IDLE too (R272). -/
def startable (s : State) (n : Nat) : Option (Launch × Nat × StageDecl) :=
  match s.launchOf n, s.stageOf n, (s.sh n).bound with
  | some l, some st, some (_, k) =>
    let twinOk : Bool := match s.assayPair n with
      | none => true
      | some (m, primary) => primary && decide ((s.sh m).st = .idle)
    if (s.sh n).st = .idle && l.halted.isNone && !l.stopped.contains (l.compiledGal (n / 32)) && twinOk
        && s.stageReady l k st (n / 32) then some (l, k, st)
    else none
  | _, _, _ => none

/-- Registers at task entry (06 R113, R204, R245, R254; 07 R142-R147): those that the launch sets, those with a stated
value, and free values for the others. ctx.cmapsoft keeps its value since the launch (06 R116). -/
def entryArch (s : State) (n : Nat) (l : Launch) (num : BitVec 32) : Arch :=
  let u (k : Nat) : Word64 := Config.freeWord s.freeN (n * 100 + k)
  let gpos : Nat := l.compiledGal (n / 32) * 32 + n % 32
  { Arch.zero with
    g := Vector.ofFn fun (r : Fin 32) =>
      if r.val = 0 then 0
      else if r.val ≤ 8 then l.args[r.val - 1]?.getD 0
      else if r.val = 28 then num.setWidth 64
      else if r.val = 29 then .ofNat 64 gpos
      else u r.val
    v := Vector.ofFn fun (r : Fin 32) => { VReg.zero with data := Config.freeVec s.freeN (n * 32 + r.val) }
    m := Vector.ofFn fun (r : Fin 8) => u (40 + r.val)
    c := { RCsr.zero with
      nkey := l.nkey
      cmapsoft := (s.sh n).arch.c.cmapsoft
      pguard := (u 50).setWidth 12 } }

/-- Shift n takes task `num` of stage k at its entry (R266, R270, 14 R290). -/
def startOn (s : State) (n : Nat) (l : Launch) (k : Nat) (st : StageDecl) (num : BitVec 32) : State :=
  let a := s.entryArch n l num
  let s1 := (s.releaseSlots n).modSh n fun x =>
    { x with
      st := .ready
      blockOn := none
      pc := st.entry
      arch := a
      tiles := Vector.ofFn fun (t : Fin 8) => ⟨[], some ((s.freeN * 2048 + n) * 8 + t.val), .none, false, false⟩
      k := { x.k with
        port := s.portableAt n st.entry
        priv := false
        ppriv := false
        inh := false
        pport := false
        nr := false
        cause := 0
        fpc := 0
        spc := st.entry
        fslot := 0
        finfo := 0
        fstep := 0
        na := x.allot.1
        nf := x.allot.2
        spbase := .ofNat 18 (st.winLo / 64)
        splim := .ofNat 19 (st.winHi / 64)
        deprcnt := 0 }
      inflight := []
      soon := []
      cpHold := false
      mrd := []
      shMrd := []
      shFl := []
      trapPend := none
      acasGo := []
      shadow := some a
      liveAt := 0
      tileWr := 0
      bnd := s.bundles
      status := .clear
      grantPend := []
      closePend := []
      fpx := []
      mxFl := []
      mismatch := false
      phaseStart := s.gtc
      task := some ⟨num, l.seq, k, 0, false, 0, false⟩
      barr := none
      awaiting := none
      bndSt := .away
      loopBuf := []
      shLoop := []
      idleCy := 0
      preemptReq := false }
  (s1.traceSh n 0x01 0 0 [k, st.entry.toNat]).choose (n / 4) none

/-- TASK_START on shift n, and on its twin (R266, R272). -/
def taskStart (s : State) (n : Nat) : State :=
  match s.startable n with
  | none => s
  | some (l, k, st) =>
    let num : BitVec 32 := .ofNat 32 l.nextTask
    let s1 := s.modLaunch l.seq fun l => { l with nextTask := l.nextTask + 1, started := bump l.started k }
    let s2 := s1.startOn n l k st num
    match s.assayPair n with
    | some (m, _) => s2.startOn m l k st num
    | none => s2

/-! ### Stages done (R267) -/

/-- The physical galleries of stage st: its gallery's, and the twin's. -/
def stageGals (l : Launch) (st : StageDecl) : List Nat := (l.place[st.gal]?).toList ++ (l.twin[st.gal]?).toList

/-- Whether stage k has come to its end in every copy. -/
def stageOver (s : State) (l : Launch) (k : Nat) (st : StageDecl) : Bool :=
  !(l.doneSt[k]?.getD false)
  && match st.input with
    | none => decide (st.tasks ≤ Launch.count l.retired k) && (State.stageGals l st).all fun g => (s.tasksOf l.seq k g).isEmpty
    | some q => match l.obj.queues.find? fun p => p.1 = q with
      | none => false
      | some (_, d) => (State.stageGals l st).all fun g =>
        s.qClosed g d && ((s.gal g).slots.filter fun x => x.q = q && x.st != .done).isEmpty
          && (s.tasksOf l.seq k g).isEmpty

/-- A queue of a gallery becomes CLOSED. -/
def closeQueue (s : State) (l : Launch) (g q : Nat) : State :=
  match l.obj.queues.find? fun p => p.1 = q with
  | some (_, d) => s.cbWrite g d 20 1 1
  | none => s

/-- Entry k of a list of marks set. -/
def markDone (l : List Bool) (k : Nat) : List Bool :=
  (List.range (max l.length (k + 1))).map fun i => i = k || l[i]?.getD false

/-- STAGE_DONE for stage k of a launch: its closed-out outputs close, its shifts become FREE. -/
def stageDone (s : State) (seq : BitVec 32) (k : Nat) : State :=
  match s.launchAt seq with
  | none => s
  | some l => match l.obj.stages[k]? with
    | none => s
    | some st =>
      if !s.stageOver l k st then s
      else
        let s1 := (State.stageGals l st).foldl (fun t g => st.closes.foldl (fun t q => t.closeQueue l g q) t) s
        let s2 := (s.boundTo seq).foldl (fun t p =>
          if p.2 = k then t.modSh p.1 fun x => { x with st := .free, bound := none } else t) s1
        s2.modLaunch seq fun l => { l with doneSt := markDone l.doneSt k }

/-! ### The end of a launch (R267, R274, 15 R309) -/

/-- Whether a launch is complete. -/
def launchDone (s : State) (l : Launch) : Bool :=
  l.halted.isNone && (List.range l.obj.stages.length).all (fun k => l.doneSt[k]?.getD false) && s.noTasks l.seq

/-- Whether a halted launch has come to rest. -/
def launchHalted (s : State) (l : Launch) : Bool := l.halted.isSome && s.noTasks l.seq

/-- A gallery without its launch: a waiting fence takes effect (01 R15). -/
def freeGallery (s : State) (g : Nat) : State :=
  let x := s.gal g
  s.setGal g { x with holder := none, slots := [], steerCy := 0, ctl := [], fenced := x.fenced || x.fenceReq, fenceReq := false }

/-- A launch's hold on a core's routines ends; entries that no other launch holds are free again, their words with them (09
R186). -/
def freeRoutines (s : State) (seq : BitVec 32) (c : Nat) : State :=
  let x := s.core c
  if !x.uown.any fun h => h.seq = seq then s
  else
    let keep := x.uown.filter fun h => h.seq != seq
    s.setCore c { x with
      utab := x.utab.filter fun p => keep.any (fun h => h.entry = p.1) || !x.uown.any fun h => h.entry = p.1
      uown := keep }

/-- The launch leaves the device. -/
def endLaunch (s : State) (l : Launch) : State :=
  let s1 := (s.boundTo l.seq).foldl (fun t p => t.modSh p.1 fun x => { x with st := .free, bound := none, task := none }) s
  let s2 := l.gals.foldl State.freeGallery ((List.range 512).foldl (fun t c => t.freeRoutines l.seq c) s1)
  let rest := s2.launches.filter fun m => m.seq != l.seq
  { s2 with
    launches := rest
    bard := s2.bard.filter fun p => p.1 != l.seq.toNat
    published := s2.published.filter fun p => rest.any fun m => m.obj.counterparts.contains p }

/-- The source number of the command processor on die 0 (01_the_part, the table of units); its gallery and core bits, 0, are the model's
choice (log 83). -/
def cmdSrc : BitVec 16 := 64
/-- The source number of the headframe: its die, gallery and core bits, 0, are the model's choice (log 83). -/
def headSrc : BitVec 16 := 120

/-- The oldest waiting event is written when it has the given kind and the queue has room (R309). -/
def postKind (s : State) (kind : BitVec 8) : State :=
  match s.events with
  | e :: _ => if e.kind = kind then s.postOne else s
  | [] => s

/-- DONE: a complete launch is reported and leaves (R309, R314); a waiting DONE is written. -/
def doneStep (s : State) (seq : BitVec 32) : State :=
  match s.launchAt seq with
  | some l =>
    if s.launchDone l then
      let s1 := (s.endLaunch l).event 0x10 cmdSrc (if l.reduced then Config.reducedFlag else 0) 0xFFFFFFFF [l.seq.toNat]
      s1.postKind 0x10
    else s
  | none => s.postKind 0x10

/-- HALT: a halted launch whose tasks have ended is reported and leaves. -/
def haltStep (s : State) (seq : BitVec 32) : State :=
  match s.launchAt seq with
  | some l =>
    if s.launchHalted l then
      ((s.endLaunch l).event 0x11 cmdSrc 0 0xFFFFFFFF [l.seq.toNat, l.halted.getD 0]).postKind 0x11
    else s
  | none => s.postKind 0x11

/-! ### The watchdog (R274) -/

/-- Whether the watchdog of shift n's task has run out. -/
def watchDue (s : State) (n : Nat) : Bool :=
  match s.launchOf n, (s.sh n).task with
  | some l, some t => l.wdog != 0 && decide (l.wdog.toNat ≤ t.cycles)
  | _, _ => false

/-- WATCHDOG for shift n. -/
def watchdog (s : State) (n : Nat) : State := if s.watchDue n then s.abortTask n Cause.watchdog.code false [] else s

/-! ### Steering (R268) -/

/-- Whether shift n may be rebound to stage k of launch l. -/
def steerable (s : State) (l : Launch) (k : Nat) (st : StageDecl) (n : Nat) : Bool :=
  let x := s.sh n
  (x.st = .idle || x.st = .free) && st.cores.testBit (n / 4 % 8) && decide (256 ≤ x.idleCy)
  && decide (st.tiles ≤ x.allot.1.toNat) && decide (st.fronts ≤ x.allot.2.toNat) && !(n % 512 = 3)
  && match x.bound with
    | none => true
    | some (q, j) => q = l.seq && j != k
        && (l.doneSt[j]?.getD false || decide (2 ≤ ((s.boundTo q).filter fun p => p.2 = j && p.1 / 32 = n / 32).length))

/-- The shift that steering gives to stage k in gallery g. In an assay launch its twin is rebound with it (R272). -/
def steerPick (s : State) (l : Launch) (k : Nat) (st : StageDecl) (g : Nat) : Option Nat :=
  ((List.range 32).map (32 * g + ·)).find? fun n => s.steerable l k st n
    && (match indexIn l.place g with
      | some c => match l.twin[c]? with
        | some h => s.steerable l k st (32 * h + n % 32)
        | none => true
      | none => true)

/-- Shift n comes under stage k: its window and priority, IDLE; its allotment stays. The core bits of the steering unit's source
number, 0, are the model's choice (log 83). -/
def rebind (s : State) (n : Nat) (l : Launch) (k : Nat) (st : StageDecl) : State :=
  let old := match (s.sh n).bound with
    | some (_, j) => j
    | none => 0xFF
  let s1 := s.modSh n fun x => { x with
    st := .idle
    bound := some (l.seq, k)
    k := { x.k with spbase := .ofNat 18 (st.winLo / 64), splim := .ofNat 19 (st.winHi / 64) } }
  s1.trace 0x05 (n / 512 * 2 ^ 14 + n / 32 % 16 * 2 ^ 10 + 7 * 8) 0 0xFFFFFFFF (Config.payload 0x05 [n, old, k])

/-- STEERING in gallery g, once 256 cycles have passed since the last. -/
def steering (s : State) (g : Nat) : State :=
  let x := s.gal g
  if x.steerCy < 256 then s
  else
    let s0 := s.setGal g { x with steerCy := 0 }
    match x.holder.bind s.launchAt with
    | none => s0
    | some l => match indexIn l.place g with
      | none => s0
      | some c =>
        if l.stopped.contains c then s0
        else
          let pick := (List.range l.obj.stages.length).findSome? fun k => match l.obj.stages[k]? with
            | none => none
            | some st => match st.input with
              | none => none
              | some q =>
                let hwm := match l.obj.queues.find? fun p => p.1 = q with
                  | some (_, d) => d.hwm
                  | none => 0
                if st.gal = c && hwm < (s.slotsIn g q .ready).length then
                  (s.steerPick l k st g).map fun n => (k, st, n)
                else none
          match pick with
          | none => s0
          | some (k, st, n) =>
            let s1 := s0.rebind n l k st
            match l.twin[c]? with
            | some h => s1.rebind (32 * h + n % 32) l k st
            | none => s1

end State

end Sys2Proof.Machine
end

