-- ==== Sys2Proof/Machine/Kick.lean ====
section
/-! DEFINITION. The kick (14 R299) and the placement of a launch (01 R15; 13 R265, R269-R271; 14 R296; 09 R186;
04 R82; 02 R48). -/

namespace Sys2Proof.Machine

/-! ### The packet (R269) -/

/-- A launch packet of 256 bytes. -/
abbrev Pkt := BitVec 2048

namespace Pkt

/-- n bytes at offset o. -/
def f (p : Pkt) (o n : Nat) : Nat := fld p (8 * o) (8 * n)
def ngal (p : Pkt) : Nat := p.f 8 2
def assay (p : Pkt) : Bool := p.f 10 1 % 2 = 1
def savetid (p : Pkt) : BitVec 21 := .ofNat 21 (p.f 136 8)

/-- Whether a reserved field is nonzero (R271). -/
def reserved (p : Pkt) : Bool :=
  p.f 10 1 / 2 != 0 || p.f 11 5 != 0 || p.f 44 4 != 0 || p.f 56 8 != 0 || p.f 220 36 != 0
    || fld p (8 * 144 + 2) 30 != 0 || fld p (8 * 144 + 52) 12 != 0

end Pkt

/-! ### Binding (R265) -/

/-- Shifts of a stage bound to the cores of a gallery, in rounds: stage, core, shift. `used` counts the shifts taken of
each core. -/
def bindStage (k : Nat) (st : StageDecl) (used : List Nat) : Option (List (Nat × Nat × Nat) × List Nat) :=
  let cores := (List.range 8).filter fun c => st.cores.testBit c
  let r := ((List.range 4).flatMap fun _ => cores).foldl
    (fun (acc : List (Nat × Nat × Nat) × List Nat) c =>
      let u := acc.2[c]?.getD 4
      if acc.1.length < st.shifts && u < 4 then (acc.1 ++ [(k, c, u)], acc.2.set c (u + 1)) else acc)
    ([], used)
  if r.1.length = st.shifts then some r else none

/-- The shifts of every stage of compiled gallery g, or none when they do not fit (R265, 06 R112). -/
def bindGallery (stages : List StageDecl) (g : Nat) : Option (List (Nat × Nat × Nat)) :=
  let r := (stages.zipIdx.filter fun p => p.1.gal = g).foldl
    (fun (acc : Option (List (Nat × Nat × Nat) × List Nat)) p =>
      acc.bind fun a => (bindStage p.2 p.1 a.2).map fun b => (a.1 ++ b.1, b.2))
    (some ([], List.replicate 8 0))
  r.bind fun a =>
    let sum (w : StageDecl → Nat) (c : Nat) : Nat :=
      ((a.1.filter fun x => x.2.1 = c).map fun x => (stages[x.1]?.map w).getD 0).sum
    if (List.range 8).all fun c => decide (sum StageDecl.tiles c ≤ 8) && decide (sum StageDecl.fronts c ≤ 4)
    then some a.1 else none

/-- Whether a gallery's stages bind all four shifts of its core 0. -/
def heavy (b : List (Nat × Nat × Nat)) : Bool := b.any fun x => x.2.1 = 0 && x.2.2 = 3

/-! ### Declarations that the launch checks -/

/-- Whether a stage's declaration stands (R265, 06 R112): its candidates are cores 0 to 7 of its gallery. -/
def stageOk (ngal : Nat) (queues : List (Nat × QueueDecl)) (st : StageDecl) : Bool :=
  let gal (q : Nat) : Option Nat := (queues.find? fun p => p.1 = q).map fun p => p.2.gal
  st.gal < ngal && st.prio ≤ 3 && st.cores != 0 && st.cores < 2 ^ 8 && 1 ≤ st.shifts && st.outputs.length ≤ 4
    && (st.input.isSome || (1 ≤ st.tasks && st.tasks < 2 ^ 32))
    && (match st.input with
      | none => true
      | some q => gal q = some st.gal)
    && st.outputs.all (fun q => gal q = some st.gal) && st.closes.all (fun q => st.outputs.contains q)
    && st.tiles ≤ 8 && st.fronts ≤ 4
    && decide (st.winLo ≤ st.winHi) && decide (st.winHi ≤ spBytes)

/-- The persistent bytes of a stage's window (14 R298), in rising order. -/
def persistent (st : StageDecl) : List Nat :=
  ((List.range (st.winHi - st.winLo)).map (st.winLo + ·)).filter fun a =>
    !st.discard.any fun d => decide (d.1 ≤ a) && decide (a < d.2)

/-- Whether the save area of a stage's shifts holds their tiles and their persistent bytes (14 R296): at most seven tiles. -/
def areaOk (st : StageDecl) : Bool := decide (0x14000 + 65536 * st.tiles + (persistent st).length ≤ 557056)

/-- Whether a queue's declaration stands (R261, R265). -/
def queueOk (ngal : Nat) (stages : List StageDecl) (p : Nat × QueueDecl) : Bool :=
  let d := p.2
  let there (k : Option Nat) : Bool := match k with
    | none => true
    | some k => (stages[k]?).map StageDecl.gal = some d.gal
  p.1 < 32 && d.gal < ngal && 1 ≤ d.cap && d.cap ≤ 1024 && d.hwm ≤ 1024 && d.cb % 64 = 0 && d.ring % 64 = 0
    && decide (d.cb + 64 ≤ spBytes) && decide (d.ring + 64 * d.cap ≤ spBytes) && there d.prod && there d.cons

/-- Whether the loader and the launch accept a code object (01 R10; 02 R8, R40, R42, R48; R261, R265; 09 R186). -/
def objectOk (ngal : Nat) (o : CodeObject) : Bool :=
  let p := o.profile
  !p.other && p.vec ≤ 2 && p.mtx ≤ 2 && p.copy ≤ 2 && p.seam ≤ 1 && p.front ≤ 1
    && o.portable.length ≤ 4 && o.stages.length ≤ 16 && o.queues.length ≤ 32
    && o.image.all (fun i => decide (i.1 + i.2.length ≤ spBytes))
    && o.routines.all (fun r => decide (6 ≤ r.1) && decide (r.1 < 64))
    && decide ((o.routines.map Prod.fst).Nodup) && o.relocs.all (fun g => decide (g < ngal))
    && o.stages.all (stageOk ngal o.queues) && o.queues.all (queueOk ngal o.stages)

namespace State

/-- Whether a packet's save tensor and its stages' save areas satisfy R296. Without a save tensor there are no areas, and no
stage is refused for the size of one (log 84). -/
def saveOk (s : State) (p : Pkt) (stages : List StageDecl) : Bool :=
  let tid := p.savetid
  if tid.getLsbD 20 = false then true
  else stages.all areaOk && match s.tensorEntry (.ofNat 40 (p.f 32 8)) (.ofNat 32 (p.f 40 4)) (fld tid 0 20) with
    | none => false
    | some e =>
      let rows := (if p.assay then 64 else 32) * p.ngal
      entryOk e && homeInDomain (s.entryHome e) && !s.deadChip (s.entryHome e) && eFmt e = 9 && eNdim e = 2 && !eXm e && eL2t e 0 = 0 && eL2t e 1 = 15
        && eExt e 1 = 589824 && decide (rows ≤ eExt e 0)
        && (List.range rows).all fun r => (List.range 18).all fun t =>
          match s.transTile (fld tid 0 20) e (s.entryHome e) [(r : Int), (32768 * t : Int)] .write with
          | .ok .. => true
          | _ => false

/-! ### Placement (R271) -/

/-- Galleries that are unfenced and hold no launch. -/
def freeGals (s : State) : List Nat := (List.range 64).filter fun g => (s.gal g).holder.isNone && !(s.gal g).fenced

end State

/-- A word of a routine that begins at `base`: the loader relocates the end address of ULOOP, OPF[9:0], with the routine (09
R203). -/
def relocate (base : Nat) (w : Word64) : Word64 :=
  if fld w 59 5 = 8 then .ofNat 64 (w.toNat - w.toNat % 1024 + (w.toNat + base) % 1024) else w

/-- A list that begins at its k-th element, the elements ahead of it behind the others. -/
def rotated {α : Type} (l : List α) (k : Nat) : List α := l.drop (k % max 1 l.length) ++ l.take (k % max 1 l.length)

/-! ### Routines (09 R186) -/

/-- Whether a core's store holds a routine's words at its entry, as the loader writes them. -/
def holdsRoutine (x : CoreSt) (r : Nat × List Word64) : Bool :=
  let e := lget x.utab r.1 0
  let base := fld e 0 10
  e.getLsbD 15 && r.2.zipIdx.all fun w => lget x.ustore (base + w.2) 0 = relocate base w.1

/-- Whether words from `base` on are free: `held` lists first words and lengths. -/
def wordsFree (held : List (Nat × Nat)) (base len : Nat) : Bool :=
  held.all fun h => decide (h.1 + h.2 ≤ base) || decide (base + len ≤ h.1)

/-- First words for routines among the free ones of 256 to 1,023: any choice that fits, searched from `pick` on. -/
def fitRoutines (pick : Nat → Nat) : List (Nat × List Word64) → List (Nat × Nat) → Option (List Nat)
  | [], _ => some []
  | r :: rs, held =>
    ((rotated ((List.range (769 - max 1 r.2.length)).map (256 + ·)) (pick r.1)).filter fun b => wordsFree held b r.2.length).findSome?
      fun b => (fitRoutines pick rs (held ++ [(b, r.2.length)])).map fun l => b :: l

/-- A routine written into a core's store at `base`. -/
def writeRoutine (x : CoreSt) (r : Nat × List Word64) (base : Nat) : CoreSt :=
  { x with
    ustore := r.2.zipIdx.foldl (fun m p => lput m (base + p.2) (relocate base p.1)) x.ustore
    utab := lput x.utab r.1 (.ofNat 16 (2 ^ 15 + base)) }

/-- The routines of launch `seq` on a core: one that the core holds already is shared, the launch's own is written anew where
its words have changed, the others take free words. None where an entry holds another launch's routine with different
contents, or the store cannot hold them. -/
def takeRoutines (fr : Nat) (x : CoreSt) (seq : BitVec 32) (rs : List (Nat × List Word64)) : Option CoreSt :=
  let holders (i : Nat) : List UHold := x.uown.filter fun h => h.entry = i
  if rs.any fun r => (holders r.1).any (fun h => h.seq != seq) && !holdsRoutine x r then none
  else
    let fresh := rs.filter fun r => (holders r.1).isEmpty
    let held := rs.filter fun r => !(holders r.1).isEmpty
    (fitRoutines (fun i => Config.pickWord (fr + i)) fresh (x.uown.map fun h => (h.base, h.len))).map fun bases =>
      let at_ := held.map (fun r => (r, ((holders r.1).head?.map UHold.base).getD 256)) ++ fresh.zip bases
      let y := at_.foldl (fun y p => if holdsRoutine y p.1 && p.2 = fld (lget y.utab p.1.1 0) 0 10 then y
        else writeRoutine y p.1 p.2) x
      { y with uown := (y.uown.filter fun h => h.seq != seq) ++ at_.map fun p => ⟨p.1.1, p.2, p.1.2.length, seq⟩ }

/-- The routines of a launch on core c, where it can take them. -/
def State.giveRoutines (s : State) (seq : BitVec 32) (rs : List (Nat × List Word64)) (c : Nat) : Option State :=
  if rs.isEmpty then some s else (takeRoutines s.freeN (s.core c) seq rs).map (s.setCore c)

namespace State

/-- Whether physical gallery g suits a compiled gallery with the given bindings: not the first of a die where all of core 0 is
bound (R265), and with cores that can take the routines (09 R186). -/
def suits (s : State) (seq : BitVec 32) (rs : List (Nat × List Word64)) (b : List (Nat × Nat × Nat)) (g : Nat) : Bool :=
  !(heavy b && g % 16 = 0) && b.all fun x => (s.giveRoutines seq rs (8 * g + x.2.1)).isSome

/-- Galleries chosen for the given demands, each with the galleries that suit it: any choice of distinct ones that exists can
come about. -/
def choosePlaces (s : State) : List (Nat × List Nat) → List Nat → Option (List (Nat × Nat))
  | [], _ => some []
  | (k, ok) :: r, free =>
    (rotated (free.filter ok.contains) (Config.pickGallery s.freeN k)).findSome? fun g =>
      (choosePlaces s r (free.filter fun x => x != g)).map fun l => (k, g) :: l

/-- The physical galleries of a launch: of each compiled gallery, and of each twin. -/
def placement (s : State) (seq : BitVec 32) (ngal : Nat) (assay : Bool) (o : CodeObject) : Option (List Nat × List Nat) :=
  let binds := (List.range ngal).map (bindGallery o.stages)
  let n := if assay then 2 * ngal else ngal
  if binds.any Option.isNone || s.freeGals.length < n then none
  else
    let dem := (List.range n).map fun i =>
      (i, s.freeGals.filter (s.suits seq o.routines ((binds[i % ngal]?.getD none).getD [])))
    (s.choosePlaces dem s.freeGals).map fun l =>
      let at_ (i : Nat) : Nat := ((l.find? fun p => p.1 = i).map Prod.snd).getD 0
      ((List.range ngal).map at_, if assay then (List.range ngal).map fun k => at_ (ngal + k) else [])

/-! ### The launch enters its galleries -/

/-- A queue's control block at launch (R261). -/
def initQueue (s : State) (g : Nat) (d : QueueDecl) : State :=
  let stageNo (k : Option Nat) : Nat := k.getD 0xFF
  let v := d.ring % 2 ^ 24 + d.cap * 2 ^ 32 + d.hwm * 2 ^ 48 + stageNo d.prod * 2 ^ 168 + stageNo d.cons * 2 ^ 176
  s.cbWrite g d 0 64 v

/-- A shift of launch l's galleries that is bound to no stage: its per-launch CSRs hold the launch's values (R270). -/
def freeShift (l : Launch) : Shift :=
  { Shift.initial with
    k := { KCsr.zero with
      compat := l.obj.compat
      ttbase := l.ttbase
      ttlim := l.ttlim
      svec := l.svec &&& ~~~ 2#64
      savetid := l.savetid
      rngmode := l.rngmode
      rngtid := l.rngtid
      fencetmo := l.fencetmo
      bwin := l.bwin } }

/-- A shift bound to stage k of launch l (R265, R270). -/
def boundShift (l : Launch) (k : Nat) (st : StageDecl) : Shift :=
  let x := freeShift l
  { x with
    st := .idle
    bound := some (l.seq, k)
    allot := (.ofNat 4 st.tiles, .ofNat 3 st.fronts)
    k := { x.k with
      na := .ofNat 4 st.tiles
      nf := .ofNat 3 st.fronts
      spbase := .ofNat 18 (st.winLo / 64)
      splim := .ofNat 19 (st.winHi / 64) } }

/-- Shift n bound to stage k of launch l. -/
def bindShift (s : State) (n : Nat) (l : Launch) (k : Nat) (st : StageDecl) : State := s.setSh n (boundShift l k st)

/-- Gallery g as launch l finds it: the code object's image, and no guard, tag, queue slot or barrier (05 R98, R109; 02 R48). -/
def emptyGallery (s : State) (l : Launch) (g : Nat) : State :=
  let x := s.gal g
  { s.setGal g { x with
      sp := l.obj.image.foldl (fun m i => memBlit m i.1 i.2) x.sp
      guard := []
      tags := []
      barg := Vector.replicate 4 .empty
      slots := []
      holder := some l.seq
      steerCy := 0
      ctl := [] } with
    poisonS := l.obj.image.foldl (fun p i => clearPois p (spKey g i.1) i.2.length) s.poisonS }

/-- The 32 shifts of gallery g, bound to no stage. -/
def freeShifts (s : State) (l : Launch) (g : Nat) : State :=
  (List.range 32).foldl (fun t i => t.setSh (32 * g + i) (freeShift l)) s

/-- The shifts of gallery g that the bindings name, each bound to its stage. -/
def bindAll (s : State) (l : Launch) (g : Nat) (b : List (Nat × Nat × Nat)) : State :=
  b.foldl (fun t p => match l.obj.stages[p.1]? with
    | some st => t.bindShift (32 * g + 4 * p.2.1 + p.2.2) l p.1 st
    | none => t) s

/-- Compiled gallery c of launch l on physical gallery g (05 R98, R109; 02 R48; R261, R265). -/
def fillGallery (s : State) (l : Launch) (c g : Nat) : State :=
  let s1 := (l.obj.queues.filter fun q => q.2.gal = c).foldl (fun t q => t.initQueue g q.2) (s.emptyGallery l g)
  let b := (bindGallery l.obj.stages c).getD []
  ((b.map fun p => p.2.1).eraseDups).foldl (fun t k => (t.giveRoutines l.seq l.obj.routines (8 * g + k)).getD t)
    ((s1.freeShifts l g).bindAll l g b)

/-- The grant table read at a flat address with a launch's tables (04 R82): entries that cannot be read grant nothing. -/
def readGrants (s : State) (l : Launch) (a : Addr) : List (Nat × BitVec 128) :=
  let n := 4096
  let t := s.setSh n { Shift.initial with k := { KCsr.zero with ttbase := l.ttbase, ttlim := l.ttlim, bwin := l.bwin } }
  (List.range 4096).filterMap fun i =>
    match t.flat n (a + .ofNat 64 (16 * i)) .read, t.flat n (a + .ofNat 64 (16 * i + 8)) .read with
    | .m _ k0, .m _ k1 =>
      let v := s.readM k0 8 + s.readM k1 8 * 2 ^ 64
      if v = 0 then none else some (i, .ofNat 128 v)
    | _, _ => none

/-- The launch that a packet describes. -/
def launchFrom (s : State) (seq : BitVec 32) (p : Pkt) (o : CodeObject) (place twin : List Nat) : Launch where
  seq := seq
  ngal := p.ngal
  assay := p.assay
  wdog := .ofNat 64 (p.f 16 8)
  nkey := .ofNat 64 (p.f 24 8)
  ttbase := .ofNat 40 (p.f 32 8)
  ttlim := .ofNat 32 (p.f 40 4)
  args := Vector.ofFn fun (i : Fin 8) => .ofNat 64 (p.f (64 + 8 * i.val) 8)
  svec := .ofNat 64 (p.f 128 8)
  savetid := p.savetid
  rngmode := .ofNat 2 (p.f 144 1)
  rngtid := .ofNat 20 (fld p (8 * 144 + 32) 20)
  fencetmo := .ofNat 32 (p.f 152 8)
  bwin := Vector.ofFn fun (w : Fin 16) => if w.val = 0 then 0 else .ofNat 21 (p.f (156 + 4 * w.val) 4)
  obj := o
  place := place
  twin := twin
  started := []
  retired := []
  doneSt := []
  nextTask := 0
  halted := none
  reduced := decide (s.frame.st = .reduced)
  stopped := []

/-- A refused kick or packet is reported (15 R309). -/
def refuseKick (s : State) (seq : BitVec 32) (reason : Nat) : State :=
  s.event 0x12 cmdSrc 0 0xFFFFFFFF [seq.toNat, reason]

/-- A packet that has matched its CRC: the launch is placed, or refused. -/
def runPacket (s : State) (seq : BitVec 32) (p : Pkt) (o : CodeObject) : State :=
  if p.reserved || p.ngal = 0 || 64 < p.ngal then s.refuseKick seq 1
  else if !objectOk p.ngal o then s.refuseKick seq 2
  else if !s.saveOk p o.stages then s.refuseKick seq 3
  else match s.placement seq p.ngal p.assay o with
    | none => s.refuseKick seq 4
    | some (place, twin) =>
      let l := s.launchFrom seq p o place twin
      let s1 := place.zipIdx.foldl (fun t g => t.fillGallery l g.2 g.1) s
      let s2 := twin.zipIdx.foldl (fun t g => t.fillGallery l g.2 g.1) s1
      { s2 with
        launches := s2.launches ++ [l]
        grants := s.readGrants l (.ofNat 64 (p.f 48 8))
        frame := { s2.frame with launchSeen := true } }

/-! ### The kick (14 R299) -/

/-- The packet in the ring slot of a SEQ. A ring in host memory holds what the host wrote there: bytes from outside. -/
def ringPacket (s : State) (seq : BitVec 32) : List Byte :=
  let k := seq.toNat % 2 ^ s.bar.ringLog.toNat
  if s.bar.ringBase.getLsbD 63 then (List.range 256).map fun i => Config.freeByte s.freeN (6000 + i)
  else memBytes s.mem (fld s.bar.ringBase 0 40 * frameBytes + 256 * k) 256

/-- Bytes as a number, the first lowest. -/
def packBytes (l : List Byte) : Nat := l.foldr (fun b acc => b.toNat + 256 * acc) 0

/-- The packet of the oldest pending kick is read once: it runs, waits for another read, or is given up after 16 more. -/
def readKick (s : State) : State :=
  match s.kicks with
  | [] => s
  | k :: r =>
    let seq : BitVec 32 := k.word.setWidth 32
    if k.tries = 0 && seq != s.bar.kseq + 1 then { s with kicks := r }.refuseKick seq 5
    else
      let bytes := s.ringPacket seq
      if crc32 polyIeee bytes = (k.word >>> 32).setWidth 32 then
        ({ s with kicks := r, bar := { s.bar with kseq := seq } }).runPacket seq (.ofNat 2048 (packBytes bytes)) k.obj
      else if 16 ≤ k.tries then { s with kicks := r }.refuseKick seq 6
      else { s with kicks := { k with tries := k.tries + 1 } :: r }

/-- KICK: a write of the kick register, with the code object that the packet will name (log 7). In COLD nothing runs;
in SAFE no launch is accepted (15 R314). -/
def kick (s : State) (w : Word64) (o : CodeObject) : State :=
  let s1 := { s with bar := { s.bar with kick := w } }
  match s.frame.st with
  | .cold => s
  | .safe => s1.refuseKick (w.setWidth 32) 0
  | _ =>
    let first : Bool := s.kicks.isEmpty
    let s2 := { s1 with kicks := s1.kicks ++ [⟨w, o, 0⟩] }
    if first then s2.readKick else s2

end State

end Sys2Proof.Machine
end

