-- ==== Sys2Proof/Machine/Scratch.lean ====
section
/-! DEFINITION. Vector access to the scratchpad, windows, tags and guards, class 8 (05_scratchpad R95, R101-R110). -/

namespace Sys2Proof.Machine

namespace State

/-! ### Windows (R101, R102) -/

/-- Window w as an instruction uses it: within the bound of an RGLD the old one or the new one (R108). -/
def windowAt (s : State) (w : BitVec 3) : Window :=
  let old := s.me.arch.w[w.toNat]?.getD .zero
  match (s.me.inflight.filterMap fun l =>
      if l.bundle < s.cur.bundle then (match l.what with
        | .win r x => if r = w then some x else none
        | _ => none)
      else none).getLast? with
  | some x => if Config.freeBit s.freeN (3000 + w.toNat) then old else x
  | none => old

end State

namespace Window

def vi (w : Window) : Nat := fld w.ctl 0 3
def vo (w : Window) : Nat := fld w.ctl 4 3
def tt (w : Window) : BitVec 6 := .ofNat 6 (fld w.ctl 8 6)
def fmt (w : Window) : Nat := LRec.fmt w.rcd
/-- WIN_j, 1 beyond NDIM (R102). -/
def win (w : Window) (j : Nat) : Nat := if j < LRec.ndim w.rcd then LRec.win w.rcd j else 1
/-- Whether a region element lies within the extents; EXT_j is 1 beyond NDIM (R102, R103). -/
def inside (w : Window) (x : List Nat) : Bool :=
  recInside w.rcd (x.map Int.ofNat) && (List.range 6).all fun j => j < LRec.ndim w.rcd || x.getD j 0 = 0
/-- Byte offset and bit of a region element (04 R74). -/
def off (w : Window) (x : List Nat) : Nat × Nat := recOff w.rcd (x.map Int.ofNat)

end Window

/-- A slab position (R103). -/
def slabPos (g : Word64) : List Nat := (List.range 6).map fun j => if j < 4 then fld g (16 * j) 16 else 0

/-- Region element x with a and b added in dimensions i and o. -/
def addAt (c : List Nat) (i a o b : Nat) : List Nat :=
  c.zipIdx.map fun (x, j) => x + (if j = i then a else 0) + (if j = o then b else 0)

/-- Granules of an element of `len` bytes at an offset (R94). -/
def granulesOf (off len : Nat) : List Nat :=
  let g := off / 64
  let h := (off + len - 1) % spBytes / 64
  if g = h then [g] else [g, h]

/-- Distinct granules in element order. -/
def distinctG (l : List Nat) : List Nat := (l.foldl (fun acc g => if acc.contains g then acc else g :: acc) []).reverse

/-- The first granule that meets an earlier granule's bank (R95). -/
def bankConflict : List Nat → List Nat → Option Nat
  | _, [] => none
  | seen, g :: r => if seen.any (fun h => h % 128 = g % 128) then some g else bankConflict (g :: seen) r

/-- The largest number of distinct granules in one bank. -/
def bankDepth (gs : List Nat) : Nat :=
  ((List.range 128).map fun b => (gs.filter fun g => g % 128 = b).length).foldl max 0

namespace State

/-- A window that is not valid (R101). -/
def windowTrap (s : State) (w : BitVec 3) (reason : Nat) : Out := .next (s.trapAt .layoutrsv (layoutInfo 5 w.toNat reason))

/-- Stall cycles counted in ctx.spstall.CONF (R97). -/
def addConf (s : State) (n : Nat) : State :=
  s.modK fun k => { k with spstall := .ofNat 64 (fld k.spstall 32 32 * 2 ^ 32 + (fld k.spstall 0 32 + n) % 2 ^ 32) }

/-- Bytes of the elements at offsets, in element order. -/
def elBytes (f : Nat) (offs : List (Option (Nat × Nat))) : List Nat :=
  offs.flatMap fun o => match o with
    | some (b, _) => (List.range (locBytes f)).map fun i => (b + i) % spBytes
    | none => []

/-- An element of a checked read. -/
def readElAt (s : State) (f : Nat) (o : Nat × Nat) : Nat :=
  locExtract f o.2 ((List.range (locBytes f)).foldr (fun i acc => (s.spByte s.cur.shift ((o.1 + i) % spBytes)).toNat + 256 * acc) 0)

/-- Whether an element comes from poisoned bytes. -/
def poisElAt (s : State) (f : Nat) (o : Nat × Nat) : Bool :=
  (List.range (locBytes f)).any fun i =>
    let a := (o.1 + i) % spBytes
    (s.violation s.cur.shift a).isNone && s.poisonS.any fun k => k = spKey s.myGal a

/-- Elements read at offsets, FILL elsewhere, as one access (R105): the elements, their poison, the record of a
violation. -/
def readEls (s : State) (f fill : Nat) (offs : List (Option (Nat × Nat))) : List Nat × Bool × State :=
  (offs.map fun o => match o with
      | some o => s.readElAt f o
      | none => fill,
   offs.any fun o => match o with
      | some o => s.poisElAt f o
      | none => false,
   s.recordViol s.cur.shift false (s.firstViol s.cur.shift (elBytes f offs)))

/-- The bytes of one element written, those in violation dropped. -/
def writeElAt (s : State) (f : Nat) (o : Nat × Nat) (x : Nat) : State :=
  let n := locBytes f
  let old := (List.range n).foldr (fun i acc => (memByte (s.gal s.myGal).sp ((o.1 + i) % spBytes)).toNat + 256 * acc) 0
  let v := locInsert f o.2 old x
  (List.range n).foldl (fun t i => t.spPokeOk s.cur.shift ((o.1 + i) % spBytes) (v / 256 ^ i) 1) s

/-- Elements written at offsets, in order, as one access. -/
def writeEls (s : State) (f : Nat) (offs : List (Option (Nat × Nat))) (xs : List Nat) : State :=
  ((offs.zip xs).foldl (fun t p => match p.1 with
      | some o => t.writeElAt f o p.2
      | none => t) s).recordViol s.cur.shift true (s.firstViol s.cur.shift (elBytes f offs))

/-- Offsets of the elements of a slab access (R105), i along a register row and o across. -/
def slabOffs (w : Window) (c : List Nat) (i o : Nat) : List (Option (Nat × Nat)) :=
  let ie := w.win i
  (List.range (elemCount w.fmt)).map fun e =>
    let x := addAt c i (e % ie) o (e / ie)
    if w.inside x then some (w.off x) else none

/-- The map of a loaded register (R105). -/
def loadMap (w : Window) (c : List Nat) (i o : Nat) : CMap where
  st := .affine
  tt := w.tt
  fmt := .ofNat 4 w.fmt
  id := .ofNat 3 i
  ir := false
  od := .ofNat 3 o
  orev := false
  ie := .ofNat 9 (w.win i)
  cmp := 0
  datum := Vector.ofFn fun (j : Fin 6) => (w.org[j]) + .ofNat 32 (c.getD j.val 0)

/-- R95 for an access: a static conflict traps, or stalls in compatibility mode (R100). -/
def bankCheck (s : State) (f : Nat) (offs : List (Option (Nat × Nat))) (k : State → Out) : Out :=
  let gs := distinctG (offs.flatMap fun o => match o with
    | some (b, _) => granulesOf b (locBytes f)
    | none => [])
  match bankConflict [] gs with
  | none => k s
  | some g =>
    if s.me.k.compat then k (s.addConf (bankDepth gs - 1))
    else .next (s.trapAt .bankconf (.ofNat 64 (g % 128 + 64 * g * 2 ^ 8)))

/-- A slab access through window w at slab position G[b] (R105): `col` exchanges rows and columns, `load` reads. -/
def slabAccess (s : State) (d : R5) (w : BitVec 3) (b : R5) (col load : Bool) : Out :=
  match s.uses (if load then [] else [d]) [b] with
  | .error e => .next e
  | .ok _ =>
    let win := s.windowAt w
    if !win.valid then s.windowTrap w rsvVal
    else
      let c := slabPos (s.rdG b)
      let (i, o) := if col then (win.vo, win.vi) else (win.vi, win.vo)
      let f := win.fmt
      let offs := slabOffs win c i o
      let data := (s.rdV d).data
      s.lsFirst fun s0 => s0.bankCheck f offs fun s1 =>
        if load then
          let (xs, p, s2) := s1.readEls f (LRec.fillVal win.rcd) offs
          .next (s2.fly (.v d ⟨packEls f xs, loadMap win c i o, p⟩) 8)
        else .next (s1.writeEls f offs (elems f data))

/-- Offsets of the lanes of a gather or scatter (R106). -/
def laneOffs (w : Window) (c idx : List Nat) : List (Option (Nat × Nat)) :=
  let ie := w.win w.vi
  idx.map fun j =>
    let x := addAt c w.vi (j % ie) w.vo (j / ie)
    if w.inside x then some (w.off x) else none

/-- A gather or scatter (R106): the conflict stall is counted, never a trap. -/
def laneAccess (s : State) (d : R5) (w : BitVec 3) (b c : R5) (load : Bool) : Out :=
  match s.uses (if load then [b] else [b, d]) [c] with
  | .error e => .next e
  | .ok _ =>
    let win := s.windowAt w
    let f := win.fmt
    if !win.valid then s.windowTrap w rsvVal
    else if f = 6 then s.windowTrap w comboBad
    else
      let p := slabPos (s.rdG c)
      let offs := laneOffs win p (elems f (s.rdV b).data)
      let gs := distinctG (offs.flatMap fun o => match o with
        | some (b, _) => granulesOf b (locBytes f)
        | none => [])
      let data := (s.rdV d).data
      s.lsFirst fun s0 =>
        let s1 := s0.addConf (bankDepth gs - 1)
        if load then
          let (xs, po, s2) := s1.readEls f (LRec.fillVal win.rcd) offs
          let m := if d = b then CMap.broken else { loadMap win p win.vi win.vo with st := .indexed, cmp := b }
          .next (s2.fly (.v d ⟨packEls f xs, m, po⟩) 10)
        else .next (s1.writeEls f offs (elems f data))

end State

/-- VLD (R105). -/
def execVld (d : R5) (w : BitVec 3) (b : R5) (s : State) : Out := s.slabAccess d w b false true
/-- VST (R105). -/
def execVst (d : R5) (w : BitVec 3) (b : R5) (s : State) : Out := s.slabAccess d w b false false
/-- VLDC (R105). -/
def execVldc (d : R5) (w : BitVec 3) (b : R5) (s : State) : Out := s.slabAccess d w b true true
/-- VSTC (R105). -/
def execVstc (d : R5) (w : BitVec 3) (b : R5) (s : State) : Out := s.slabAccess d w b true false
/-- VGATH (R106). -/
def execVgath (d : R5) (w : BitVec 3) (b c : R5) (s : State) : Out := s.laneAccess d w b c true
/-- VSCAT (R106). -/
def execVscat (d : R5) (w : BitVec 3) (b c : R5) (s : State) : Out := s.laneAccess d w b c false

/-- VCOMP (R107): a T6 slot counts as I32. A NONE or BROKEN source map stays as it is, in a T6 slot too (the model's choice, log
57). The indices of a source that is read within its bound, which may be INDEXED, are undefined (02 R30). -/
def execVcomp (d a b : R5) (f : BitVec 3) (s : State) : Out :=
  let f0 := s.slotFmt f
  let f := if f0 = 6 then 0xB else f0
  let n := elemCount f
  Res.out do
    let va := s.rdV a
    let comp := va.map.st = .indexed && !s.vLate a
    s.uses (if comp then [a, va.map.cmp] else [a]) (State.maskSrc b n)
    let sel := (List.range n).filter fun e => s.maskBit b e
    let num (e : Nat) : Nat :=
      if s.vLate a then (Config.freeElem s.freeN (190000 + e)).toNat % 2 ^ fmtWidth f
      else if comp then getEl f (s.rdV va.map.cmp).data e else e
    let rest := n - sel.length
    let vals := sel.map (getEl f va.data) ++ List.replicate rest 0
    let idx := sel.map num ++ List.replicate rest (2 ^ fmtWidth f - 1)
    let m := if !va.map.live then va.map
      else if f0 = 6 || va.map.width != fmtWidth f0 then .broken
      else { va.map with st := .indexed, cmp := d + 1, fmt := .ofNat 4 f0 }
    pure ((s.wrV d (packEls f vals) m 6).wrV (d + 1) (packEls f idx) .none 6)

/-- The RGLD checks of an origin block (R108): its reason, RSVBIT before RANGE, at word 3. -/
def originBad (r : LRec) (ctl hi : Nat) : Option Nat :=
  let vi := ctl % 8
  let vo := ctl / 16 % 8
  let win (j : Nat) : Nat := if j < LRec.ndim r then LRec.win r j else 1
  if ctl / 8 % 2 != 0 || ctl / 128 % 2 != 0 || ctl / 2 ^ 14 != 0 || hi != 0 then some rsvBit
  else if vi = vo || 5 < vi || 5 < vo || elemCount (LRec.fmt r) < win vi || elemCount (LRec.fmt r) < win vo then some rangeBad
  else none

/-- RGLD (R108). One that traps LAYOUTRSV leaves no record of a violation (log 104). -/
def execRgld (w : BitVec 3) (a b : R5) (s : State) : Out :=
  s.usesG [a, b]
    (let pa := (s.rdG a).toNat
     let pb := (s.rdG b).toNat
     if pa % 8 != 0 || pb % 8 != 0 then .next (s.trapAt .align s.freeInfo)
     else s.lsFirst fun s1 =>
       let (rv, e0, s2) := s1.spRead s.cur.shift pa 96
       let (ov, e1, s3) := if pb = 0 then (0, false, s2) else s2.spRead s.cur.shift pb 32
       if e0 || e1 then .next s3.uceAt
       else
         let r := recOf rv
         match recCheck r true (s1.galLimit r) with
         | some (k, v) => .next (s1.trapAt .layoutrsv (layoutInfo 1 k v))
         | none =>
           let ctl := if pb = 0 then (r.ndim - 1) + (if r.ndim = 1 then 1 else r.ndim - 2) * 16 else ov / 2 ^ 192 % 2 ^ 32
           match originBad r ctl (ov / 2 ^ 224) with
           | some v => .next (s1.trapAt .layoutrsv (layoutInfo 3 3 v))
           | none =>
             -- pass 2 of R73: a KIND that the instruction does not take
             if r.kind != 1 then .next (s1.trapAt .layoutrsv (layoutInfo 1 0 comboBad)) else
             let x : Window := ⟨r, Vector.ofFn fun (j : Fin 6) => .ofNat 32 (ov / 2 ^ (32 * j.val)), .ofNat 32 ctl, true⟩
             .next (s3.fly (.win w x) 8))

/-- TAGQ (R109). -/
def execTagq (d a : R5) (s : State) : Out :=
  s.usesG [a]
    (let key : BitVec 48 := (s.rdG a).setWidth 48
     let r : Word64 := match (s.gal s.myGal).tags.find? fun p => p.2 = key with
       | some p => .ofNat 64 p.1
       | none => BitVec.allOnes 64
     .next (s.wrG d r 4))

/-- TAGSET (R109). -/
def execTagset (a b : R5) (s : State) : Out :=
  s.usesG [a, b]
    (let g := s.gal s.myGal
     .next (s.setGal s.myGal { g with tags := lput g.tags (fld (s.rdG a) 0 12) ((s.rdG b).setWidth 48) }))

/-- TAGCLR (R109). -/
def execTagclr (a : R5) (s : State) : Out :=
  s.usesG [a]
    (let g := s.gal s.myGal
     .next (s.setGal s.myGal { g with tags := g.tags.filter fun p => p.1 != fld (s.rdG a) 0 12 }))

/-- GUARD (R110): granules outside the window make one violating write. -/
def State.guardOp (s : State) (a b : R5) (set : Bool) : Out :=
  s.usesG [a, b]
    (let p := (s.rdG a).toNat
     let k := (s.rdG b).toNat
     if p % 64 != 0 || 0xFFFFFF < p then .next (s.trapAt .align s.freeInfo)
     else s.lsFirst fun s =>
       let g0 := p / 64
       let g1 := min (g0 + k) 262144
       let lo := max g0 s.me.k.spbase.toNat
       let hi := min g1 s.me.k.splim.toNat
       let gal := s.gal s.myGal
       let kept := gal.guard.filter fun g => !(lo ≤ g && decide (g < hi))
       let s1 := s.setGal s.myGal { gal with
         guard := if set then
             (kept.filter fun g => decide (g < lo)) ++ (List.range (hi - lo)).map (lo + ·) ++ kept.filter fun g => hi ≤ g
           else kept }
       let out : Option Nat := if g1 ≤ g0 then none
         else if g0 < s.me.k.spbase.toNat then some g0
         else if s.me.k.splim.toNat < g1 then some (max g0 s.me.k.splim.toNat)
         else none
       match out with
       | none => .next s1
       | some g => .next (s1.recordViol s.cur.shift true (some (64 * g, 2))))

/-- GUARD.set (R110). -/
def execGuardSet (a b : R5) (s : State) : Out := s.guardOp a b true
/-- GUARD.clr (R110). -/
def execGuardClr (a b : R5) (s : State) : Out := s.guardOp a b false

end Sys2Proof.Machine
end

