-- ==== Sys2Proof/Machine/Matrix.lean ====
section
/-! DEFINITION. The matrix unit, class 9 (09_matrix_unit R175-R202): tiles, the queue, Xipra's routines, the epilogue, the
micro-operations, and the broadcast bus. -/

namespace Sys2Proof.Machine

/-! ### Tiles (R181, R192) -/

/-- Elements of a tile. -/
def tileSize : Nat := 16384

/-- Element k of a tile. -/
def Tile.get (t : Tile) (k : Nat) : BitVec 32 :=
  lget t.data k (match t.free with
    | none => 0
    | some n => Config.freeElem n k)

/-- A live tile of the given elements. -/
def Tile.make (f : Nat → BitVec 32) (m : CMap) (p : Bool) : Tile where
  data := (List.range tileSize).filterMap fun k => if f k = 0 then none else some (k, f k)
  free := none
  map := m
  live := true
  pois := p

namespace State

def tile (s : State) (n t : Nat) : Tile := (s.sh n).tiles[t]?.getD .zero

/-- The shadow of a tile that is about to be written (R192). -/
def touchTile (s : State) (n t : Nat) : State :=
  let x := s.sh n
  let c := s.core (n / 4)
  if !x.liveAt.getLsbD t || c.accSh.any (fun a => a.holder = n && a.tile.toNat = t) then s
  else if c.accSh.length < 2 then
    -- a tile released since the boundary still holds what it held there (R198)
    s.setCore (n / 4) { c with accSh := c.accSh ++ [⟨n, .ofNat 3 t, { s.tile n t with live := true }⟩] }
  else s.modSh n fun y => { y with liveAt := y.liveAt &&& ~~~ (1#8 <<< t), k := { y.k with nr := true } }

/-- A tile written by an MX entry. -/
def putTile (s : State) (n t : Nat) (v : Tile) : State :=
  (s.touchTile n t).modSh n fun y => { y with
    tiles := y.tiles.setIfInBounds t v, tileWr := y.tileWr ||| (1#8 <<< t) }

/-- The map of an undefined tile, which has no companion register (06 R114). -/
def freeMap (s : State) : CMap :=
  let m := CMap.ofImage ((List.range 4).map fun i => (Config.freeWord s.freeN (4100 + i)).toNat * 2 ^ (64 * i)).sum
  if m.st = .indexed then .broken else m

/-- A tile that a routine fault leaves undefined (R189). -/
def spoilTile (s : State) (n t : Nat) : State := s.putTile n t ⟨[], some (s.freeN * 8 + t), s.freeMap, true, false⟩

/-- A tile as an entry reads it. What a released tile still holds is undefined to the program (R198, log 36). -/
def tileSeen (s : State) (n t : Nat) : Tile :=
  let x := s.tile n t
  if x.live || (x.free.isSome && x.data.isEmpty) then x
  else { x with data := [], free := some (s.freeN * 8 + t), map := s.freeMap }

/-- The state seen as shift n's own: its scratchpad accesses are checked as that shift's. -/
def asShift (s : State) (n : Nat) : State := { s with cur := { Cur.nothing with shift := n } }

end State

/-! ### A matrix product's parameters (R177, R178) -/

/-- A product: shape, tile, map fields, formats; for A and B the window, the dimensions of M or N and of k, and their
origins; CONV3's shift; the parameter word of the scales. -/
structure Gemm where
  m : Nat
  n : Nat
  k : Nat
  tile : Nat
  acc : Bool
  bcast : Bool
  tt : BitVec 6
  id : BitVec 3
  od : BitVec 3
  fa : Nat
  fb : Nat
  wa : Window
  wb : Window
  am : Nat
  ak : Nat
  bn : Nat
  bk : Nat
  mo : Nat
  koa : Nat
  no : Nat
  kob : Nat
  tap : Int
  scale : Option Word64
deriving DecidableEq, Repr

/-- The product of parameter words m0 to m3, with A transposed, B transposed, over a snapshot's windows and row. -/
def gemmFrom (sn : MxSnap) (aT bT : Bool) (m0 m1 m2 m3 : Word64) (fmts : Nat × Nat) : Gemm :=
  let wa := sn.w[fld m0 0 3]?.getD .zero
  let wb := sn.w[fld m1 0 3]?.getD .zero
  { m := fld m3 0 16
    n := fld m3 16 16
    k := fld m3 32 16
    tile := fld m2 0 3
    acc := fld m2 3 1 = 1
    bcast := fld m2 4 1 = 1
    tt := .ofNat 6 (fld m2 17 6)
    id := .ofNat 3 (fld m2 14 3)
    od := .ofNat 3 (fld m2 11 3)
    fa := fmts.1
    fb := fmts.2
    wa := wa
    wb := wb
    am := if aT then wa.vi else wa.vo
    ak := if aT then wa.vo else wa.vi
    bn := if bT then wb.vo else wb.vi
    bk := if bT then wb.vi else wb.vo
    mo := fld m0 16 16
    koa := fld m0 32 16
    no := fld m1 16 16
    kob := fld m1 32 16
    tap := 0
    scale := none }

/-- The formats of slots SLA and SLB of a parameter word. -/
def slotFmts (sn : MxSnap) (m2 : Word64) : Nat × Nat := (rowFmt sn.row (fld m2 5 3), rowFmt sn.row (fld m2 8 3))

def MxSnap.p (sn : MxSnap) (k : Nat) : Word64 := sn.m[k]?.getD 0

/-- The product that one of Xipra's routines computes (R178, R186). -/
def gemmOf (idx : Nat) (sn : MxSnap) : Gemm :=
  let g := gemmFrom sn (decide (idx = 2)) (decide (idx = 1 ∨ idx = 4)) (sn.p 0) (sn.p 1) (sn.p 2) (sn.p 3)
    (slotFmts sn (sn.p 2))
  { g with
    tap := if idx = 5 then (fld (sn.p 4) 0 3 : Int) - 1 else 0
    scale := if idx = 4 then some (sn.p 4) else none }

/-- The region element with x1 along d1 and x2 along d2. -/
def elemAt (d1 : Nat) (x1 : Int) (d2 : Nat) (x2 : Int) : List Int :=
  (List.range 6).map fun j => if j = d1 then x1 else if j = d2 then x2 else 0

/-- The offset of a region element within the extents. -/
def winOff (w : Window) (c : List Int) : Option (Nat × Nat) :=
  if recInside w.rcd c && (List.range 6).all (fun j => j < LRec.ndim w.rcd || c.getD j 0 = 0) then some (recOff w.rcd c)
  else none

/-- The tensor coordinate of region coordinate x along dimension d. -/
def tensorAt (w : Window) (d x : Nat) : BitVec 32 := (w.org[d]?.getD 0) + .ofNat 32 x

namespace Gemm

def aOff (g : Gemm) (i t : Nat) : Option (Nat × Nat) :=
  winOff g.wa (elemAt g.am (g.mo + i + g.tap) g.ak (g.koa + t : Nat))
def bOff (g : Gemm) (j t : Nat) : Option (Nat × Nat) :=
  winOff g.wb (elemAt g.bn (g.no + j : Nat) g.bk (g.kob + t : Nat))
/-- A's elements in order i, t. -/
def aOffs (g : Gemm) (ts : List Nat) : List (Option (Nat × Nat)) :=
  (List.range g.m).flatMap fun i => ts.map fun t => g.aOff i t
/-- B's elements in order t, j. -/
def bOffs (g : Gemm) (ts : List Nat) : List (Option (Nat × Nat)) :=
  ts.flatMap fun t => (List.range g.n).map fun j => g.bOff j t

/-- kA(t) (R181). -/
def kA (g : Gemm) (t : Nat) : Int := (tensorAt g.wa g.ak (g.koa + t)).toInt
/-- The chunks of the k range (R181). -/
def chunks (g : Gemm) : List (List Nat) :=
  (List.range g.k).splitBy fun a b => g.kA a / 32 = g.kA b / 32

/-- Whether the product is of the integer class (R179). -/
def isInt (g : Gemm) : Bool := (g.fa = 8 || g.fa = 9) && (g.fb = 8 || g.fb = 9)

end Gemm

/-- The byte of R182 for tensor coordinates along two dimensions. -/
def scaleByte (v : BitVec 2048) (add : Nat) (d1 : Nat) (c1 : BitVec 32) (d2 : Nat) (c2 : BitVec 32) : Nat :=
  let (x, y) := if d1 < d2 then (c1, c2) else (c2, c1)
  let br := ((x.toInt / 32 + add) % 16).toNat
  let bc := (y.toInt / 32 % 16).toNat
  fld v (8 * (16 * br + bc)) 8

/-! ### Arithmetic (R181) -/

/-- The exact sum of a chunk's products, and NV. An exact zero is +0. -/
def chunkSum (ps : List (Num × Bool)) : Num × Bool :=
  let nan := ps.any fun p => p.1.isNan
  let pi := ps.any fun p => decide (p.1 = .inf false)
  let ni := ps.any fun p => decide (p.1 = .inf true)
  let nv := ps.any (fun p => p.2) || (pi && ni)
  if nan || (pi && ni) then (.nan false, nv)
  else if pi then (.inf false, nv)
  else if ni then (.inf true, nv)
  else
    let x := ps.foldl (fun (a : Exact) p => match p.1 with
      | .fin y => addExact a y false
      | _ => a) ⟨false, 0, 0, false⟩
    (.fin { x with neg := x.neg && x.m != 0 }, nv)

/-- One chunk of a float element: the new accumulator and its flags. `sig` holds the two SC8 scales. -/
def macFloat (fa fb : Nat) (as bs : List Nat) (sig : Option (Nat × Nat)) (acc : BitVec 32) : BitVec 32 × Flags :=
  let (p, nv) := chunkSum ((as.zip bs).map fun (a, b) => mulNum (decodeNum fa a).1 (decodeNum fb b).1)
  let (ps, snan) := match sig with
    | none => (p, false)
    | some (x, y) =>
      let sc := (mulNum (decodeNum 7 x).1 (decodeNum 7 y).1).1
      ((mulNum p sc).1, sc.isNan)
  let (q, f1) := round 0 ps 0 0
  let (v, inv) := addNum (decodeFloat 0 acc.toNat) (decodeFloat 0 q) false
  let (r, f2) := round 0 v 0 0
  (.ofNat 32 r, f1 ||| f2 ||| flagIf (nv || snan || inv) flagNV)

/-- One chunk of an integer element. -/
def macInt (fa fb : Nat) (as bs : List Nat) (acc : BitVec 32) : BitVec 32 × Flags :=
  let val (f x : Nat) : Int := if f = 9 then (x % 256 : Nat) else signedOf 8 x
  let p := ((as.zip bs).map fun (a, b) => val fa a * val fb b).sum
  let (r, fl) := saturate 0xB (acc.toInt + p)
  (.ofNat 32 r, fl)

/-- The operands of one chunk: A by row, B by column, the scales by row and column. -/
structure Part where
  a : List (List Nat)
  b : List (List Nat)
  sig : Option (List Nat × List Nat)

/-- Element (i, j) after one chunk. -/
def macPart (int : Bool) (fa fb i j : Nat) (acc : BitVec 32 × Flags) (p : Part) : BitVec 32 × Flags :=
  let as := p.a.getD i []
  let bs := p.b.getD j []
  let r := if int then macInt fa fb as bs acc.1
    else macFloat fa fb as bs (p.sig.map fun q => (q.1.getD i 0, q.2.getD j 0)) acc.1
  (r.1, acc.2 ||| r.2)

/-- The flag of a NaR among a chunk's operands (R178). -/
def narFlags (fa fb : Nat) (p : Part) : Flags :=
  flagIf (p.a.flatten.any (fun x => (decodeNum fa x).2) || p.b.flatten.any fun x => (decodeNum fb x).2) flagNAR

/-- The elements of a tile after the chunks: the corner is computed, the rest is `rest`. -/
def macTile (g : Gemm) (parts : List Part) (old rest : Nat → BitVec 32) : (Nat → BitVec 32) × Flags :=
  let cells := (List.range g.m).map fun i => (List.range g.n).map fun j =>
    parts.foldl (macPart g.isInt g.fa g.fb i j) (old (128 * i + j), 0)
  (fun k => if k / 128 < g.m && k % 128 < g.n then (((cells.getD (k / 128) []).getD (k % 128) (0, 0))).1 else rest k,
   cells.flatten.foldl (fun f c => f ||| c.2) (parts.foldl (fun f p => f ||| narFlags g.fa g.fb p) 0))

/-! ### Maps (R183) -/

/-- The product map. -/
def productMap (g : Gemm) (b : BusB) : CMap where
  st := .affine
  tt := g.tt
  fmt := if g.isInt then 0xB else 0
  id := g.id
  ir := false
  od := g.od
  orev := false
  ie := 128
  cmp := 0
  datum := ((Vector.replicate 6 0).setIfInBounds g.od.toNat (tensorAt g.wa g.am g.mo)).setIfInBounds g.id.toNat b.n0

/-- The map that a call leaves. -/
def callMap (g : Gemm) (b : BusB) (old : CMap) : CMap :=
  let p := productMap g b
  if !g.acc then p else if old.st = .none || old.equal p then p else .broken

/-- The local B operand of a product, with no rows read. -/
def busOf (g : Gemm) : BusB where
  n := g.n
  k := g.k
  fmt := g.fb
  nd := g.bn
  n0 := tensorAt g.wb g.bn g.no
  kd := g.bk
  k0 := tensorAt g.wb g.bk g.kob
  rows := []
  pois := false

/-- A product as a member of a pair computes it (R185): B's shape and format are the source's. -/
def Gemm.withBus (g : Gemm) (b : BusB) : Gemm := { g with n := b.n, k := b.k, fb := b.fmt }

/-- The scales of the chunk ts by row and by column, with m4 as parameter word (R182). -/
def scalesOf (g : Gemm) (sn : MxSnap) (b : BusB) (ts : List Nat) (m4 : Word64) : List Nat × List Nat :=
  let t := ts.headD 0
  ((List.range g.m).map fun i =>
      scaleByte sn.sva (fld m4 10 4) g.am (tensorAt g.wa g.am (g.mo + i)) g.ak (tensorAt g.wa g.ak (g.koa + t)),
   (List.range g.n).map fun j =>
      scaleByte sn.svb (fld m4 14 4) b.nd (b.n0 + .ofNat 32 j) b.kd (b.k0 + .ofNat 32 t))

/-- The operands of one chunk. -/
def partOf (g : Gemm) (b : BusB) (ts : List Nat) (aRows : List (List Nat)) (sig : Option (List Nat × List Nat)) : Part where
  a := aRows
  b := (List.range g.n).map fun j => ts.map fun t => (b.rows.getD t []).getD j 0
  sig := sig

namespace State

/-! ### Operand reads (R184) -/

/-- A's elements over ts for shift n, by row. -/
def readA (s : State) (n : Nat) (g : Gemm) (ts : List Nat) : List (List Nat) × Bool × State :=
  let (xs, p, s1) := (s.asShift n).readEls g.wa.fmt (LRec.fillVal g.wa.rcd) (g.aOffs ts)
  let a := xs.toArray
  ((List.range g.m).map fun i => (List.range ts.length).map fun q => a.getD (i * ts.length + q) 0, p, s1)

/-- B's elements over ts, by t. -/
def readB (s : State) (n : Nat) (g : Gemm) (ts : List Nat) : List (List Nat) × Bool × State :=
  let (xs, p, s1) := (s.asShift n).readEls g.wb.fmt (LRec.fillVal g.wb.rcd) (g.bOffs ts)
  let a := xs.toArray
  ((List.range ts.length).map fun q => (List.range g.n).map fun j => a.getD (q * g.n + j) 0, p, s1)

/-- Poison met by an MX entry: a memory fault, the entry not released (R184). -/
def mxUce (s : State) (n : Nat) (x : Addr) : State := s.memFault n ⟨.uce, x, 5, s.freeInfo, 0⟩

/-- The flags of an MX entry: they show in their CSR once an MWAIT covers it (R142, R175). -/
def mxFlags (s : State) (n : Nat) (e : MxEntry) (f : Flags) : State :=
  if f = 0 then s else s.modSh n fun x => { x with mxFl := x.mxFl ++ [(f, e.bundle, e.x, false)] }

end State

/-! ### Conversion of tile elements (R190, R199) -/

/-- A tile element as the value that its map names, for output format f. -/
def tileNum (t : Tile) (f k : Nat) : Num :=
  let int := if t.map.live then t.map.fmt = 0xB else fmtIsInt f
  if int then .ofInt (t.get k).toInt else decodeFloat 0 (t.get k).toNat

/-- A coordinate of a tile element, absent where the map is not readable. -/
def tileCoord (m : CMap) (k d : Nat) : Int := if m.live && m.width = 32 then m.coord k d else absentCoord

/-- The random bits of a tile element. -/
def tileRho (nkey : Word64) (m : CMap) (rm k : Nat) : Nat :=
  if rm < 4 then 0
  else
    let c (d : Nat) : BitVec 32 := .ofInt 32 (tileCoord m k d)
    (noise nkey (c 0) (c 1) (c 2) (c 3) 0xF0).toNat

/-- The transform of m7[4:3] (R190). -/
def transform (m7 : Word64) (m : CMap) (k : Nat) (x : Num) : Num :=
  match fld m7 3 2 with
  | 1 => if !x.isNan && x.sign then .zero false else x
  | 2 => if m.live && m.width = 32 && decide (m.coord k m.od.toNat < m.coord k m.id.toNat) then .inf true else x
  | _ => x

/-- Tile element k as it is stored: its bits and flags. -/
def storedEl (sn : MxSnap) (t : Tile) (m7 : Word64) (k : Nat) : Nat × Flags :=
  let slot := fld m7 0 3
  let f := rowFmt sn.row slot
  let rm := rowRm sn.row slot
  round f (transform m7 t.map k (tileNum t f k)) rm (tileRho sn.nkey t.map rm k)

/-! ### The epilogue (R190, R191) -/

/-- The control word of an epilogue's origin block; offset 0 is the default block (R102). -/
def epiCtl (r : LRec) (m6 : Word64) (org : Vector Word64 4) : Nat :=
  if fld m6 0 24 = 0 then (r.ndim - 1) + (if r.ndim = 1 then 1 else r.ndim - 2) * 16 else fld (org[3]?.getD 0) 0 32

def epiOrg (m6 : Word64) (org : Vector Word64 4) (j : Nat) : Int :=
  if fld m6 0 24 = 0 then 0 else signedOf 32 (fld (org[j / 2]?.getD 0) (32 * (j % 2)) 32)

/-- The reason that an origin block fails with (R73, R102). -/
def epiOrgBad (r : LRec) (m6 : Word64) (org : Vector Word64 4) : Nat :=
  let ctl := epiCtl r m6 org
  let vi := ctl % 8
  let vo := ctl / 16 % 8
  if ctl / 8 % 2 != 0 || ctl / 128 % 2 != 0 || ctl / 2 ^ 14 != 0
      || (fld m6 0 24 != 0 && fld (org[3]?.getD 0) 32 32 != 0) then rsvBit
  else if vi = vo || 5 < vi || 5 < vo then rangeBad
  else 0

/-- Why an epilogue is refused: the cause and its ctx.finfo. `gals` is NGAL when the record names the issuing device, `int` marks
the integer class, `m` is the tile's map. Record and block are checked as items 1 and 3, then the record's KIND (R73). Bits that R190
does not name are ignored in m5 and m6, and in m7 they are reserved (the model's choice, log 99). -/
def epiBad (sn : MxSnap) (r : LRec) (gals : Option Nat) (m6 : Word64) (org : Vector Word64 4) (m7 : Word64) (t : Nat) (int : Bool)
    (m : CMap) : Option (Cause × Word64) :=
  let opnd : Option (Cause × Word64) := some (.illegal, .ofNat 64 Illegal.opnd.code)
  let f := rowFmt sn.row (fld m7 0 3)
  let rm := rowRm sn.row (fld m7 0 3)
  match recCheck r false gals with
    | some (k, v) => some (.layoutrsv, layoutInfo 1 k v)
    | none =>
      let v := epiOrgBad r m6 org
      if v != 0 then some (.layoutrsv, layoutInfo 3 3 v)
      else if r.kind = 2 then some (.layoutrsv, layoutInfo 1 0 comboBad)
      else if fld m7 5 59 != 0 || fld m7 3 2 = 3 || (fld m7 3 2 = 2 && int) || f = 7 || f != r.fmt then opnd
      else if (fld m7 3 2 = 2 || 4 ≤ rm) && !(m.live && m.width = 32) && !sn.soft then
        some (.cmapbrk, .ofNat 64 (t + 32 + m.st.code * 64))
      else none

/-- Destination coordinates of tile element (i, j). -/
def epiCoord (r : LRec) (m6 : Word64) (org : Vector Word64 4) (i j : Nat) : List Int :=
  let ctl := epiCtl r m6 org
  let vi := ctl % 8
  let vo := ctl / 16 % 8
  (List.range 6).map fun d =>
    (if d = vo then (i : Int) else if d = vi then (j : Int) else 0) + (if r.kind = 0 then epiOrg m6 org d else 0)

/-- How one step of an MX entry's performance ends: released with the flags of this step, gone on to a further chunk or row
(R194), a memory fault, a routine fault at a microword address, or nothing done yet. -/
inductive MxEnd where
  | done (s : State) (f : Flags)
  | part (s : State) (e : MxEntry)
  | mem (s : State)
  | routine (s : State) (addr : BitVec 10) (code : Illegal)
  | wait

namespace State

/-- The location of tile element k in a KIND 0 destination: none outside it or discarded. -/
def epiLoc (s : State) (n : Nat) (r : LRec) (m6 : Word64) (org : Vector Word64 4) (k : Nat) :
    Except (Cause × Nat) (Option (Nat × Loc)) :=
  let c := epiCoord r m6 org (k / 128) (k % 128)
  if (List.range 6).any (fun d => r.ndim ≤ d && c.getD d 0 != 0) then .ok none
  else match s.recTrans n r 0 c .write with
    | .ok _ key bit => .ok (some (k, ⟨none, key, bit⟩))
    | .bad ca sub => .error (ca, sub)
    | _ => .ok none

/-- The element locations of a KIND 0 destination, or the first fault. -/
def epiLocs (s : State) (n : Nat) (r : LRec) (m6 : Word64) (org : Vector Word64 4) :
    Except (Cause × Nat) (List (Nat × Loc)) := do
  let l ← (List.range tileSize).mapM (s.epiLoc n r m6 org)
  pure (l.filterMap id)

/-- The gated store of an epilogue on tile t of shift n (R190, R191), and its flags. -/
def epiGate (s : State) (n : Nat) (e : MxEntry) (t : Nat) (r : LRec) (m6 : Word64) (org : Vector Word64 4) (m7 : Word64) :
    MxEnd :=
  let tl := s.tileSeen n t
  let f := rowFmt e.snap.row (fld m7 0 3)
  match s.epiLocs n r m6 org with
  | .error (ca, sub) => .mem ((s.noteRec n r).memFault n ⟨ca, e.x, 5, transInfo sub r.tid, 0⟩)
  | .ok ls =>
    if 64 ≤ gateCmds (s.sh n).gate then .mem ((s.noteRec n r).memFault n ⟨.gateovf, e.x, 5, 1, 0⟩)
    else
      let vs := ls.map fun p => (storedEl e.snap tl m7 p.1, p.2)
      .done ((s.noteRec n r).pushGate n (.epi e.x e.bundle f r.tid (vs.map fun v => (.ofNat 32 v.1.1, v.2))
        (s.deadEls (vs.map fun v => some v.2)) 0)) (vs.foldl (fun a v => a ||| v.1.2) 0)

/-- Rows i0 up to i1 of an epilogue's store to the scratchpad, and their flags. -/
def epiRows (s : State) (n : Nat) (e : MxEntry) (t : Nat) (r : LRec) (m6 : Word64) (org : Vector Word64 4) (m7 : Word64)
    (i0 i1 : Nat) : State × Flags :=
  let tl := s.tileSeen n t
  let f := rowFmt e.snap.row (fld m7 0 3)
  let ks := (List.range (128 * (i1 - i0))).map (128 * i0 + ·)
  let offs := ks.map fun k =>
    let c := epiCoord r m6 org (k / 128) (k % 128)
    if recInside r c && (List.range 6).all (fun d => d < r.ndim || c.getD d 0 = 0) then some (recOff r c) else none
  let vs := ((offs.zip ks).filter fun p => p.1.isSome).map fun p => (p.1, storedEl e.snap tl m7 p.2)
  ((s.asShift n).writeEls f (vs.map Prod.fst) (vs.map fun v => v.2.1), vs.foldl (fun a v => a ||| v.2.2) 0)

/-- The whole store of an epilogue (R188 STORE). -/
def epiStore (s : State) (n : Nat) (e : MxEntry) (t : Nat) (r : LRec) (m6 : Word64) (org : Vector Word64 4) (m7 : Word64) :
    MxEnd :=
  if (s.tileSeen n t).pois then .mem (s.mxUce n e.x)
  else if r.kind = 0 then s.epiGate n e t r m6 org m7
  else
    let (s1, f) := s.epiRows n e t r m6 org m7 0 128
    .done s1 f

/-- The next part of an epilogue, `row` rows of which are done: all of a gated one, or one row (R194). -/
def epiStep (s : State) (n : Nat) (e : MxEntry) (t row : Nat) : MxEnd :=
  let m6 := e.snap.p 6
  let m7 := e.snap.p 7
  if (s.tileSeen n t).pois then .mem (s.mxUce n e.x)
  else if LRec.kind e.snap.erec = 0 then s.epiGate n e t e.snap.erec m6 e.snap.eorg m7
  else
    let (s1, f) := s.epiRows n e t e.snap.erec m6 e.snap.eorg m7 row (row + 1)
    if row + 1 < 128 then .part s1 { e with done := e.done + 1, fl := e.fl ||| f } else .done s1 f

/-! ### Xipra's routines (R186) -/

/-- One chunk of a GEMM call's operands: A is read here, B is local or has come by the bus. -/
def gemmPart (s : State) (n : Nat) (e : MxEntry) (g : Gemm) (b : BusB) (ts : List Nat) : Part × Bool × State :=
  let (aRows, pa, s1) := s.readA n g ts
  let (b, s2) := if e.bus.isSome then (b, s1) else
    let (rs, pb, s2) := s1.readB n g ts
    ({ b with rows := (List.range (ts.headD 0)).map (fun _ => []) ++ rs, pois := pb }, s2)
  (partOf g b ts aRows (g.scale.map (scalesOf g e.snap b ts)), pa || b.pois, s2)

/-- One chunk (R181), or one row of its epilogue, of a GEMM call; the map is written with the first chunk (R183). -/
def performGemm (s : State) (n : Nat) (e : MxEntry) (idx : Nat) : MxEnd :=
  let g0 := gemmOf idx e.snap
  let b := e.bus.getD (busOf g0)
  let g := g0.withBus b
  let total := g.chunks.length
  if total ≤ e.done then s.epiStep n e g.tile (e.done - total)
  else
    let old := s.tileSeen n g.tile
    let keep := e.done != 0 || g.acc
    if keep && e.done = 0 && old.pois then .mem (s.mxUce n e.x)
    else
      let (part, pois, s1) := s.gemmPart n e g b (g.chunks.getD e.done [])
      let base (k : Nat) : BitVec 32 := if keep then old.get k else 0
      let (els, fl) := macTile g [part] base base
      let map := if e.done = 0 then callMap g b old.map else old.map
      let s2 := s1.putTile n g.tile (.make els map (pois || (e.done != 0 && old.pois)))
      if e.done + 1 < total || fld (e.snap.p 2) 23 1 = 1 then
        .part s2 { e with done := e.done + 1, fl := e.fl ||| fl }
      else .done s2 fl

/-! ### Micro-operations (R187-R189) -/

end State

/-- Whether a call takes B from the broadcast bus. -/
def State.isBcast (e : MxEntry) : Bool :=
  match e.op with
  | .call idx => idx != 3 && fld (e.snap.p 2) 4 1 = 1
  | _ => false

/-- A routine while it runs: the machine, its state, the flags of this step. -/
structure Micro where
  s : State
  st : MicroSt
  fl : Flags

/-- What a microword leads to: the next word, a chunk boundary (R194), a strip that has not come, or an end. -/
inductive MicroEnd where
  | go (x : Micro)
  | chunk (x : Micro)
  | hold (x : Micro)
  | stop (x : MxEnd)

def uOp (w : Word64) : Nat := fld w 59 5
def uPr (w : Word64) : Nat := fld w 56 3
def uImm (w : Word64) : Nat := fld w 32 16
def uOpf (w : Word64) : Nat := fld w 0 32

/-- OPF bits that each micro-operation names. -/
def uMask (op : Nat) : Nat :=
  match op with
  | 1 => 1 | 2 => 3 | 8 => 0x7FF | 9 => 0x3F | _ => 0

namespace MicroSt

def p (x : MicroSt) (k : Nat) : Word64 := x.m[k % 8]?.getD 0

/-- The product that the stages and the parameters describe; m2 is the word that MAC names. -/
def gemm (x : MicroSt) (sn : MxSnap) (m2 : Word64) : Gemm :=
  let a : MicroStage := x.a.getD ⟨x.p 0, false, [], false⟩
  let b : MicroStage := x.b.getD ⟨x.p 1, false, [], false⟩
  let g := gemmFrom sn a.trans b.trans a.word b.word m2 (x.p 3) x.fmts
  { g with k := fld x.krange 32 16 }

/-- The chunks that the cursor counts: those of the A operand that the loop's body loads. -/
def chunks (x : MicroSt) (sn : MxSnap) : List (List Nat) := ({ x with a := x.plan <|> x.a }.gemm sn (x.p 2)).chunks

/-- The chunk under the cursor. -/
def chunk (x : MicroSt) (sn : MxSnap) : List Nat := (x.chunks sn).getD x.cursor []

/-- Loops whose last word is the one just done (R188). -/
def endLoops (last : Nat) : Nat → MicroSt → MicroSt
  | 0, x => { x with pc := last + 1 }
  | fuel + 1, x =>
    match x.loops with
    | [] => { x with pc := last + 1 }
    | l :: r =>
      if l.last != last then { x with pc := last + 1 }
      else
        let x1 := if l.chunked then { x with cursor := x.cursor + 1 } else x
        if 1 < l.left then { x1 with pc := l.first, loops := { l with left := l.left - 1 } :: r }
        else endLoops last fuel { x1 with loops := r, plan := if l.chunked then none else x1.plan }

/-- The tile that TL names. -/
def tl (x : MicroSt) (w : Word64) : Nat := if fld w 55 1 = 1 then fld (x.p 2) 0 3 else fld w 52 3

/-- The first word of some kind, ALOAD or BRECV, from `first` to `last` and not behind the routine's END, as the stage that it
loads. -/
def planOf (x : MicroSt) (word : Nat → Word64) (is : Word64 → Bool) (first last : Nat) : Option MicroStage :=
  (((List.range (last + 1 - first)).map fun i => word (first + i)).takeWhile fun w => uOp w != 0).findSome? fun w =>
    if is w then some ⟨x.p (uPr w), uOpf w % 2 = 1, [], false⟩ else none

def isAload (w : Word64) : Bool := uOp w = 1
def isBrecv (w : Word64) : Bool := uOp w = 2
/-- A BRECV from the bus. -/
def isBusBrecv (w : Word64) : Bool := uOp w = 2 && uOpf w / 2 % 2 = 1

/-- A routine's state in which a stage that is still empty names the operand that it will be loaded with next. -/
def ahead (x : MicroSt) (word : Nat → Word64) : MicroSt :=
  { x with a := x.a <|> x.planOf word isAload x.pc 1023, b := x.b <|> x.planOf word isBrecv x.pc 1023 }

/-- A source's routine whose B stage names the operand that it takes from the bus next (R185). -/
def busAhead (x : MicroSt) (word : Nat → Word64) : MicroSt := { x with b := x.planOf word isBusBrecv x.pc 1023 <|> x.b }

/-- The chunk under the cursor where the A stage may still be empty. -/
def chunkAt (x : MicroSt) (sn : MxSnap) (word : Nat → Word64) : List Nat := (x.ahead word).chunk sn

/-- Undefined operand rows, for a MAC whose stage is empty. -/
def freeRows (fr : Nat) (k rows len : Nat) : List (List Nat) :=
  (List.range rows).map fun i => (List.range len).map fun t => (Config.freeElem fr (k + i * len + t)).toNat

end MicroSt

/-- A snapshot whose scale registers are those that a word names. -/
def MxSnap.scaled (sn : MxSnap) (m4 : Word64) : MxSnap :=
  { sn with sva := lget sn.vs (fld m4 0 5) sn.sva, svb := lget sn.vs (fld m4 5 5) sn.svb }

/-- A tile element after EPI (R188, R190): the transform of m7 on it, which a map of no class leaves to m7's slot (R199). -/
def epiEl (row : Word64) (t : Tile) (m7 : Word64) (k : Nat) : BitVec 32 :=
  let x := t.get k
  let int := if t.map.live then t.map.fmt = 0xB else fmtIsInt (rowFmt row (fld m7 0 3))
  match fld m7 3 2 with
  | 1 => if int then (if x.toInt < 0 then 0 else x)
    else
      let v := decodeFloat 0 x.toNat
      if !v.isNan && v.sign then 0 else x
  | 2 => if t.map.live && t.map.width = 32 && decide (t.map.coord k t.map.od.toNat < t.map.coord k t.map.id.toNat)
      then 0xFF800000 else x
  | _ => x

namespace Micro

/-- B of the call: as the bus has delivered it, as the source of the group names it, or the call's own. -/
def busB (e : MxEntry) (meet : Option (Option BusB)) (g : Gemm) : BusB :=
  e.bus.getD ((meet.bind id).getD (busOf g))

/-- The k range of a parameter word, with K the source's in a BCAST call (R185). -/
def spanOf (e : MxEntry) (meet : Option (Option BusB)) (st : MicroSt) (own : Word64) : Word64 :=
  let k := if State.isBcast e then (busB e meet { st.gemm e.snap (st.p 2) with k := fld own 32 16 }).k else fld own 32 16
  .ofNat 64 (fld own 0 32 + k % 2 ^ 16 * 2 ^ 32 + fld own 48 16 * 2 ^ 48)

/-- Whether the call and its group's other calls have met, so that the source's K is known (R185); a released call meets none. -/
def kKnown (e : MxEntry) (meet : Option (Option BusB)) (st : MicroSt) : Bool :=
  !State.isBcast e || st.kSet || st.released || meet.isSome || e.bus.isSome

/-- The routine with the K of its group's source, which applies outside a chunk ULOOP too (R185). -/
def withK (e : MxEntry) (meet : Option (Option BusB)) (st : MicroSt) : MicroSt :=
  if !State.isBcast e || st.kSet || st.released then st else { st with krange := spanOf e meet st st.krange, kSet := true }

/-- MAC (R188): one chunk into tile t, with m2 the word that PR names. -/
def mac (x : Micro) (n : Nat) (e : MxEntry) (meet : Option (Option BusB)) (t : Nat) (m2 : Word64) : MicroEnd :=
  let g0 := x.st.gemm e.snap m2
  let ts := (x.st.chunks e.snap).getD x.st.cursor []
  let b := busB e meet g0
  let g := g0.withBus b
  let old := x.s.tileSeen n t
  let first := x.st.cursor = 0
  if first && g.acc && old.pois then .stop (.mem (x.s.mxUce n e.x))
  else
    let aRows := match x.st.a with
      | some st => st.rows
      | none => MicroSt.freeRows x.s.freeN 20000 g.m ts.length
    let bRows := match x.st.b with
      | some st => st.rows
      | none => MicroSt.freeRows x.s.freeN 60000 ts.length g.n
    -- the stage holds the chunk's rows only: they are put back at their places
    let full := (List.range (ts.headD 0)).map (fun _ => []) ++ bRows
    let part := partOf g { b with rows := full } ts aRows x.st.sig
    let keep := !first || g.acc
    let base (k : Nat) : BitVec 32 := if keep then old.get k else 0
    let (els, fl) := macTile g [part] base base
    let pois := (keep && old.pois) || (match x.st.a with | some st => st.pois | none => false)
      || (match x.st.b with | some st => st.pois | none => false)
    let map := if first then callMap g b old.map else old.map
    .go { s := x.s.putTile n t (.make els map pois), st := { x.st with sig := none }, fl := x.fl ||| fl }

/-- The record and block of a STORE as they stood at issue (R176). At other offsets than those of the call's m5 and m6 the
violation of reading them counts now. -/
def storeRec (x : Micro) (n : Nat) (e : MxEntry) (m5 m6 : Word64) : LRec × Vector Word64 4 × State :=
  let p5 := fld m5 0 24
  let p6 := fld m6 0 24
  if p5 = fld (e.snap.p 5) 0 24 && p6 = fld (e.snap.p 6) 0 24 then (e.snap.erec, e.snap.eorg, x.s)
  else (recOf (memRead e.snap.sp p5 96), Vector.ofFn fun (j : Fin 4) => .ofNat 64 (memRead e.snap.sp p6 32 / 2 ^ (64 * j.val)),
    ((x.s.spRead n p5 96).2.2.spRead n p6 32).2.2)

/-- Why EPI cannot transform a tile with that m7 (R190). -/
def epiBadM7 (sn : MxSnap) (m7 : Word64) (m : CMap) : Bool :=
  fld m7 5 59 != 0 || fld m7 3 2 = 3
    || (fld m7 3 2 = 2 && ((m.live && m.fmt = 0xB) || (!(m.live && m.width = 32) && !sn.soft)))

/-- One microword (R188, R189). `meet`: the bus group of the call can deliver; to a member with the source's B. The model's own
choices: a tile at or above NA, of TL or of m2, is written like any other (log 100); a STORE takes its slot from the m7 word of its
tile's last EPI, else from the call's m7 (log 101). -/
def step (n : Nat) (e : MxEntry) (word : Nat → Word64) (meet : Option (Option BusB)) (x0 : Micro) : MicroEnd :=
  let w := word x0.st.pc
  let ranged : Bool := uOp w = 1 || uOp w = 2 || uOp w = 3 || uOp w = 5
  let x : Micro := if ranged then { x0 with st := withK e meet x0.st } else x0
  let st := x.st
  let op := uOp w
  let pr := uPr w
  let opf := uOpf w
  let t := st.tl w
  let fault : MicroEnd := .stop (.routine x.s (.ofNat 10 st.pc) .ucode)
  let at_ (y : MicroSt) : MicroSt := y.endLoops st.pc 5
  let next (s : State) (y : MicroSt) : MicroEnd := .go { x with s := s, st := at_ y }
  if 12 < op || fld w 48 4 != 0 || (opf &&& (2 ^ 32 - 1 - uMask op)) != 0 then fault
  else if st.released && (op = 3 || op = 4 || op = 6 || op = 7) then fault
  else if ranged && !kKnown e meet x0.st then .hold x0
  else match op with
    | 0 => .stop (.done x.s x.fl)
    | 1 =>
      let a : MicroStage := ⟨st.p pr, opf % 2 = 1, [], false⟩
      let y := { st with a := some a }
      let (rows, po, s1) := x.s.readA n (y.gemm e.snap (st.p 2)) (y.chunk e.snap)
      next s1 { y with a := some { a with rows := rows, pois := po } }
    | 2 =>
      let b : MicroStage := ⟨st.p pr, opf % 2 = 1, [], false⟩
      let ts := st.chunkAt e.snap word
      if st.released && opf / 2 % 2 = 1 then next x.s { st with b := some b }   -- the bus delivers to calls only
      else if opf / 2 % 2 = 1 then
        match e.bus with
        | none => .hold x
        | some bus =>
          if bus.rows.length ≤ ts.getLastD 0 then .hold x
          else next x.s { st with b := some { b with rows := ts.map fun t => bus.rows.getD t [], pois := bus.pois } }
      else
        let y := { st with b := some b }
        let (rows, po, s1) := x.s.readB n (y.gemm e.snap (st.p 2)) ts
        next s1 { y with b := some { b with rows := rows, pois := po } }
    | 3 => match x.mac n e meet t (st.p pr) with
      | .go y => .chunk { y with st := y.st.endLoops st.pc 5 }
      | r => r
    | 4 => next (x.s.putTile n t { Tile.zero with live := true }) st
    | 5 =>
      let g0 := (st.ahead word).gemm e.snap (st.p 2)
      let b := busB e meet g0
      let sg := scalesOf (g0.withBus b) (e.snap.scaled (st.p pr)) b (st.chunkAt e.snap word) (st.p pr)
      next x.s { st with sig := some sg }
    | 6 =>
      let tl := x.s.tileSeen n t
      if tl.pois then .stop (.mem (x.s.mxUce n e.x))
      else if epiBadM7 e.snap (st.p pr) tl.map then fault
      else next (x.s.putTile n t (.make (epiEl e.snap.row tl (st.p pr)) tl.map false)) { st with epi := lput st.epi t (st.p pr) }
    | 7 =>
      let (r, org, s1) := x.storeRec n e (st.p pr) (st.p (pr + 1))
      -- the slot of m7; the transform has been EPI's
      let m7 := lget st.epi t (st.p 7) &&& 7#64
      let map := (s1.tileSeen n t).map
      match epiBad e.snap r ((s1.asShift n).galLimit r) (st.p (pr + 1)) org m7 t (map.live && map.fmt = 0xB) map with
      | some _ => fault
      | none => match s1.epiStore n e t r (st.p (pr + 1)) org m7 with
        | .done s2 f => .go { s := s2, st := at_ st, fl := x.fl ||| f }
        | o => .stop o
    | 8 =>
      let last := opf % 1024
      let chunked := uImm w = 0 && opf / 1024 % 2 = 1
      if last < st.pc || 4 ≤ st.loops.length then fault
      else if chunked && State.isBcast e && meet.isNone && e.bus.isNone then .hold x   -- K is the source's (R185)
      else
        let y := if chunked then
            { st with cursor := 0, krange := spanOf e meet st (st.p pr), kSet := true,
                      plan := st.planOf word MicroSt.isAload (st.pc + 1) last } else st
        let count := if chunked then (y.chunks e.snap).length else uImm w
        if count = 0 || last = st.pc then .go { x with st := ({ y with plan := st.plan } : MicroSt).endLoops last 5 }
        else .go { x with st := { y with pc := st.pc + 1, loops := ⟨st.pc + 1, last, count, chunked⟩ :: st.loops } }
    | 9 => next x.s { st with
        m := st.m.setIfInBounds pr (st.p pr + ((BitVec.ofNat 16 (uImm w)).signExtend 64) <<< (opf % 64)) }
    | 10 => if meet.isSome then next x.s st else .hold x
    | 11 => .chunk { x with st := at_ { st with released := true } }
    | _ => next x.s { st with fmts := slotFmts e.snap (st.p pr) }

/-- A routine up to its next chunk boundary, its wait for a strip or its end. The loops bound its length: at most four
levels of 65,535 passes over 1,024 words. -/
def run (n : Nat) (e : MxEntry) (word : Nat → Word64) (meet : Option (Option BusB)) : Nat → Micro → MxEnd
  | 0, _ => .wait
  | fuel + 1, x =>
    let keep (y : Micro) : MxEnd := .part y.s { e with micro := some y.st, fl := e.fl ||| y.fl }
    if 1023 < x.st.pc then .routine x.s (.ofNat 10 x.st.pc) .ucode
    else match x.step n e word meet with
      | .stop r => r
      | .chunk y => keep y
      | .hold y => if e.micro = some y.st then .wait else keep y
      | .go y => run n e word meet fuel y

/-- Microwords that bound a routine. -/
def bound : Nat := 2 ^ 80

end Micro

namespace State

/-- A microword of a core's store (R186). -/
def ustoreWord (s : State) (c a : Nat) : Word64 := if a < 256 then Config.romWord a else lget (s.core c).ustore a 0

/-- An entry of a core's routine table. -/
def utabEntry (s : State) (c r : Nat) : BitVec 16 :=
  if r < 6 then 0x8000 ||| (Config.romEntry r).setWidth 16 else lget (s.core c).utab r 0

/-- The state in which a code object's routine begins. The operand formats are undefined until a FMT, the chunk cursor is 0, and the
k range is m3's until a chunk ULOOP (the model's choices, log 102). -/
def microStart (sn : MxSnap) (fr a : Nat) : MicroSt where
  pc := a
  m := sn.m
  cursor := 0
  krange := sn.p 3
  kSet := false
  loops := []
  a := none
  b := none
  plan := none
  sig := none
  fmts := slotFmts sn (Config.freeWord fr 4000)
  released := false
  epi := []

/-- A call of a code object's routine goes on to its next chunk boundary. -/
def performRoutine (s : State) (n : Nat) (e : MxEntry) (idx : Nat) (meet : Option (Option BusB)) : MxEnd :=
  let ent := s.utabEntry (n / 4) idx
  match e.micro with
  | some x => Micro.run n e (s.ustoreWord (n / 4)) meet Micro.bound ⟨s, x, 0⟩
  | none =>
    if ent.getLsbD 15 = false then .routine s (ent.setWidth 10) .ucode
    else Micro.run n e (s.ustoreWord (n / 4)) meet Micro.bound ⟨s, microStart e.snap s.freeN (ent.setWidth 10).toNat, 0⟩

/-! ### Entries performed (R175) -/

/-- Positions of a slab of a tile (R199). -/
def tileOffs (w : Window) (slab : Word64) : List (Option (Nat × Nat)) :=
  let c := slabPos slab
  (List.range tileSize).map fun k =>
    let x := addAt c w.vo (k / 128) w.vi (k % 128)
    if w.inside x then some (w.off x) else none

/-- MLDA performed. -/
def performLda (s : State) (n t : Nat) (w : Window) (slab : Word64) : State :=
  let (xs, p, s1) := (s.asShift n).readEls w.fmt 0 (tileOffs w slab)
  let a := xs.toArray
  s1.putTile n t (.make (fun k => .ofNat 32 (a.getD k 0)) { loadMap w (slabPos slab) w.vi w.vo with ie := 128 } p)

/-- MSTA performed. -/
def performSta (s : State) (n : Nat) (e : MxEntry) (t : Nat) (w : Window) (slab : Word64) (slot : Nat) : MxEnd :=
  let tl := s.tileSeen n t
  if tl.pois then .mem (s.mxUce n e.x)
  else
    let vs := ((tileOffs w slab).zipIdx.filter fun p => p.1.isSome).map fun p =>
      (p.1, storedEl e.snap tl (.ofNat 64 slot) p.2)
    .done ((s.asShift n).writeEls w.fmt (vs.map Prod.fst) (vs.map fun v => v.2.1)) (vs.foldl (fun a v => a ||| v.2.2) 0)

/-- MWR performed (R200). -/
def performWr (s : State) (n : Nat) (a b : Word64) : MxEnd :=
  let c := s.core (n / 4)
  let loc := fld a 0 10
  let bad : MxEnd := .routine s (.ofNat 10 loc) .opnd
  if fld a 11 53 != 0 then bad
  else if a.getLsbD 10 then
    if loc % 64 < 6 then bad
    else .done (s.setCore (n / 4) { c with utab := lput c.utab (loc % 64) (b.setWidth 16) }) 0
  else if loc < 256 then bad
  else .done (s.setCore (n / 4) { c with ustore := lput c.ustore loc b }) 0

/-- MRD performed (R200): the result waits for the MWAIT. -/
def performRd (s : State) (n : Nat) (e : MxEntry) (d : R5) (a : Word64) : MxEnd :=
  let loc := fld a 0 10
  if fld a 11 53 != 0 then .routine s (.ofNat 10 loc) .opnd
  else
    let v : Word64 := if a.getLsbD 10 then (s.utabEntry (n / 4) (loc % 64)).setWidth 64 else s.ustoreWord (n / 4) loc
    .done (s.modSh n fun x => { x with mrd := x.mrd ++ [(d, v, e.bundle, false)] }) 0

/-- The group and mask of an MBGRP. -/
def grpOf (g : Word64) : BitVec 2 × BitVec 8 := (.ofNat 2 (fld g 8 2), .ofNat 8 (fld g 0 8))

/-- The attachments to group t in a gallery changed. -/
def modGroup (s : State) (gal : Nat) (t : BitVec 2 × BitVec 8) (f : BgMem → BgMem) : State :=
  { s with shifts := s.shifts.map fun p =>
      if p.1 / 32 = gal && Shift.attached p.2 = some t then (p.1, { p.2 with bg := p.2.bg.map f }) else p }

/-- The cores whose member has left group t of a gallery. -/
def goneOf (s : State) (gal : Nat) (t : BitVec 2 × BitVec 8) : BitVec 8 :=
  s.shifts.foldl (fun m p => if p.1 / 32 = gal && Shift.attached p.2 = some t then
    m ||| (match p.2.bg with | some b => b.gone | none => 0) else m) 0

/-- The bus of shift n detaches; the members that stay know its core as left, unless another shift of it is attached. -/
def leaveGroup (s : State) (n : Nat) : State := match Shift.attached (s.sh n) with
  | none => s
  | some t =>
    let s1 := s.modSh n fun x => { x with bg := none }
    if (shiftsOf (n / 4)).any fun m => Shift.attached (s1.sh m) = some t then s1
    else s1.modGroup (n / 32) t fun b => { b with gone := b.gone ||| (1#8 <<< (n / 4 % 8)) }

/-- MBGRP performed: the bus attaches or detaches (R201). -/
def performBgrp (s : State) (n : Nat) (g : Word64) : State :=
  let s1 := s.leaveGroup n
  if fld g 0 8 = 0 then s1
  else
    let t := grpOf g
    let here : BitVec 8 := ~~~ (1#8 <<< (n / 4 % 8))
    let s2 := s1.modGroup (n / 32) t fun b => { b with gone := b.gone &&& here }
    s2.modSh n fun x => { x with bg := some ⟨t.1, t.2, 0, s.freeN, s2.goneOf (n / 32) t⟩ }

/-- Whether an entry calls a code object's routine. -/
def isLoaded (e : MxEntry) : Bool := match e.op with
  | .call idx => 6 ≤ idx
  | _ => false

/-- Whether a BCAST call has all of its B. -/
def busFull (e : MxEntry) : Bool := match e.bus with
  | none => false
  | some b => b.rows.length = b.k

/-- The head entry of shift n's queue, when it can be served (11 R227, R233). -/
def mxHead (s : State) (n : Nat) : Option MxEntry :=
  let x := s.sh n
  if x.memTrap.isSome || x.mxFault.isSome then none else x.mxq.head?.filter fun e => !s.held n e.bundle

/-! ### Broadcast groups (R185) -/

/-- The shifts attached to group g of a gallery. -/
def groupShifts (s : State) (gal g : Nat) : List Nat :=
  ((List.range 32).map (32 * gal + ·)).filter fun n => match (s.sh n).bg with
    | some b => b.grp.toNat = g
    | none => false

def groupMask (s : State) (n : Nat) : BitVec 8 := match (s.sh n).bg with
  | some b => b.mask
  | none => 0

def groupCalls (s : State) (n : Nat) : Nat := match (s.sh n).bg with
  | some b => b.calls
  | none => 0

/-- The step in which a shift has joined its group. -/
def groupSince (s : State) (n : Nat) : Nat := match (s.sh n).bg with
  | some b => b.since
  | none => 0

/-- Of shifts of one core with one mask the first that has joined: another waits until its leave is performed. -/
def firstIn (s : State) (l : List Nat) : Option Nat := match l with
  | [] => none
  | a :: r => some (r.foldl (fun x y => if s.groupSince y < s.groupSince x then y else x) a)

/-- The active groups of a number, source first: one shift of each core of a mask, all with that mask. -/
def activeGroups (s : State) (gal g : Nat) : List (List Nat) :=
  let all := s.groupShifts gal g
  ((all.map s.groupMask).eraseDups).filterMap fun m =>
    ((List.range 8).filter fun c => m.getLsbD c).mapM fun c =>
      s.firstIn (all.filter fun k => s.groupMask k = m && decide (k / 4 % 8 = c))

/-- The active group in which shift n stands. -/
def groupOf (s : State) (n : Nat) : Option (List Nat) := match (s.sh n).bg with
  | none => none
  | some b => (s.activeGroups (n / 32) b.grp.toNat).find? fun l => l.contains n

/-- B as a call of shift n, the source, names it (R185): a code object's routine by its next BRECV from the bus, with SLB of its
m2. -/
def callBus (s : State) (n : Nat) (e : MxEntry) : Option BusB := match e.op with
  | .call idx =>
    if idx < 6 then some (busOf (gemmOf idx e.snap))
    else
      let x := (e.micro.getD (microStart e.snap s.freeN ((s.utabEntry (n / 4) idx).setWidth 10).toNat)).busAhead (s.ustoreWord (n / 4))
      some { busOf (x.gemm e.snap (x.p 2)) with fmt := (slotFmts e.snap (x.p 2)).2 }
  | _ => none

/-- Where the paired calls of shift n's group all stand at the heads of their queues (R188 WAITB): for a member B as the
source's call names it, for the source nothing. -/
def groupBus (s : State) (n : Nat) : Option (Option BusB) := match s.groupOf n with
  | none => none
  | some l =>
    if l.all fun k => match s.mxHead k with
      | some e => isBcast e && !MxEntry.released e && s.groupCalls k = s.groupCalls n
      | none => false
    then some (if l.head? = some n then none else l.head?.bind fun k => (s.mxHead k).bind (s.callBus k)) else none

/-- One part of an entry performed (R175, R194). -/
def performEntry (s : State) (n : Nat) (e : MxEntry) : MxEnd :=
  match e.op with
  | .call idx =>
    -- a BCAST call waits in its queue while the group is not active (R185)
    if 6 ≤ idx then
      if isBcast e && e.micro.isNone && (s.groupOf n).isNone then .wait else s.performRoutine n e idx (s.groupBus n)
    else if isBcast e && !busFull e then .wait
    else if idx = 3 then s.epiStep n e (fld (e.snap.p 2) 0 3) e.done
    else s.performGemm n e idx
  | .zero t => .done (s.putTile n t.toNat { Tile.zero with live := true }) 0
  | .rel t => .done (s.modSh n fun x => { x with
      tiles := x.tiles.setIfInBounds t.toNat { (x.tiles[t.toNat]?.getD .zero) with live := false } }) 0
  | .lda t w slab => .done (s.performLda n t.toNat (e.snap.w[w.toNat]?.getD .zero) slab) 0
  | .sta t w slab f => s.performSta n e t.toNat (e.snap.w[w.toNat]?.getD .zero) slab f.toNat
  | .wr a b => s.performWr n a b
  | .rd d a => s.performRd n e d a
  | .bgrp g => .done (s.performBgrp n g) 0

/-- The head entry of shift n performed up to its next chunk or row boundary, its release or its fault. Later entries stay
behind a routine fault until the trap discards them (R189). -/
def performHead (s : State) (n : Nat) : State :=
  match s.mxHead n with
  | none => s
  | some e =>
    let cur := s.cur
    -- a BCAST call is counted when it is released
    let counted (b : BgMem) : BgMem := if isBcast e && !MxEntry.released e then { b with calls := b.calls + 1 } else b
    let fin (t : State) : State := { t.goAhead n e.bundle with cur := cur }
    match s.performEntry n e with
    | .wait => s
    | .mem s1 => fin s1
    | .part s1 e1 =>
      if MxEntry.released e1 && !MxEntry.released e then
        fin ((s1.mxFlags n e e1.fl).modSh n fun x => { x with
          mxq := { e1 with fl := 0 } :: x.mxq.drop 1, bg := x.bg.map counted })
      else fin (s1.modSh n fun x => { x with mxq := e1 :: x.mxq.drop 1 })
    | .routine s1 a c =>
      let s2 := match e.op with
        | .call _ => s1.spoilTile n (fld (e.snap.p 2) 0 3)
        | _ => s1
      fin (s2.modSh n fun x => { x with mxFault := some (a, e.x, c) })
    | .done s1 f => fin ((s1.mxFlags n e (e.fl ||| f)).modSh n fun x => { x with
        mxq := x.mxq.drop 1
        bg := x.bg.map counted })

/-- Whether an entry has begun: it runs to its release before the unit serves another shift (R175). -/
def mxBegun (e : MxEntry) : Bool := e.bus.isSome || e.done != 0 || e.micro.isSome

/-- Whether the core's matrix unit can serve shift n now. -/
def mxReady (s : State) (n : Nat) : Bool := match s.mxHead n with
  | none => false
  | some e => if isLoaded e then !isBcast e || e.micro.isSome || (s.groupOf n).isSome else !isBcast e || busFull e

/-- Whether a call of shift n has begun. -/
def mxPartial (s : State) (n : Nat) : Bool := match s.mxHead n with
  | none => false
  | some e => mxBegun e

/-- The shift that the matrix unit of a core serves next (R175): the one whose entry has begun, else the next in turn. -/
def mxNext (s : State) (c : Nat) : Option Nat :=
  let l := (List.range 4).map fun i => 4 * c + ((s.core c).mxTurn + i) % 4
  match l.find? s.mxPartial with
  | some n => if s.mxReady n then some n else none
  | none => l.find? s.mxReady

/-- MXQ_PERFORM for core c. The turn passes on when the entry is released. -/
def mxqPerform (s : State) (c : Nat) : State :=
  match s.mxNext c with
  | none => s
  | some n =>
    let s1 := s.performHead n
    if s1.mxPartial n then s1 else s1.setCore c { s1.core c with mxTurn := (n + 1) % 4 }

/-! ### The broadcast bus (R185) -/

/-- A strip reaches a member. -/
def giveStrip (s : State) (n : Nat) (b : BusB) (rows : List (List Nat)) (pois : Bool) : State :=
  s.modSh n fun x => match x.mxq with
    | [] => x
    | e :: r =>
      let old := e.bus.getD { b with rows := [], pois := false }
      { x with mxq := { e with bus := some { old with rows := old.rows ++ rows, pois := old.pois || pois } } :: r }

/-- A loaded routine that stands at a BRECV from the bus: the B stage that it loads there. -/
def atBrecv (s : State) (n : Nat) (e : MxEntry) : Option (MicroSt × MicroStage) := match e.micro with
  | none => none
  | some x =>
    let w := s.ustoreWord (n / 4) x.pc
    if uOp w = 2 && uOpf w / 2 % 2 = 1 then some (x, ⟨x.p (uPr w), uOpf w % 2 = 1, [], false⟩) else none

/-- Rows of B that a call has received. -/
def busRows (e : MxEntry) : Nat := match e.bus with
  | some x => x.rows.length
  | none => 0

/-- Whether the call at the head of shift n's queue is ready to take the strip that begins at row `have_`. -/
def takesStrip (s : State) (n calls have_ : Nat) : Bool := match s.mxHead n with
  | none => false
  | some e =>
    isBcast e && !MxEntry.released e && busRows e = have_ && s.groupCalls n = calls && (shiftsOf (n / 4)).all (fun k => k = n || !s.mxPartial k)
    && (if isLoaded e then (match s.atBrecv n e with
        | some (x, _) => (x.chunkAt e.snap (s.ustoreWord (n / 4))).headD 0 = have_
        | none => false) else !busFull e)

/-- The product and the rows of the strip that the source's call reads next. -/
def sourceStrip (s : State) (n : Nat) (e : MxEntry) : Option (Gemm × List Nat) :=
  match e.op with
  | .call idx =>
    if 6 ≤ idx then (s.atBrecv n e).map fun p =>
      let x := { p.1 with b := some p.2 }
      (x.gemm e.snap (x.p 2), x.chunkAt e.snap (s.ustoreWord (n / 4)))
    else
      let g := gemmOf idx e.snap
      some (g, (g.chunks.find? fun c => c.head? = some (busRows e)).getD [busRows e])
  | _ => none

/-- A call that the bus serves goes ahead of the ACASes in front of it (11 R227). -/
def callAhead (s : State) (n : Nat) : State := match s.mxHead n with
  | none => s
  | some e => s.goAhead n e.bundle

/-- The next strip of B goes to every member of a pair, once each stands ready to take it. -/
def stripTo (s : State) (l : List Nat) : Option State :=
  match l with
  | [] => none
  | src :: _ => match s.mxHead src with
    | none => none
    | some e =>
      if !l.all fun n => s.takesStrip n (s.groupCalls src) (busRows e) then none
      else (s.sourceStrip src e).map fun p =>
        let (rows, pois, s1) := s.readB src p.1 p.2
        l.foldl (fun t n => (t.callAhead n).giveStrip n (busOf p.1) rows pois) { s1 with cur := s.cur }

/-- BROADCAST_STRIP: the first active group of number g whose members can take a strip takes it. -/
def broadcastStrip (s : State) (gal g : Nat) : State := ((s.activeGroups gal g).findSome? s.stripTo).getD s

/-- A BCAST call as its group knows it: the group, and its number since the shift has joined (R185). -/
abbrev BcastKey := (BitVec 2 × BitVec 8) × Nat

/-- The entries of a shift's queue, each BCAST call among them with its key as of issue, and the key that the next one has
(R185, R201). -/
def bcastKeys (x : Shift) : List (MxEntry × Option BcastKey) × Option BcastKey :=
  x.mxq.foldl (fun (a : List (MxEntry × Option BcastKey) × Option BcastKey) e => match e.op with
    | .bgrp g => (a.1 ++ [(e, none)], if fld g 0 8 = 0 then none else some (grpOf g, 0))
    | _ => if isBcast e && !MxEntry.released e then (a.1 ++ [(e, a.2)], a.2.map fun k => (k.1, k.2 + 1))
      else (a.1 ++ [(e, none)], a.2))
    ([], x.bg.map fun b => ((b.grp, b.mask), b.calls))

/-- The calls with one key, in order, that the bus has delivered nothing to: the first of them pairs with the first of the
source's, and so on, where a group has been left and joined anew. -/
def openCalls (l : List (MxEntry × Option BcastKey)) (k : BcastKey) : List MxEntry :=
  (l.filter fun p => p.2 = some k && p.1.bus.isNone).map Prod.fst

/-- B as the source of the call's group names it, for the map of a member's product (R185): `ahead` calls with the same key
stand before it, `own` is the call's own operand. A paired call that the source has not issued yet leaves the coordinate free (log
82). -/
def sourceBus (s : State) (n : Nat) (key : Option BcastKey) (ahead : Nat) (own : BusB) : BusB :=
  match key with
  | none => own
  | some k => match (List.range 8).find? fun c => k.1.2.getLsbD c with
    | none => own
    | some c =>
      if n / 4 % 8 = c then own
      else
        let core := (List.range 4).map fun i => 32 * (n / 32) + 4 * c + i
        let order := core.filter (fun m => Shift.attached (s.sh m) = some k.1)
          ++ core.filter fun m => Shift.attached (s.sh m) != some k.1
        let call := (order.flatMap fun m => openCalls (bcastKeys (s.sh m)).1 k)[ahead]?
        (call.bind (s.callBus (32 * (n / 32) + 4 * c))).getD { own with n0 := (Config.freeWord s.freeN 4200).setWidth 32 }

/-! ### Issue (R176-R180) -/

/-- A loaded routine run to its end for the maps that it leaves, its strips taken as read. -/
def mapRoutine (n : Nat) (e : MxEntry) (idx : Nat) : Nat → State → State
  | 0, s => s
  | fuel + 1, s => match s.performRoutine n e idx (some none) with
    | .part t e1 => if e1.micro = e.micro then t else mapRoutine n e1 idx fuel t
    | .done t _ => t
    | .mem t => t
    | .routine t _ _ => t
    | .wait => s

/-- The maps of a shift's tiles after one entry, `seen` the entries before it: only the maps of the answer, and the routines that it
holds, count (R176). -/
def mapStep (n : Nat) (a : State × List (MxEntry × Option BcastKey)) (p : MxEntry × Option BcastKey) :
    State × List (MxEntry × Option BcastKey) :=
  let (s, seen) := a
  let e := p.1
  let put (t : Nat) (m : CMap) : State :=
    s.modSh n fun x => { x with tiles := x.tiles.setIfInBounds t { (x.tiles[t]?.getD .zero) with map := m, live := true } }
  let bus (own : BusB) : BusB := match p.2 with
    | none => own
    | some k => s.sourceBus n (some k) (openCalls seen k).length own
  let t : State := match e.op with
    | .rel t => s.modSh n fun x => { x with
        tiles := x.tiles.setIfInBounds t.toNat { (x.tiles[t.toNat]?.getD .zero) with live := false } }
    | .zero t => put t.toNat .none
    | .lda t w slab =>
      let win := e.snap.w[w.toNat]?.getD .zero
      put t.toNat { loadMap win (slabPos slab) win.vi win.vo with ie := 128 }
    | .call idx =>
      if idx = 3 then s
      else if idx < 6 then
        let g := gemmOf idx e.snap
        -- a call that has written its first chunk has written its map
        if e.done = 0 then put g.tile (callMap g (e.bus.getD (bus (busOf g))) (s.tileSeen n g.tile).map) else s
      else
        let b := (s.callBus n e).map bus
        mapRoutine n { e with bus := if isBcast e then b.map fun b => { b with rows := List.replicate b.k (List.replicate b.n 0) }
          else e.bus } idx Micro.bound s
    | .wr a b => match s.performWr n a b with
      | .done t _ => t
      | _ => s
    | _ => s
  (t, seen ++ [p])

/-- The map of tile t as the entries in the queue leave it. -/
def queuedMap (s : State) (n t : Nat) : CMap :=
  (((bcastKeys (s.sh n)).1.foldl (mapStep n) (s, [])).1.tileSeen n t).map

/-- ILLEGAL (OPND) of an MX instruction by its parameters; `reg` names the register with a reserved bit set. -/
def paramBad (s : State) (reg : Nat) : State := s.trapAt .illegal (.ofNat 64 (Illegal.opnd.code + reg * 256))

/-- The snapshot without epilogue records. -/
def mxSnap (s : State) : MxSnap :=
  let m := s.me.arch.m
  let m4 := m[4]?.getD 0
  { m := m
    w := Vector.ofFn fun (k : Fin 8) => s.windowAt (.ofNat 3 k.val)
    erec := Vector.replicate 12 0
    eorg := Vector.replicate 4 0
    sva := (s.rdV (.ofNat 5 (fld m4 0 5))).data
    svb := (s.rdV (.ofNat 5 (fld m4 5 5))).data
    row := s.cur.row
    soft := s.me.arch.c.cmapsoft
    nkey := s.me.arch.c.nkey
    vs := []
    sp := [] }

/-- An entry joins the queue; a full queue stalls the bundle (R175). -/
def pushMx (s : State) (op : MxOp) (sn : MxSnap) : Out :=
  if 8 ≤ (Shift.mxLive s.me).length then s.stall
  else .next (s.modMe fun x => { x with mxq := x.mxq ++ [⟨op, sn, s.cur.x, s.cur.bundle, none, 0, 0, none⟩] })

/-- The first parameter register with a reserved bit set (R177, R186). -/
def reservedParam (idx : Nat) (sn : MxSnap) : Option Nat :=
  let bad (k : Nat) (named : Nat) : Option Nat := if (sn.p k).toNat &&& (2 ^ 64 - 1 - named) != 0 then some k else none
  let m03 := [bad 0 0x0000FFFFFFFF0007, bad 1 0x0000FFFFFFFF0007, bad 2 0xFFFFFF, bad 3 0x0000FFFFFFFFFFFF]
  let l := if idx = 4 then m03 ++ [bad 4 0x3FFFF] else if idx = 5 then m03 ++ [bad 4 7] else m03
  l.findSome? id

def gemmFmtOk (f : Nat) : Bool := f = 1 || f = 2 || f = 3 || f = 4 || f = 5 || f = 6 || f = 8 || f = 9

/-- The bank groups that hold elements at offsets (R180). -/
def bankGroups (f : Nat) (offs : List (Option (Nat × Nat))) : List Nat :=
  let gs := offs.flatMap fun o => match o with
    | some (b, _) => granulesOf b (locBytes f)
    | none => []
  (List.range 4).filter fun k => gs.any fun g => g / 32 % 4 = k

/-- Whether the issuing shift is a member of a broadcast group, and its source (R185, R201). -/
def memberOf (s : State) : Option Bool :=
  s.me.bgIss.map fun p => (List.range 8).find? (fun c => p.2.getLsbD c) = some (s.cur.shift / 4 % 8)

/-- The checks of a GEMM call (R177-R180, R185). -/
def gemmCheck (s : State) (idx : Nat) (sn : MxSnap) : Res Unit :=
  let g := gemmOf idx sn
  let na := s.me.k.na.toNat
  match reservedParam idx sn with
  | some k => .error (s.paramBad k)
  | none =>
    if g.m = 0 || g.n = 0 || g.k = 0 || 128 < g.m || 128 < g.n || na ≤ g.tile || g.od = g.id || 5 < g.od.toNat
        || 5 < g.id.toNat || !gemmFmtOk g.fa || !gemmFmtOk g.fb || (g.fa = 8 || g.fa = 9) != (g.fb = 8 || g.fb = 9)
    then .error (s.paramBad 0)
    else if !g.wa.valid || !g.wb.valid then
      .error (s.trapAt .layoutrsv (layoutInfo 5 (if g.wa.valid then fld (sn.p 1) 0 3 else fld (sn.p 0) 0 3) rsvVal))
    else if fmtWidth g.wa.fmt != fmtWidth g.fa || fmtWidth g.wb.fmt != fmtWidth g.fb
        || (idx = 4 && decide (g.kA 0 % 32 ≠ (tensorAt g.wb g.bk g.kob).toInt % 32)) then .error (s.paramBad 0)
    else
      let all := List.range g.k
      match (if g.bcast then s.memberOf else some true) with
      | none => .error (s.trapAt .bgroup 2)
      | some src =>
        let ga := bankGroups g.wa.fmt (g.aOffs all)
        let gb := if g.bcast && !src then [] else bankGroups g.wb.fmt (g.bOffs all)
        match ga.find? fun k => gb.contains k with
        | some k => .error (s.trapAt .bgroup (.ofNat 64 (1 + 4 * k)))
        | none => .ok ()

/-- The snapshot with the epilogue's record and block (R176), read as the shift's own accesses. -/
def mxRecords (s : State) (sn : MxSnap) : Res (MxSnap × State) :=
  let p5 := fld (sn.p 5) 0 24
  let p6 := fld (sn.p 6) 0 24
  if p5 % 8 != 0 || p6 % 8 != 0 then .error (s.trapAt .align s.freeInfo)
  else
    let (rv, e0, s1) := s.spRead s.cur.shift p5 96
    let (ov, e1, s2) := if p6 = 0 then (0, false, s1) else s1.spRead s.cur.shift p6 32
    if e0 || e1 then .error s2.uceAt
    else .ok ({ sn with
      erec := recOf rv
      eorg := Vector.ofFn fun (j : Fin 4) => .ofNat 64 (ov / 2 ^ (64 * j.val)) }, s2)

/-- The checks of an epilogue on tile t, whose map will be m (R190). -/
def epiCheck (s : State) (sn : MxSnap) (t : Nat) (int : Bool) (m : CMap) : Res Unit :=
  match epiBad sn sn.erec (s.galLimit sn.erec) (sn.p 6) sn.eorg (sn.p 7) t int m with
  | some (c, info) => .error (s.trapAt c info)
  | none => .ok ()

/-- An MX instruction that names tile t (R112). -/
def tileOp (s : State) (t : BitVec 3) (k : Out) : Out :=
  if s.me.k.na.toNat ≤ t.toNat then .next (s.illegalAt .opnd) else k

/-- A result of checks, then an entry. -/
def thenPush (r : Res (MxSnap × State)) (op : MxOp) : Out :=
  match r with
  | .error e => .next e
  | .ok (sn, s) => s.pushMx op sn

/-- The refusal of MBGRP (R201). -/
def groupBad (s : State) (g : Word64) : Bool :=
  let m := fld g 0 8
  let c := s.cur.shift / 4 % 8
  fld g 10 54 != 0 || (m != 0 && (m / 2 ^ c % 2 = 0
    || (shiftsOf (s.cur.shift / 4)).any fun n => n != s.cur.shift && (match (s.sh n).bgIss with
      | some p => p.1.toNat = fld g 8 2
      | none => false)))

end State

/-- MCALL (R196). One that its checks refuse leaves no record of a violation (log 104). -/
def execMcall (i : BitVec 10) (s : State) : Out :=
  let idx := i.toNat
  if 64 ≤ idx then .next (s.illegalAt .opnd)
  else
    let sn := s.mxSnap
    let t := fld (sn.p 2) 0 3
    let op := MxOp.call idx
    if idx = 3 then
      State.thenPush (do
        if s.me.k.na.toNat ≤ t then .error (s.paramBad 0)
        let (sn, s1) ← s.mxRecords sn
        let m := s1.queuedMap s.cur.shift t
        s.epiCheck sn t (m.live && m.fmt = 0xB) m
        pure (sn, s1)) op
    else if idx < 6 then
      State.thenPush (do
        s.gemmCheck idx sn
        if idx = 4 then s.uses [.ofNat 5 (fld (sn.p 4) 0 5), .ofNat 5 (fld (sn.p 4) 5 5)] []
        if fld (sn.p 2) 23 1 = 0 then pure (sn, s)
        else
          let g := gemmOf idx sn
          let (sn, s1) ← s.mxRecords sn
          let keys := State.bcastKeys s1.me
          let b := if g.bcast then s1.sourceBus s.cur.shift keys.2
            ((keys.2.map fun k => (State.openCalls keys.1 k).length).getD 0) (busOf g) else busOf g
          s.epiCheck sn t g.isInt (callMap g b (s1.queuedMap s.cur.shift t))
          pure (sn, s1)) op
    else
      -- a code object's routine: its record is taken as it stands; its BCAST bit makes it a BCAST call
      match (if fld (sn.p 2) 4 1 = 1 then s.memberOf else some true) with
      | none => .next (s.trapAt .bgroup 2)
      | some _ =>
        let (rv, _, s1) := s.spRead s.cur.shift (fld (sn.p 5) 0 24) 96
        let (ov, _, _) := s1.spRead s.cur.shift (fld (sn.p 6) 0 24) 32
        s.pushMx op { sn with
          vs := (List.range 32).map fun r => (r, (s.rdV (.ofNat 5 r)).data)
          sp := (s.gal s.myGal).sp.filter fun c => (s.violation s.cur.shift c.1).isNone
          erec := recOf rv
          eorg := Vector.ofFn fun (j : Fin 4) => .ofNat 64 (ov / 2 ^ (64 * j.val)) }

/-- MPARM (R197). -/
def execMparm (n : BitVec 3) (a : R5) (s : State) : Out :=
  s.usesG [a] (.next (s.modArch fun x => { x with m := x.m.setIfInBounds n.toNat (s.rdG a) }))

/-- MZERO (R198). -/
def execMzero (t : BitVec 3) (s : State) : Out := s.tileOp t (s.pushMx (.zero t) s.mxSnap)

/-- MREL (R198). -/
def execMrel (t : BitVec 3) (s : State) : Out := s.tileOp t (s.pushMx (.rel t) s.mxSnap)

/-- MLDA (R199). -/
def execMlda (t w : BitVec 3) (b : R5) (s : State) : Out :=
  s.tileOp t (s.usesG [b]
    (let win := s.windowAt w
     if !win.valid then s.windowTrap w rsvVal
     else if win.fmt != 0 && win.fmt != 0xB then .next (s.paramBad 0)
     else s.pushMx (.lda t w (s.rdG b)) s.mxSnap))

/-- MSTA (R199). -/
def execMsta (t w : BitVec 3) (b : R5) (f : BitVec 3) (s : State) : Out :=
  s.tileOp t
    (if s.slotFmt f = 7 then s.unsuitable
     else s.usesG [b]
      (let win := s.windowAt w
       if !win.valid then s.windowTrap w rsvVal
       else if win.fmt != s.slotFmt f then .next (s.paramBad 0)
       else match (if 4 ≤ s.slotRm f then s.readMapOf (s.queuedMap s.cur.shift t.toNat) t.toNat 32 true else .ok none) with
         | .error e => .next e
         | .ok _ => s.pushMx (.sta t w (s.rdG b) (f.setWidth 8)) s.mxSnap))

/-- MWR (R200): a supervisor instruction. -/
def execMwr (a b : R5) (s : State) : Out :=
  if !s.me.k.priv then .next (s.privAt 0xFFF)
  else s.usesG [a, b] (s.pushMx (.wr (s.rdG a) (s.rdG b)) s.mxSnap)

/-- MRD (R200): G[D] is undefined until the MWAIT. -/
def execMrd (d a : R5) (s : State) : Out := s.usesG [a] (s.pushMx (.rd d (s.rdG a)) s.mxSnap)

/-- MBGRP (R201). -/
def execMbgrp (a : R5) (s : State) : Out :=
  s.usesG [a]
    (let g := s.rdG a
     if s.groupBad g then .next (s.trapAt .bgroup 3)
     else match s.pushMx (.bgrp g) s.mxSnap with
       | .next s1 =>
         if s1.cur.fin = .blocked then .next s1
         else .next (s1.modMe fun x => { x with
           bgIss := if fld g 0 8 = 0 then none else some (.ofNat 2 (fld g 8 2), .ofNat 8 (fld g 0 8)) })
       | o => o)

/-- MWAIT (R202). -/
def execMwait (n : BitVec 3) (s : State) : Out :=
  let x := s.me
  if n.toNat < (Shift.mxLive x).length then
    match x.mxFault with
    | some f => .next (s.mxTrap f)
    | none => .next (s.blockAt (.mwait n.toNat))
  else .next (s.modMe fun y => { y with
    mrd := y.mrd.map fun p => (p.1, p.2.1, p.2.2.1, true)
    mxFl := y.mxFl.map fun p => (p.1, p.2.1, p.2.2.1, true) })

end Sys2Proof.Machine
end

