-- ==== Sys2Proof/Machine/Save.lean ====
section
/-! DEFINITION. Pre-emption and resume (14 R294-R298; 09 R194, R195; 15 R310): the save area's image, the save of a
shift, the move of a compiled gallery, and the resume. -/

namespace Sys2Proof.Machine

/-! ### The save area's image (R296) -/

/-- Words as bytes. -/
def wordBytes (l : List Word64) : List Byte := l.flatMap fun w => (List.range 8).map fun i => .ofNat 8 (w.toNat / 256 ^ i)

/-- The list brought to n words with zeros. -/
def padTo (l : List Word64) (n : Nat) : List Word64 := (l ++ List.replicate (n - l.length) 0).take n

/-- A number as n words, the lowest first. -/
def natWords (v n : Nat) : List Word64 := (List.range n).map fun i => .ofNat 64 (v / 2 ^ (64 * i))

/-- n words of a part whose inner layout the manual does not give, from what it holds (log 8). -/
def openWords (part : Nat) (items : List Nat) (n : Nat) : List Word64 := (List.range n).map (Config.saveWord part items)

/-- The image of a loop level (12 R245). -/
def Level.words (l : Level) : List Word64 :=
  [l.start, l.stop, l.idx ++ l.trip, .ofNat 64 (l.off.toNat + l.act.toNat * 2 ^ 32 + l.ord.toNat * 2 ^ 40)]

def Level.ofWords (w : Nat → Word64) : Level where
  start := w 0
  stop := w 1
  trip := .ofNat 32 (fld (w 2) 0 32)
  idx := .ofNat 32 (fld (w 2) 32 32)
  off := .ofNat 32 (fld (w 3) 0 32)
  act := fld (w 3) 32 1 = 1
  ord := .ofNat 8 (fld (w 3) 40 8)
  behind := 0

/-- The image of a window (05 R101). -/
def Window.words (w : Window) : List Word64 :=
  w.rcd.toList ++ (List.range 3).map (fun i => (w.org[2 * i + 1]?.getD 0) ++ (w.org[2 * i]?.getD 0))
    ++ [.ofNat 64 (w.ctl.toNat + w.valid.toNat * 2 ^ 32)]

def Window.ofWords (w : Nat → Word64) : Window where
  rcd := Vector.ofFn fun (k : Fin 12) => w k.val
  org := Vector.ofFn fun (j : Fin 6) => .ofNat 32 (fld (w (12 + j.val / 2)) (32 * (j.val % 2)) 32)
  ctl := .ofNat 32 (fld (w 15) 0 32)
  valid := fld (w 15) 32 1 = 1

/-- The image of an iterator (12 R254). -/
def Iter.words (i : Iter) : List Word64 := [i.base] ++ i.stride.toList ++ [i.dir.setWidth 64]

def Iter.ofWords (w : Nat → Word64) : Iter where
  base := w 0
  stride := Vector.ofFn fun (j : Fin 6) => w (1 + j.val)
  dir := .ofNat 6 (fld (w 7) 0 6)

/-- A front from the words of its image (10 R218). -/
def Front.ofWords (w : Nat → Word64) : Front where
  cfg := w 0
  tuples := (List.range (min 64 (fld (w 1) 0 32))).map fun i =>
    tupleOf (w (8 + 4 * i)).toNat (w (9 + 4 * i)).toNat (w (10 + 4 * i)).toNat
  age := .ofNat 32 (fld (w 1) 32 32)
  pois := false

/-- The CSRs of the save area, in its order (R296). -/
def saveCsrs : List Nat :=
  List.range 8 ++ [0x10, 0x11] ++ (List.range 6).map (0x20 + ·) ++ (List.range 6).map (0x30 + ·)
    ++ (List.range 10).map (0x40 + ·) ++ [0x180]

/-- Two 32-bit elements a word. -/
def tileWords (t : Tile) : List Word64 := (List.range 8192).map fun i => (t.get (2 * i + 1)) ++ (t.get (2 * i))

/-- A mark for each of n things. -/
def marks (n : Nat) (f : Nat → Bool) : Nat := ((List.range n).map fun k => if f k then 2 ^ k else 0).sum

namespace State

/-- The header of the save area of shift n (R296). Persistent bytes are written when the gallery changes (R298). -/
def saveHeader (s : State) (n : Nat) : List Word64 :=
  let x := s.sh n
  let flags := x.k.nr.toNat + (inCommit x).toNat * 2 + x.barr.isSome.toNat * 4 + (!x.closePend.isEmpty).toNat * 8
  let t := marks 8 (fun k => (x.tiles[k]?.getD .zero).pois) + marks 4 (fun k => (x.arch.fronts[k]?.getD .empty).pois) * 2 ^ 8
  padTo [.ofNat 64 (1 + x.k.na.toNat * 2 ^ 8 + x.k.nf.toNat * 2 ^ 12), x.pc, s.gtc, 0, .ofNat 64 flags,
    .ofNat 64 (n / 32 + n / 4 % 8 * 2 ^ 6 + n % 4 * 2 ^ 9), x.arch.gpois.setWidth 64,
    .ofNat 64 (marks 32 fun k => (x.arch.v[k]?.getD .zero).pois), .ofNat 64 t] 32

/-- The words of a copy command: its record or records and its block. -/
def CopyCmd.words (c : CopyCmd) : List Word64 := c.src.toList ++ c.dst.toList ++ c.blk.toList

/-- The copy-queue entries of the save area; a join or a kept claim has no form there. -/
def saveCopies (x : Shift) : List Word64 :=
  x.cpq.toList.flatten.flatMap fun e => match e with
    | .cmd c _ => CopyCmd.words c
    | .join id m => openWords 1 [id, m.toNat] 32
    | .claim id d a _ => openWords 1 [id, d.toNat, a.toNat] 32

/-- The gated commands of the save area. -/
def saveGated (x : Shift) : List Word64 :=
  x.gate.flatMap fun e => match e with
    | .cmd c _ _ _ _ _ => CopyCmd.words c
    | .epi a b f t els _ done => openWords 2 ([a.toNat, b, f, t, done] ++ els.flatMap fun v => [v.1.toNat, v.2.key, v.2.bit]) 32
    | .store .. => []

/-- The queue state of the save area (R296): occupancy and next slab of the queues, the MXQ count, the broadcast group. -/
def saveQueues (x : Shift) : List Word64 :=
  let slab (q : Nat) : Nat := match (x.cpq[q]?.getD []).head? with
    | some (.cmd c d) => d / slabElems c.src.fmt
    | _ => 0
  let bg := match x.bg with
    | some b => [b.grp.toNat, b.mask.toNat, b.calls]
    | none => []
  openWords 3 (((List.range 4).flatMap fun q => [(x.cpq[q]?.getD []).length, slab q]) ++ [x.mxq.length] ++ bg) 8

/-- The metadata of the save area (R296): what each queued or gated entry is beside its words, the pending refusal and close. -/
def saveMeta (x : Shift) : List Word64 :=
  let gate := x.gate.flatMap fun e => match e with
    | .store _ _ _ n _ f _ => [0, n, f.toNat]
    | .cmd c q _ _ f d => [1, q.toNat, d / slabElems c.src.fmt, f.length]
    | .epi _ _ f _ _ l d => [2, f, d / slabElems f, l.length]
  openWords 4 (gate ++ x.grantPend.flatMap (fun g => [g.1.toNat, g.2]) ++ x.closePend) 256

/-- What an MXQ entry holds: its snapshot and its progress (09 R176, R194). -/
def mxItems (e : MxEntry) : List Nat :=
  ((e.snap.m.toList ++ e.snap.w.toList.flatMap Window.words ++ e.snap.erec.toList ++ e.snap.eorg.toList
    ++ [e.snap.row, e.snap.nkey]).map BitVec.toNat)
  ++ [e.snap.sva.toNat, e.snap.svb.toNat, e.snap.soft.toNat, e.x.toNat, e.bundle, e.done, e.fl.toNat]
  ++ (match e.bus with
    | some b => b.rows.flatten
    | none => [])
  ++ (match e.micro with
    | some x => [x.pc, x.cursor, x.loops.length]
    | none => [])

/-- The save area of shift n as words, without its persistent scratchpad bytes. -/
def saveImage (s : State) (n : Nat) : List Word64 :=
  let x := s.sh n
  let a := x.arch
  let csrs := saveCsrs.map (s.csrGet n) ++ [x.phaseStart] ++ x.done.toList.map (·.setWidth 64)
  let stores := x.gate.flatMap fun e => match e with
    | .store flat _ _ _ d _ _ => [flat, d]
    | _ => []
  s.saveHeader n
  ++ padTo a.g.toList 32
  ++ padTo csrs 64
  ++ padTo (a.l.toList.flatMap Level.words) 32
  ++ padTo a.fmtt.toList 16
  ++ padTo a.m.toList 8
  ++ saveQueues x
  ++ padTo (a.w.toList.flatMap Window.words) 128
  ++ padTo (a.it.toList.flatMap Iter.words) 128
  ++ padTo (a.v.toList.flatMap fun v => natWords v.map.image 4) 128
  ++ padTo (x.tiles.toList.flatMap fun t => natWords t.map.image 4) 32
  ++ padTo [] 32
  ++ padTo (a.v.toList.flatMap fun v => natWords v.data.toNat 32) 1024
  ++ a.fronts.toList.flatMap (fun f => padTo f.image 264)
  ++ padTo [] 1376
  ++ padTo (saveCopies x) 2048
  ++ padTo (saveGated x) 2048
  ++ padTo stores 512
  ++ saveMeta x
  ++ padTo (x.mxq.flatMap fun e => openWords 5 (mxItems e) 128) 1024
  ++ padTo [] 256
  ++ (x.tiles.toList.take x.k.na.toNat).flatMap tileWords

/-! ### The area in memory -/

/-- The row of the save tensor of a shift (R296): the twin's lie behind the primaries'. -/
def saveRow (s : State) (n : Nat) : Nat := match s.launchOf n with
  | none => 0
  | some l => (if l.twin.contains (n / 32) then 32 * l.ngal else 0) + l.compiledGal (n / 32) * 32 + n % 32

/-- The place in M of byte `off` of a row, or none where its translation fails, or its home cannot be reached (log 21). -/
def areaKey (s : State) (k : KCsr) (row off : Nat) (acc : Acc) : Option Nat :=
  match s.tensorEntry k.ttbase k.ttlim (fld k.savetid 0 20) with
  | none => none
  | some e =>
    if k.savetid.getLsbD 20 = false || eNdim e != 2 then none
    else match s.transEntry (fld k.savetid 0 20) e 0 [(row : Int), (off : Int)] acc with
      | .ok home key _ => if s.deadChip home then none else some key
      | _ => none

/-- The places of the first `bytes` bytes of a row, tile by tile, or the offset at which a translation fails. -/
def areaTiles (s : State) (k : KCsr) (row bytes : Nat) (acc : Acc) : Except Nat (List Nat) :=
  let offs := (List.range ((bytes + 32767) / 32768)).map (32768 * ·)
  match offs.find? fun o => (s.areaKey k row o acc).isNone with
  | some o => .error o
  | none => .ok (offs.filterMap fun o => s.areaKey k row o acc)

/-- Bytes written from offset `off` on over tiles of 32 KiB. -/
def areaPut (s : State) : List Nat → Nat → List Byte → State
  | [], _, _ => s
  | key :: r, off, bytes =>
    if 32768 ≤ off then s.areaPut r (off - 32768) bytes
    else
      let b := bytes.take (32768 - off)
      ({ s with mem := memBlit s.mem (key + off) b, poisonM := clearPois s.poisonM (key + off) b.length }).areaPut r 0
        (bytes.drop (32768 - off))

/-- The offset of the first poisoned byte among the first `bytes` of an area. -/
def areaPois (s : State) (keys : List Nat) (bytes : Nat) : Option Nat :=
  keys.zipIdx.findSome? fun p =>
    ((s.poisonM.filter fun k => decide (p.1 ≤ k) && decide (k < p.1 + 32768)).head?.map fun k => 32768 * p.2 + (k - p.1)).filter
      fun o => decide (o < bytes)

/-- After a failure the save area is undefined (R297): every byte of it that can be written holds a free value. -/
def areaSpoil (s : State) (k : KCsr) (row bytes : Nat) : State :=
  ((List.range ((bytes + 32767) / 32768)).filterMap fun t => (s.areaKey k row (32768 * t) .write).map fun key => (key, t)).foldl
    (fun u p => u.areaPut [p.1] 0 ((List.range (min 32768 (bytes - 32768 * p.2))).map fun i =>
      Config.freeByte s.freeN (20000 + (p.1 + i) % chipSpan))) s

/-! ### PREEMPTION (R294) -/

/-- Claim instructions that wait in a shift's queues. -/
def hasClaim (x : Shift) : Bool := x.cpq.toList.flatten.any fun e => match e with
  | .claim .. => true
  | _ => false

/-- Step 1: results land, loads, atomics and claims complete. -/
def quiesce (s : State) (n : Nat) : State := ((s.landAll n).completeLsq n).claimPerform n

/-- A PREEMPT or RESUME record (13 R284). -/
def moveRecord (s : State) (n kind code area : Nat) : State :=
  s.trace kind (srcOf n 0) 0 (s.taskNo n)
    (.ofNat 128 (code + fld (Config.freeWord s.freeN 1005) 0 32 * 2 ^ 32 + area % 2 ^ 64 * 2 ^ 64))

/-- Whether a shift is asked to stop and can come to rest. -/
def stopping (x : Shift) : Bool := x.preemptReq && x.task.isSome && x.memTrap.isNone

/-- Steps 1 and 2 of R294 for a shift that is to stop. A trap that is due is entered first (R286). -/
def toRest (s : State) (n : Nat) : State :=
  if !stopping (s.sh n) then s
  else
    let s1 := (s.quiesce n).endSlabs n
    if (s1.sh n).memTrap.isSome then s1
    else if (s1.sh n).trapPend.isSome then { s1.takePending n with cur := s.cur }
    else match s1.fpxDue n with
      | some (r, s2) => { s2.enterTrap n r with cur := s.cur }
      | none => s1

/-- Whether a shift that is to stop has come to rest: a claim that waits at its home defers the pre-emption; one that a
rollback holds back does not. -/
def resting (s : State) (n : Nat) : Bool :=
  let x := s.sh n
  stopping x && x.lsq.isEmpty && x.trapPend.isNone && !(hasClaim x && !x.cpHold) && (s.fpxDue n).isNone

/-- What names a physical shift, or a saved context in a gallery, is given another number: queue slots and barrier
arrivals. -/
def renumber (s : State) (g old new : Nat) : State :=
  let sub (b : Barrier) : Barrier := { b with arrivals := b.arrivals.map fun m => if m = old then new else m }
  let x := s.gal g
  { s.setGal g { x with
      slots := x.slots.map fun q => if q.owner = old then { q with owner := new } else q
      barg := x.barg.map sub } with bard := s.bard.map fun p => (p.1, p.2.map sub) }

/-- A shift at rest as it is saved: it asks for no more, its loop buffer is given up, and where its accumulator shadow is held
its phase is not restartable (09 R194). -/
def atRest (s : State) (n : Nat) : State :=
  let held := (s.core (n / 4)).accSh.any fun a => a.holder = n
  (s.releaseSlots n).modSh n fun z => { z with
    preemptReq := false, loopBuf := [], shLoop := [], k := { z.k with nr := z.k.nr || held } }

/-- The area at `keys` is written, the context leaves the shift, and the shift is FREE. -/
def storeShift (s : State) (n : Nat) (keys : List Nat) : State :=
  let s2 := (s.areaPut keys 0 (wordBytes (s.saveImage n))).moveRecord n 0x08 0x30 (keys.headD 0)
  let z := s2.sh n
  let v : Saved := {
    seq := match z.bound with
      | some (q, _) => q
      | none => 0
    row := s.saveRow n, gal := s2.compGal n, at_ := n, vid := 2048 + s2.savedN, sh := z, acks := [], lost := none, pers := 0 }
  let s3 : State := { s2 with saved := s2.saved ++ [v], savedN := s2.savedN + 1 }
  let rest := match s.launchOf n with
    | some l => freeShift l
    | none => .initial
  ((s3.renumber (n / 32) n v.vid).setSh n rest).choose (n / 4) none

/-- Steps 3 and 4 of R294 for a shift at rest: its area is written, and it is FREE. -/
def saveShift (s : State) (n : Nat) : State :=
  let s1 := s.atRest n
  let row := s1.saveRow n
  let bytes := 8 * (s1.saveImage n).length
  match s1.areaTiles (s1.sh n).k row bytes .write with
  | .error o => (s1.areaSpoil (s1.sh n).k row bytes).abortTask n Cause.lostctx.code false [o]
  | .ok keys => s1.storeShift n keys

/-- PREEMPTION of shift n at a bundle boundary. -/
def preemption (s : State) (n : Nat) : State :=
  let s1 := s.toRest n
  if s1.resting n then s1.saveShift n else s1

/-- The context that stood at shift n is lost with its other copy. -/
def loseSaved (s : State) (n : Nat) : State :=
  { s with saved := s.saved.map fun v => if v.at_ = n && v.vid + 1 = 2048 + s.savedN then { v with lost := some 0 } else v }

/-- Both copies of an assay task are pre-empted together (R294). -/
def preemptBoth (s : State) (n : Nat) : State :=
  match s.assayPair n with
  | none => s.preemption n
  | some (m, _) =>
    let s1 := (s.toRest n).toRest m
    if (s1.sh m).task.isNone then s1.preemption n
    else if s1.resting n && s1.resting m then
      let s2 := s1.saveShift n
      if (s2.sh m).task.isNone then s2
      else
        let s3 := s2.saveShift m
        if s3.saved.length = s2.saved.length then s2.loseSaved n |>.saveShift m else s3
    else s1

/-! ### SHIFT_RESUME (R295) -/

/-- The words of a row. -/
def areaWords (s : State) (keys : List Nat) (n : Nat) : List Word64 :=
  (List.range n).map fun i => .ofNat 64 (memRead s.mem (keys.getD (i / 4096) 0 + 8 * (i % 4096)) 8)

/-- A copy command with the records and the block that 32 words hold. -/
def CopyCmd.withWords (c : CopyCmd) (w : Nat → Word64) : CopyCmd := { c with
  src := Vector.ofFn fun (k : Fin 12) => w k.val
  dst := Vector.ofFn fun (k : Fin 12) => w (12 + k.val)
  blk := Vector.ofFn fun (k : Fin 8) => w (24 + k.val) }

/-- The copy queues with the entries that the area holds; what else each is comes from the device's record. -/
def copiesBack (w : Nat → Word64) (cpq : Vector (List CpEntry) 4) : Vector (List CpEntry) 4 :=
  Vector.ofFn fun (q : Fin 4) => cpq[q].zipIdx.map fun p => match p.1 with
    | .cmd c d =>
      let k := ((cpq.toList.take q.val).map List.length).sum + p.2
      .cmd (CopyCmd.withWords c fun i => w (32 * k + i)) d
    | e => e

/-- The gate with the commands and stores that the area holds: `i` commands and `j` stores stand before. -/
def gateBack (cmds stores : Nat → Word64) : List GateEntry → Nat → Nat → List GateEntry
  | [], _, _ => []
  | .store _ chip key n _ f b :: r, i, j =>
    .store (stores (2 * j)) chip key n (stores (2 * j + 1)) f b :: gateBack cmds stores r i (j + 1)
  | .cmd c q ss ds f d :: r, i, j =>
    .cmd (CopyCmd.withWords c fun k => cmds (32 * i + k)) q ss ds f d :: gateBack cmds stores r (i + 1) j
  | e :: r, i, j => e :: gateBack cmds stores r (i + 1) j

/-- A shift rebuilt from the words of its save area; what has no layout there is as the device kept it (log 8). -/
def rebuild (x : Shift) (l : List Word64) : Shift :=
  let a := l.toArray
  let w (i : Nat) : Word64 := a.getD i 0
  let vp := w 7
  let tp := w 8
  let map (i : Nat) : CMap := .ofImage ((List.range 4).map fun j => (w (i + j)).toNat * 2 ^ (64 * j)).sum
  let csr (i : Nat) : Word64 := w (64 + i)
  let c := x.arch.c
  { x with
    pc := w 1
    arch :=
      { g := Vector.ofFn fun (r : Fin 32) => if r.val = 0 then 0 else w (32 + r.val)
        gpois := (w 6).setWidth 32
        v := Vector.ofFn fun (r : Fin 32) =>
          { data := .ofNat 2048 ((List.range 32).map fun j => (w (640 + 32 * r.val + j)).toNat * 2 ^ (64 * j)).sum
            map := map (448 + 4 * r.val)
            pois := vp.getLsbD r.val }
        fronts := Vector.ofFn fun (f : Fin 4) =>
          { Front.ofWords (fun i => w (1664 + 264 * f.val + i)) with pois := tp.getLsbD (8 + f.val) }
        m := Vector.ofFn fun (r : Fin 8) => w (176 + r.val)
        it := Vector.ofFn fun (r : Fin 16) => Iter.ofWords fun i => w (320 + 8 * r.val + i)
        w := Vector.ofFn fun (r : Fin 8) => Window.ofWords fun i => w (192 + 16 * r.val + i)
        l := Vector.ofFn fun (r : Fin 6) =>
          { Level.ofWords (fun i => w (128 + 4 * r.val + i)) with behind := x.arch.l[r].behind }
        fmtt := Vector.ofFn fun (r : Fin 16) => w (160 + r.val) &&& ~~~ 0x8080808080808080#64
        c :=
          { trapvec := csr 8 &&& ~~~ 3#64
            trapmask := csr 9 &&& ~~~ trapmaskFixed
            fmtlvl := if fld (csr 10) 0 4 < 6 then (csr 10).setWidth 4 else 0xF
            cmapsoft := (csr 11).getLsbD 0
            pguard := (csr 12).setWidth 12
            nkey := csr 14
            rngidx := csr 15
            flags := Vector.ofFn fun (i : Fin 8) => (csr (22 + i.val)).setWidth 7
            fpfirst := fpfirstOf (csr 30)
            fpen := (csr 31).setWidth 7
            fpOrd := c.fpOrd } }
    tiles := Vector.ofFn fun (t : Fin 8) =>
      if t.val < x.k.na.toNat then
        { Tile.make (fun k => .ofNat 32 (fld (w (10240 + 8192 * t.val + k / 2)) (32 * (k % 2)) 32)) (map (576 + 4 * t.val))
            (tp.getLsbD t.val) with live := x.tiles[t].live }
      else x.tiles[t]
    k := { x.k with
      port := (csr 0).getLsbD 0
      nr := (csr 1).getLsbD 4
      pport := (csr 1).getLsbD 3
      inh := (csr 1).getLsbD 2
      ppriv := (csr 1).getLsbD 1
      priv := (csr 1).getLsbD 0
      cause := (csr 2).setWidth 9
      fpc := csr 3
      spc := csr 4
      fslot := (csr 5).setWidth 4
      finfo := csr 6
      fstep := (csr 7).setWidth 10
      na := (csr 13).setWidth 4
      nf := ((csr 13) >>> 4).setWidth 3
      spbase := ((csr 16) >>> 6).setWidth 18
      splim := ((csr 17) >>> 6).setWidth 19
      compat := (csr 18).getLsbD 0
      spfirst := (csr 19).setWidth 25
      spstall := csr 20
      spfault := spfaultOf (csr 21)
      deprcnt := csr 32 }
    cpq := copiesBack (fun i => w (4096 + i)) x.cpq
    gate := gateBack (fun i => w (6144 + i)) (fun i => w (8192 + i)) x.gate 0 0
    phaseStart := csr 33
    done := Vector.ofFn fun (q : Fin 4) => (csr (34 + q.val)).setWidth 32 }

/-- A gated store whose address the area gives anew stands at that address's place (log 8). -/
def retarget (s : State) (n : Nat) (old : List GateEntry) : State :=
  s.modSh n fun x => { x with gate := (x.gate.zip old).map fun p => match p with
    | (.store a chip key len d f b, .store a0 ..) =>
      if a = a0 then p.1 else match s.flat n a .write with
        | .m c k => .store a c k len d f b
        | _ => .store a chip key len d f b
    | _ => p.1 }

/-- Whether a byte belongs to the control block or the ring of a stage queue of compiled gallery k (R298). -/
def queueByte (l : Launch) (k a : Nat) : Bool := l.obj.queues.any fun q => q.2.gal = k
  && ((decide (q.2.cb ≤ a) && decide (a < q.2.cb + 64)) || (decide (q.2.ring ≤ a) && decide (a < q.2.ring + 64 * q.2.cap)))

/-- The discardable bytes of a stage read 0xA5 after a resume; control blocks and rings among them persist (R298). -/
def spillA5 (s : State) (g : Nat) (l : Launch) (st : StageDecl) : State :=
  let as := st.discard.flatMap fun d => ((List.range (d.2 - d.1)).map (d.1 + ·)).filter fun a => !queueByte l st.gal a
  let x := s.gal g
  { s.setGal g { x with sp := as.foldl (fun m a => memPut m a 0xA5) x.sp } with
    poisonS := as.foldl (fun ps a => clearPois ps (spKey g a) 1) s.poisonS }

/-- Whether a saved context is a twin's. -/
def Saved.isTwin (v : Saved) (l : Launch) : Bool := decide (32 * l.ngal ≤ v.row)

/-- The physical gallery on which a saved context resumes. -/
def savedGal (l : Launch) (v : Saved) : Option Nat := (if Saved.isTwin v l then l.twin else l.place)[v.gal]?

/-- Whether physical shift n can take a saved context (R295): unbound, of the same compiled gallery and copy, with tiles and
fronts left on a core that can hold its launch's routines. -/
def canTake (s : State) (l : Launch) (v : Saved) (n : Nat) : Bool :=
  let x := s.sh n
  let bound := ((shiftsOf (n / 4)).filter fun m => m != n).map s.sh |>.filter fun y => y.bound.isSome
  savedGal l v = some (n / 32) && x.bound.isNone && x.task.isNone && !(n % 512 = 3)
    && decide ((bound.map fun y => y.allot.1.toNat).sum + v.sh.allot.1.toNat ≤ 8)
    && decide ((bound.map fun y => y.allot.2.toNat).sum + v.sh.allot.2.toNat ≤ 4)
    && (s.giveRoutines l.seq l.obj.routines (n / 4)).isSome

/-- An answer that has come for a CPYP of a saved context is taken (04 R83, R85). -/
def takeAck (s : State) (n : Nat) (a : CpId × Option Nat) : State :=
  match State.sentBy (s.sh n) a.1 with
  | none => s
  | some c => match a.2 with
    | none => s.endCpyp n c a.1.q
    | some chip => (s.refuse n chip c.bundle).endCpyp n c a.1.q

/-- The shift of a saved context as it stands when it is back: a commit that the pre-emption cut short is finished first, and
any other boundary begins anew (R295). -/
def backAgain (x : Shift) : Shift :=
  let b : BndSt := match x.bndSt with
    | .committing _ sig => .resuming sig
    | .resuming sig => .resuming sig
    | _ => .away
  let y := { x with bndSt := b, idleCy := 0, loopBuf := [], shLoop := [] }
  if inCommit y then { y with st := .blocked, blockOn := some (.boundary false) } else { y with st := .ready, blockOn := none }

/-- A saved context of launch l on physical shift n (R295). -/
def putBack (s : State) (l : Launch) (v : Saved) (n : Nat) : State :=
  let len := 10240 + 8192 * v.sh.k.na.toNat
  let s1 := ({ s with saved := s.saved.filter fun w => w.vid != v.vid }).renumber (n / 32) v.vid n
  let s2 := (((s1.giveRoutines l.seq l.obj.routines (n / 4)).getD s1)).setSh n (backAgain v.sh)
  let gone (t : State) (o : Nat) : State := t.abortTask n Cause.lostctx.code false [o]
  -- after a failure at the resume the area is undefined (R297)
  let lost (t : State) (o : Nat) : State := gone (t.areaSpoil v.sh.k v.row (8 * len + v.pers)) o
  match v.lost with
  | some o => gone s2 o
  | none => match s2.areaTiles v.sh.k v.row (8 * len) .read with
    | .error o => lost s2 o
    | .ok keys => match s2.areaPois keys (8 * len) with
      | some o => lost s2 o
      | none =>
        let s3 := (s2.modSh n fun x => rebuild x (s2.areaWords keys len)).retarget n v.sh.gate
        let s4 := match s3.stageOf n with
          | some st => s3.spillA5 (n / 32) l st
          | none => s3
        (s4.moveRecord n 0x09 0 (keys.headD 0)).choose (n / 4) none

/-- Row and shift of the other copy of an assay task whose row stands on shift n. -/
def otherRow (l : Launch) (v : Saved) (n : Nat) : Option (Nat × Nat) :=
  if !l.assay then none
  else if Saved.isTwin v l then (l.place[v.gal]?).map fun g => (v.row - 32 * l.ngal, 32 * g + n % 32)
  else (l.twin[v.gal]?).map fun g => (v.row + 32 * l.ngal, 32 * g + n % 32)

/-- The context that a row of the launch in gallery g holds. -/
def savedRow (s : State) (row g : Nat) : Option Saved :=
  s.saved.find? fun v => v.row = row && (s.gal g).holder = some v.seq

/-- A saved context on shift n, and the other copy of an assay task with it (R294). -/
def placeOne (s : State) (l : Launch) (v : Saved) (n : Nat) : Option State :=
  if !s.canTake l v n then none
  else
    let acks (w : Saved) (m : Nat) (t : State) : State := w.acks.foldl (fun t a => t.takeAck m a) t
    match (otherRow l v n).bind fun p => (s.savedRow p.1 (p.2 / 32)).map fun w => (w, p.2) with
    | none => some (acks v n (s.putBack l v n))
    | some (w, m) =>
      if !s.canTake l w m then none
      else
        let s1 := (s.putBack l v n).putBack l w m
        let s2 := if (s1.sh n).task.isNone && (s1.sh m).task.isSome then s1.abortOne m Cause.lostctx.code false [] else s1
        some (acks w m (acks v n s2))

/-! ### Broadcast groups resume together (09 R195) -/

/-- The groups that a shift belongs to, by attachment or by an MBGRP in its queue. -/
def bgTags (x : Shift) : List (BitVec 2 × BitVec 8) :=
  (x.bg.map fun b => (b.grp, b.mask)).toList ++ x.bgIss.toList ++ x.mxq.filterMap fun e => match e.op with
    | .bgrp g => if fld g 0 8 = 0 then none else some (grpOf g)
    | _ => none

/-- The saved contexts that resume with v: those linked to it by groups. -/
def mates (s : State) (v : Saved) : List Saved :=
  let pool := s.saved.filter fun w => w.seq = v.seq && w.gal = v.gal && w.at_ / 32 = v.at_ / 32
  (List.range pool.length).foldl (fun acc _ => pool.filter fun w =>
    w.vid = v.vid || acc.any fun u => (bgTags w.sh).any fun t => (bgTags u.sh).contains t) [v]

/-- The contexts of a plan that belong to group t. -/
def membersIn (plan : List (Saved × Nat)) (t : BitVec 2 × BitVec 8) : List (Saved × Nat) :=
  plan.filter fun p => (bgTags p.1.sh).contains t

/-- The cores whose member has left group t, as the members know them. -/
def goneIn (plan : List (Saved × Nat)) (t : BitVec 2 × BitVec 8) : BitVec 8 :=
  (membersIn plan t).foldl (fun m p => match p.1.sh.bg with
    | some b => if (b.grp, b.mask) = t then m ||| b.gone else m
    | none => m) 0

/-- The bits of group t's mask that stand for no member: of cores whose shift has not joined yet. A departed member's goes. -/
def keptMask (plan : List (Saved × Nat)) (t : BitVec 2 × BitVec 8) : BitVec 8 :=
  (membersIn plan t).foldl (fun m p => m &&& ~~~ (1#8 <<< (p.1.at_ / 4 % 8))) (t.2 &&& ~~~ (goneIn plan t))

/-- The mask of a group once its members stand at their new places (09 R195). -/
def newMask (plan : List (Saved × Nat)) (t : BitVec 2 × BitVec 8) : BitVec 8 :=
  (membersIn plan t).foldl (fun m p => m ||| (1#8 <<< (p.2 / 4 % 8))) (keptMask plan t)

/-- The lowest core of a mask. -/
def lowestCore (m : BitVec 8) : Option Nat := (List.range 8).find? fun c => m.getLsbD c

/-- Whether the members of a group stand on distinct cores, the source on the lowest unless it has left. -/
def groupOk (plan : List (Saved × Nat)) (t : BitVec 2 × BitVec 8) : Bool :=
  let ms := membersIn plan t
  decide ((ms.map fun p => p.2 / 4 % 8).Nodup) && (ms.all fun p => !(keptMask plan t).getLsbD (p.2 / 4 % 8))
    && (match ms.find? fun p => lowestCore t.2 = some (p.1.at_ / 4 % 8) with
      | some p => lowestCore (newMask plan t) = some (p.2 / 4 % 8)
      | none => (lowestCore t.2).any (fun c => (goneIn plan t).getLsbD c) || lowestCore (newMask plan t) = lowestCore t.2)

/-- A shift that belongs to group t has the group's new mask, in its queue too. -/
def withMask (t : BitVec 2 × BitVec 8) (m : BitVec 8) (x : Shift) : Shift :=
  { x with
    bg := x.bg.map fun b => if (b.grp, b.mask) = t then { b with mask := m, gone := 0 } else b
    bgIss := x.bgIss.map fun p => if p = t then (p.1, m) else p
    mxq := x.mxq.map fun e => match e.op with
      | .bgrp g => if grpOf g = t then { e with op := .bgrp (.ofNat 64 (m.toNat + t.1.toNat * 2 ^ 8)) } else e
      | _ => e }

/-- The masks of the groups follow their members, in every copy of the compiled gallery. -/
def remask (s : State) (l : Launch) (gal : Nat) (plan : List (Saved × Nat)) : State :=
  let gs := (l.place[gal]?).toList ++ (l.twin[gal]?).toList
  let fix (x : Shift) : Shift := (plan.flatMap fun p => bgTags p.1.sh).eraseDups.foldl (fun y t => withMask t (newMask plan t) y) x
  if plan.all fun p => (bgTags p.1.sh).isEmpty then s
  else { s with shifts := s.shifts.map fun p => if gs.contains (p.1 / 32) then (p.1, fix p.2) else p }

/-- Places for the rest of the contexts that resume together: any that fit can come about. -/
def placeAll (l : Launch) : List Saved → List (Saved × Nat) → State → Option State
  | [], plan, s =>
    if (plan.flatMap fun p => bgTags p.1.sh).all (groupOk plan) then some (match plan with
      | p :: _ => s.remask l p.1.gal plan
      | [] => s) else none
  | v :: r, plan, s => match savedGal l v with
    | none => none
    | some g => (rotated ((List.range 32).map (32 * g + ·)) (Config.pickGallery s.freeN (100 + v.row))).findSome? fun n =>
        (s.placeOne l v n).bind fun t => placeAll l r (plan ++ [(v, n)]) t

/-- SHIFT_RESUME: the context of a row of the launch in shift n's gallery on shift n, with all that resume with it. -/
def resumed (s : State) (row n : Nat) : Option State :=
  match s.savedRow row (n / 32) with
  | none => none
  | some v => match s.launchAt v.seq with
    | none => none
    | some l =>
      if l.stopped.contains v.gal then none
      else (s.placeOne l v n).bind fun t =>
        placeAll l ((s.mates v).filter fun w => w.vid != v.vid) [(v, n)] t

def shiftResume (s : State) (row n : Nat) : State := (s.resumed row n).getD s

/-! ### A compiled gallery moves (R295, R298) -/

/-- The cores of a gallery on which shifts are bound. -/
def boundCores (s : State) (g : Nat) : List Nat :=
  (List.range 8).filter fun c => (shiftsOf (8 * g + c)).any fun n => (s.sh n).bound.isSome

/-- Whether every saved context of compiled gallery k finds a core that can take its launch's routines in gallery g (09
R186). -/
def roomFor (s : State) (l : Launch) (k g : Nat) : Bool :=
  (s.saved.all fun v => v.seq != l.seq || v.gal != k) || (List.range 8).any fun c =>
    (s.giveRoutines l.seq l.obj.routines (8 * g + c)).isSome

/-- Whether compiled gallery k of a launch, now on gallery `old`, may move to physical gallery g. -/
def canMove (s : State) (l : Launch) (k old g : Nat) : Bool :=
  g < 64 && (s.gal g).holder.isNone && !(s.gal g).fenced
    && !(heavy ((bindGallery l.obj.stages k).getD []) && g % 16 = 0)
    && s.roomFor l k g && (s.boundCores old).all fun c => (s.giveRoutines l.seq l.obj.routines (8 * g + c)).isSome

/-- Bytes of a gallery's scratchpad that persist for the stages of compiled gallery k: windows without their discardable
ranges, control blocks and rings. -/
def persists (l : Launch) (k : Nat) (a : Nat) : Bool :=
  (l.obj.stages.any fun st => st.gal = k && decide (st.winLo ≤ a) && decide (a < st.winHi)
    && !(st.discard.any fun d => decide (d.1 ≤ a) && decide (a < d.2)))
  || queueByte l k a

/-- The stage of a saved context. -/
def savedStage (l : Launch) (v : Saved) : Option StageDecl := v.sh.bound.bind fun p => l.obj.stages[p.2]?

/-- The persistent bytes of a saved context go from gallery `old` through its save area to gallery `new` (R298). An area that
cannot take them, or a poisoned byte among them, loses the context (R297). -/
def carry (s : State) (l : Launch) (v : Saved) (old new : Nat) : State :=
  match savedStage l v with
  | none => s
  | some st =>
    let ps := persistent st
    let off := 0x14000 + 65536 * v.sh.k.na.toNat
    let lose (t : State) (o : Nat) : State :=
      { t with saved := t.saved.map fun w => if w.vid = v.vid then { w with lost := some o } else w }
    match s.areaTiles v.sh.k v.row (off + ps.length) .write with
    | .error o => lose (s.areaSpoil v.sh.k v.row (off + ps.length)) o
    | .ok keys => match ps.zipIdx.find? fun p => s.poisonS.contains (spKey old p.1) with
      | some p => lose (s.areaSpoil v.sh.k v.row (off + ps.length)) (off + p.2)
      | none =>
        let s0 : State := { s with saved := s.saved.map fun w => if w.vid = v.vid then { w with pers := ps.length } else w }
        let s1 := (s0.areaPut keys off (ps.map (memByte (s.gal old).sp))).areaPut keys 24 (wordBytes [.ofNat 64 ps.length])
        let at_ (i : Nat) : Nat := keys.getD ((off + i) / 32768) 0 + (off + i) % 32768
        let y := s1.gal new
        s1.setGal new { y with sp := ps.zipIdx.foldl (fun m p => memPut m p.1 (memByte s1.mem (at_ p.2))) y.sp }

/-- Compiled gallery k of launch l moves from gallery `old` to gallery `new`: control blocks, rings and slot states, the
windows of its stages, and its shifts; what its saved contexts keep goes through their areas. -/
def moveGallery (s : State) (l : Launch) (k old new : Nat) : State :=
  let x := s.gal old
  let y := s.gal new
  let to_ (m : Nat) : Nat := if m / 32 = old then 32 * new + m % 32 else m
  let sub (b : Barrier) : Barrier := { b with arrivals := b.arrivals.map to_ }
  let keep := x.sp.filter fun c => State.persists l k c.1
  let rest := y.sp.filter fun c => !State.persists l k c.1
  let s1 := s.setGal new { y with
    sp := keep.foldl (fun m c => memPut m c.1 c.2) rest
    guard := []
    tags := []
    barg := x.barg.map sub
    slots := x.slots.map fun q => { q with owner := to_ q.owner }
    holder := x.holder
    steerCy := 0
    ctl := x.ctl }
  let s2 := (s1.saved.filter fun v => v.seq = l.seq && v.at_ / 32 = old).foldl (fun t v => t.carry l v old new) s1
  let s3 := s2.freeGallery old
  let s4 := s3.setGal old { s3.gal old with barg := Vector.replicate 4 .empty }
  let s5 := (s.boundCores old).foldl (fun t c => (t.giveRoutines l.seq l.obj.routines (8 * new + c)).getD t) s4
  let s6 := (List.range 32).foldl (fun t i =>
    (t.setSh (32 * new + i) (t.sh (32 * old + i))).setSh (32 * old + i) .initial) s5
  { s6 with
    bard := s6.bard.map fun p => (p.1, p.2.map sub)
    poisonS := (s6.poisonS.filter fun p => p / spBytes = old && State.persists l k (p % spBytes)).foldl
      (fun ps p => setIns ps (spKey new (p % spBytes)))
      (s6.poisonS.filter fun p => !(p / spBytes = new && State.persists l k (p % spBytes)))
    saved := s6.saved.map fun v => if v.seq = l.seq then { v with at_ := to_ v.at_ } else v
    launches := s6.launches.map fun m => if m.seq = l.seq then
      { m with
        place := m.place.map fun g => if g = old then new else g
        twin := m.twin.map fun g => if g = old then new else g } else m }

end State

end Sys2Proof.Machine
end

