-- ==== Sys2Proof/Machine/Host.lean ====
section
/-! DEFINITION. The host link, the mailbox, the Boluz link and the headframe (15 R307-R316; 01 R13-R15). -/

namespace Sys2Proof.Machine

/-! ### Registers (R308) -/

/-- STATE of the BAR. It reads 1 in SAFE and at reset. -/
def State.stateReg (s : State) : Word64 :=
  let st := match s.frame.st with
    | .cold => 1
    | .safe => 1
    | .reduced => 2
    | .full => 3
  .ofNat 64 (st + s.frame.tripped.toNat * 2 ^ 8 + s.frame.imageOk.toNat * 2 ^ 9)

/-- A BAR register as the host reads it; the write-only ones read as a free value. -/
def State.barRead (s : State) (off : Nat) : Word64 :=
  let b := s.bar
  match off with
  | 0x000 => s.stateReg
  | 0x008 => b.ringBase
  | 0x010 => b.ringLog.setWidth 64
  | 0x020 => b.kseq.setWidth 64
  | 0x028 => b.evBase.setWidth 64
  | 0x030 => b.evLog.setWidth 64
  | 0x038 => b.evHead.setWidth 64
  | 0x040 => b.evTail.setWidth 64
  | 0x048 => .ofNat 64 (b.chipNo.toNat + b.chipSet.toNat * 2 ^ 15)
  | 0x050 => s.health.word
  | 0x180 => if b.mbBusy then 1 else 0
  | o => if 0x140 ≤ o ∧ o < 0x180 ∧ o % 8 = 0 then b.mbRsp[(o - 0x140) / 8]?.getD 0 else Config.freeWord s.freeN (1100 + o)

namespace State

/-- Whether a launch is held. -/
def holds (s : State) : Bool := !s.launches.isEmpty

/-! ### The mailbox (R310) -/

/-- The answer to a request: status, results, MBDB, vector 1. -/
def answer (s : State) (status : Nat) (results : List Word64) : State :=
  let w0 : Word64 := .ofNat 64 (status + fld (Config.freeWord s.freeN 1006) 0 56 * 2 ^ 8)
  { s with
    bar := { s.bar with
      mbRsp := Vector.ofFn fun (i : Fin 8) => if i.val = 0 then w0 else results[i.val - 1]?.getD (Config.freeWord s.freeN (1010 + i.val))
      mbBusy := false }
    msix := s.msix ++ [1] }

/-- Whether the mailbox serves the command with this code: it runs from SAFE on (R314). -/
def serves (s : State) (code : Nat) : Bool :=
  s.frame.st != .cold && s.bar.mbBusy && fld (s.bar.mbReq[0]?.getD 0) 0 8 = code

/-- Bytes 8-63 of the request: the arguments. -/
def mbArgs (s : State) : BitVec 448 :=
  .ofNat 448 ((List.range 7).map fun i => (s.bar.mbReq[i + 1]?.getD 0).toNat * 2 ^ (64 * i)).sum

/-- A command served, or passed over. Its arguments are those that the host wrote (log 17). -/
def serve (s : State) (code : Nat) (f : BitVec 448 → State → State) : State := if s.serves code then f s.mbArgs s else s

def stOk : Nat := 0
def stBadArg : Nat := 1
def stState : Nat := 2
def stAuth : Nat := 3
def stExhausted : Nat := 4

/-- Galleries of a mask. -/
def maskGals (w : Word64) : List Nat := (List.range 64).filter fun g => w.getLsbD g

/-- FENCE: at once for a gallery that holds no launch, else at the end of that launch (01 R15). -/
def fenceGals (s : State) (w : Word64) : State :=
  (maskGals w).foldl (fun t g =>
    let x := t.gal g
    t.setGal g (if x.holder.isNone then { x with fenced := true } else { x with fenceReq := true })) s

/-- UNFENCE. -/
def unfenceGals (s : State) (w : Word64) : State :=
  (maskGals w).foldl (fun t g => t.setGal g { t.gal g with fenced := false, fenceReq := false }) s

/-- The compiled galleries that a request names: one, or all of the launch. -/
def named (l : Launch) (gal : Option Nat) : List Nat := match gal with
  | some k => [k]
  | none => List.range l.ngal

/-- PREEMPT (R310, R296): every shift of the named galleries, twins with them, is asked to stop. -/
def preemptCmd (s : State) (seq : BitVec 32) (gal : Option Nat) : State :=
  match s.launchAt seq with
  | none => s.answer stBadArg []
  | some l =>
    if l.savetid.getLsbD 20 = false then s.answer stState []
    else if ((named l gal).any fun k => decide (l.ngal ≤ k)) = true then s.answer stBadArg []
    else
      let ks := named l gal
      let gs := ks.flatMap fun k => (l.place[k]?).toList ++ (l.twin[k]?).toList
      let s1 := s.modLaunch seq fun l => { l with stopped := (l.stopped ++ ks).eraseDups }
      let ask (p : Nat × Shift) : Nat × Shift :=
        (p.1, { p.2 with preemptReq := p.2.preemptReq || (gs.contains (p.1 / 32) && p.2.task.isSome) })
      ({ s1 with shifts := s1.shifts.map ask }).answer stOk []

/-- RESUME (R310, R295): the named galleries run again, one of them perhaps on another physical gallery. -/
def resumeCmd (s : State) (seq : BitVec 32) (gal dest : Option Nat) : State :=
  match s.launchAt seq with
  | none => s.answer stBadArg []
  | some l =>
    let ks := named l gal
    let gs := ks.flatMap fun k => (l.place[k]?).toList ++ (l.twin[k]?).toList
    let go (t : State) : State :=
      (t.modLaunch seq fun l => { l with stopped := l.stopped.filter fun k => !ks.contains k }).answer stOk []
    let room (t : State) : Bool := match t.launchAt seq with
      | none => false
      | some m => ks.all fun k => ((m.place[k]?).toList ++ (m.twin[k]?).toList).all fun g => t.roomFor m k g
    if (ks.any fun k => decide (l.ngal ≤ k)) = true then s.answer stBadArg []
    else if ks.any (fun k => !l.stopped.contains k) || s.shifts.any (fun p => gs.contains (p.1 / 32) && p.2.preemptReq) then
      s.answer stState []
    else match dest with
      | none => if room s then go s else s.answer stState []
      | some g => match gal.bind fun k => (l.place[k]?).map fun o => (k, o) with
        | none => s.answer stBadArg []
        | some (k, old) =>
          if 64 ≤ g then s.answer stBadArg []
          else if g = old then (if room s then go s else s.answer stState [])
          else if !s.canMove l k old g then s.answer stState []
          else go (s.moveGallery l k old g)

/-- IMAGE (R312): in SAFE only. -/
def imageCmd (s : State) (i : Image) : State :=
  if s.frame.st != .safe then s.answer stState []
  else if Config.imageVerifies i && decide (s.frame.fuse.toNat ≤ i.secVer.toNat) then
    ({ s with frame := { s.frame with imageOk := true, digest := i.digest, secVer := i.secVer } }).answer stOk []
  else s.answer stAuth []

/-- SETCHIP (R310, 01 R13). -/
def setchipCmd (s : State) (c : Nat) : State :=
  if s.holds || s.bar.chipSet then s.answer stState []
  else if 6143 < c then s.answer stBadArg []
  else ({ s with bar := { s.bar with chipNo := .ofNat 13 c, chipSet := true } }).answer stOk []

/-- The attestation report over a nonce with an LMS index (R313). -/
def report (s : State) (nonce : BitVec 384) (idx : Nat) : Report :=
  let items := [nonce.toNat, s.frame.digest.toNat, s.frame.secVer.toNat, s.frame.fuse.toNat, s.bar.chipNo.toNat, s.gtc.toNat]
  { nonce := nonce, digest := s.frame.digest, secVer := s.frame.secVer, fuse := s.frame.fuse, chip := s.bar.chipNo, gtc := s.gtc
    ecdsa := Config.signEcdsa items, lmsIdx := idx, lms := Config.signLms idx items }

/-- ATTEST (R313): the LMS index is used up before the report leaves. How the response's 56 bytes lead to the report is not
given: they are free values (log 10). -/
def attestCmd (s : State) (nonce : BitVec 384) : State :=
  if 2 ^ 20 ≤ s.frame.lmsIdx then s.answer stExhausted []
  else
    let idx := s.frame.lmsIdx + 1
    let low : Bool := decide (2 ^ 20 - idx ≤ 2 ^ 16)
    let s1 := { s with
      frame := { s.frame with lmsIdx := idx, attLow := s.frame.attLow || low }
      attReports := s.attReports ++ [s.report nonce s.frame.lmsIdx] }
    let s2 := if low && !s.frame.attLow then s1.event 0x17 headSrc 0 0xFFFFFFFF [2 ^ 20 - idx] else s1
    s2.answer stOk []

/-- ARBUMP (R312): the counter never falls; without a running image there is nothing to raise it to. -/
def arbumpCmd (s : State) : State :=
  if !s.frame.imageOk then s.answer stState []
  else
    let v : Word64 := if s.frame.fuse.toNat < s.frame.secVer.toNat then s.frame.secVer else s.frame.fuse
    ({ s with frame := { s.frame with fuse := v } }).answer stOk []

/-- HLTHCFG (R316). -/
def hlthcfgCmd (s : State) (deg r : BitVec 32) : State :=
  let h := s.health
  ({ s with health := { h with
    degTh := deg, repTh := r, replace := h.replace || decide (r.toNat ≤ h.ce.toNat) } }).answer stOk []

/-- SYSCFG (R310) without HEADS: its values in R310's order. -/
def syscfgCmd (s : State) (v : Vector Word64 5) : State :=
  if s.holds then s.answer stState []
  else if v[1] = 0 then s.answer stBadArg []
  else ({ s with d := { s.d with
    fqbase := v[0].setWidth 40, fqsize := v[1], trbase := v[2].setWidth 40, trsize := v[3], trmask := v[4]
    fqhead := 0, fqtail := 0, trhead := 0, trtail := 0, fqBad := false } }).answer stOk []

/-- SYSCFG with HEADS: the first two values are the heads of the free queue and of the trace ring. -/
def syscfgHeadsCmd (s : State) (v : Vector Word64 5) : State :=
  ({ s with d := { s.d.withHead v[0] with trhead := v[1] } }).answer stOk []

/-! ### Register writes (R308) -/

/-- REGISTER_WRITE. Read-only registers and KICK, which has a step of its own, ignore it. A doorbell with a command code
that the mailbox does not know is answered at once. -/
def registerWrite (s : State) (off : Nat) (v : Word64) : State :=
  let b := s.bar
  if s.frame.st = .cold then s
  else match off with
  | 0x008 => if s.holds then s else { s with bar := { b with ringBase := .ofNat 64 (fld v 0 40 + fld v 63 1 * 2 ^ 63) } }
  | 0x010 => if s.holds then s else { s with bar := { b with ringLog := v.setWidth 4 } }
  | 0x028 => { s with bar := { b with evBase := v.setWidth 40 } }
  | 0x030 => { s with bar := { b with evLog := v.setWidth 4 } }
  | 0x038 => { s with bar := { b with evHead := v.setWidth 32 } }
  | 0x180 =>
    if v.getLsbD 0 = false || b.mbBusy then s
    else
      let s1 := { s with bar := { b with mbBusy := true } }
      let c := fld (b.mbReq[0]?.getD 0) 0 8
      if c = 0 || 10 < c then s1.answer stBadArg [] else s1
  | o =>
    if 0x100 ≤ o ∧ o < 0x140 ∧ o % 8 = 0 then
      { s with bar := { b with mbReq := b.mbReq.setIfInBounds ((o - 0x100) / 8) v } }
    else s

/-! ### Boot and reset (R314, R307, 01 R14) -/

/-- COLD: everything as at reset but what is fused or in flash, other chips' memory, and the model's own inputs. -/
def toCold (s : State) : State :=
  { State.reset with
    mem := s.mem.filter fun c => decide (chipSpan ≤ c.1)
    poisonM := s.poisonM.filter fun k => decide (chipSpan ≤ k)
    frame := { Frame.reset with fuse := s.frame.fuse, lmsIdx := s.frame.lmsIdx, attLow := s.frame.attLow }
    schedule := s.schedule
    arg := s.arg
    freeN := s.freeN
    bundles := s.bundles
    attReports := s.attReports }

/-- ENTER_SAFE: from COLD; the GTC counts from 0. -/
def enterSafe (s : State) : State :=
  if s.frame.st = .cold then { s with frame := { s.frame with st := .safe }, gtc := 0, gtcFrac := 0 } else s

/-- ENTER_REDUCED: after IMAGE; HBM runs. -/
def enterReduced (s : State) : State :=
  if s.frame.st = .safe && s.frame.imageOk then { s with frame := { s.frame with st := .reduced, hbmUp := true } } else s

/-- ENTER_FULL: at a launch boundary (01 R11). -/
def enterFull (s : State) : State :=
  if s.frame.st = .reduced && !s.holds then { s with frame := { s.frame with st := .full } } else s

/-- THERMAL_TRIP of a die (01 R14): launches end without an event, the device stands in SAFE without an image. -/
def thermalTrip (s : State) (die : Nat) : State :=
  if s.frame.st = .cold then s
  else
    let s1 := { s.toCold with
      gtc := s.gtc
      gtcFrac := s.gtcFrac
      bar := s.bar
      health := s.health
      events := s.events
      msix := s.msix
      netOut := s.netOut
      wire := s.wire
      gals := (s.gals.filter fun (p : Nat × Gallery) => p.2.fenced || p.2.fenceReq).map fun (p : Nat × Gallery) => (p.1, { Gallery.initial with fenced := true })
      frame := { s.frame with
        st := .safe, tripped := true, tripGtc := s.gtc, tripDie := .ofNat 2 die, imageOk := false, hbmUp := false } }
    s1.event 0x16 headSrc 0 0xFFFFFFFF [s.gtc.toNat, die % 4]

/-! ### Host memory accesses (R307) -/

/-- Bytes of the HBM of one chip. -/
def hbmBytes : Nat := framesPerChip * frameBytes

/-- HOST_MEM_WRITE. -/
def hostWrite (s : State) (a : Nat) (bytes : List Byte) : State :=
  if s.frame.hbmUp && decide (a + bytes.length ≤ hbmBytes) then
    { s with mem := memBlit s.mem a bytes, poisonM := clearPois s.poisonM a bytes.length }
  else s

/-- HOST_MEM_READ. -/
def hostRead (s : State) (a n : Nat) : State :=
  if s.frame.hbmUp && decide (a + n ≤ hbmBytes) then { s with hostData := memBytes s.mem a n } else s

/-! ### The Boluz link (R311) -/

/-- LINK_DEAD: the path to a chip is dead. -/
def linkDead (s : State) (c : BitVec 13) : State :=
  let t := { s with replays := lput s.replays c.toNat 0 }
  if t.health.dead.contains c then t
  else ({ t with health := { t.health with dead := t.health.dead ++ [c] } }).event 0x15 headSrc 0 0xFFFFFFFF
    [c.toNat, (Config.freeWord s.freeN 1007).toNat]

/-- FLIT on the path from a chip: a flit with a good CRC is accepted; another is replayed by its sender, and a path is dead
after 16 replays in a row have failed. -/
def flit (s : State) (peer : BitVec 13) (c : BitVec 480) (crc : BitVec 32) : State :=
  if crc32 polyC (flitBytes c) = crc then
    { s with
      linkFlits := lput s.linkFlits peer.toNat (lget s.linkFlits peer.toNat [] ++ [c])
      replays := lput s.replays peer.toNat 0 }
  else
    -- the first failure is the flit's own, each further one a replay's
    let k := lget s.replays peer.toNat 0 + 1
    if 17 ≤ k then s.linkDead peer else { s with replays := lput s.replays peer.toNat k }

/-- FLIT on the path to a chip: flit k of those sent there has failed its CRC at the other end and is sent again from the
retry buffer. The first failure is the flit's own, each further one a replay's. -/
def resend (s : State) (peer : BitVec 13) (k : Nat) : State :=
  match (lget s.retry peer.toNat [])[k]? with
  | none => s
  | some f =>
    let last := lget s.resends peer.toNat (0, 0)
    let m := if last.1 = k then last.2 + 1 else 1
    let t := { s with wire := s.wire ++ [(peer, f)], resends := lput s.resends peer.toNat (k, m) }
    if 17 ≤ m then t.linkDead peer else t

/-- A CPYP refused here: the sender is told, both devices write an error record (R83). -/
def refuseCopy (s : State) (src : BitVec 13) (id : CpId) (gal granule : Nat) : State :=
  (s.send src (.refusal id gal granule)).grantErr src.toNat s.ownChip gal granule

/-- The shift whose CPYP an answer is about, wherever it has moved. -/
def sentCopy (s : State) (id : CpId) : Option (Nat × CopyCmd) :=
  s.shifts.findSome? fun p => (State.sentBy p.2 id).map fun c => (p.1, c)

/-- An answer to a CPYP: none where it was performed, the chip that refused it otherwise. One for a saved context is kept for
its resume. -/
def answerCopy (s : State) (id : CpId) (r : Option Nat) : State :=
  match s.sentCopy id with
  | some (n, c) => match r with
    | none => s.endCpyp n c id.q
    | some chip => (s.refuse n chip c.bundle).endCpyp n c id.q
  | none => { s with saved := s.saved.map fun v =>
      if (State.sentBy v.sh id).isSome then { v with acks := v.acks ++ [(id, r)] } else v }

/-- A packet performed here. -/
def perform (s : State) (p : Packet) : State :=
  match p.body with
  | .store a bytes =>
    if a + bytes.length ≤ hbmBytes then
      { s with mem := memBlit s.mem a bytes, poisonM := clearPois s.poisonM a bytes.length }
    else s
  | .copy id gal off bytes pois =>
    if s.refusedCp.contains (p.src, id) then s
    else match s.takeBits p.src.toNat gal off pois bytes with
      | (s1, none) => s1
      | (s1, some g) => ({ s1 with refusedCp := s1.refusedCp ++ [(p.src, id)] }).refuseCopy p.src id gal g
  | .arrive id gal off n =>
    if s.refusedCp.contains (p.src, id) then { s with refusedCp := s.refusedCp.filter fun r => r != (p.src, id) }
    else if off = 0 then s.send p.src (.ack id)
    else match s.deliverArrive p.src.toNat gal off n with
      | some s1 => s1.send p.src (.ack id)
      | none => s.refuseCopy p.src id gal (off / 64)
  | .ack id => s.answerCopy id none
  | .refusal id gal granule => (s.answerCopy id (some p.src.toNat)).grantErr s.ownChip p.src.toNat gal granule

/-- A packet of a path whose flits have all come: its header flit, its data flits, at most 16, and the flits behind it. -/
def packetOf : List (BitVec 480) → Option (BitVec 480 × List (BitVec 480) × List (BitVec 480))
  | [] => none
  | h :: r =>
    let k := min 16 (Config.packetFlits h)
    if r.length < k then none else some (h, r.take k, r.drop k)

/-- PACKET: the oldest packet of the path from a chip is performed, if it is for this chip. Its header names its destination,
[12:0], and its source, [25:13]; before SETCHIP no number names this device (01 R13). -/
def packet (s : State) (peer : BitVec 13) : State :=
  match packetOf (lget s.linkFlits peer.toNat []) with
  | none => s
  | some (h, data, r) =>
    let t := { s with linkFlits := lput s.linkFlits peer.toNat r }
    if s.frame.hbmUp && s.bar.chipSet && fld h 0 13 = s.ownChip then t.perform ⟨.ofNat 13 (fld h 13 13), Config.packetBody h data⟩ else t

/-- LINK_DEGRADED: the path to a chip runs on 32 lanes. -/
def linkDegraded (s : State) (c : BitVec 13) : State :=
  if s.health.degraded.contains c then s
  else ({ s with health := { s.health with degraded := s.health.degraded ++ [c] } }).event 0x15 headSrc 0 0xFFFFFFFF [c.toNat, 32]

/-- LINK_RECOVERY: the path is in service again. -/
def linkRecovery (s : State) (c : BitVec 13) : State :=
  { s with
    replays := lput s.replays c.toNat 0
    resends := lput s.resends c.toNat (0, 0)
    health := { s.health with
      dead := s.health.dead.filter fun d => d != c, degraded := s.health.degraded.filter fun d => d != c } }

/-! ### Time (R315, 13 R281) -/

/-- A correction of the GTC: a step before the first launch, slewed afterwards. -/
def discipline (s : State) (d : Int) : State :=
  if s.frame.st = .cold then s
  else
    let f := { s.frame with gmLost := false }
    let s1 := { s with health := { s.health with hold := false } }
    if s.frame.launchSeen then { s1 with frame := { f with slew := f.slew + d } }
    else { s1 with frame := f, gtc := .ofInt 64 (s.gtc.toNat + d) }

/-- GRANDMASTER_LOST: holdover on the last rate. -/
def grandmasterLost (s : State) : State :=
  { s with frame := { s.frame with gmLost := true, slew := 0 }, health := { s.health with hold := true } }

/-! ### Errors (R316) -/

/-- A corrected error of a unit at an address is counted; MEMERR when a threshold is crossed. -/
def corrected (s : State) (unit addr : Nat) : State :=
  let h := s.health
  let ce : BitVec 32 := if h.ce = 0xFFFFFFFF then h.ce else h.ce + 1
  let crossed : Bool := ce != h.ce && (ce = h.degTh || ce = h.repTh)
  let s1 := { s with health := { h with ce := ce, replace := h.replace || decide (h.repTh.toNat ≤ ce.toNat) } }
  if crossed then s1.event 0x14 headSrc 0 0xFFFFFFFF [unit, addr] else s1

/-- An uncorrectable error: counted, reported, its data poisoned. -/
def uncorrectable (s : State) (items : List Nat) : State :=
  let h := s.health
  ({ s with health := { h with ue := h.ue + 1, replace := h.replace || decide (16 ≤ h.ue + 1) } }).event 0x14 headSrc 0
    0xFFFFFFFF items

/-- ECC_ERROR. Poison covers the 64-byte granule of a byte in memory (log 27). -/
def eccError (s : State) (e : EccAt) : State :=
  match e with
  | .corrected unit addr => s.corrected unit addr
  | .hbm a =>
    { s.uncorrectable [0, a] with poisonM := setPois s.poisonM (a / 64 * 64) 64 }
  | .scratch g off =>
    { s.uncorrectable [1, g, off] with poisonS := setPois s.poisonS (spKey g (off / 64 * 64)) 64 }
  | .greg n r =>
    if r = 0 then s.uncorrectable [2, n, 0]
    else (s.uncorrectable [2, n, r.toNat]).modSh n fun x =>
      { x with arch := { x.arch with gpois := x.arch.gpois ||| (1#32 <<< r.toNat) } }
  | .vreg n r => (s.uncorrectable [3, n, r.toNat]).modSh n fun x =>
      { x with arch := { x.arch with v := x.arch.v.setIfInBounds r.toNat { (x.arch.v[r.toNat]?.getD .zero) with pois := true } } }
  | .tile n t => (s.uncorrectable [4, n, t.toNat]).modSh n fun x =>
      { x with tiles := x.tiles.setIfInBounds t.toNat { (x.tiles[t.toNat]?.getD .zero) with pois := true } }
  | .front n f => (s.uncorrectable [5, n, f.toNat]).modSh n fun x =>
      { x with arch := { x.arch with
        fronts := x.arch.fronts.setIfInBounds f.toNat { (x.arch.fronts[f.toNat]?.getD .empty) with pois := true } } }

end State

end Sys2Proof.Machine
end

