-- ==== Sys2Proof/Machine/Events.lean ====
section
/-! DEFINITION. The steps without an encoding: of the ordering machine (11 R220), of queues and units, of the task
machine, of the host and of the link. Each reads what it is about from the machine's input (log 1), and a step that is
not enabled is passed over (log 12). -/

namespace Sys2Proof.Machine

namespace State

/-- No bundle opens. -/
def noBundle (s : State) : State := { s with cur := { Cur.nothing with fin := .blocked } }

/-- A step about one unit. -/
def onUnit (s : State) (f : Nat → State) : Out := match s.arg with
  | .unit n => .next (f n)
  | _ => .next s

/-- Whether the headframe runs. -/
def awake (s : State) : Bool := s.frame.st != .cold

/-- A step about the device while its headframe runs. -/
def whenAwake (s : State) (f : State → State) : Out := .next (if s.awake then f s else s)

/-- The LSQ head of shift n performed when its operation is of the given kind. -/
def perfKind (s : State) (n : Nat) (kind : LsqOp → Bool) : State := match (s.sh n).lsq with
  | [] => s
  | e :: _ => if kind e.op then s.perfLsq n else s

/-- The MX head of shift n performed when its core serves that shift next. -/
def perfMx (s : State) (n : Nat) : State := if s.mxNext (n / 4) = some n then s.mxqPerform (n / 4) else s

/-- The head of copy queue q of shift n performed: a command, a join or a claim instruction. -/
def perfCpq (s : State) (n : Nat) (q : BitVec 2) : State := match ((s.sh n).cpq[q.toNat]?.getD []).head? with
  | some (.claim ..) => s.claimPerform n
  | _ => s.copyPerform n q

/-- A bundle opened for its boundary only; one that is no boundary stays closed (11 R222). -/
def openBoundary (s : State) (n : Nat) (w : Want) : State :=
  if !s.canOpen n then s.noBundle
  else
    let s1 := s.openBundle n
    if s1.cur.fin = .ok && (s1.cur.bench || (acting s1.cur).any fun t => isBoundary t.instr) then
      { s1 with cur := { s1.cur with want := w } }
    else s.noBundle

/-- Whether an ECC error names a place that the device has. -/
def eccPlace (e : EccAt) : Bool := match e with
  | .corrected .. => true
  | .hbm a => a < hbmBytes
  | .scratch g off => g < 64 && decide (off < spBytes)
  | .greg n _ => n < 2048
  | .vreg n _ => n < 2048
  | .tile n _ => n < 2048
  | .front n _ => n < 2048

end State

/-! ### The ordering machine (11 R220) -/

/-- ISSUE (02 R29): the bundle of a shift opens; its slots run in the same step. -/
def execIssue (s : State) : Out := match s.arg with
  | .unit n => .next (if s.canIssue n then s.openBundle n else s.noBundle)
  | _ => .next s.noBundle

/-- PHASE_BOUNDARY (R222): the boundary in front of a shift's next bundle, without the bundle. -/
def execPhaseBoundary (s : State) : Out := match s.arg with
  | .unit n => .next (s.openBoundary n .boundary)
  | _ => .next s.noBundle

/-- COMMIT (R220): the oldest gate entry, or its next element, of a shift in step 4 or with a release atomic under way; for a
shift in front of a boundary its steps 1 to 3, and the first commit. -/
def execCommit (s : State) : Out := match s.arg with
  | .unit n => .next (if State.inCommit (s.sh n) || s.draining n then (s.commitStep n).noBundle else s.openBoundary n .commit)
  | _ => .next s.noBundle

/-- PERFORM (R220) of the head of a queue. -/
def execPerform (s : State) : Out := match s.arg with
  | .queue n .lsq => .next (s.perfLsq n)
  | .queue n .mxq => .next (s.perfMx n)
  | .queue n (.cpq q) => .next (s.perfCpq n q)
  | .elems n q k => .next (s.copyPerform n q (some k))
  | _ => .next s

/-- GATE (R220). -/
def execGate (s : State) : Out := s.onUnit fun n => s.perfKind n fun o => match o with
  | .store .. => true
  | _ => false

/-- ATOMIC (R220). -/
def execAtomic (s : State) : Out := s.onUnit fun n => s.perfKind n fun o => match o with
  | .atomic .. => true
  | _ => false

/-- LOAD (R220). -/
def execLoad (s : State) : Out := s.onUnit fun n => s.perfKind n fun o => match o with
  | .load .. => true
  | .replay .. => true
  | _ => false

/-- TRAP_ENTRY (14 R287): the pending memory fault of a shift is taken, or the trap that has waited for loads and atomics. -/
def execTrapEntry (s : State) : Out := s.onUnit fun n => s.takeMemTrap n

/-- FPX (07 R144): the trap of an enabled event that has landed, in place of the shift's next bundle. -/
def execFpx (s : State) : Out := s.onUnit fun n =>
  if s.canIssue n then (match s.fpxDue n with
    | some (r, s1) => s1.trapOpen n r
    | none => s)
  else s

/-- RESULT_LANDING (02 R30): result k in flight of a shift lands before its bound. -/
def execResultLanding (s : State) : Out := match s.arg with
  | .pair n k => .next (if (s.sh n).inflight.length ≤ k then s else s.modSh n (Shift.landIdx s.freeSlot k))
  | _ => .next s

/-! ### Queues and units -/

/-- SHIFT_WAKE (13 R259). -/
def execShiftWake (s : State) : Out := s.onUnit fun n => if s.canWake n then s.wake n else s

/-- COPY_PERFORM (04 R70): of the rest of a slab, or of some of its elements. -/
def execCopyPerform (s : State) : Out := match s.arg with
  | .queue n (.cpq q) => .next (s.copyPerform n q)
  | .elems n q k => .next (s.copyPerform n q (some k))
  | _ => .next s

/-- MXQ_PERFORM (09 R175) for a core. -/
def execMxqPerform (s : State) : Out := s.onUnit fun c => s.mxqPerform c

/-- BROADCAST_STRIP (09 R185) in a gallery's group. -/
def execBroadcastStrip (s : State) : Out := match s.arg with
  | .pair g k => .next (s.broadcastStrip g k)
  | _ => .next s

/-- CLAIM_PERFORM (03 R60). -/
def execClaimPerform (s : State) : Out := s.onUnit fun n => s.claimPerform n

/-- FENCE_TIMEOUT (11 R233). -/
def execFenceTimeout (s : State) : Out := s.onUnit fun n => s.fenceTimeout n

/-- SHPINV (03 R53): the shape and entry caches are emptied. -/
def execShpinv (s : State) : Out := .next { s with ttCache := [] }

/-! ### Tasks, stages, launches -/

/-- WATCHDOG (13 R274). -/
def execWatchdog (s : State) : Out := s.onUnit fun n => s.watchdog n
/-- TASK_START (13 R266). -/
def execTaskStart (s : State) : Out := s.onUnit fun n => s.taskStart n

/-- STAGE_DONE (13 R267) of stage k of a launch. -/
def execStageDone (s : State) : Out := match s.arg with
  | .launch seq k => .next (s.stageDone seq k)
  | _ => .next s

/-- STEERING (13 R268) in a gallery. -/
def execSteering (s : State) : Out := s.onUnit fun g => s.steering g
/-- PREEMPTION (14 R294). -/
def execPreemption (s : State) : Out := s.onUnit fun n => s.preemptBoth n

/-- SHIFT_RESUME (14 R295): a row of the save tensor on a shift, given as shift and row. -/
def execShiftResume (s : State) : Out := match s.arg with
  | .pair n row => .next (s.shiftResume row n)
  | _ => .next s

/-! ### Host -/

/-- KICK (14 R299). -/
def execKick (s : State) : Out := match s.arg with
  | .kick w o => .next (s.kick w o)
  | _ => .next s

/-- KICK_REREAD (14 R299). -/
def execKickReread (s : State) : Out := .next s.readKick

/-- REGISTER_WRITE (15 R308). -/
def execRegisterWrite (s : State) : Out := match s.arg with
  | .register o v => .next (s.registerWrite o.toNat v)
  | _ => .next s

/-- IMAGE (15 R312): the image comes from the host's memory, at the address that the request names. -/
def execImage (s : State) : Out := match s.arg with
  | .image i => .next (s.serve 1 fun _ t => t.imageCmd i)
  | _ => .next s

/-- SETCHIP (15 R310). -/
def execSetchip (s : State) : Out := .next (s.serve 2 fun a t => t.setchipCmd (Config.mbChip a))

/-- FENCE of galleries (01 R15). -/
def execFenceGalleries (s : State) : Out := .next (s.serve 3 fun a t => (t.fenceGals (Config.mbMask a)).answer State.stOk [])

/-- UNFENCE (15 R310). -/
def execUnfence (s : State) : Out := .next (s.serve 4 fun a t => (t.unfenceGals (Config.mbMask a)).answer State.stOk [])

/-- PREEMPT (15 R310). -/
def execPreempt (s : State) : Out := .next (s.serve 5 fun a t => t.preemptCmd (Config.mbPart a).1 (Config.mbPart a).2.1)

/-- RESUME (15 R310). -/
def execResume (s : State) : Out :=
  .next (s.serve 6 fun a t => t.resumeCmd (Config.mbPart a).1 (Config.mbPart a).2.1 (Config.mbPart a).2.2)

/-- ATTEST (15 R313). -/
def execAttest (s : State) : Out := .next (s.serve 7 fun a t => t.attestCmd (Config.mbNonce a))

/-- ARBUMP (15 R312). -/
def execArbump (s : State) : Out := .next (s.serve 8 fun _ t => t.arbumpCmd)

/-- HLTHCFG (15 R316). -/
def execHlthcfg (s : State) : Out :=
  .next (s.serve 9 fun a t => t.hlthcfgCmd (Config.mbThresholds a).1 (Config.mbThresholds a).2)

/-- SYSCFG (15 R310): a request without HEADS. -/
def execSyscfg (s : State) : Out :=
  .next (s.serve 10 fun a t => if Config.mbHeads a then t else t.syscfgCmd (Config.mbSyscfg a))

/-- SYSCFG with HEADS (15 R310). -/
def execSyscfgHeads (s : State) : Out :=
  .next (s.serve 10 fun a t => if Config.mbHeads a then t.syscfgHeadsCmd (Config.mbSyscfg a) else t)

/-- HOST_MEM_WRITE (15 R307). -/
def execHostMemWrite (s : State) : Out := match s.arg with
  | .hostWrite a l => .next (s.hostWrite a l)
  | _ => .next s

/-- HOST_MEM_READ (15 R307). -/
def execHostMemRead (s : State) : Out := match s.arg with
  | .hostRead a n => .next (s.hostRead a n)
  | _ => .next s

/-! ### Host events (15 R309) -/

/-- DONE. -/
def execDone (s : State) : Out := match s.arg with
  | .launch seq _ => .next (s.doneStep seq)
  | _ => .next (s.postKind 0x10)

/-- HALT. -/
def execHalt (s : State) : Out := match s.arg with
  | .launch seq _ => .next (s.haltStep seq)
  | _ => .next (s.postKind 0x11)

/-- REFUSED. -/
def execRefused (s : State) : Out := .next (s.postKind 0x12)
/-- GRANTERR. -/
def execGranterr (s : State) : Out := .next (s.postKind 0x13)
/-- MEMERR. -/
def execMemerr (s : State) : Out := .next (s.postKind 0x14)
/-- LINKERR. -/
def execLinkerr (s : State) : Out := .next (s.postKind 0x15)
/-- THERMAL. -/
def execThermal (s : State) : Out := .next (s.postKind 0x16)
/-- ATTLOW. -/
def execAttlow (s : State) : Out := .next (s.postKind 0x17)

/-! ### Boot, reset, errors -/

/-- THERMAL_TRIP (01 R14) of a die. -/
def execThermalTrip (s : State) : Out := s.onUnit fun d => s.thermalTrip d
/-- CXL_RESET (15 R307). -/
def execCxlReset (s : State) : Out := .next s.toCold
/-- POWER_LOSS (15 R307). -/
def execPowerLoss (s : State) : Out := .next s.toCold
/-- ENTER_SAFE (15 R314). -/
def execEnterSafe (s : State) : Out := .next s.enterSafe
/-- ENTER_REDUCED (15 R314). -/
def execEnterReduced (s : State) : Out := .next s.enterReduced
/-- ENTER_FULL (15 R314). -/
def execEnterFull (s : State) : Out := .next s.enterFull

/-- ECC_ERROR (15 R316). -/
def execEccError (s : State) : Out := match s.arg with
  | .ecc e => .next (if s.awake && State.eccPlace e then s.eccError e else s)
  | _ => .next s

/-- RNG_HEALTH_FAIL (14 R303). -/
def execRngHealthFail (s : State) : Out := s.whenAwake fun t => { t with health := { t.health with rngBad := true } }

/-! ### The Boluz link (15 R311) and time (15 R315) -/

/-- FLIT. -/
def execFlit (s : State) : Out := match s.arg with
  | .flit p c crc => s.whenAwake fun t => t.flit p c crc
  | .resend p k => s.whenAwake fun t => t.resend p k
  | _ => .next s

/-- PACKET. -/
def execPacket (s : State) : Out := match s.arg with
  | .chip c => .next (s.packet c)
  | _ => .next s

/-- LINK_DEGRADED. -/
def execLinkDegraded (s : State) : Out := match s.arg with
  | .chip c => s.whenAwake fun t => t.linkDegraded c
  | _ => .next s

/-- LINK_DEAD. -/
def execLinkDead (s : State) : Out := match s.arg with
  | .chip c => s.whenAwake fun t => t.linkDead c
  | _ => .next s

/-- LINK_RECOVERY. -/
def execLinkRecovery (s : State) : Out := match s.arg with
  | .chip c => s.whenAwake fun t => t.linkRecovery c
  | _ => .next s

/-- PTP_MESSAGE: a correction of the GTC. -/
def execPtpMessage (s : State) : Out := match s.arg with
  | .delta d => .next (s.discipline d)
  | _ => .next s

/-- PPS_INPUT: a correction of the GTC. -/
def execPpsInput (s : State) : Out := match s.arg with
  | .delta d => .next (s.discipline d)
  | _ => .next s

/-- GRANDMASTER_LOST. -/
def execGrandmasterLost (s : State) : Out := s.whenAwake State.grandmasterLost

end Sys2Proof.Machine
end

