-- ==== Sys2Proof/Machine/LoadStore.lean ====
section
/-! DEFINITION. Loads, stores, scratchpad words and atomics, class 4 (03_main_memory R59, 05_scratchpad R104, 11 R234). -/

namespace Sys2Proof.Machine

namespace State

/-- A global load enters the queue (R59): a misaligned address raises ALIGN. -/
def loadOp (s : State) (d a : R5) (i : BitVec 10) (x : Option (BitVec 27)) (n : Nat) (sx : Bool) : Out :=
  s.usesG [a]
    (let p := s.effAddr a i x
     if p.toNat % n != 0 then .next (s.trapAt .align s.freeInfo) else .next (s.pushLsq (.load d p n sx)))

/-- A global store enters the queue (R59). -/
def storeOp (s : State) (d a : R5) (i : BitVec 10) (x : Option (BitVec 27)) (n : Nat) : Out :=
  s.usesG [a, d]
    (let p := s.effAddr a i x
     if p.toNat % n != 0 then .next (s.trapAt .align s.freeInfo) else .next (s.pushLsq (.store p n (s.rdG d))))

/-- Bytes of an atomic: C[0] chooses 4 (R234). -/
def atomicLen (w : BitVec 1) : Nat := if w = 1 then 4 else 8

/-- An atomic enters the queue (R234), behind its boundary when it is a release. -/
def atomicOp (s : State) (op : AOp) (d a b : R5) (o : BitVec 2) (facq : Bool) (w : BitVec 1) : Out :=
  s.usesG (if op = .cas then [a, b, d] else [a, b])
    (let n := atomicLen w
     if (s.rdG a).toNat % n != 0 then .next (s.trapAt .align s.freeInfo)
     else
       let p : LsqOp := .atomic op d (s.rdG a) n (s.rdG b) (s.rdG d) o facq
       if 2 ≤ o.toNat then s.atBoundary false false true fun t => .next (t.pushLsq p)
       else .next (s.pushLsq p))

end State


/-- LDB (R59). -/
def execLdb (d a : R5) (i : BitVec 10) (x : Option (BitVec 27)) (s : State) : Out :=
  s.loadOp d a i x 1 false

/-- LDH (R59). -/
def execLdh (d a : R5) (i : BitVec 10) (x : Option (BitVec 27)) (s : State) : Out :=
  s.loadOp d a i x 2 false

/-- LDW (R59). -/
def execLdw (d a : R5) (i : BitVec 10) (x : Option (BitVec 27)) (s : State) : Out :=
  s.loadOp d a i x 4 false

/-- LDD (R59). -/
def execLdd (d a : R5) (i : BitVec 10) (x : Option (BitVec 27)) (s : State) : Out :=
  s.loadOp d a i x 8 false

/-- LDBX (R59). -/
def execLdbx (d a : R5) (i : BitVec 10) (x : Option (BitVec 27)) (s : State) : Out :=
  s.loadOp d a i x 1 true

/-- LDHX (R59). -/
def execLdhx (d a : R5) (i : BitVec 10) (x : Option (BitVec 27)) (s : State) : Out :=
  s.loadOp d a i x 2 true

/-- LDWX (R59). -/
def execLdwx (d a : R5) (i : BitVec 10) (x : Option (BitVec 27)) (s : State) : Out :=
  s.loadOp d a i x 4 true

/-- STB (R59). -/
def execStb (d a : R5) (i : BitVec 10) (x : Option (BitVec 27)) (s : State) : Out := s.storeOp d a i x 1

/-- STH (R59). -/
def execSth (d a : R5) (i : BitVec 10) (x : Option (BitVec 27)) (s : State) : Out := s.storeOp d a i x 2

/-- STW (R59). -/
def execStw (d a : R5) (i : BitVec 10) (x : Option (BitVec 27)) (s : State) : Out := s.storeOp d a i x 4

/-- STD (R59). -/
def execStd (d a : R5) (i : BitVec 10) (x : Option (BitVec 27)) (s : State) : Out := s.storeOp d a i x 8

/-- SLD (R104): the address is taken modulo 2^24; the result carries the granule's poison. -/
def execSld (d a : R5) (i : BitVec 10) (x : Option (BitVec 27)) (s : State) : Out :=
  s.usesG [a]
    (let p := (s.effAddr a i x).toNat % spBytes
     if p % 8 != 0 then .next (s.trapAt .align s.freeInfo)
     else s.lsFirst fun s1 =>
       let (v, pois, s2) := s1.spRead s.cur.shift p 8
       .next (s2.wrGp d (.ofNat 64 v) pois 6))

/-- SST (R104). -/
def execSst (d a : R5) (i : BitVec 10) (x : Option (BitVec 27)) (s : State) : Out :=
  s.usesG [a, d]
    (let p := (s.effAddr a i x).toNat % spBytes
     if p % 8 != 0 then .next (s.trapAt .align s.freeInfo)
     else s.lsFirst fun s1 => .next (s1.spWrite s.cur.shift p 8 (s.rdG d).toNat))

/-- AADD (R234). -/
def execAadd (d a b : R5) (o : BitVec 2) (w : BitVec 1) (s : State) : Out := s.atomicOp .add d a b o false w

/-- AMIN (R234). -/
def execAmin (d a b : R5) (o : BitVec 2) (w : BitVec 1) (s : State) : Out := s.atomicOp .min d a b o false w

/-- AMINU (R234). -/
def execAminu (d a b : R5) (o : BitVec 2) (w : BitVec 1) (s : State) : Out := s.atomicOp .minu d a b o false w

/-- AMAX (R234). -/
def execAmax (d a b : R5) (o : BitVec 2) (w : BitVec 1) (s : State) : Out := s.atomicOp .max d a b o false w

/-- AMAXU (R234). -/
def execAmaxu (d a b : R5) (o : BitVec 2) (w : BitVec 1) (s : State) : Out := s.atomicOp .maxu d a b o false w

/-- AAND (R234). -/
def execAand (d a b : R5) (o : BitVec 2) (w : BitVec 1) (s : State) : Out := s.atomicOp .and d a b o false w

/-- AOR (R234). -/
def execAor (d a b : R5) (o : BitVec 2) (w : BitVec 1) (s : State) : Out := s.atomicOp .or d a b o false w

/-- AXOR (R234). -/
def execAxor (d a b : R5) (o : BitVec 2) (w : BitVec 1) (s : State) : Out := s.atomicOp .xor d a b o false w

/-- ASWP (R234). -/
def execAswp (d a b : R5) (o : BitVec 2) (w : BitVec 1) (s : State) : Out := s.atomicOp .swp d a b o false w

/-- ACAS (R234): the new value is G[D]; F = 1 is `.facq`. -/
def execAcas (d a b : R5) (o f : BitVec 2) (w : BitVec 1) (s : State) : Out := s.atomicOp .cas d a b o (f = 1) w

end Sys2Proof.Machine
end

