-- ==== Sys2Proof/Machine/ScalarFp.lean ====
section
/-! DEFINITION. Scalar floating point, class 2 (07_number_formats R152, R153): FP32 values in the low halves of general
registers. -/

namespace Sys2Proof.Machine

/-- An FP32 operand. -/
def fp32 (w : Word64) : Num := (decodeNum 0 (w.toNat % 2 ^ 32)).1
/-- An FP32 result, zero-extended, with its flags. -/
def fpRes (x : Num × Bool) (rm : BitVec 2) : Word64 × Flags :=
  let (r, f) := round 0 x.1 rm.toNat 0
  (.ofNat 64 r, f ||| flagIf x.2 flagNV)
/-- Whether a rounding mode is RDN, which gives x + (-x) its sign (R153). -/
def isRdn (rm : BitVec 2) : Bool := rm = 3
/-- FMIN and FMAX (R153). -/
def fpPick (gt : Bool) (a b : Word64) : Word64 × Flags :=
  let x := fp32 a
  let y := fp32 b
  let nv := flagIf (x.isSnan || y.isSnan) flagNV
  if x.isNan && y.isNan then (0x7FC00000, nv)
  else (.ofNat 64 ((if pickMin gt x y then a else b).toNat % 2 ^ 32), nv)
/-- A comparison: its result on numbers, and whether a quiet NaN is invalid too (R153). -/
def fpCmp (test : Int → Bool) (anyNan : Bool) (a b : Word64) : Word64 × Flags :=
  let x := fp32 a
  let y := fp32 b
  if x.isNan || y.isNan then (0, flagIf (anyNan || x.isSnan || y.isSnan) flagNV)
  else (boolWord (test (cmpNum x y)), 0)

namespace State

def fp1 (s : State) (d a : R5) (lat : Nat) (f : Word64 → Word64 × Flags) : Out :=
  s.usesG [a] (.next (s.regF d lat (f (s.rdG a))))
def fp2 (s : State) (d a b : R5) (lat : Nat) (f : Word64 → Word64 → Word64 × Flags) : Out :=
  s.usesG [a, b] (.next (s.regF d lat (f (s.rdG a) (s.rdG b))))

end State

/-- FADD (R152). -/
def execFadd (d a b : R5) (r : BitVec 2) (s : State) : Out :=
  s.fp2 d a b 4 fun a b => fpRes (addNum (fp32 a) (fp32 b) (isRdn r)) r
/-- FSUB (R152). -/
def execFsub (d a b : R5) (r : BitVec 2) (s : State) : Out :=
  s.fp2 d a b 4 fun a b => fpRes (addNum (fp32 a) (fp32 b).neg (isRdn r)) r
/-- FMUL (R152). -/
def execFmul (d a b : R5) (r : BitVec 2) (s : State) : Out :=
  s.fp2 d a b 4 fun a b => fpRes (mulNum (fp32 a) (fp32 b)) r
/-- FMA (R152): the addend stands in the upper half of the first operand. -/
def execFma (d a b : R5) (r : BitVec 2) (s : State) : Out :=
  s.fp2 d a b 4 fun a b => fpRes (fmaNum (fp32 a) (fp32 b) (fp32 (a >>> 32)) (isRdn r)) r
/-- FMIN (R153). -/
def execFmin (d a b : R5) (s : State) : Out := s.fp2 d a b 4 (fpPick false)
/-- FMAX (R153). -/
def execFmax (d a b : R5) (s : State) : Out := s.fp2 d a b 4 (fpPick true)
/-- FCMPEQ (R153). -/
def execFcmpeq (d a b : R5) (s : State) : Out := s.fp2 d a b 4 (fpCmp (fun c => c = 0) false)
/-- FCMPLT (R153). -/
def execFcmplt (d a b : R5) (s : State) : Out := s.fp2 d a b 4 (fpCmp (fun c => c < 0) true)
/-- FCMPLE (R153). -/
def execFcmple (d a b : R5) (s : State) : Out := s.fp2 d a b 4 (fpCmp (fun c => c ≤ 0) true)
/-- FCVTI (R152, R153). -/
def execFcvti (d a : R5) (r : BitVec 2) (s : State) : Out :=
  s.fp1 d a 4 fun a => let (v, f) := round 0xC (fp32 a) r.toNat 0; (.ofNat 64 v, f)
/-- FCVTF (R152). -/
def execFcvtf (d a : R5) (r : BitVec 2) (s : State) : Out := s.fp1 d a 4 fun a => fpRes (.ofInt a.toInt, false) r
/-- FDIV (R152, R153). -/
def execFdiv (d a b : R5) (r : BitVec 2) (s : State) : Out :=
  s.fp2 d a b 12 fun a b =>
    let (q, nv, dz) := divNum (fp32 a) (fp32 b)
    let (v, f) := fpRes (q, nv) r
    (v, f ||| flagIf dz flagDZ)
/-- FSQRT (R152, R153). -/
def execFsqrt (d a : R5) (r : BitVec 2) (s : State) : Out := s.fp1 d a 12 fun a => fpRes (sqrtNum (fp32 a)) r

end Sys2Proof.Machine
end

