-- ==== Sys2Proof/Machine/Special.lean ====
section
/-! DEFINITION. The special functions (08_vector_units R169, R171; 06 R127). A value that no rounding boundary meets is
given by 512 fraction bits of it, marked inexact; the exact values are found apart (log 11). -/

namespace Sys2Proof.Machine

/-! ### Fixed point with 512 fraction bits -/

def fxP : Nat := 512
def fxOne : Nat := 2 ^ 512
/-- π in fixed point. -/
def fxPi : Nat := 0x3243f6a8885a308d313198a2e03707344a4093822299f31d0082efa98ec4e6c89452821e638d01377be5466cf34e90c6cc0ac29b7c97c50dd3f84d5b5b5470917
/-- ln 2 in fixed point. -/
def fxLn2 : Nat := 0xb17217f7d1cf79abc9e3b39803f2f6af40f343267298b62d8a0d175b8baafa2be7b876206debac98559552fb4afa1b10ed2eae35c138214427573b291169b825

/-- Σ x^k / k! from term k on. -/
def expTerms (x : Nat) : Nat → Nat → Nat → Nat → Nat
  | 0, _, _, acc => acc
  | fuel + 1, k, t, acc =>
    let t' := t * x / fxOne / k
    expTerms x fuel (k + 1) t' (acc + t')
/-- e^x for 0 ≤ x < 1. -/
def fxExp (x : Nat) : Nat := expTerms x 120 1 fxOne fxOne

/-- Σ z^(2k+1) / (2k+1). -/
def lnTerms (z2 : Nat) : Nat → Nat → Nat → Nat → Nat
  | 0, _, _, acc => acc
  | fuel + 1, k, t, acc =>
    let t' := t * z2 / fxOne
    lnTerms z2 fuel (k + 2) t' (acc + t' / k)
/-- ln m for 1 ≤ m < 2. -/
def fxLnMant (m : Nat) : Nat :=
  let z := (m - fxOne) * fxOne / (m + fxOne)
  2 * lnTerms (z * z / fxOne) 170 3 z z
/-- ln (n / 2^512) for n > 0. -/
def fxLn (n : Nat) : Int :=
  let t := Nat.log2 n
  ((t : Int) - fxP) * fxLn2 + fxLnMant (n * fxOne / 2 ^ t)

/-- The alternating series of sine from term k on. -/
def sinTerms (x2 : Nat) : Nat → Nat → Nat → Bool → Int → Int
  | 0, _, _, _, acc => acc
  | fuel + 1, k, t, neg, acc =>
    let t' := t * x2 / fxOne / (k * (k + 1))
    sinTerms x2 fuel (k + 2) t' (!neg) (if neg then acc - t' else acc + t')
/-- sin x for 0 ≤ x ≤ π/4. -/
def fxSin (x : Nat) : Nat := (sinTerms (x * x / fxOne) 64 2 x true x).toNat
/-- cos x for 0 ≤ x ≤ π/4. -/
def fxCos (x : Nat) : Nat := (sinTerms (x * x / fxOne) 64 1 fxOne true fxOne).toNat

/-- An inexact value v / 2^512. -/
def fxNum (neg : Bool) (v : Nat) : Num := .fin ⟨neg, v, -(fxP : Int), true⟩

/-! ### Functions of finite nonzero values -/

/-- 2^x. -/
def exp2Fin (x : Exact) : Num :=
  let clamp (n : Int) : Int := max (-4000) (min 4000 n)
  if 0 ≤ x.e then
    let n : Int := (x.m * 2 ^ x.e.toNat : Nat)
    .fin ⟨false, 1, clamp (if x.neg then -n else n), false⟩
  else
    let k := (-x.e).toNat
    let i := x.m / 2 ^ k
    let r := x.m % 2 ^ k
    if r = 0 then .fin ⟨false, 1, clamp (if x.neg then -(i : Int) else i), false⟩
    else
      let n : Int := if x.neg then -(i : Int) - 1 else i
      let f := if x.neg then 2 ^ k - r else r
      .fin ⟨false, fxExp (f * fxLn2 / 2 ^ k), clamp n - fxP, true⟩

/-- log₂ x for x > 0. -/
def log2Fin (x : Exact) : Num :=
  let t := Nat.log2 x.m
  if x.m = 2 ^ t then .ofInt (x.e + t)
  else
    let l := fxLnMant (x.m * fxOne / 2 ^ t) * fxOne / fxLn2
    let v : Int := (x.e + t) * fxOne + l
    fxNum (v < 0) v.natAbs

/-- 1/√x for x > 0. -/
def rsqFin (x : Exact) : Num :=
  let odd := (x.e % 2).toNat
  let m := x.m * 2 ^ odd
  let e := x.e - odd
  let k := 100 + Nat.log2 m
  let q := isqrt (2 ^ (2 * k) / m)
  .fin ⟨false, q, -(k : Int) - e / 2, q * q * m != 2 ^ (2 * k)⟩

/-- The quadrant of |x| turns, and the position r / 2^k within it (0 ≤ r < 2^k). -/
def turnOf (x : Exact) : Nat × Nat × Nat :=
  if 0 ≤ x.e then (0, 0, 0)
  else
    let k := (-x.e).toNat
    let f := 4 * (x.m % 2 ^ k)
    (f / 2 ^ k, f % 2 ^ k, k)

/-- sin of r / 2^k quarter turns, 0 < r < 2^k. -/
def quarterSin (r k : Nat) : Nat :=
  if 2 * r ≤ 2 ^ k then fxSin (r * fxPi / 2 / 2 ^ k) else fxCos ((2 ^ k - r) * fxPi / 2 / 2 ^ k)

/-- sin(2πx): a zero takes the sign of x. -/
def sinTurn (x : Exact) : Num :=
  let (q, r, k) := turnOf x
  if r = 0 then (if q % 2 = 0 then .zero x.neg else .fin ⟨x.neg != (q = 3), 1, 0, false⟩)
  else fxNum (x.neg != decide (2 ≤ q)) (if q % 2 = 0 then quarterSin r k else quarterSin (2 ^ k - r) k)

/-- cos(2πx): a zero is +0. -/
def cosTurn (x : Exact) : Num :=
  let (q, r, k) := turnOf x
  if r = 0 then (if q % 2 = 1 then .zero false else .fin ⟨q = 2, 1, 0, false⟩)
  else fxNum (q = 1 || q = 2) (if q % 2 = 0 then quarterSin (2 ^ k - r) k else quarterSin r k)

/-- tanh x. -/
def tanhFin (x : Exact) : Num :=
  let t : Int := x.e + Nat.log2 x.m
  if 7 ≤ t then .fin ⟨x.neg, 2 ^ 200 - 1, -200, true⟩
  else if t < -60 then .fin ⟨x.neg, x.m * 2 ^ 200 - 1, x.e - 200, true⟩
  else
    let y := x.m * 2 ^ (x.e + 1 + fxP).toNat
    let n := y / fxLn2
    let e := fxOne * fxOne / fxExp (y - n * fxLn2) / 2 ^ n
    fxNum x.neg ((fxOne - e) * fxOne / (fxOne + e))

/-- -ln(-ln u) for u = (h + 1/2) / 2^32 (R171). -/
def gumbel (h : Nat) : Num :=
  let y : Int := -(fxLn ((2 * h + 1) * 2 ^ (fxP - 33)))
  let g := -(fxLn y.toNat)
  fxNum (g < 0) g.natAbs

/-! ### The table of R169: value, invalid, division by zero -/

def spExp2 (x : Num) : Num × Bool × Bool :=
  match x with
  | .nan s => (.nan false, s, false)
  | .inf n => (if n then .zero false else .inf false, false, false)
  | .fin v => (if v.m = 0 then .ofInt 1 else exp2Fin v, false, false)

def spLog2 (x : Num) : Num × Bool × Bool :=
  match x with
  | .nan s => (.nan false, s, false)
  | .inf n => if n then (.nan false, true, false) else (.inf false, false, false)
  | .fin v => if v.m = 0 then (.inf true, false, true) else if v.neg then (.nan false, true, false)
      else (log2Fin v, false, false)

def spRcp (x : Num) : Num × Bool × Bool := divNum (.ofInt 1) x

def spRsq (x : Num) : Num × Bool × Bool :=
  match x with
  | .nan s => (.nan false, s, false)
  | .inf n => if n then (.nan false, true, false) else (.zero false, false, false)
  | .fin v => if v.m = 0 then (.inf v.neg, false, true) else if v.neg then (.nan false, true, false)
      else (rsqFin v, false, false)

def spSin (x : Num) : Num × Bool × Bool :=
  match x with
  | .nan s => (.nan false, s, false)
  | .inf _ => (.nan false, true, false)
  | .fin v => (if v.m = 0 then x else sinTurn v, false, false)

def spCos (x : Num) : Num × Bool × Bool :=
  match x with
  | .nan s => (.nan false, s, false)
  | .inf _ => (.nan false, true, false)
  | .fin v => (if v.m = 0 then .ofInt 1 else cosTurn v, false, false)

def spTanh (x : Num) : Num × Bool × Bool :=
  match x with
  | .nan s => (.nan false, s, false)
  | .inf n => (.fin ⟨n, 1, 0, false⟩, false, false)
  | .fin v => (if v.m = 0 then x else tanhFin v, false, false)

end Sys2Proof.Machine
end

