-- ==== Sys2Proof/Machine/VecInt.lean ====
section
/-! DEFINITION. Vector integer and bitwise arithmetic, class 5 (08_vector_units R156-R165). -/

namespace Sys2Proof.Machine

/-! ### Operations on elements -/

/-- Formats of the integer group (R156). -/
def fitsInt (f : Nat) : Bool := f = 8 || f = 9 || f = 0xA || f = 0xB
/-- An element as an integer of its format (R158). -/
def elInt (f x : Nat) : Int := if f = 9 then (x : Int) else signedOf (fmtWidth f) x
/-- A result modulo 2^w. -/
def wrapEl (f : Nat) (i : Int) : Nat := encodeInt (fmtWidth f) i
/-- A shift right by k that fills with the sign bit; for N8 with zeros (R158). -/
def elSra (f x k : Nat) : Nat := wrapEl f (elInt f x / (2 ^ k : Nat))
/-- The pairwise tree of R164 over elements with flags. -/
def treeStep {α : Type} (op : α → α → α) : List α → List α
  | a :: b :: r => op a b :: treeStep op r
  | l => l
def tree {α : Type} (op : α → α → α) : Nat → List α → List α
  | 0, l => l
  | fuel + 1, l => match l with
    | _ :: _ :: _ => tree op fuel (treeStep op l)
    | _ => l
/-- The result of a tree: L at most 320 halves to 1 in nine rounds. -/
def reduceTree {α : Type} (op : α → α → α) (dflt : α) (l : List α) : α := (tree op 9 l).headD dflt

namespace State

/-! ### Element-wise forms -/

/-- An element-wise instruction of class 5: its formats, whether it reads the old vd, its function of the format and
the three elements (R158-R160). -/
def vint (s : State) (d a b : R5) (k : BitVec 2) (fs : BitVec 3) (fits : Nat → Bool) (useD : Bool)
    (op : Nat → Nat → Nat → Nat → Nat) : Out :=
  let f := s.slotFmt fs
  if !fits f || !kindFits f k b then s.unsuitable
  else Res.out do
    s.uses ([a] ++ bV k b ++ (if useD then [d] else [])) (bG k b)
    let (bs, fl) ← s.opB f k b a
    let els := ((elems f (s.rdV a).data).zip (bs.zip (elems f (s.rdV d).data))).map fun (x, y, z) => op f x y z
    let m := CMap.combine f d ([(s.rdV a).map] ++ (if k = 0 then [(s.rdV b).map] else [])
      ++ (if useD then [(s.rdV d).map] else []))
    pure (s.vres d f (els, fl) m 2)

/-- An integer instruction of two operands. -/
def vint2 (s : State) (d a b : R5) (k : BitVec 2) (fs : BitVec 3) (op : Nat → Nat → Nat → Nat) : Out :=
  s.vint d a b k fs fitsInt false fun f x y _ => op f x y

/-- A bitwise instruction of two operands. -/
def vbit2 (s : State) (d a b : R5) (k : BitVec 2) (fs : BitVec 3) (op : Nat → Nat → Nat) : Out :=
  s.vint d a b k fs (fun _ => true) false fun _ x y _ => op x y

/-- An instruction of one operand (R159). -/
def vint1 (s : State) (d a : R5) (fs : BitVec 3) (op : Nat → Nat → Nat) : Out :=
  let f := s.slotFmt fs
  if !fitsInt f then s.unsuitable
  else Res.out do
    s.uses [a] []
    pure (s.vres d f ((elems f (s.rdV a).data).map (op f), 0) (CMap.combine f d [(s.rdV a).map]) 2)

/-- A compare into mask registers (R157, R161). -/
def vcmp (s : State) (d a b : R5) (k : BitVec 2) (fs : BitVec 3) (fits : Nat → Bool) (lat : Nat)
    (test : Nat → Nat → Nat → Bool × Flags) : Out :=
  let f := s.slotFmt fs
  if !fits f || !kindFits f k b || !maskFits d (elemCount f) then s.unsuitable
  else Res.out do
    s.uses ([a] ++ bV k b) (bG k b)
    let (bs, fl) ← s.opB f k b a
    let r := ((elems f (s.rdV a).data).zip bs).map fun (x, y) => test f x y
    pure ((s.maskRes d (r.map Prod.fst) lat).wrFlags (r.foldl (fun acc p => acc ||| p.2) fl) lat)

/-- The groups of a reduction (R164): one, or the rows of va's map. -/
def rowsOf (s : State) (a : R5) (f : Nat) (row : Bool) : Res (List Nat) :=
  if !row then .ok [elemCount f]
  else do
    let m ← s.readMap a (fmtWidth f)
    let n := elemCount f
    match m with
    | none => pure [n]
    | some q =>
      let ie := q.map.ie.toNat
      if n ≤ ie then pure [n]
      else pure (List.replicate (n / ie) ie ++ (if n % ie = 0 then [] else [n % ie]))

/-- A list cut into groups of the given lengths. -/
def cut : List Nat → List Nat → List (List Nat)
  | _, [] => []
  | l, g :: r => l.take g :: cut (l.drop g) r

/-- A reduction: each group's result in every element of the group, map NONE (R164). -/
def vred (s : State) (d a : R5) (r : BitVec 1) (fs : BitVec 3) (fits : Nat → Bool) (lat : Nat)
    (red : Nat → List Nat → Nat × Flags) : Out :=
  let f := s.slotFmt fs
  if !fits f then s.unsuitable
  else Res.out do
    s.uses [a] []
    let gs ← s.rowsOf a f (r = 1)
    let res := (cut (elems f (s.rdV a).data) gs).map fun l => (l.length, red f l)
    pure (s.vres d f ((res.map fun p => List.replicate p.1 p.2.1).flatten, res.foldl (fun acc p => acc ||| p.2.2) 0) .none lat)

/-- The lane amount of VSPLAT and VROT (R128, R163), modulo n. -/
def laneAmount (s : State) (f : Nat) (greg : Bool) (b : R5) : Nat :=
  let n := elemCount f
  if greg then (s.rdG b).toNat % 2 ^ fmtWidth f % n else (b.toInt % (n : Int)).toNat

end State


/-- VADD (R158). -/
def execVadd (d a b : R5) (k : BitVec 2) (f : BitVec 3) (s : State) : Out := s.vint2 d a b k f fun f x y => wrapEl f (x + y : Nat)

/-- VSUB (R158). -/
def execVsub (d a b : R5) (k : BitVec 2) (f : BitVec 3) (s : State) : Out := s.vint2 d a b k f fun f x y => wrapEl f ((x : Int) - y)

/-- VMUL (R158). -/
def execVmul (d a b : R5) (k : BitVec 2) (f : BitVec 3) (s : State) : Out := s.vint2 d a b k f fun f x y => wrapEl f (x * y : Nat)

/-- VMULH (R158). -/
def execVmulh (d a b : R5) (k : BitVec 2) (f : BitVec 3) (s : State) : Out := s.vint2 d a b k f fun f x y => wrapEl f (elInt f x * elInt f y / (2 ^ fmtWidth f : Nat))

/-- VAND (R158). -/
def execVand (d a b : R5) (k : BitVec 2) (f : BitVec 3) (s : State) : Out := s.vbit2 d a b k f fun x y => x &&& y

/-- VOR (R158). -/
def execVor (d a b : R5) (k : BitVec 2) (f : BitVec 3) (s : State) : Out := s.vbit2 d a b k f fun x y => x ||| y

/-- VXOR (R158). -/
def execVxor (d a b : R5) (k : BitVec 2) (f : BitVec 3) (s : State) : Out := s.vbit2 d a b k f fun x y => x ^^^ y

/-- VSLL (R158). -/
def execVsll (d a b : R5) (k : BitVec 2) (f : BitVec 3) (s : State) : Out := s.vint2 d a b k f fun f x y => wrapEl f (x * 2 ^ (y % fmtWidth f) : Nat)

/-- VSRL (R158). -/
def execVsrl (d a b : R5) (k : BitVec 2) (f : BitVec 3) (s : State) : Out := s.vint2 d a b k f fun f x y => x / 2 ^ (y % fmtWidth f)

/-- VSRA (R158). -/
def execVsra (d a b : R5) (k : BitVec 2) (f : BitVec 3) (s : State) : Out := s.vint2 d a b k f fun f x y => elSra f x (y % fmtWidth f)

/-- VMIN (R158). -/
def execVmin (d a b : R5) (k : BitVec 2) (f : BitVec 3) (s : State) : Out := s.vint2 d a b k f fun f x y => if elInt f y < elInt f x then y else x

/-- VMAX (R158). -/
def execVmax (d a b : R5) (k : BitVec 2) (f : BitVec 3) (s : State) : Out := s.vint2 d a b k f fun f x y => if elInt f x < elInt f y then y else x

/-- VCMPEQ (R161). -/
def execVcmpeq (d a b : R5) (k : BitVec 2) (f : BitVec 3) (s : State) : Out :=
  s.vcmp d a b k f fitsInt 2 fun _ x y => (decide (x = y), 0)

/-- VCMPLT (R161). -/
def execVcmplt (d a b : R5) (k : BitVec 2) (f : BitVec 3) (s : State) : Out :=
  s.vcmp d a b k f fitsInt 2 fun f x y => (decide (elInt f x < elInt f y), 0)

/-- VCMPLE (R161). -/
def execVcmple (d a b : R5) (k : BitVec 2) (f : BitVec 3) (s : State) : Out :=
  s.vcmp d a b k f fitsInt 2 fun f x y => (decide (elInt f x ≤ elInt f y), 0)

/-- VSEL (R162): lanes under the mask take operand B, the others keep vd; it sets no flag but NX, for the
entry of any lane (the model's choice, log 103). -/
def execVsel (d a b : R5) (k : BitVec 2) (f : BitVec 3) (s : State) : Out :=
  let f := s.slotFmt f
  if !State.kindFits f k b then s.unsuitable
  else Res.out do
    s.uses ([d] ++ State.bV k b) (State.bG k b ++ State.maskSrc a (elemCount f))
    let (bs, fl) ← s.opB f k b d
    let els := ((elems f (s.rdV d).data).zip bs).zipIdx.map fun ((x, y), e) => if s.maskBit a e then y else x
    let m := CMap.combine f d ([(s.rdV d).map] ++ (if k = 0 then [(s.rdV b).map] else []))
    pure (s.vres d f (els, fl &&& flagNX) m 2)

/-- VLUT3 (R160). -/
def execVlut3 (d a b : R5) (k : BitVec 2) (f : BitVec 3) (t : BitVec 8) (s : State) : Out :=
  s.vint d a b k f (fun _ => true) true fun _ x y z => (lutBits 32 t (.ofNat 32 x) (.ofNat 32 y) (.ofNat 32 z)).toNat

/-- VFSHL (R159). -/
def execVfshl (d a b : R5) (k : BitVec 2) (f : BitVec 3) (s : State) : Out :=
  s.vint d a b k f fitsInt true fun f x y z =>
    let w := fmtWidth f
    let k := y % w
    if k = 0 then x else (x * 2 ^ k % 2 ^ w) + z / 2 ^ (w - k)

/-- VPOPC (R159). -/
def execVpopc (d a : R5) (f : BitVec 3) (s : State) : Out := s.vint1 d a f fun f x => oneBits (fmtWidth f) x

/-- VCLZ (R159). -/
def execVclz (d a : R5) (f : BitVec 3) (s : State) : Out := s.vint1 d a f fun f x => leadZeros (fmtWidth f) x

/-- VREDADD (R164): the exact sum, saturated. -/
def execVredadd (d a : R5) (r : BitVec 1) (f : BitVec 3) (s : State) : Out :=
  s.vred d a r f fitsInt 6 fun f l => saturate f (reduceTree (· + ·) 0 (l.map (elInt f)))

/-- VREDMAX (R164). -/
def execVredmax (d a : R5) (r : BitVec 1) (f : BitVec 3) (s : State) : Out :=
  s.vred d a r f fitsInt 6 fun f l => (wrapEl f (reduceTree max 0 (l.map (elInt f))), 0)

/-- VREDMIN (R164). -/
def execVredmin (d a : R5) (r : BitVec 1) (f : BitVec 3) (s : State) : Out :=
  s.vred d a r f fitsInt 6 fun f l => (wrapEl f (reduceTree min 0 (l.map (elInt f))), 0)

/-- VSPLAT (R163): K = 0 is kind GREG, 1 kind IMM5. -/
def execVsplat (d a b : R5) (k : BitVec 1) (f : BitVec 3) (s : State) : Out :=
  let f := s.slotFmt f
  Res.out do
    s.uses [a] (if k = 0 then [b] else [])
    let x := getEl f (s.rdV a).data (s.laneAmount f (k = 0) b)
    pure (s.vres d f (List.replicate (elemCount f) x, 0) .none 2)

/-- VMOV (R163). -/
def execVmov (d a b : R5) (k : BitVec 2) (f : BitVec 3) (s : State) : Out :=
  let f := s.slotFmt f
  if !State.kindFits f k b then s.unsuitable
  else Res.out do
    s.uses (if k = 1 then [a] else State.bV k b) (State.bG k b)
    let (bs, fl) ← s.opB f k b a
    let m := if k = 0 then CMap.combine f d [(s.rdV b).map] else if k = 1 then CMap.combine f d [(s.rdV a).map] else .none
    pure (s.vres d f (bs, fl) m 2)

/-- The UCE of a deprecated expansion (02 R43): which of its four steps meets it is not given. -/
def State.uceStep (s : State) : State :=
  s.raise ⟨.uce, s.cur.x, .ofNat 4 s.cur.slot, s.freeInfo, .ofNat 10 ((Config.freeWord s.freeN 1003).toNat % 4)⟩ false

/-- A deprecated instruction (R43): EMUL when the mask enables it, otherwise the expansion, counted. -/
def State.deprecated (s : State) (vs gs : List R5) (k : State → Out) : Out :=
  if s.me.arch.c.trapmask.getLsbD 0x11 then .next (s.trapAt .emul s.freeInfo)
  else if vs.any s.poisV || gs.any s.poisG then .next s.uceStep
  else k (s.modK fun c => { c with deprcnt := c.deprcnt + 1 })

/-- VDOT8 (R165). -/
def execVdot8 (d a b : R5) (f : BitVec 3) (s : State) : Out :=
  let f := s.slotFmt f
  if !(f = 8 || f = 9) then s.unsuitable
  else s.deprecated [d, a, b] [] fun s =>
    let x := elems 8 (s.rdV a).data
    let y := elems 8 (s.rdV b).data
    let p := (x.zip y).map fun (u, v) => elInt f u * elInt f v
    let r := (elems 0xB (s.rdV d).data).zipIdx.map fun (z, i) =>
      saturate 0xB (signedOf 32 z + ((p.drop (4 * i)).take 4).sum)
    .next (s.vres d 0xB (withFlags r) .none 2)

end Sys2Proof.Machine
end

