-- ==== Sys2Proof/Machine/VecFp.lean ====
section
/-! DEFINITION. Vector floating point, conversion, scales, noise and selection, class 6 (08_vector_units R161-R172,
07_number_formats R150, R151). -/

namespace Sys2Proof.Machine

/-- Formats of the float group (R156). -/
def fitsFloat (f : Nat) : Bool := f < 7

/-- Operands decoded: the NAR flag of a NaR (07 R137). -/
def narFlag (f : Nat) (xs : List Nat) : Flags := flagIf (xs.any fun x => (decodeNum f x).2) flagNAR

/-- A rounded element of an exact result with its validity. -/
def roundEl (f rm rho : Nat) (r : Num × Bool) (nar : Flags) : Nat × Flags :=
  let (v, fl) := round f r.1 rm rho
  (v, fl ||| flagIf r.2 flagNV ||| nar)

/-- VFMAX and VFMIN of two elements (R167). -/
def pickEl (gt : Bool) (f x y : Nat) : Nat × Flags :=
  let a := (decodeNum f x).1
  let b := (decodeNum f y).1
  let fl := flagIf (a.isSnan || b.isSnan) flagNV ||| narFlag f [x, y]
  if a.isNan && b.isNan then (canonNan f, fl) else (if pickMin gt a b then x else y, fl)

/-- The sign of an element set by g of its old sign (R167). -/
def signEl (g : Bool → Bool) (f x : Nat) : Nat × Flags :=
  let v := (decodeNum f x).1
  let w := fmtWidth f
  if v.isNan then (canonNan f, flagIf v.isSnan flagNV ||| narFlag f [x])
  else if fmtIsTapered f && x = 0 then (0, 0)
  else (x % 2 ^ (w - 1) + signBit (g (x / 2 ^ (w - 1) % 2 = 1)) w, 0)

/-- A float compare (R161). -/
def cmpEl (test : Int → Bool) (anyNan : Bool) (f x y : Nat) : Bool × Flags :=
  let a := (decodeNum f x).1
  let b := (decodeNum f y).1
  let nar := narFlag f [x, y]
  if a.isNan || b.isNan then (false, flagIf (anyNan || a.isSnan || b.isSnan) flagNV ||| nar)
  else (test (cmpNum a b), nar)

/-- A node of VFREDSUM: rounded to nearest (R164). -/
def sumNode (f : Nat) (x y : Nat × Flags) : Nat × Flags :=
  let r := addNum (decodeNum f x.1).1 (decodeNum f y.1).1 false
  roundEl f 0 0 r (x.2 ||| y.2 ||| narFlag f [x.1, y.1])

/-- A node of VFREDMAX (R164). -/
def maxNode (f : Nat) (x y : Nat × Flags) : Nat × Flags :=
  let (v, fl) := pickEl true f x.1 y.1
  (v, fl ||| x.2 ||| y.2)

/-- A group of a float reduction; a group of one element only has its NaN made canonical (07 R134). -/
def redFloat (node : Nat → Nat × Flags → Nat × Flags → Nat × Flags) (f : Nat) (l : List Nat) : Nat × Flags :=
  match l with
  | [x] => roundEl f 0 0 ((decodeNum f x).1, false) (narFlag f [x])
  | _ => reduceTree (node f) (0, 0) (l.map fun x => (x, 0))

namespace State

/-- A float instruction of class 6 (R166): the exact function of a, b and the old d, rounded once in the slot's
mode. -/
def vflt (s : State) (d a b : R5) (k : BitVec 2) (fs : BitVec 3) (useD : Bool)
    (op : Num → Num → Num → Bool → Num × Bool) : Out :=
  let f := s.slotFmt fs
  let rm := s.slotRm fs
  if !fitsFloat f || !kindFits f k b then s.unsuitable
  else Res.out do
    s.uses ([a] ++ bV k b ++ (if useD then [d] else [])) (bG k b)
    let (bs, fl) ← s.opB f k b a
    let m := CMap.combine f d ([(s.rdV a).map] ++ (if k = 0 then [(s.rdV b).map] else [])
      ++ (if useD then [(s.rdV d).map] else []))
    let rho ← s.randomBits ([a] ++ bV k b ++ (if useD then [d] else [])) d m f rm 0xF0
    let r := (((elems f (s.rdV a).data).zip (bs.zip (elems f (s.rdV d).data))).zipIdx).map fun ((x, y, z), e) =>
      let dz := if useD then [z] else []
      roundEl f rm (rho e) (op (decodeNum f x).1 (decodeNum f y).1 (decodeNum f z).1 (rm = 3)) (narFlag f ([x, y] ++ dz))
    let (v, fl') := withFlags r
    pure (s.vres d f (v, fl ||| fl') m 4)

/-- A float instruction of two operands that rounds nothing (R167). -/
def vpick (s : State) (d a b : R5) (k : BitVec 2) (fs : BitVec 3) (gt : Bool) : Out :=
  let f := s.slotFmt fs
  if !fitsFloat f || !kindFits f k b then s.unsuitable
  else Res.out do
    s.uses ([a] ++ bV k b) (bG k b)
    let (bs, fl) ← s.opB f k b a
    let (v, fl') := withFlags (((elems f (s.rdV a).data).zip bs).map fun (x, y) => pickEl gt f x y)
    let m := CMap.combine f d ([(s.rdV a).map] ++ (if k = 0 then [(s.rdV b).map] else []))
    pure (s.vres d f (v, fl ||| fl') m 4)

/-- A float instruction of one operand, element by element. -/
def vflt1 (s : State) (d a : R5) (fs : BitVec 3) (lat : Nat) (op : Nat → Nat → Nat × Flags) : Out :=
  let f := s.slotFmt fs
  if !fitsFloat f then s.unsuitable
  else Res.out do
    s.uses [a] []
    pure (s.vres d f (withFlags ((elems f (s.rdV a).data).map (op f))) (CMap.combine f d [(s.rdV a).map]) lat)

/-- A special function: rounded to nearest whatever the slot's mode (R169). -/
def vspec (s : State) (d a : R5) (fs : BitVec 3) (fn : Num → Num × Bool × Bool) : Out :=
  s.vflt1 d a fs 12 fun f x =>
    let (r, nv, dz) := fn (decodeNum f x).1
    let (v, fl) := roundEl f 0 0 (r, nv) (narFlag f [x])
    (v, fl ||| flagIf dz flagDZ)

/-- The stream of RNGK and GUMB (R170): K = 1 immediate, 0 GREG. -/
def streamOf (s : State) (k : BitVec 1) (b : R5) : BitVec 8 :=
  if k = 1 then b.setWidth 8 else (s.rdG b).setWidth 8

/-- The noise of each element of va's coordinates (R170). -/
def noiseOf (s : State) (a : R5) (f : Nat) (stream : BitVec 8) : Res (Nat → Nat) := do
  let m ← s.readMap a (fmtWidth f)
  let c (e j : Nat) : BitVec 32 := .ofInt 32 (s.coordAt m e j)
  pure fun e => (noise s.me.arch.c.nkey (c e 0) (c e 1) (c e 2) (c e 3) stream).toNat

end State


/-- VFADD (R166). -/
def execVfadd (d a b : R5) (k : BitVec 2) (f : BitVec 3) (s : State) : Out := s.vflt d a b k f false fun x y _ rdn => addNum x y rdn

/-- VFSUB (R166). -/
def execVfsub (d a b : R5) (k : BitVec 2) (f : BitVec 3) (s : State) : Out := s.vflt d a b k f false fun x y _ rdn => addNum x y.neg rdn

/-- VFMUL (R166). -/
def execVfmul (d a b : R5) (k : BitVec 2) (f : BitVec 3) (s : State) : Out := s.vflt d a b k f false fun x y _ _ => mulNum x y

/-- VFMA (R166). -/
def execVfma (d a b : R5) (k : BitVec 2) (f : BitVec 3) (s : State) : Out := s.vflt d a b k f true fun x y z rdn => fmaNum x y z rdn

/-- VFMAX (R167). -/
def execVfmax (d a b : R5) (k : BitVec 2) (f : BitVec 3) (s : State) : Out := s.vpick d a b k f true

/-- VFMIN (R167). -/
def execVfmin (d a b : R5) (k : BitVec 2) (f : BitVec 3) (s : State) : Out := s.vpick d a b k f false

/-- VFCMPEQ (R161). -/
def execVfcmpeq (d a b : R5) (k : BitVec 2) (f : BitVec 3) (s : State) : Out := s.vcmp d a b k f fitsFloat 4 (cmpEl (fun c => c = 0) false)

/-- VFCMPLT (R161). -/
def execVfcmplt (d a b : R5) (k : BitVec 2) (f : BitVec 3) (s : State) : Out := s.vcmp d a b k f fitsFloat 4 (cmpEl (fun c => c < 0) true)

/-- VFCMPLE (R161). -/
def execVfcmple (d a b : R5) (k : BitVec 2) (f : BitVec 3) (s : State) : Out := s.vcmp d a b k f fitsFloat 4 (cmpEl (fun c => c ≤ 0) true)

/-- VCVT (07 R150): source slot, destination slot, mode, part, stream. -/
def execVcvt (d a : R5) (src dst rm h : BitVec 3) (stream : BitVec 8) (s : State) : Out :=
  let sf := s.slotFmt src
  let tf := s.slotFmt dst
  let ns := elemCount sf
  let nd := elemCount tf
  let p := h.toNat
  let mode := if rm = 6 then s.slotRm dst else rm.toNat
  if sf = 7 || tf = 7 || (max ns nd + min ns nd - 1) / min ns nd ≤ p then s.unsuitable
  else Res.out do
    s.uses (if ns < nd then [a, d] else [a]) []
    let old := (s.rdV d).data
    let m := CMap.convert sf tf p ns nd (s.rdV a).map (s.rdV d).map d
    let rho ← s.randomBits (if ns < nd then [a, d] else [a]) d m tf mode stream
    let r := (List.range nd).map fun e =>
      if nd ≤ ns then
        let j := e + p * nd
        if ns ≤ j then (0, 0)
        else
          let x := getEl sf (s.rdV a).data j
          roundEl tf mode (rho e) ((decodeNum sf x).1, false) (narFlag sf [x])
      else if e < p * ns || ns ≤ e - p * ns then (getEl tf old e, 0)
      else
        let x := getEl sf (s.rdV a).data (e - p * ns)
        roundEl tf mode (rho e) ((decodeNum sf x).1, false) (narFlag sf [x])
    pure (s.vres d tf (withFlags r) m 4)

/-- VSCALE (07 R151): V = 1 is `.inv`. -/
def execVscale (d a b : R5) (v : BitVec 1) (f : BitVec 3) (s : State) : Out :=
  let rm := s.slotRm f
  let f := s.slotFmt f
  if !fitsFloat f then s.unsuitable
  else Res.out do
    s.uses [a, b] []
    let m ← s.readMap a (fmtWidth f)
    let md := CMap.combine f d [(s.rdV a).map]
    let rho ← s.randomBits [a] d md f rm 0xF0
    let block (e j : Nat) : Nat := (s.coordAt m e j / 32 % 16).toNat
    let pick (e : Nat) : Nat := match m with
      | none => 0
      | some r => 16 * block e (min r.map.id.toNat r.map.od.toNat) + block e (max r.map.id.toNat r.map.od.toNat)
    let r := (elems f (s.rdV a).data).zipIdx.map fun (x, e) =>
      let sc := getEl 8 (s.rdV b).data (pick e)
      let n := (decodeNum f x).1
      let y : Num × Bool :=
        if sc = 0xFF then (.nan false, true)
        else match n with
          | .fin q => (.fin { q with e := q.e + (if v = 1 then 127 - sc else sc - 127 : Int) }, false)
          | n => (n, false)
      roundEl f rm (rho e) y (narFlag f [x])
    pure (s.vres d f (withFlags r) md 4)

/-- VFREDSUM (R164). -/
def execVfredsum (d a : R5) (r : BitVec 1) (f : BitVec 3) (s : State) : Out :=
  s.vred d a r f fitsFloat 8 (redFloat sumNode)

/-- VFREDMAX (R164). -/
def execVfredmax (d a : R5) (r : BitVec 1) (f : BitVec 3) (s : State) : Out :=
  s.vred d a r f fitsFloat 8 (redFloat maxNode)

/-- VEXP2 (R169). -/
def execVexp2 (d a : R5) (f : BitVec 3) (s : State) : Out := s.vspec d a f spExp2

/-- VLOG2 (R169). -/
def execVlog2 (d a : R5) (f : BitVec 3) (s : State) : Out := s.vspec d a f spLog2

/-- VRCP (R169). -/
def execVrcp (d a : R5) (f : BitVec 3) (s : State) : Out := s.vspec d a f spRcp

/-- VRSQ (R169). -/
def execVrsq (d a : R5) (f : BitVec 3) (s : State) : Out := s.vspec d a f spRsq

/-- VSINT (R169). -/
def execVsint (d a : R5) (f : BitVec 3) (s : State) : Out := s.vspec d a f spSin

/-- VCOST (R169). -/
def execVcost (d a : R5) (f : BitVec 3) (s : State) : Out := s.vspec d a f spCos

/-- VTANH (R169). -/
def execVtanh (d a : R5) (f : BitVec 3) (s : State) : Out := s.vspec d a f spTanh

/-- RNGK (R170). -/
def execRngk (d a b : R5) (k : BitVec 1) (f : BitVec 3) (s : State) : Out :=
  let f := s.slotFmt f
  if !fitsInt f then s.unsuitable
  else Res.out do
    s.uses [a] (if k = 0 then [b] else [])
    let h ← s.noiseOf a f (s.streamOf k b)
    pure (s.vres d f ((List.range (elemCount f)).map fun e => h e % 2 ^ fmtWidth f, 0)
      (CMap.combine f d [(s.rdV a).map]) 6)

/-- GUMB (R171). -/
def execGumb (d a b : R5) (k : BitVec 1) (f : BitVec 3) (s : State) : Out :=
  let rm := s.slotRm f
  let f := s.slotFmt f
  if !fitsFloat f then s.unsuitable
  else Res.out do
    s.uses [a] (if k = 0 then [b] else [])
    let h ← s.noiseOf a f (s.streamOf k b)
    let m := CMap.combine f d [(s.rdV a).map]
    let rho ← s.randomBits [a] d m f rm 0xF0
    let r := (elems f (s.rdV a).data).zipIdx.map fun (x, e) =>
      let g := (decodeNum 0 (round 0 (gumbel (h e)) 0 0).1).1
      roundEl f rm (rho e) (addNum (decodeNum f x).1 g (rm = 3)) (narFlag f [x])
    pure (s.vres d f (withFlags r) m 16)

/-- An element that TOPK ranks: its encoding, value, linear coordinate and inner coordinate. -/
structure Ranked where
  enc : Nat
  val : Num
  lin : Nat
  inner : Int
deriving DecidableEq, Repr

/-- Whether x stands before y (R172). -/
def ranksBefore (x y : Ranked) : Bool :=
  if x.val.isNan || y.val.isNan then
    if x.val.isNan && y.val.isNan then x.lin < y.lin else y.val.isNan
  else
    let c := cmpNum x.val y.val
    if c = 0 then x.lin < y.lin else c > 0

/-- The k first-ranked of a list. Of two elements that rank alike, the one of the lower element number comes first (the model's
choice, log 97). -/
def topOf : Nat → List Ranked → List Ranked
  | 0, _ => []
  | k + 1, l =>
    match l with
    | [] => []
    | x :: r =>
      let best := r.foldl (fun b y => if ranksBefore y b then y else b) x
      best :: topOf k (l.erase best)

/-- TOPK (R172): the field K holds k - 1; R = 1 is `.row`. A signalling NaN that it ranks sets no NV (the model's choice, log 98). -/
def execTopk (d a k : R5) (r : BitVec 1) (f : BitVec 3) (s : State) : Out :=
  let f := s.slotFmt f
  let n := k.toNat + 1
  if f = 7 || f = 6 then s.unsuitable
  else Res.out do
    s.uses [a] []
    let m ← s.readMap a (fmtWidth f)
    let data := (s.rdV a).data
    let one (e : Nat) : Option Ranked :=
      let x := getEl f data e
      let v := (decodeNum f x).1
      match m with
      | none => some ⟨x, v, e, absentCoord⟩
      | some q => (s.linOf q e).map fun i => ⟨x, v, i, s.coordAt m e q.map.id.toNat⟩
    let gs ← s.rowsOf a f (r = 1)
    let rows := State.cut (List.range (elemCount f)) gs
    let fill (l : List Ranked) (g : Ranked → Nat) : List (Nat × Nat) :=
      (List.range n).map fun i => match l[i]? with
        | some x => (x.enc, g x)
        | none => (0, 0x80000000)
    let lanes := if r = 1 then
        ((rows.take (64 / n)).map fun row => fill (topOf n (row.filterMap one)) fun x => encodeInt 32 x.inner).flatten
      else fill (topOf n ((List.range (elemCount f)).filterMap one)) fun x => x.lin
    let vals := lanes.map Prod.fst ++ List.replicate (elemCount f - lanes.length) 0
    let idx := lanes.map Prod.snd ++ List.replicate (64 - lanes.length) 0x80000000
    pure (((s.wrV d (packEls f vals) .none 10).wrV (d + 1) (packEls 0xB idx) .none 10).wrFlags
      (narFlag f (elems f data)) 10)

/-- VFABS (R167). -/
def execVfabs (d a : R5) (f : BitVec 3) (s : State) : Out := s.vflt1 d a f 4 (signEl fun _ => false)

/-- VFNEG (R167). -/
def execVfneg (d a : R5) (f : BitVec 3) (s : State) : Out := s.vflt1 d a f 4 (signEl fun b => !b)

end Sys2Proof.Machine
end

