-- ==== Sys2Proof/Machine/VecMap.lean ====
section
/-! DEFINITION. Map moves, coordinate reads and permutations, class 7 (06_registers R123-R130). -/

namespace Sys2Proof.Machine

/-- CMSET (R124): vd's data stay. -/
def execCmset (d a : R5) (s : State) : Out :=
  Res.out do
    s.uses [a] []
    pure (s.fly (.map d (CMap.ofCmset d ((s.rdV a).data.toNat % 2 ^ 256))) 2)

/-- CMGET (R124): a poisoned map passes its marker on (R122). -/
def execCmget (d a : R5) (s : State) : Out :=
  let v := s.rdV a
  .next (s.fly (.v d ⟨.ofNat 2048 v.map.image, .none, v.pois⟩) 2)

/-- A register copied with its map changed; the same register keeps its data (R120, R125). A register that carries poison
raises UCE, that one too (the model's choice, log 94). -/
def State.mapMove (s : State) (d a : R5) (gs : List R5) (f : CMap → CMap) : Out :=
  Res.out do
    s.uses [a] gs
    let v := s.rdV a
    let m := (if v.map.live then f v.map else v.map).notSelf d
    pure (if d = a then s.fly (.map d m) 2 else s.wrV d v.data m 2)

/-- CMSLC (R125). -/
def execCmslc (d a b : R5) (s : State) : Out :=
  s.mapMove d a [b] fun m => (List.range 4).foldl
    (fun m j => m.shift j (signedOf 16 (fld (s.rdG b) (16 * j) 16))) m

/-- CMTRN (R125). -/
def execCmtrn (d a : R5) (s : State) : Out :=
  s.mapMove d a [] fun m => { m with id := m.od, ir := m.orev, od := m.id, orev := m.ir }

/-- CMREV (R125): O = 1 is `.out`. -/
def execCmrev (d a : R5) (o : BitVec 1) (s : State) : Out :=
  s.mapMove d a [] fun m => if o = 1 then { m with orev := !m.orev } else { m with ir := !m.ir }

/-- CMCPY (R125). -/
def execCmcpy (d a : R5) (s : State) : Out := s.mapMove d a [] id

/-- CMCLR (R125): vd's data stay. -/
def execCmclr (d : R5) (s : State) : Out := .next (s.fly (.map d .none) 2)

/-- VCRD (R126): selector b of elements 64·p to 64·p + 63. -/
def execVcrd (d a b : R5) (p : BitVec 2) (s : State) : Out :=
  Res.out do
    s.uses [a] []
    let mv := (s.rdV a).map
    let m ← s.readMap a mv.width
    let n := match m with
      | some q => elemCount q.map.fmt.toNat
      | none => 320
    let r := (List.range 64).map fun k =>
      let e := 64 * p.toNat + k
      encodeInt 32 (if e < n then s.select m b e else absentCoord)
    pure (s.vres d 0xB (r, 0) (((mv.advance (64 * p.toNat) 64).withFmt 0xB).notSelf d) 2)

/-- VROPE (R127): V = 1 is `.inner`. -/
def execVrope (d a b : R5) (v : BitVec 1) (f : BitVec 3) (s : State) : Out :=
  let f := s.slotFmt f
  if !(f = 0 || f = 1 || f = 2) then s.unsuitable
  else Res.out do
    s.uses [a, b] []
    let m ← s.readMap a (fmtWidth f)
    let da := (s.rdV a).data
    let db := (s.rdV b).data
    let pair (i : Nat) : List (Nat × Flags) :=
      let x := (decodeNum f (getEl f da (2 * i))).1
      let y := (decodeNum f (getEl f da (2 * i + 1))).1
      let q := (decodeNum f (getEl f db (2 * i))).1
      let finf := match q with
        | .inf _ => true
        | _ => false
      if x.isNan || y.isNan || q.isNan || finf then
        let r := (canonNan f, flagIf (finf || x.isSnan || y.isSnan || q.isSnan) flagNV)
        [r, r]
      else
        let p := match m with
          | none => absentCoord
          | some q => s.coordAt m (2 * i) (if v = 1 then q.map.id.toNat else q.map.od.toNat)
        let t := match mulNum (.ofInt p) q with
          | (.fin t, _) => t
          | _ => ⟨false, 0, 0, false⟩
        -- t - floor(t): a negative t is taken to its fraction's complement
        let k : Nat := (-(min t.e 0)).toNat
        let up : Nat := (max t.e 0).toNat
        let whole : Nat := t.m * 2 ^ up % 2 ^ k
        let fr : Exact := ⟨false, if t.neg && whole != 0 then 2 ^ k - whole else whole, -(k : Int), false⟩
        let c := (decodeNum 0 (round 0 (cosTurn fr) 0 0).1).1
        let sn := (decodeNum 0 (round 0 (sinTurn fr) 0 0).1).1
        let comb (x y z w : Num) (sub : Bool) : Nat × Flags :=
          let (p1, i1) := mulNum x y
          let (p2, i2) := mulNum z w
          let (r, i3) := addNum p1 (if sub then p2.neg else p2) false
          roundEl f 0 0 (r, i1 || i2 || i3) 0
        [comb x c y sn true, comb x sn y c false]
    pure (s.vres d f (withFlags ((List.range (elemCount f / 2)).flatMap pair))
      (((s.rdV a).map.withFmt f).notSelf d) 8)

/-- VSHUF (R128). -/
def execVshuf (d a b : R5) (f : BitVec 3) (s : State) : Out :=
  let f := s.slotFmt f
  if f = 6 then s.unsuitable
  else Res.out do
    s.uses [a, b] []
    let va := s.rdV a
    let n := elemCount f
    let r := (elems f (s.rdV b).data).map fun j => if j < n then getEl f va.data j else 0
    let m := if va.map.st = .none then .none
      else if va.map.st = .affine && va.map.width = fmtWidth f && b != d then
        { va.map with st := .indexed, cmp := b, fmt := .ofNat 4 f }
      else .broken
    pure (s.vres d f (r, 0) m 2)

/-- A permutation of lanes whose map is lost (R128, R130). -/
def State.permute (s : State) (d a : R5) (f lat : Nat) (g : Nat → Nat) : State :=
  let va := s.rdV a
  s.vres d f ((List.range (elemCount f)).map fun k => getEl f va.data (g k), 0)
    (if va.map.st = .none then .none else .broken) lat

/-- VROT (R128): K = 0 is kind GREG, 1 kind IMM5. -/
def execVrot (d a b : R5) (k : BitVec 1) (f : BitVec 3) (s : State) : Out :=
  let f := s.slotFmt f
  if f = 6 then s.unsuitable
  else Res.out do
    s.uses [a] (if k = 0 then [b] else [])
    let t := s.laneAmount f (k = 0) b
    pure (s.permute d a f 2 fun e => (e + t) % elemCount f)

/-- CMTST (R129). A register that carries poison raises UCE (the model's choice, log 94). -/
def execCmtst (d a b : R5) (s : State) : Out :=
  Res.out do
    s.uses [a, b] []
    let x := (s.rdV a).map
    let y := (s.rdV b).map
    let comb : Bool :=
      if x.live then (CMap.combine' x.fmt.toNat [x, y]).st != .broken
      else if y.live then (CMap.combine' y.fmt.toNat [x, y]).st != .broken
      else x.st != .broken && y.st != .broken
    pure (s.wrG d (.ofNat 64 (x.st.code + y.st.code * 4 + (x.equal y).toNat * 16 + comb.toNat * 32)) 2)

/-- VSHFL (R130), deprecated. -/
def execVshfl (d a b : R5) (f : BitVec 3) (s : State) : Out :=
  let f := s.slotFmt f
  if f = 6 then s.unsuitable
  else s.deprecated [a] [b] fun s =>
    let x := (s.rdG b).toNat % elemCount f
    .next (s.permute d a f 2 fun e => e ^^^ x)

end Sys2Proof.Machine
end

