-- ==== Sys2Proof/Machine/Dispatch.lean ====
section
/-! DEFINITION. Dispatch: one arm per constructor of Instr. -/

namespace Sys2Proof.Machine

/-- The meaning of each step. -/
def exec (i : Instr) (s : State) : Host.Outcome State Fault Refusal :=
  match i with
  | .add d a b => Sys2Proof.Machine.execAdd d a b s
  | .sub d a b => Sys2Proof.Machine.execSub d a b s
  | .and d a b => Sys2Proof.Machine.execAnd d a b s
  | .or d a b => Sys2Proof.Machine.execOr d a b s
  | .xor d a b => Sys2Proof.Machine.execXor d a b s
  | .andn d a b => Sys2Proof.Machine.execAndn d a b s
  | .sll d a b => Sys2Proof.Machine.execSll d a b s
  | .srl d a b => Sys2Proof.Machine.execSrl d a b s
  | .sra d a b => Sys2Proof.Machine.execSra d a b s
  | .rol d a b => Sys2Proof.Machine.execRol d a b s
  | .ror d a b => Sys2Proof.Machine.execRor d a b s
  | .mul d a b => Sys2Proof.Machine.execMul d a b s
  | .mulh d a b => Sys2Proof.Machine.execMulh d a b s
  | .mulhu d a b => Sys2Proof.Machine.execMulhu d a b s
  | .div d a b => Sys2Proof.Machine.execDiv d a b s
  | .divu d a b => Sys2Proof.Machine.execDivu d a b s
  | .rem d a b => Sys2Proof.Machine.execRem d a b s
  | .remu d a b => Sys2Proof.Machine.execRemu d a b s
  | .min d a b => Sys2Proof.Machine.execMin d a b s
  | .max d a b => Sys2Proof.Machine.execMax d a b s
  | .minu d a b => Sys2Proof.Machine.execMinu d a b s
  | .maxu d a b => Sys2Proof.Machine.execMaxu d a b s
  | .slt d a b => Sys2Proof.Machine.execSlt d a b s
  | .sltu d a b => Sys2Proof.Machine.execSltu d a b s
  | .seq d a b => Sys2Proof.Machine.execSeq d a b s
  | .sne d a b => Sys2Proof.Machine.execSne d a b s
  | .clz d a => Sys2Proof.Machine.execClz d a s
  | .ctz d a => Sys2Proof.Machine.execCtz d a s
  | .popc d a => Sys2Proof.Machine.execPopc d a s
  | .bext d a b => Sys2Proof.Machine.execBext d a b s
  | .bdep d a b => Sys2Proof.Machine.execBdep d a b s
  | .fshl d a b c => Sys2Proof.Machine.execFshl d a b c s
  | .fshr d a b c => Sys2Proof.Machine.execFshr d a b c s
  | .lut3 d a b c t => Sys2Proof.Machine.execLut3 d a b c t s
  | .sel d a b => Sys2Proof.Machine.execSel d a b s
  | .bset d a b => Sys2Proof.Machine.execBset d a b s
  | .bclr d a b => Sys2Proof.Machine.execBclr d a b s
  | .btst d a b => Sys2Proof.Machine.execBtst d a b s
  | .addi d a n x => Sys2Proof.Machine.execAddi d a n x s
  | .andi d a n x => Sys2Proof.Machine.execAndi d a n x s
  | .ori d a n x => Sys2Proof.Machine.execOri d a n x s
  | .xori d a n x => Sys2Proof.Machine.execXori d a n x s
  | .slli d a n x => Sys2Proof.Machine.execSlli d a n x s
  | .srli d a n x => Sys2Proof.Machine.execSrli d a n x s
  | .srai d a n x => Sys2Proof.Machine.execSrai d a n x s
  | .rori d a n x => Sys2Proof.Machine.execRori d a n x s
  | .muli d a n x => Sys2Proof.Machine.execMuli d a n x s
  | .slti d a n x => Sys2Proof.Machine.execSlti d a n x s
  | .sltui d a n x => Sys2Proof.Machine.execSltui d a n x s
  | .seqi d a n x => Sys2Proof.Machine.execSeqi d a n x s
  | .li d n x => Sys2Proof.Machine.execLi d n x s
  | .bseti d a n x => Sys2Proof.Machine.execBseti d a n x s
  | .bclri d a n x => Sys2Proof.Machine.execBclri d a n x s
  | .btsti d a n x => Sys2Proof.Machine.execBtsti d a n x s
  | .mini d a n x => Sys2Proof.Machine.execMini d a n x s
  | .maxi d a n x => Sys2Proof.Machine.execMaxi d a n x s
  | .fadd d a b r => Sys2Proof.Machine.execFadd d a b r s
  | .fsub d a b r => Sys2Proof.Machine.execFsub d a b r s
  | .fmul d a b r => Sys2Proof.Machine.execFmul d a b r s
  | .fma d a b r => Sys2Proof.Machine.execFma d a b r s
  | .fmin d a b => Sys2Proof.Machine.execFmin d a b s
  | .fmax d a b => Sys2Proof.Machine.execFmax d a b s
  | .fcmpeq d a b => Sys2Proof.Machine.execFcmpeq d a b s
  | .fcmplt d a b => Sys2Proof.Machine.execFcmplt d a b s
  | .fcmple d a b => Sys2Proof.Machine.execFcmple d a b s
  | .fcvti d a r => Sys2Proof.Machine.execFcvti d a r s
  | .fcvtf d a r => Sys2Proof.Machine.execFcvtf d a r s
  | .fdiv d a b r => Sys2Proof.Machine.execFdiv d a b r s
  | .fsqrt d a r => Sys2Proof.Machine.execFsqrt d a r s
  | .br o => Sys2Proof.Machine.execBr o s
  | .jal d o => Sys2Proof.Machine.execJal d o s
  | .jalr d a n => Sys2Proof.Machine.execJalr d a n s
  | .loop n l a => Sys2Proof.Machine.execLoop n l a s
  | .loopi n l k => Sys2Proof.Machine.execLoopi n l k s
  | .loopr n l a v => Sys2Proof.Machine.execLoopr n l a v s
  | .itsetBase n a => Sys2Proof.Machine.execItsetBase n a s
  | .itsetStr n a l => Sys2Proof.Machine.execItsetStr n a l s
  | .itrev n m => Sys2Proof.Machine.execItrev n m s
  | .itget d n m => Sys2Proof.Machine.execItget d n m s
  | .lbrk l => Sys2Proof.Machine.execLbrk l s
  | .lcnt d l => Sys2Proof.Machine.execLcnt d l s
  | .ldb d a n x => Sys2Proof.Machine.execLdb d a n x s
  | .ldh d a n x => Sys2Proof.Machine.execLdh d a n x s
  | .ldw d a n x => Sys2Proof.Machine.execLdw d a n x s
  | .ldd d a n x => Sys2Proof.Machine.execLdd d a n x s
  | .ldbx d a n x => Sys2Proof.Machine.execLdbx d a n x s
  | .ldhx d a n x => Sys2Proof.Machine.execLdhx d a n x s
  | .ldwx d a n x => Sys2Proof.Machine.execLdwx d a n x s
  | .stb d a n x => Sys2Proof.Machine.execStb d a n x s
  | .sth d a n x => Sys2Proof.Machine.execSth d a n x s
  | .stw d a n x => Sys2Proof.Machine.execStw d a n x s
  | .std d a n x => Sys2Proof.Machine.execStd d a n x s
  | .sld d a n x => Sys2Proof.Machine.execSld d a n x s
  | .sst d a n x => Sys2Proof.Machine.execSst d a n x s
  | .aadd d a b o w => Sys2Proof.Machine.execAadd d a b o w s
  | .amin d a b o w => Sys2Proof.Machine.execAmin d a b o w s
  | .aminu d a b o w => Sys2Proof.Machine.execAminu d a b o w s
  | .amax d a b o w => Sys2Proof.Machine.execAmax d a b o w s
  | .amaxu d a b o w => Sys2Proof.Machine.execAmaxu d a b o w s
  | .aand d a b o w => Sys2Proof.Machine.execAand d a b o w s
  | .aor d a b o w => Sys2Proof.Machine.execAor d a b o w s
  | .axor d a b o w => Sys2Proof.Machine.execAxor d a b o w s
  | .aswp d a b o w => Sys2Proof.Machine.execAswp d a b o w s
  | .acas d a b o f w => Sys2Proof.Machine.execAcas d a b o f w s
  | .vadd d a b k f => Sys2Proof.Machine.execVadd d a b k f s
  | .vsub d a b k f => Sys2Proof.Machine.execVsub d a b k f s
  | .vmul d a b k f => Sys2Proof.Machine.execVmul d a b k f s
  | .vmulh d a b k f => Sys2Proof.Machine.execVmulh d a b k f s
  | .vand d a b k f => Sys2Proof.Machine.execVand d a b k f s
  | .vor d a b k f => Sys2Proof.Machine.execVor d a b k f s
  | .vxor d a b k f => Sys2Proof.Machine.execVxor d a b k f s
  | .vsll d a b k f => Sys2Proof.Machine.execVsll d a b k f s
  | .vsrl d a b k f => Sys2Proof.Machine.execVsrl d a b k f s
  | .vsra d a b k f => Sys2Proof.Machine.execVsra d a b k f s
  | .vmin d a b k f => Sys2Proof.Machine.execVmin d a b k f s
  | .vmax d a b k f => Sys2Proof.Machine.execVmax d a b k f s
  | .vcmpeq d a b k f => Sys2Proof.Machine.execVcmpeq d a b k f s
  | .vcmplt d a b k f => Sys2Proof.Machine.execVcmplt d a b k f s
  | .vcmple d a b k f => Sys2Proof.Machine.execVcmple d a b k f s
  | .vsel d a b k f => Sys2Proof.Machine.execVsel d a b k f s
  | .vlut3 d a b k f t => Sys2Proof.Machine.execVlut3 d a b k f t s
  | .vfshl d a b k f => Sys2Proof.Machine.execVfshl d a b k f s
  | .vpopc d a f => Sys2Proof.Machine.execVpopc d a f s
  | .vclz d a f => Sys2Proof.Machine.execVclz d a f s
  | .vredadd d a r f => Sys2Proof.Machine.execVredadd d a r f s
  | .vredmax d a r f => Sys2Proof.Machine.execVredmax d a r f s
  | .vredmin d a r f => Sys2Proof.Machine.execVredmin d a r f s
  | .vsplat d a b k f => Sys2Proof.Machine.execVsplat d a b k f s
  | .vmov d a b k f => Sys2Proof.Machine.execVmov d a b k f s
  | .vdot8 d a b f => Sys2Proof.Machine.execVdot8 d a b f s
  | .vfadd d a b k f => Sys2Proof.Machine.execVfadd d a b k f s
  | .vfsub d a b k f => Sys2Proof.Machine.execVfsub d a b k f s
  | .vfmul d a b k f => Sys2Proof.Machine.execVfmul d a b k f s
  | .vfma d a b k f => Sys2Proof.Machine.execVfma d a b k f s
  | .vfmax d a b k f => Sys2Proof.Machine.execVfmax d a b k f s
  | .vfmin d a b k f => Sys2Proof.Machine.execVfmin d a b k f s
  | .vfcmpeq d a b k f => Sys2Proof.Machine.execVfcmpeq d a b k f s
  | .vfcmplt d a b k f => Sys2Proof.Machine.execVfcmplt d a b k f s
  | .vfcmple d a b k f => Sys2Proof.Machine.execVfcmple d a b k f s
  | .vcvt d a src dst rm h stream => Sys2Proof.Machine.execVcvt d a src dst rm h stream s
  | .vfredsum d a r f => Sys2Proof.Machine.execVfredsum d a r f s
  | .vfredmax d a r f => Sys2Proof.Machine.execVfredmax d a r f s
  | .vexp2 d a f => Sys2Proof.Machine.execVexp2 d a f s
  | .vlog2 d a f => Sys2Proof.Machine.execVlog2 d a f s
  | .vrcp d a f => Sys2Proof.Machine.execVrcp d a f s
  | .vrsq d a f => Sys2Proof.Machine.execVrsq d a f s
  | .vsint d a f => Sys2Proof.Machine.execVsint d a f s
  | .vcost d a f => Sys2Proof.Machine.execVcost d a f s
  | .vtanh d a f => Sys2Proof.Machine.execVtanh d a f s
  | .rngk d a b k f => Sys2Proof.Machine.execRngk d a b k f s
  | .gumb d a b k f => Sys2Proof.Machine.execGumb d a b k f s
  | .topk d a k r f => Sys2Proof.Machine.execTopk d a k r f s
  | .vscale d a b v f => Sys2Proof.Machine.execVscale d a b v f s
  | .vfabs d a f => Sys2Proof.Machine.execVfabs d a f s
  | .vfneg d a f => Sys2Proof.Machine.execVfneg d a f s
  | .cmset d a => Sys2Proof.Machine.execCmset d a s
  | .cmget d a => Sys2Proof.Machine.execCmget d a s
  | .cmslc d a b => Sys2Proof.Machine.execCmslc d a b s
  | .cmtrn d a => Sys2Proof.Machine.execCmtrn d a s
  | .cmrev d a o => Sys2Proof.Machine.execCmrev d a o s
  | .cmcpy d a => Sys2Proof.Machine.execCmcpy d a s
  | .cmclr d => Sys2Proof.Machine.execCmclr d s
  | .vcrd d a b p => Sys2Proof.Machine.execVcrd d a b p s
  | .vrope d a b v f => Sys2Proof.Machine.execVrope d a b v f s
  | .vshuf d a b f => Sys2Proof.Machine.execVshuf d a b f s
  | .vrot d a b k f => Sys2Proof.Machine.execVrot d a b k f s
  | .cmtst d a b => Sys2Proof.Machine.execCmtst d a b s
  | .vshfl d a b f => Sys2Proof.Machine.execVshfl d a b f s
  | .vld d w b => Sys2Proof.Machine.execVld d w b s
  | .vst d w b => Sys2Proof.Machine.execVst d w b s
  | .vldc d w b => Sys2Proof.Machine.execVldc d w b s
  | .vstc d w b => Sys2Proof.Machine.execVstc d w b s
  | .vgath d w b c => Sys2Proof.Machine.execVgath d w b c s
  | .vscat d w b c => Sys2Proof.Machine.execVscat d w b c s
  | .vcomp d a b f => Sys2Proof.Machine.execVcomp d a b f s
  | .rgld w a b => Sys2Proof.Machine.execRgld w a b s
  | .tagq d a => Sys2Proof.Machine.execTagq d a s
  | .tagset a b => Sys2Proof.Machine.execTagset a b s
  | .tagclr a => Sys2Proof.Machine.execTagclr a s
  | .guardSet a b => Sys2Proof.Machine.execGuardSet a b s
  | .guardClr a b => Sys2Proof.Machine.execGuardClr a b s
  | .mcall n => Sys2Proof.Machine.execMcall n s
  | .mparm n a => Sys2Proof.Machine.execMparm n a s
  | .mzero t => Sys2Proof.Machine.execMzero t s
  | .mrel t => Sys2Proof.Machine.execMrel t s
  | .mlda t w b => Sys2Proof.Machine.execMlda t w b s
  | .msta t w b f => Sys2Proof.Machine.execMsta t w b f s
  | .mwr a b => Sys2Proof.Machine.execMwr a b s
  | .mrd d a => Sys2Proof.Machine.execMrd d a s
  | .mbgrp a => Sys2Proof.Machine.execMbgrp a s
  | .mwait n => Sys2Proof.Machine.execMwait n s
  | .cpy n a b c => Sys2Proof.Machine.execCpy n a b c s
  | .cpyp n a b c => Sys2Proof.Machine.execCpyp n a b c s
  | .cpfill n a c => Sys2Proof.Machine.execCpfill n a c s
  | .cpqf m => Sys2Proof.Machine.execCpqf m s
  | .cpyz n a b c => Sys2Proof.Machine.execCpyz n a b c s
  | .awset d a b => Sys2Proof.Machine.execAwset d a b s
  | .cpst d n => Sys2Proof.Machine.execCpst d n s
  | .clapp d a b => Sys2Proof.Machine.execClapp d a b s
  | .clshr d a b c => Sys2Proof.Machine.execClshr d a b c s
  | .seamtag d a b => Sys2Proof.Machine.execSeamtag d a b s
  | .seamret d a b m => Sys2Proof.Machine.execSeamret d a b m s
  | .hbudg d a b c => Sys2Proof.Machine.execHbudg d a b c s
  | .fcfg n a => Sys2Proof.Machine.execFcfg n a s
  | .fins x n a b c => Sys2Proof.Machine.execFins x n a b c s
  | .fmerge n m => Sys2Proof.Machine.execFmerge n m s
  | .fread d n => Sys2Proof.Machine.execFread d n s
  | .fcnt d n => Sys2Proof.Machine.execFcnt d n s
  | .fclr n => Sys2Proof.Machine.execFclr n s
  | .fsave n b => Sys2Proof.Machine.execFsave n b s
  | .fload n b => Sys2Proof.Machine.execFload n b s
  | .phase => Sys2Proof.Machine.execPhase s
  | .fence d e => Sys2Proof.Machine.execFence d e s
  | .await a b => Sys2Proof.Machine.execAwait a b s
  | .barg a n => Sys2Proof.Machine.execBarg a n s
  | .bard a n => Sys2Proof.Machine.execBard a n s
  | .enq n a x => Sys2Proof.Machine.execEnq n a x s
  | .deq d n => Sys2Proof.Machine.execDeq d n s
  | .retire => Sys2Proof.Machine.execRetire s
  | .yield => Sys2Proof.Machine.execYield s
  | .sleept a => Sys2Proof.Machine.execSleept a s
  | .time d => Sys2Proof.Machine.execTime d s
  | .trap k => Sys2Proof.Machine.execTrap k s
  | .eret k => Sys2Proof.Machine.execEret k s
  | .csrr d c => Sys2Proof.Machine.execCsrr d c s
  | .csrw a c => Sys2Proof.Machine.execCsrw a c s
  | .csrs a c => Sys2Proof.Machine.execCsrs a c s
  | .csrc a c => Sys2Proof.Machine.execCsrc a c s
  | .rngp d => Sys2Proof.Machine.execRngp d s
  | .ipf a b => Sys2Proof.Machine.execIpf a b s
  | .fmtt a b => Sys2Proof.Machine.execFmtt a b s
  | .fmttAll b => Sys2Proof.Machine.execFmttAll b s
  | .gset a n x => Sys2Proof.Machine.execGset a n x s
  | .flagr d => Sys2Proof.Machine.execFlagr d s
  | .flagc m f => Sys2Proof.Machine.execFlagc m f s
  | .nop => Sys2Proof.Machine.execNop s
  | .nopBench => Sys2Proof.Machine.execNopBench s
  | .issue => Sys2Proof.Machine.execIssue s
  | .phaseBoundary => Sys2Proof.Machine.execPhaseBoundary s
  | .perform => Sys2Proof.Machine.execPerform s
  | .gate => Sys2Proof.Machine.execGate s
  | .commit => Sys2Proof.Machine.execCommit s
  | .atomic => Sys2Proof.Machine.execAtomic s
  | .load => Sys2Proof.Machine.execLoad s
  | .trapEntry => Sys2Proof.Machine.execTrapEntry s
  | .fpx => Sys2Proof.Machine.execFpx s
  | .shiftWake => Sys2Proof.Machine.execShiftWake s
  | .copyPerform => Sys2Proof.Machine.execCopyPerform s
  | .mxqPerform => Sys2Proof.Machine.execMxqPerform s
  | .broadcastStrip => Sys2Proof.Machine.execBroadcastStrip s
  | .claimPerform => Sys2Proof.Machine.execClaimPerform s
  | .fenceTimeout => Sys2Proof.Machine.execFenceTimeout s
  | .watchdog => Sys2Proof.Machine.execWatchdog s
  | .taskStart => Sys2Proof.Machine.execTaskStart s
  | .stageDone => Sys2Proof.Machine.execStageDone s
  | .steering => Sys2Proof.Machine.execSteering s
  | .preemption => Sys2Proof.Machine.execPreemption s
  | .shiftResume => Sys2Proof.Machine.execShiftResume s
  | .kick => Sys2Proof.Machine.execKick s
  | .kickReread => Sys2Proof.Machine.execKickReread s
  | .registerWrite => Sys2Proof.Machine.execRegisterWrite s
  | .shpinv => Sys2Proof.Machine.execShpinv s
  | .image => Sys2Proof.Machine.execImage s
  | .setchip => Sys2Proof.Machine.execSetchip s
  | .fenceGalleries => Sys2Proof.Machine.execFenceGalleries s
  | .unfence => Sys2Proof.Machine.execUnfence s
  | .preempt => Sys2Proof.Machine.execPreempt s
  | .resume => Sys2Proof.Machine.execResume s
  | .attest => Sys2Proof.Machine.execAttest s
  | .arbump => Sys2Proof.Machine.execArbump s
  | .hlthcfg => Sys2Proof.Machine.execHlthcfg s
  | .syscfg => Sys2Proof.Machine.execSyscfg s
  | .syscfgHeads => Sys2Proof.Machine.execSyscfgHeads s
  | .done => Sys2Proof.Machine.execDone s
  | .halt => Sys2Proof.Machine.execHalt s
  | .refused => Sys2Proof.Machine.execRefused s
  | .granterr => Sys2Proof.Machine.execGranterr s
  | .memerr => Sys2Proof.Machine.execMemerr s
  | .linkerr => Sys2Proof.Machine.execLinkerr s
  | .thermal => Sys2Proof.Machine.execThermal s
  | .attlow => Sys2Proof.Machine.execAttlow s
  | .thermalTrip => Sys2Proof.Machine.execThermalTrip s
  | .cxlReset => Sys2Proof.Machine.execCxlReset s
  | .powerLoss => Sys2Proof.Machine.execPowerLoss s
  | .enterSafe => Sys2Proof.Machine.execEnterSafe s
  | .enterReduced => Sys2Proof.Machine.execEnterReduced s
  | .enterFull => Sys2Proof.Machine.execEnterFull s
  | .hostMemWrite => Sys2Proof.Machine.execHostMemWrite s
  | .hostMemRead => Sys2Proof.Machine.execHostMemRead s
  | .flit => Sys2Proof.Machine.execFlit s
  | .packet => Sys2Proof.Machine.execPacket s
  | .linkDegraded => Sys2Proof.Machine.execLinkDegraded s
  | .linkDead => Sys2Proof.Machine.execLinkDead s
  | .ptpMessage => Sys2Proof.Machine.execPtpMessage s
  | .grandmasterLost => Sys2Proof.Machine.execGrandmasterLost s
  | .eccError => Sys2Proof.Machine.execEccError s
  | .rngHealthFail => Sys2Proof.Machine.execRngHealthFail s
  | .resultLanding => Sys2Proof.Machine.execResultLanding s
  | .linkRecovery => Sys2Proof.Machine.execLinkRecovery s
  | .ppsInput => Sys2Proof.Machine.execPpsInput s

end Sys2Proof.Machine
end

