-- ==== Sys2Proof/Machine/Run.lean ====
section
/-! DEFINITION. One step of the device: the cycles that pass (01 R11, 13 R281), the step that the schedule names or
the one that the device takes by itself (log 1), and what follows from it. -/

namespace Sys2Proof.Machine

namespace State

/-! ### Time -/

/-- Nanoseconds times seven of one core cycle (01 R11): 1.4 GHz in FULL, 0.7 GHz in REDUCED. -/
def cycleSevenths (s : State) : Nat := if s.frame.st = .reduced then 10 else 5

/-- What cy cycles do to a shift: results land at their bounds (02 R30), counters run (13 R260, R268, R274). The watchdog of a
shift that is to be pre-empted stands still from the moment its issue stops (14 R294). -/
def elapseShift (free : BitVec 4) (cy ns : Nat) (x : Shift) : Shift :=
  let y := x.landDue free cy
  { y with
    issued := false
    waitCy := if y.st = .running then 0 else y.waitCy + cy
    runCy := if y.st = .running then y.runCy + cy else y.runCy
    idleCy := if y.st = .idle || y.st = .free then y.idleCy + cy else 0
    task := y.task.map fun t => if y.preemptReq then t else { t with cycles := t.cycles + cy }
    fences := y.fences.map fun f => { f with waited := f.waited + ns } }

/-- The slew that t nanoseconds bring: at most 100 ppm of the time that has passed (13 R281). -/
def slewed (f : Frame) (t : Nat) : Int × Frame :=
  let acc := f.slewAcc + t
  let most : Int := (acc / 10000 : Nat)
  let adj := max (-most) (min most f.slew)
  (adj, { f with slew := f.slew - adj, slewAcc := acc % 10000 })

/-- cy core cycles pass. In COLD nothing runs (15 R314). -/
def elapse (s : State) (cy : Nat) : State :=
  if cy = 0 || s.frame.st = .cold then s
  else
    let t := s.gtcFrac + cy * s.cycleSevenths
    let (adj, f) := slewed s.frame (t / 7)
    { s with
      gtc := .ofInt 64 (s.gtc.toNat + (t / 7 : Nat) + adj)
      gtcFrac := t % 7
      frame := f
      shifts := s.shifts.map fun p => (p.1, elapseShift s.freeSlot cy (t / 7) p.2)
      saved := s.saved.map fun v => { v with sh := { v.sh with waitCy := v.sh.waitCy + cy } }
      gals := s.gals.map fun p => (p.1, if p.2.holder.isSome then { p.2 with steerCy := p.2.steerCy + cy } else p.2) }

/-! ### The step that the device takes by itself -/

/-- The shift that issues next: the first that can from `turn` on, cores in turn. -/
def issuer (s : State) : Option Nat :=
  let r := s.shifts.filter fun p => s.canOpen p.1 && !s.lsHeld p.1
  match r.find? fun p => s.turn ≤ p.1 with
  | some p => some p.1
  | none => r.head?.map Prod.fst

/-- The first listed shift with a property. -/
def firstShift (s : State) (f : Nat → Shift → Bool) : Option Nat := (s.shifts.find? fun p => f p.1 p.2).map Prod.fst

/-- The four copy queues. -/
def cpQueues : List (BitVec 2) := [0, 1, 2, 3]

/-- Cycles before the kick's next read: 625 ns after a failed one (14 R299). -/
def rereadCycles (s : State) : Nat := match s.kicks with
  | k :: _ => if k.tries = 0 then 0 else if s.frame.st = .reduced then 438 else 875
  | [] => 0

/-- The step that reports the oldest waiting host event. -/
def reportOp (kind : BitVec 8) : Instr :=
  if kind = 0x10 then .done else if kind = 0x11 then .halt else if kind = 0x12 then .refused
  else if kind = 0x13 then .granterr else if kind = 0x14 then .memerr else if kind = 0x15 then .linkerr
  else if kind = 0x16 then .thermal else .attlow

/-- A physical shift for a saved context. -/
def resumePlace (s : State) (v : Saved) : Option Nat := match s.launchAt v.seq with
  | none => none
  | some l => (State.savedGal l v).bind fun g =>
      ((List.range 32).map (32 * g + ·)).find? fun n => (s.resumed v.row n).isSome

/-- The first enabled step among those of shifts that touch no bundle. -/
def shiftWork (s : State) : Option Input :=
  ((s.firstShift fun n x => State.inCommit x && !x.gate.isEmpty && s.commitRest n).map fun n => (⟨0, .commit, .unit n⟩ : Input))
  <|> ((s.firstShift fun n x => (x.memTrap.isSome && !(State.inCommit x && s.commitRest n))
      || (x.memTrap.isNone && x.trapPend.isSome && x.lsq.isEmpty)).map fun n =>
    (⟨0, .trapEntry, .unit n⟩ : Input))
  <|> ((s.firstShift fun n _ => s.watchDue n).map fun n => (⟨0, .watchdog, .unit n⟩ : Input))
  <|> ((s.firstShift fun n _ => (s.fenceLate n).isSome).map fun n => (⟨0, .fenceTimeout, .unit n⟩ : Input))
  <|> ((s.firstShift fun n x => x.preemptReq && decide ((s.preemptBoth n).sh n ≠ x)).map fun n => (⟨0, .preemption, .unit n⟩ : Input))
  <|> ((s.firstShift fun n _ => s.canWake n).map fun n => (⟨0, .shiftWake, .unit n⟩ : Input))
  <|> ((s.firstShift fun n x => !x.lsq.isEmpty && decide ((s.perfLsq n).sh n ≠ x)).map fun n => (⟨0, .perform, .queue n .lsq⟩ : Input))
  <|> ((s.firstShift fun n x => (s.claimHeadOf n).isSome && decide ((s.claimPerform n).sh n ≠ x)).map fun n =>
    (⟨0, .claimPerform, .unit n⟩ : Input))

/-- The first enabled step of the copy engines and the matrix units. -/
def unitWork (s : State) : Option Input :=
  (s.shifts.findSome? fun p => (cpQueues.find? fun q => s.copyReady p.1 q).map fun q =>
    (⟨0, .copyPerform, .queue p.1 (.cpq q)⟩ : Input))
  <|> (s.shifts.findSome? fun p => match p.2.bg with
    | some b => if s.broadcastStrip (p.1 / 32) b.grp.toNat != s then
        some ⟨0, .broadcastStrip, .pair (p.1 / 32) b.grp.toNat⟩ else none
    | none => none)
  <|> (s.shifts.findSome? fun p => if !p.2.mxq.isEmpty && s.mxNext (p.1 / 4) = some p.1
      && decide ((s.mxqPerform (p.1 / 4)).sh p.1 ≠ p.2) then some ⟨0, .mxqPerform, .unit (p.1 / 4)⟩ else none)

/-- The first enabled step of tasks, launches and the host's queues. -/
def launchWork (s : State) : Option Input :=
  (match s.events with
    | e :: _ => if s.postOne.events.length < s.events.length then some ⟨0, reportOp e.kind, .nothing⟩ else none
    | [] => none)
  <|> (s.launches.findSome? fun l => (List.range l.obj.stages.length).findSome? fun k => match l.obj.stages[k]? with
    | some st => if s.stageOver l k st then some ⟨0, .stageDone, .launch l.seq k⟩ else none
    | none => none)
  <|> (s.launches.findSome? fun l =>
    if s.launchDone l then some ⟨0, .done, .launch l.seq 0⟩
    else if s.launchHalted l then some ⟨0, .halt, .launch l.seq 0⟩ else none)
  <|> (s.saved.findSome? fun v => (s.resumePlace v).map fun n => (⟨0, .shiftResume, .pair n v.row⟩ : Input))
  <|> ((s.firstShift fun n _ => (s.startable n).isSome).map fun n => (⟨0, .taskStart, .unit n⟩ : Input))
  <|> ((s.gals.find? fun p => p.2.holder.isSome && decide (256 ≤ p.2.steerCy)).map fun p => (⟨0, .steering, .unit p.1⟩ : Input))
  <|> (if s.kicks.isEmpty then none else some ⟨s.rereadCycles, .kickReread, .nothing⟩)

/-- The input that stands for the device's own progress: any enabled step may be taken (11 R220), log 1. Where none
but ISSUE is enabled the shifts issue in turn, and where none is enabled a cycle passes. -/
def ownStep (s : State) : Input :=
  ((s.shiftWork <|> s.unitWork <|> s.launchWork) <|> (s.issuer.map fun n => (⟨1, .issue, .unit n⟩ : Input))).getD ⟨1, .issue, .nothing⟩

/-- The next input and the schedule without it. -/
def nextInput (s : State) : Input × State :=
  match s.schedule with
  | i :: r => (i, { s with schedule := r })
  | [] => (s.ownStep, s)

/-- After a bundle of shift n the others have their turn. -/
def setTurn (s : State) (n : Nat) : State := { s with turn := n + 1 }

/-- FENCEs that are done complete (11 R233), and copies of assay tasks that have met different operands end (13 R273). -/
def settle (s : State) : State :=
  (s.shifts.foldl (fun t p => if p.2.fences.isEmpty then t else t.settleFences p.1) s).settleMiss

/-- The translator publishes counterparts of the held launches' portable benchmarks, when it has built them (02 R41): at any
step, or never. -/
def publish (s : State) : State :=
  let new := (s.launches.flatMap fun l => l.obj.counterparts).zipIdx.filter fun p =>
    !s.published.contains p.1 && Config.freeBit s.freeN (70000 + p.2)
  { s with published := s.published ++ new.map Prod.fst }

/-- The state in which the next step's operation is taken: its cycles have passed, its input stands. -/
def ready (s : State) : State :=
  let (i, s0) := s.nextInput
  let s1 := s0.elapse i.cycles
  { s1.publish with arg := i.arg, freeN := s1.freeN + 1 }

/-- The next step's operation. -/
def nextOp (s : State) : Instr := s.nextInput.1.op

end State

/-- The steps that open a bundle. -/
def opensBundle (i : Instr) : Bool :=
  match i with
  | .issue | .phaseBoundary | .commit => true
  | _ => false

/-- What follows from an operation: an open bundle's slots (02 R29), then FENCEs. -/
def finishStep (exec : Instr → State → Out) (i : Instr) (s : State) : Out :=
  if opensBundle i then
    match finishBundle exec s with
    | .next t => .next (if i = .issue then t.settle.setTurn s.cur.shift else t.settle)
    | o => o
  else .next s.settle

/-- One step: time, the input's operation, its consequences. -/
def advance (exec : Instr → State → Out) (s : State) : Out :=
  match exec s.nextOp s.ready with
  | .next t => finishStep exec s.nextOp t
  | o => o

/-! ### A word placed for the next step -/

/-- H0 of a bundle with one instruction in slot i (02 R17): `two` marks an extension word behind it, `h1` a second
header. The guard is the one that is always true. -/
def placeH0 (i : Nat) (two h1 : Bool) : Nat :=
  0x1E * 2 ^ 26 + (2 ^ i + (if two then 2 ^ (i + 1) else 0)) * 2 ^ 18 + (if two then 2 ^ (14 + i / 2) else 0)
    + (if h1 then 2 ^ 12 else 0) + 1

/-- H1 that allots r read ports and w write ports to slot i (02 R18). -/
def placeH1 (i r w : Nat) : Nat :=
  0x1F * 2 ^ 26 + ((List.range 4).map fun k => if k < r then (8 + i) * 16 ^ k else 0).sum
    + ((List.range 2).map fun k => if k < w then (8 + i) * 16 ^ (4 + k) else 0).sum

/-- The words of a bundle that holds the instruction of a table word. Its S bit is set by its place (R19). -/
def placeWords (nbits w : Nat) : List Nat :=
  let sw : Word := .ofNat 32 (w % 2 ^ nbits)
  let two : Bool := extRule (fOC sw) (fFN sw) = .required
  let body := sw.toNat % 2 ^ 31
  if body = 0x68C00001 then [body + 2 ^ 31]
  else
    let i := homeSlot (fOC sw) (fFN sw) two
    let r := if i < 2 then 0 else readDemand sw
    let wr := if i < 2 then 0 else writeDemand sw
    let h1 : Bool := decide (0 < r + wr)
    [placeH0 i two h1] ++ (if h1 then [placeH1 i r wr] else [])
      ++ (if two then [body, 2 ^ 31 + 14 * 2 ^ 27] else [body + 2 ^ 31])

/-- The address at which a placed bundle begins: offset 0 of byte window 15 of this chip (03 R57). -/
def placeAddr : Addr := .ofNat 64 (0x3FFF * 2 ^ 50 + 15 * 2 ^ 46)

/-- A tensor-table entry of one dimension of 32,768 bytes in one tile on chip `home` (03 R50). -/
def placeEntry (home : Nat) : Nat := 1 + 9 * 2 ^ 4 + 2 ^ 8 + home * 2 ^ 16 + 15 * 2 ^ 64 + 2 * 2 ^ 128 + 32768 * 2 ^ 192

/-- A launch whose only portable range holds the placed bundle (02 R40, R48). -/
def placeLaunch : Launch where
  seq := 0
  ngal := 1
  assay := false
  wdog := 0
  nkey := 0
  ttbase := 1
  ttlim := 1
  args := Vector.replicate 8 0
  svec := 0
  savetid := 0
  rngmode := 0
  rngtid := 0
  fencetmo := 0
  bwin := Vector.replicate 16 0
  obj := ⟨⟨2, 2, 2, 2, 2, false⟩, [(placeAddr, placeAddr + 64)], false, [], [], [], [], [], []⟩
  place := [0]
  twin := []
  started := []
  retired := []
  doneSt := []
  nextTask := 0
  halted := none
  reduced := false
  stopped := []

/-- Code words stored from byte key on, four bytes each, little-endian. -/
def placeCode (m : List Host.Cell) (key : Nat) : List Nat → List Host.Cell
  | [] => m
  | w :: r => placeCode (memWrite m key 4 w) (key + 4) r

namespace State

/-- The bundle of a table word in frame 32, tensor 0 of a table in frame 1 that maps it with code permission, and
byte window 15 on that tensor for shift n, which runs it next. -/
def placeWord (s : State) (nbits w : Nat) : State :=
  let n := s.issuer.getD 0
  let ws := placeWords nbits w
  let bench : Bool := decide (ws = [0x68C00001 + 2 ^ 31])
  let home := if s.bar.chipSet then s.bar.chipNo.toNat else 0
  let m1 := memWrite s.mem frameBytes 128 (placeEntry home)
  let m2 := memWrite m1 (2 * frameBytes) 8 (2 ^ 63 + 2 ^ 60 + 32 * 2 ^ 16)
  let x := s.sh n
  let y := { x with
    st := .running
    blockOn := none
    pc := placeAddr
    memTrap := none
    trapPend := none
    fpx := []
    loopBuf := []
    shLoop := []
    bndSt := .away
    issued := false
    preemptReq := false
    fences := []
    bound := if bench then some (0, 0) else x.bound
    k := { x.k with
      port := bench
      ttbase := 1
      ttlim := 1
      bwin := x.k.bwin.setIfInBounds 15 (2 ^ 20) } }
  let s1 := s.setSh n y
  { s1 with
    mem := placeCode m2 (32 * frameBytes) ws
    ttCache := s.ttCache.filter fun p => p.1 != frameBytes
    launches := if bench then [placeLaunch] else s.launches
    schedule := [⟨1, .issue, .unit n⟩]
    arg := .nothing }

end State

end Sys2Proof.Machine
end

