-- ==== Sys2Proof/Safety.lean ====
section
/-! DEFINITION. The terms in which the claims speak: clean operands, completion, what two states share, and the
invariants that every step keeps. -/

namespace Sys2Proof.Machine

/-- Every byte memory of the device stands in its canonical form, and every tag table lists its slots in rising order. -/
def State.memOk (s : State) : Prop :=
  Memory.wf s.mem = true ∧ ∀ p ∈ s.gals, Memory.wf p.2.sp = true ∧ (p.2.tags.map Prod.fst).Pairwise (· < ·)

namespace State

/-- None of the general registers rs is poisoned as the instruction reads it (14 R285). -/
abbrev cleanG (s : State) (rs : List R5) : Prop := rs.any s.poisG = false

/-- None of the vector registers vs is poisoned as the instruction reads it (08 R154). -/
abbrev cleanV (s : State) (vs : List R5) : Prop := vs.any s.poisV = false

/-- Nothing of the issuing shift is still in its load-store queue, and no FENCE of it is in progress (11 R219, R233). -/
abbrev lsIdle (s : State) : Prop := s.me.lsq = [] ∧ s.me.fences = [] ∧ s.me.memTrap = none

/-- Byte k of global memory. -/
def byteM (s : State) (k : Nat) : Byte := memByte s.mem k
/-- Byte k of the scratchpad of gallery g. -/
def byteS (s : State) (g k : Nat) : Byte := memByte (s.gal g).sp k

end State

/-- Every byte of global memory and of every scratchpad reads in t as in s. -/
def SameBytes (s t : State) : Prop := (∀ k, t.byteM k = s.byteM k) ∧ ∀ g k, t.byteS g k = s.byteS g k

/-- Every shift but the issuing one is in t as in s. -/
def SameOthers (s t : State) : Prop := ∀ n, n ≠ s.cur.shift → t.sh n = s.sh n

/-- From s to t the issuing shift got results in flight, each of which satisfies `ok`, and its bundle may have decided
about the next address or what follows it; nothing else of the device differs, the bytes of memory included. -/
def OnlyResults (s t : State) (ok : LandTo → Prop) : Prop :=
  t = { s with shifts := t.shifts, cur := t.cur }
  ∧ t.cur = { s.cur with ctl := t.cur.ctl, after := t.cur.after }
  ∧ SameOthers s t ∧ SameBytes s t
  ∧ ∃ l : List Landing, (∀ e ∈ l, ok e.what) ∧ t.me = { s.me with inflight := s.me.inflight ++ l }

/-- A result that writes general register d, or flags. -/
def writesG (d : R5) : LandTo → Prop
  | .g r _ _ => r = d
  | .flags _ => True
  | _ => False

/-- A result that writes vector register d with its map, or flags. -/
def writesV (d : R5) : LandTo → Prop
  | .v r _ => r = d
  | .flags _ => True
  | _ => False

/-- An instruction has run: it answers t, and its slot raised no trap and did not wait. -/
def RunsTo (o : Out) (t : State) : Prop := o = .next t ∧ t.cur.fin = .ok

/-! ### Rounding (07 R133, R139) -/

/-- The magnitude of a finite value. -/
def Exact.mag (x : Exact) : Rat := ((x.m * 2 ^ x.e.toNat : Nat) : Rat) / ((2 ^ (-x.e).toNat : Nat) : Rat)
/-- The rational number that a finite value stands for. -/
def Exact.rat (x : Exact) : Rat := if x.neg then -x.mag else x.mag

/-- The magnitudes that a binary float encodes. -/
def FloatMag (f : Nat) (z : Rat) : Prop := ∃ b y, b < 2 ^ (fmtWidth f - 1) ∧ decodeFloat f b = .fin y ∧ y.rat = z

/-- What Round makes of a number of sign `neg` in a binary float f with infinities under mode rm, 0 to 3 (R139): `below z` says
that z is at most the number's magnitude, `above z` that it is at least that. Where the chosen magnitude lies beyond the largest
finite one, OF and NX are set; otherwise the result is the neighbour that the mode chooses, NX tells whether it differs, and UF
that it does so below the smallest normal number. -/
def RoundsTo (f rm : Nat) (neg : Bool) (below above : Rat → Prop) (r : Nat × Flags) : Prop :=
  let body := r.1 % 2 ^ (fmtWidth f - 1)
  let top : Rat := match decodeFloat f (maxFinite f) with
    | .fin y => y.rat
    | _ => 0
  let next : Rat := ((2 ^ ((floatSpec f).bias + 1) : Nat) : Rat)
  let normal : Rat := 1 / ((2 ^ ((floatSpec f).bias - 1) : Nat) : Rat)
  let down : Bool := rm = 1 || (rm = 2 && neg) || (rm = 3 && !neg)
  let past : Prop := (down = true ∧ below next) ∨ (down = false ∧ rm ≠ 0 ∧ ¬ above top) ∨ (rm = 0 ∧ below ((top + next) / 2))
  r.1 / 2 ^ (fmtWidth f - 1) = neg.toNat
  ∧ (past → r.2 = flagOF ||| flagNX ∧ body = if down then maxFinite f else posInf f)
  ∧ (¬ past → ∃ y, decodeFloat f body = .fin y
    ∧ (down = true → below y.rat ∧ ∀ z, FloatMag f z → below z → z ≤ y.rat)
    ∧ (down = false → rm ≠ 0 → above y.rat ∧ ∀ z, FloatMag f z → above z → y.rat ≤ z)
    ∧ (rm = 0 → ∀ z, FloatMag f z → z ≠ y.rat → (y.rat < z → above ((y.rat + z) / 2)) ∧ (z < y.rat → below ((y.rat + z) / 2))
      ∧ (below ((y.rat + z) / 2) → above ((y.rat + z) / 2) → body % 2 = 0))
    ∧ (below y.rat → above y.rat → r.2 = 0)
    ∧ (¬ (below y.rat ∧ above y.rat) → (below normal → r.2 = flagNX) ∧ (¬ below normal → r.2 = flagNX ||| flagUF)))

end Sys2Proof.Machine
end

