-- ==== Sys2Proof/Certificates/Slice0/Obligations.lean ====
section
/-! DEFINITION. The statements for the provers. Each docstring names the rule of spec/ that it formalises. -/

section Statements

open Sys2Proof Sys2Proof.Machine

/-! ### Encoding and fetch (02_bundles_and_opcode_map) -/

/-- Words that the manual writes out decode to the instructions that it writes beside them (R19, R44, and the examples
of chapters 3 to 14). -/
def Obligations.WordsOfTheManualDecode : Prop :=
  decodeSlot 0xA062A7F8 none = some (.ldwx 5 9 (-8) none)
  ∧ decodeSlot 0xD00035CF none = some (.cpy 0 13 14 15)
  ∧ decodeSlot 0xC8000001 none = some (.mcall 1)
  ∧ decodeSlot 0xD81052C9 none = some (.fins 0 0 20 22 9)
  ∧ decodeSlot 0xE0148003 none = some (.fence 9 3)
  ∧ decodeSlot 0x81E4A960 none = some (.bdep 9 10 11)
  ∧ decodeSlot 0x0838C3FF none = some (.xori 17 16 (-1) none)
  ∧ decodeSlot 0x984000CD none = some (.loopi 13 0 6)
  ∧ decodeSlot 0xE0648C00 none = some (.deq 9 3)
  ∧ decodeSlot 0xE8901C06 none = some (.gset 7 3 0)
  ∧ decodeSlot 0xE8B0067F none = some (.flagc 0x0C 0x7F)
  ∧ decodeSlot 0xD0AD6320 none = some (.seamret 26 24 25 0)
  ∧ decodeSlot 0xA8F329D0 none = some (.vsel 6 10 14 2 0)
  ∧ decodeSlot 0xC0208400 none = some (.vldc 1 1 0)

/-- Decoding the words of a well-formed instruction gives it back, with every operand at every value that its encoding
admits, as the last word of a bundle or not, guarded or not (R16, R19, R20, R44). -/
def Obligations.DecodeOfEncodeIsTheInstruction : Prop :=
  ∀ (last q : Bool) (i : Instr), wellFormed i = true → i.parts ≠ none → decodeWords (encode last q i) = some i

/-- The decoder drops no bit: the class, the function, bits [19:0] and the extension payload of a word that decodes to
a well-formed instruction are those that the encoder gives that instruction. No instruction is read from a slot word
whose function the opcode map does not assign (R22 FUNC, R44), whose extension word is missing or forbidden (R26), or
whose reserved field is nonzero (R22 RSV). -/
def Obligations.DecodingKeepsEveryBitOrRefuses : Prop :=
  (∀ (w : Word) (x : Option (BitVec 27)) (i : Instr), decodeSlot w x = some i → wellFormed i = true →
      i.parts = some (fOC w, fFN w, w.toNat % 2 ^ 20, x))
  ∧ (∀ (w : Word) (x : Option (BitVec 27)),
      (fnAssigned (fOC w) (fFN w) = false → decodeSlot w x = none)
      ∧ (extRule (fOC w) (fFN w) = .required → decodeSlot w none = none)
      ∧ (∀ p, extRule (fOC w) (fFN w) = .forbidden → decodeSlot w (some p) = none)
      ∧ (rsvBad w x = true → decodeSlot w x = none))

/-- The slots of a fetched native bundle that break no rule of their own hold the instruction that the decoder reads
from the slot's word, with the extension word of a template pair, where the pair carries one, and the word's Q bit
(R17, R19, R20, R24, R26). The bundle that ISSUE opens for a native shift with nothing pending is the one fetched at
its program counter, with the guard value of its header (R16, R24). -/
def Obligations.FetchedBundlesOpenWithDecodedSlots : Prop :=
  (∀ (row : Word64) (x : Shift) (ws : List Word) (t : IssueSlot), t ∈ State.nativeSlots row x ws → t.bad = none →
      ∃ w, State.slotWord ws t.slot = some w ∧ t.q = fQ w ∧ wellFormed t.instr = true
        ∧ decodeSlot w (if State.tmpl (ws.headD 0) (t.slot / 2) = true ∧ t.slot % 2 = 0
            then ((State.slotWord ws (t.slot + 1)).filter fun y => fOC y = 14).map extPayload else none) = some t.instr)
  ∧ (∀ (s t : State) (n : Nat) (ws : List Word) (g : BitVec 12), s.arg = .unit n → s.canIssue n = true →
      (s.sh n).k.port = false → (s.sh n).cpHold = false → (s.sh n).mrd = [] → (s.sh n).mxFl = [] → (s.sh n).fpx = [] →
      ({ s with freeN := s.freeN + 1, cur := Cur.nothing }.modSh n id).fetch n (s.sh n).pc = .ok (ws, t) →
      t.headerBad n (s.sh n).pc ws = none → fld (ws.headD 0) 13 1 = 0 → g = .ofNat 12 ((ws.headD 0).toNat % 2 ^ 12) →
      (State.nativeSlots (State.formatRow (t.sh n)) (t.sh n) ws).any (fun y => State.isBoundary y.instr) = false →
      exec .issue s = .next (t.openAt n (s.sh n).pc ws.length (t.guardOf n g (t.lateG n (fld g 7 5))) (.ofNat 5 (fld g 7 5))
        false (State.formatRow (t.sh n)) (State.nativeSlots (State.formatRow (t.sh n)) (t.sh n) ws)))

/-- A step runs the decoded instruction. When the step's operation is ISSUE of shift n and the bundle that opens holds
one instruction i that acts, decoded without a rule broken, and no boundary, profile, interlock, poisoned guard or
unfinished commit stands in front of it, the step is exec of i in its slot; after it the bundle closes (the next
address is chosen), FENCEs settle, and the next shift has its turn. Where i traps or waits, the state that it answers
stands. That FENCEs settle after every step is the model's reading (log 45, DEDUCED), and the turns of the shifts are
its scheduling (log 1, DESIGN CHOICE). -/
def Obligations.StepRunsTheDecodedInstruction : Prop :=
  ∀ (s t : State) (n k : Nat) (q : Bool) (i : Instr), s.nextOp = .issue → s.ready.arg = .unit n →
    s.ready.canIssue n = true → (s.ready.openBundle n).cur.fin = .ok → (s.ready.openBundle n).cur.want = .issue →
    (s.ready.openBundle n).cur.slots = [⟨k, q, i, none⟩] → (q = false ∨ (s.ready.openBundle n).cur.guard = true) →
    (s.ready.openBundle n).cur.bench = false → State.isBoundary i = false →
    ((s.ready.openBundle n).myProfile.map fun p => profileBad p i) ≠ some true →
    (s.ready.openBundle n).interlock = [] → (s.ready.openBundle n).guardPois = false →
    (∀ g, (s.ready.openBundle n).me.bndSt ≠ .resuming g) →
    exec i { s.ready.openBundle n with cur := { (s.ready.openBundle n).cur with slot := k, bdone := true, fin := .ok } } = .next t →
    step s = .next ((if t.cur.fin = .ok then t.closeBundle else t).settle.setTurn (s.ready.openBundle n).cur.shift)

/-! ### Reset and memory -/

/-- Right after reset the device is COLD, no shift runs and nothing is queued; of the BAR registers the ring, event
and kick registers, the chip number and MBBUSY hold the reset values of R308 (STATE, HEALTH, MBREQ and MBRSP are not
in the statement). COLD is R314's, where R308 gives STATE the reset value 1, SAFE; that choice and the zeros of
Shift.initial are the model's, log 3 (DESIGN CHOICE). -/
def Obligations.ResetLeavesTheDeviceCold : Prop :=
  State.reset.frame.st = .cold
  ∧ (∀ n, State.reset.sh n = Shift.initial ∧ (State.reset.sh n).st = .free)
  ∧ State.reset.launches = [] ∧ State.reset.kicks = [] ∧ State.reset.events = []
  ∧ State.reset.bar.ringBase = 0 ∧ State.reset.bar.ringLog = 4 ∧ State.reset.bar.kick = 0
  ∧ State.reset.bar.evBase = 0 ∧ State.reset.bar.evLog = 6 ∧ State.reset.bar.evHead = 0 ∧ State.reset.bar.evTail = 0
  ∧ State.reset.bar.kseq = 0xFFFFFFFF ∧ State.reset.bar.chipNo = 0 ∧ State.reset.bar.chipSet = false
  ∧ State.reset.bar.mbBusy = false

/-- The memories and the tag tables are in their canonical form at reset. -/
def Obligations.ResetMemoryIsCanonical : Prop := State.reset.memOk

/-- Every step keeps every memory in its canonical form: addresses strictly rising, no entry equal to what an unlisted
address reads as; and the tag slots of every gallery strictly rising (a representation invariant of the model's own). -/
def Obligations.StepKeepsMemoryCanonical : Prop := ∀ s t : State, s.memOk → step s = .next t → t.memOk

/-- Accesses of n bytes are little-endian (R1): a value written reads back modulo its width, and every byte outside
the n bytes stands. The canonical form is one form: memories of which every byte reads alike are the same data. -/
def Obligations.MemoryAccessesAreLittleEndian : Prop :=
  (∀ (m : List Host.Cell) (a n v : Nat), Memory.wf m = true →
      memRead (memWrite m a n v) a n = v % 256 ^ n
      ∧ (∀ i, i < n → memByte (memWrite m a n v) (a + i) = .ofNat 8 (v / 256 ^ i))
      ∧ ∀ k, k < a ∨ a + n ≤ k → memByte (memWrite m a n v) k = memByte m k)
  ∧ (∀ m m' : List Host.Cell, Memory.wf m = true → Memory.wf m' = true → (∀ k, memByte m k = memByte m' k) → m = m')

/-- A bundle of two slots without a boundary (02 R22-R24, R29): the first broken condition of an encoding or of step 2
of R23 in slot order traps, whatever the guard, and before any execution-time cause; then the first execution-time
cause of an acting slot traps; each slot is tried from the state before the bundle; the acting slots then run in
order, and the bundle closes. A false guard keeps a slot that obeys it from acting. That the two slots act in slot
order where both act at issue is the model's reading (log 66), and so is the order of the checks within one slot (log
39). -/
def Obligations.BundlesRunTheirSlotsFromOneState : Prop :=
  ∀ (s u v : State) (a b : IssueSlot), s.cur.fin = .ok → s.cur.slots = [a, b] → s.cur.want = .issue → s.cur.bench = false →
    State.isBoundary a.instr = false → State.isBoundary b.instr = false → (∀ g, s.me.bndSt ≠ .resuming g) →
    (∀ x ∈ [a, b], (s.myProfile.map fun p => profileBad p x.instr) ≠ some true) →
    let at_ (x : IssueSlot) : State := { s with cur := { s.cur with slot := x.slot, bdone := true, fin := .ok } }
    let bad (x : IssueSlot) (c : Illegal) : State := { s with cur := { s.cur with slot := x.slot } }.illegalAt c
    let acts (x : IssueSlot) : Prop := x.q = false ∨ s.cur.guard = true
    let late (w : State) : Prop := ∃ r, w.cur.fin = .trap r false
    (∀ c, a.bad = some c → finishBundle exec s = .next (bad a c))
    ∧ (a.bad = none → exec a.instr (at_ a) = .next u →
      (∀ r, u.cur.fin = .trap r true → finishBundle exec s = .next u)
      ∧ ((∀ r, u.cur.fin ≠ .trap r true) → (∀ c, b.bad = some c → finishBundle exec s = .next (bad b c))
        ∧ (b.bad = none → exec b.instr (at_ b) = .next v →
          (∀ r, v.cur.fin = .trap r true → finishBundle exec s = .next v)
          ∧ ((∀ r, v.cur.fin ≠ .trap r true) → s.interlock = [] → s.guardPois = false →
            (¬ acts a → ¬ acts b → finishBundle exec s = .next { s with cur := { s.cur with bdone := true } }.closeBundle)
            ∧ (acts a → late u → finishBundle exec s = .next u)
            ∧ (acts b → late v → ¬ (acts a ∧ late u) → finishBundle exec s = .next v)
            ∧ (acts a → u.cur.fin = .ok → ¬ acts b → finishBundle exec s = .next u.closeBundle)
            ∧ (¬ acts a → acts b → v.cur.fin = .ok → finishBundle exec s = .next v.closeBundle)
            ∧ (acts a → u.cur.fin = .blocked → ¬ (acts b ∧ late v) → finishBundle exec s = .next u)
            ∧ (acts a → acts b → u.cur.fin = .ok → v.cur.fin = .ok → ∀ w,
              exec b.instr { u with cur := { u.cur with slot := b.slot, fin := .ok } } = .next w → w.cur.fin = .ok →
              finishBundle exec s = .next w.closeBundle)))))

/-- Portable bundles and PORT (02 R37-R41): ISSUE opens a portable bundle with its one instruction in its home slot
under ctx.pguard, and traps MODE where a word of it lies outside the portable ranges; a taken transfer sets PORT by
the range of its target, and falling through keeps it. The format row (07 R147) is FMTT at the index of the level that
ctx.fmtlvl names while it is active, else FMTT[0]; the slot's format is the low half of its byte. The free ctx.fslot
of a header fault is the model's (log 73). -/
def Obligations.PortableBundlesAndFormatRows : Prop :=
  (∀ (s t : State) (n : Nat) (ws : List Word), s.arg = .unit n → s.canIssue n = true → (s.sh n).k.port = true →
    (s.sh n).inflight = [] → (s.sh n).mrd = [] → (s.sh n).mxFl = [] → (s.sh n).fpx = [] → (s.sh n).cpHold = false →
    ({ s with freeN := s.freeN + 1, cur := Cur.nothing }.modSh n id).fetch n (s.sh n).pc = .ok (ws, t) →
    let x := (s.sh n).pc
    let g := (t.sh n).arch.c.pguard
    let row := State.formatRow (t.sh n)
    let inRange := t.portableAt n x = true ∧ (2 ≤ ws.length → t.portableAt n (x + 4) = true)
    (inRange → ∀ sl, State.portableSlot row (t.sh n) ws = .ok sl → State.isBoundary sl.instr = false → sl.instr ≠ .nopBench →
      exec .issue s = .next (t.openAt n x ws.length (t.guardOf n g (t.lateG n (fld g 7 5))) (.ofNat 5 (fld g 7 5)) false row [sl]))
    ∧ (¬ inRange → ∃ u r, exec .issue s = .next u ∧ u.cur.fin = .trap r true ∧ r.cause = .illegal ∧ r.fpc = x ∧ r.fslot = 15
      ∧ r.finfo = .ofNat 64 Illegal.mode.code))
  ∧ (∀ (row : Word64) (x : Shift) (w : Word) (i : Instr), fS w = true → (fOC w) < 14 → fnAssigned (fOC w) (fFN w) = true →
    extRule (fOC w) (fFN w) ≠ .required → rsvBad w none = false → decodeSlot w none = some i → wellFormed i = true →
    i ≠ .nopBench → w.toNat ≠ 2 ^ 31 + 0x68C00001 →
    State.portableSlot row x [w] = .ok ⟨homeSlot (fOC w) (fFN w) false, fQ w, i, none⟩)
  ∧ (∀ (s : State) (a : Addr), s.cur.after = .nothing →
    let k := (s.closeBundle).me.k
    (s.cur.ctl = .taken a → (s.closeBundle).me.pc = a ∧ k.port = s.portableAt s.cur.shift a)
    ∧ (s.cur.ctl = .fall → (∀ j : Fin 6, (s.me.arch.l[j]).act = true → (s.me.arch.l[j]).stop ≠ s.cur.x) →
      (s.closeBundle).me.pc = s.cur.x + .ofNat 64 (4 * s.cur.len) ∧ k = { s.me.k with spstall := k.spstall }
      ∧ fld k.spstall 0 32 = fld s.me.k.spstall 0 32))
  ∧ ∀ (x : Shift) (s : State) (f : BitVec 3),
    (∀ k : Fin 6, x.arch.c.fmtlvl.toNat = k.val →
      State.formatRow x = if (x.arch.l[k]).act then x.arch.fmtt[(x.arch.l[k]).idx.toNat % 16]?.getD 0 else x.arch.fmtt[0])
    ∧ (6 ≤ x.arch.c.fmtlvl.toNat → State.formatRow x = x.arch.fmtt[0])
    ∧ s.slotFmt f = (s.cur.row.extractLsb' (8 * f.toNat) 4).toNat

/-! ### Registers, results in flight, flags -/

/-- G[0] reads as zero and a write to it is discarded; any other general register holds a result from when it lands,
and landing changes nothing else (R4, R30, R33). Element e of the register data that a result packs is the result's
element e, at every format (R132); a vector result lands with its map and changes no other register. Every operand is
read at issue: a result that the issuing bundle itself has put in flight is not seen by its other slots (R29), while a
register with a result of an earlier bundle in flight reads as an undefined value (R30), which no rule fixes: whatever
Config.freeWord gives. Flags are sticky and go to the flag register of the slot in which the instruction stands; the
first event since the record was cleared goes into ctx.fpfirst, and an enabled one makes FPX pending (R142-R144). -/
def Obligations.ResultsLandInTheirRegister : Prop :=
  (∀ (s : State) (d : R5) (x : Word64) (lat : Nat),
      s.rdG 0 = 0 ∧ s.poisG 0 = false
      ∧ (d = 0 → s.wrG d x lat = s)
      ∧ (d ≠ 0 → ((s.wrG d x lat).landAll s.cur.shift).me.arch.g[d.toNat] = x
          ∧ ((s.wrG d x lat).landAll s.cur.shift).me.arch.gpois.getLsbD d.toNat = false)
      ∧ (∀ r : R5, r ≠ d →
          ((s.wrG d x lat).landAll s.cur.shift).me.arch.g[r.toNat] = (s.landAll s.cur.shift).me.arch.g[r.toNat])
      ∧ ((s.wrG d x lat).landAll s.cur.shift).me =
          { (s.landAll s.cur.shift).me with
            arch := { (s.landAll s.cur.shift).me.arch with
              g := ((s.wrG d x lat).landAll s.cur.shift).me.arch.g
              gpois := ((s.wrG d x lat).landAll s.cur.shift).me.arch.gpois } })
  ∧ ((∀ (f e : Nat) (l : List Nat), f ≤ 11 → l.length = elemCount f → e < elemCount f →
      getEl f (packEls f l) e = l.getD e 0 % 2 ^ fmtWidth f)
    ∧ ∀ (s : State) (d : R5) (x : BitVec 2048) (m : CMap) (lat : Nat),
      ((s.wrV d x m lat).landAll s.cur.shift).me.arch.v[d.toNat] = ⟨x, m, false⟩
      ∧ (∀ r : R5, r ≠ d →
        ((s.wrV d x m lat).landAll s.cur.shift).me.arch.v[r.toNat] = (s.landAll s.cur.shift).me.arch.v[r.toNat])
      ∧ ((s.wrV d x m lat).landAll s.cur.shift).me.arch.g = (s.landAll s.cur.shift).me.arch.g)
  ∧ ((∀ (s : State) (d r : R5) (x : Word64) (lat : Nat), (s.wrG d x lat).rdG r = s.rdG r)
    ∧ ∀ (s : State) (r : R5) (l : Landing) (x : Word64) (p : Bool), r ≠ 0 → l ∈ s.me.inflight → l.what = .g r x p →
        l.bundle < s.cur.bundle → s.rdG r = Config.freeWord s.freeN (s.cur.slot * 32 + r.toNat) ∧ s.poisG r = false)
  ∧ (∀ (x : Shift) (f : Flags) (slot b : Nat) (a : Addr) (free : BitVec 4), slot < 8 → f ≠ 0 →
      (x.raiseFlags f slot b a free).arch.c.flags[slot]! = x.arch.c.flags[slot]! ||| f
      ∧ (∀ k, k < 8 → k ≠ slot → (x.raiseFlags f slot b a free).arch.c.flags[k]! = x.arch.c.flags[k]!)
      ∧ (x.arch.c.fpfirst.getLsbD 63 = false →
          (x.raiseFlags f slot b a free).arch.c.fpfirst =
            1#1 ++ BitVec.ofNat 3 slot ++ BitVec.ofNat 3 (lowFlag f) ++ 0#7 ++ a.extractLsb' 0 50)
      ∧ (x.arch.c.fpen &&& f = 0 → (x.raiseFlags f slot b a free).fpx = x.fpx)
      ∧ (x.arch.c.fpen &&& f ≠ 0 → (x.raiseFlags f slot b a free).fpx.length = x.fpx.length + 1)
      ∧ (x.raiseFlags f slot b a free).arch.g = x.arch.g ∧ (x.raiseFlags f slot b a free).arch.v = x.arch.v)

/-! ### Scalar instructions (12 R235-R240, 07 R152, R153) -/

/-- ADD, SUB, the logical operations, shifts and rotates, each with its result as R236 gives it and the bound of R31.
MUL, MULH and MULHU give the low and the high halves of the exact product, with bound 3 (R236, R31). The lesser and
the greater, signed and unsigned, and the comparisons (R236). -/
def Obligations.ScalarArithmeticGivesItsResult : Prop :=
  (∀ (s : State) (d a b : R5), s.cleanG [a, b] →
      let x := s.rdG a
      let y := s.rdG b
      let k := y.toNat % 64
      exec (.add d a b) s = .next (s.wrG d (.ofNat 64 (x.toNat + y.toNat)) 1)
      ∧ exec (.sub d a b) s = .next (s.wrG d (.ofInt 64 (x.toInt - y.toInt)) 1)
      ∧ exec (.and d a b) s = .next (s.wrG d (x &&& y) 1)
      ∧ exec (.or d a b) s = .next (s.wrG d (x ||| y) 1)
      ∧ exec (.xor d a b) s = .next (s.wrG d (x ^^^ y) 1)
      ∧ exec (.andn d a b) s = .next (s.wrG d (x &&& ~~~y) 1)
      ∧ exec (.sll d a b) s = .next (s.wrG d (.ofNat 64 (x.toNat * 2 ^ k)) 1)
      ∧ exec (.srl d a b) s = .next (s.wrG d (.ofNat 64 (x.toNat / 2 ^ k)) 1)
      ∧ exec (.sra d a b) s = .next (s.wrG d (.ofInt 64 (x.toInt / 2 ^ k)) 1)
      ∧ exec (.rol d a b) s = .next (s.wrG d ((x <<< k) ||| (x >>> ((64 - k) % 64))) 1)
      ∧ exec (.ror d a b) s = .next (s.wrG d ((x >>> k) ||| (x <<< ((64 - k) % 64))) 1))
  ∧ (∀ (s : State) (d a b : R5), s.cleanG [a, b] →
      exec (.mul d a b) s = .next (s.wrG d (.ofNat 64 ((s.rdG a).toNat * (s.rdG b).toNat)) 3)
      ∧ exec (.mulh d a b) s = .next (s.wrG d (.ofInt 64 ((s.rdG a).toInt * (s.rdG b).toInt / 2 ^ 64)) 3)
      ∧ exec (.mulhu d a b) s = .next (s.wrG d (.ofNat 64 ((s.rdG a).toNat * (s.rdG b).toNat / 2 ^ 64)) 3))
  ∧ (∀ (s : State) (d a b : R5), s.cleanG [a, b] →
      let x := s.rdG a
      let y := s.rdG b
      exec (.min d a b) s = .next (s.wrG d (.ofInt 64 (min x.toInt y.toInt)) 1)
      ∧ exec (.max d a b) s = .next (s.wrG d (.ofInt 64 (max x.toInt y.toInt)) 1)
      ∧ exec (.minu d a b) s = .next (s.wrG d (.ofNat 64 (min x.toNat y.toNat)) 1)
      ∧ exec (.maxu d a b) s = .next (s.wrG d (.ofNat 64 (max x.toNat y.toNat)) 1)
      ∧ exec (.slt d a b) s = .next (s.wrG d (if x.toInt < y.toInt then 1 else 0) 1)
      ∧ exec (.sltu d a b) s = .next (s.wrG d (if x.toNat < y.toNat then 1 else 0) 1)
      ∧ exec (.seq d a b) s = .next (s.wrG d (if x = y then 1 else 0) 1)
      ∧ exec (.sne d a b) s = .next (s.wrG d (if x = y then 0 else 1) 1))

/-- Division truncates toward zero, a remainder takes the sign of its dividend, and every edge case is defined (R237). -/
def Obligations.ScalarDivisionHasEveryEdgeCase : Prop :=
  ∀ (s : State) (d a b : R5), s.cleanG [a, b] →
    let x := s.rdG a
    let y := s.rdG b
    exec (.div d a b) s = .next (s.wrG d (if y = 0 then 0xFFFFFFFFFFFFFFFF
      else if x = 0x8000000000000000 ∧ y = 0xFFFFFFFFFFFFFFFF then 0x8000000000000000
      else .ofInt 64 (x.toInt.tdiv y.toInt)) 18)
    ∧ exec (.rem d a b) s = .next (s.wrG d (if y = 0 then x
      else if x = 0x8000000000000000 ∧ y = 0xFFFFFFFFFFFFFFFF then 0
      else .ofInt 64 (x.toInt - y.toInt * x.toInt.tdiv y.toInt)) 18)
    ∧ exec (.divu d a b) s = .next (s.wrG d (if y = 0 then 0xFFFFFFFFFFFFFFFF else .ofNat 64 (x.toNat / y.toNat)) 18)
    ∧ exec (.remu d a b) s = .next (s.wrG d (if y = 0 then x else .ofNat 64 (x.toNat % y.toNat)) 18)

/-- CLZ, CTZ and POPC count, and BSET, BCLR and BTST set, clear and read one bit (R236). BEXT gathers the bits of a
that b marks, BDEP scatters the low bits of a to them; the funnel shifts take the top and the bottom half of a:b; LUT3
looks every bit up; SEL takes the guard's choice, whether or not Q is set (R238). The register-immediate operations:
the immediate is the imm10, or the 37 bits of an extension word and the imm10, sign-extended; shifts and bit indices
take it modulo 64 (R240, R20). -/
def Obligations.ScalarBitOperationsGiveTheirBits : Prop :=
  (∀ (s : State) (d a b : R5), s.cleanG [a, b] →
      let x := s.rdG a
      let k := (s.rdG b).toNat % 64
      (∃ n, exec (.clz d a) s = .next (s.wrG d (.ofNat 64 n) 1) ∧ n ≤ 64 ∧ x.toNat < 2 ^ (64 - n)
        ∧ (n < 64 → 2 ^ (63 - n) ≤ x.toNat))
      ∧ (∃ n, exec (.ctz d a) s = .next (s.wrG d (.ofNat 64 n) 1) ∧ n ≤ 64 ∧ x.toNat % 2 ^ n = 0
        ∧ (n < 64 → x.getLsbD n = true))
      ∧ exec (.popc d a) s = .next (s.wrG d (.ofNat 64 ((List.range 64).countP fun i => x.getLsbD i)) 1)
      ∧ (∃ r : Word64, exec (.bset d a b) s = .next (s.wrG d r 1)
        ∧ ∀ i, i < 64 → r.getLsbD i = (decide (i = k) || x.getLsbD i))
      ∧ (∃ r : Word64, exec (.bclr d a b) s = .next (s.wrG d r 1)
        ∧ ∀ i, i < 64 → r.getLsbD i = (decide (i ≠ k) && x.getLsbD i))
      ∧ exec (.btst d a b) s = .next (s.wrG d (if x.getLsbD k = true then 1 else 0) 1))
  ∧ (∀ (s : State) (d a b c : R5) (t : BitVec 8), s.cleanG [a, b, c] →
      let x := s.rdG a
      let y := s.rdG b
      let ones := (List.range 64).filter fun i => y.getLsbD i
      (∃ r : Word64, exec (.bext d a b) s = .next (s.wrG d r 1)
        ∧ ∀ k, k < 64 → r.getLsbD k = (match ones[k]? with | some i => x.getLsbD i | none => false))
      ∧ (∃ r : Word64, exec (.bdep d a b) s = .next (s.wrG d r 1)
        ∧ ∀ i, i < 64 → r.getLsbD i = (y.getLsbD i && x.getLsbD ((List.range i).countP fun j => y.getLsbD j)))
      ∧ exec (.fshl d a b c) s = .next (s.wrG d (((x ++ y) <<< c.toNat).extractLsb' 64 64) 1)
      ∧ exec (.fshr d a b c) s = .next (s.wrG d (((x ++ y) >>> c.toNat).extractLsb' 0 64) 1)
      ∧ (∃ r : Word64, exec (.lut3 d a b c t) s = .next (s.wrG d r 1)
        ∧ ∀ i, i < 64 → r.getLsbD i =
          t.getLsbD (4 * (x.getLsbD i).toNat + 2 * (y.getLsbD i).toNat + ((s.rdG c).getLsbD i).toNat))
      ∧ exec (.sel d a b) s = .next (s.wrG d (if s.cur.guard then x else y) 1))
  ∧ (∀ (s : State) (d a : R5) (i : BitVec 10) (e : Option (BitVec 27)), s.cleanG [a] →
      let x := s.rdG a
      let n : Int := match e with | none => i.toInt | some p => (p ++ i).toInt
      let y : Word64 := .ofInt 64 n
      let k := y.toNat % 64
      exec (.addi d a i e) s = .next (s.wrG d (.ofInt 64 (x.toInt + n)) 1)
      ∧ exec (.andi d a i e) s = .next (s.wrG d (x &&& y) 1)
      ∧ exec (.ori d a i e) s = .next (s.wrG d (x ||| y) 1)
      ∧ exec (.xori d a i e) s = .next (s.wrG d (x ^^^ y) 1)
      ∧ exec (.slli d a i e) s = .next (s.wrG d (.ofNat 64 (x.toNat * 2 ^ k)) 1)
      ∧ exec (.srli d a i e) s = .next (s.wrG d (.ofNat 64 (x.toNat / 2 ^ k)) 1)
      ∧ exec (.srai d a i e) s = .next (s.wrG d (.ofInt 64 (x.toInt / 2 ^ k)) 1)
      ∧ exec (.rori d a i e) s = .next (s.wrG d ((x >>> k) ||| (x <<< ((64 - k) % 64))) 1)
      ∧ exec (.muli d a i e) s = .next (s.wrG d (.ofInt 64 (x.toInt * n)) 3)
      ∧ exec (.slti d a i e) s = .next (s.wrG d (if x.toInt < n then 1 else 0) 1)
      ∧ exec (.sltui d a i e) s = .next (s.wrG d (if x.toNat < y.toNat then 1 else 0) 1)
      ∧ exec (.seqi d a i e) s = .next (s.wrG d (if x = y then 1 else 0) 1)
      ∧ exec (.li d i e) s = .next (s.wrG d y 1)
      ∧ exec (.bseti d a i e) s = .next (s.wrG d (x ||| .twoPow 64 k) 1)
      ∧ exec (.bclri d a i e) s = .next (s.wrG d (x &&& ~~~ BitVec.twoPow 64 k) 1)
      ∧ exec (.btsti d a i e) s = .next (s.wrG d (if x.getLsbD k = true then 1 else 0) 1)
      ∧ exec (.mini d a i e) s = .next (s.wrG d (.ofInt 64 (min x.toInt n)) 1)
      ∧ exec (.maxi d a i e) s = .next (s.wrG d (.ofInt 64 (max x.toInt n)) 1))

/-- Each scalar FP operation decodes its operands from bits [31:0], computes exactly, rounds once under its mode and
raises the flags of R139, NV of an invalid operation and DZ in its slot; the result is zero-extended and lands within
its bound (R152). FMA is invalid for 0 × ∞ whatever it adds, a quiet NaN included: the model's reading (log 41).
Rounding a number that a binary float format can hold gives its own encoding and raises no flag, whatever the mode and
the random bits (R133, R139). A scalar FP operation on finite numbers gives the exact result rounded once, with the
flags of that rounding (R139, R152): Round of a number into a binary float is what `RoundsTo` says; so are the sum,
the difference, the product, the fused sum, the quotient, the square root and the converted integer; an exact zero has
the sign of IEEE 754 (R153); FCVTI rounds to an integer by its mode and saturates it. The conversions that R141 works
out: a row's FP32 number, rounded into the row's format under its mode, is the row's result with its flags; and what
SB4 makes of a cut of 3/16. -/
def Obligations.ScalarFloatOperationsRoundOnce : Prop :=
  (∀ (s : State) (d a b : R5) (r : BitVec 2), s.cleanG [a, b] →
      let x := fp32 (s.rdG a)
      let y := fp32 (s.rdG b)
      let z := fp32 (s.rdG a >>> 32)
      exec (.fadd d a b r) s = .next (s.regF d 4 (fpRes (addNum x y (r = 3)) r))
      ∧ exec (.fsub d a b r) s = .next (s.regF d 4 (fpRes (addNum x y.neg (r = 3)) r))
      ∧ exec (.fmul d a b r) s = .next (s.regF d 4 (fpRes (mulNum x y) r))
      ∧ exec (.fma d a b r) s = .next (s.regF d 4 (fpRes (fmaNum x y z (r = 3)) r))
      ∧ exec (.fcvtf d a r) s = .next (s.regF d 4 (fpRes (.ofInt (s.rdG a).toInt, false) r))
      ∧ exec (.fsqrt d a r) s = .next (s.regF d 12 (fpRes (sqrtNum x) r))
      ∧ exec (.fdiv d a b r) s = .next (s.regF d 12 ((fpRes ((divNum x y).1, (divNum x y).2.1) r).1,
          (fpRes ((divNum x y).1, (divNum x y).2.1) r).2 ||| if (divNum x y).2.2 then flagDZ else 0))
      ∧ (∃ v f, exec (.fcvti d a r) s = .next (s.regF d 4 (v, f)) ∧ v.toNat = (Machine.round 0xC x r.toNat 0).1
        ∧ f = (Machine.round 0xC x r.toNat 0).2))
  ∧ (∀ (f bits rm rho : Nat) (x : Exact), f < 5 → bits < 2 ^ fmtWidth f → decodeFloat f bits = .fin x →
      Machine.round f (.fin x) rm rho = (bits, 0))
  ∧ ((∀ (f rm rho : Nat) (x : Exact), f < 5 → f ≠ 3 → rm < 4 → x.m ≠ 0 → x.sticky = false →
      RoundsTo f rm x.neg (fun z => z ≤ x.mag) (fun z => x.mag ≤ z) (Machine.round f (.fin x) rm rho))
    ∧ ∀ (s : State) (d a b : R5) (r : BitVec 2) (x y z : Exact), s.cleanG [a, b] →
      let X := x.rat
      let Y := y.rat
      let near (q : Rat) (v : Word64 × Flags) : Prop := q ≠ 0 → RoundsTo 0 r.toNat (decide (q < 0))
        (fun u => u ≤ if q < 0 then -q else q) (fun u => (if q < 0 then -q else q) ≤ u) (v.1.toNat, v.2)
      let zero (n : Bool) (v : Word64 × Flags) : Prop := v = (if n then 0x80000000 else 0, 0)
      let sum (m n : Bool) (q : Rat) (v : Word64 × Flags) : Prop := near q v ∧ (q = 0 → zero (if m = n then m else decide (r = 3)) v)
      let num (i : Instr) (lat : Nat) (P : Word64 × Flags → Prop) : Prop := ∃ v, exec i s = .next (s.regF d lat v) ∧ P v
      fp32 (s.rdG a) = .fin x →
      (fp32 (s.rdG b) = .fin y →
        num (.fadd d a b r) 4 (sum x.neg y.neg (X + Y))
        ∧ num (.fsub d a b r) 4 (sum x.neg (!y.neg) (X - Y))
        ∧ num (.fmul d a b r) 4 (fun v => near (X * Y) v ∧ (X * Y = 0 → zero (x.neg != y.neg) v))
        ∧ (y.m ≠ 0 → num (.fdiv d a b r) 12 (fun v => near (X / Y) v ∧ (x.m = 0 → zero (x.neg != y.neg) v)))
        ∧ (fp32 (s.rdG a >>> 32) = .fin z → num (.fma d a b r) 4 (sum (x.neg != y.neg) z.neg (X * Y + z.rat))))
      ∧ (x.m ≠ 0 → x.neg = false → num (.fsqrt d a r) 12 (fun v =>
        RoundsTo 0 r.toNat false (fun u => u * u ≤ X) (fun u => X ≤ u * u) (v.1.toNat, v.2)))
      ∧ (∃ n : Int, (r = 3 → (n : Rat) ≤ X ∧ X < n + 1) ∧ (r = 2 → X ≤ n ∧ (n : Rat) < X + 1)
        ∧ (r = 1 → (0 ≤ X → (n : Rat) ≤ X ∧ X < n + 1) ∧ (X ≤ 0 → X ≤ n ∧ (n : Rat) < X + 1))
        ∧ (r = 0 → 2 * (X - n) ≤ 1 ∧ -1 ≤ 2 * (X - n) ∧ (2 * (X - n) = 1 ∨ 2 * (X - n) = -1 → n % 2 = 0))
        ∧ exec (.fcvti d a r) s = .next (s.regF d 4 (.ofInt 64 (max (-2 ^ 63) (min (2 ^ 63 - 1) n)),
            (if n < -2 ^ 63 ∨ 2 ^ 63 - 1 < n then flagSAT else 0) ||| if (n : Rat) = X then 0 else flagNX)))
      ∧ num (.fcvtf d a r) 4 (fun v => near ((s.rdG a).toInt : Rat) v ∧ (s.rdG a = 0 → zero false v)))
  ∧ ((∀ c ∈ ([(0x3E99999A, 2, 0, 0x34CD, flagNX), (0x43960000, 3, 0, 0x79, flagNX), (0x43FA0000, 3, 0, 0x7E, flagOF ||| flagNX),
        (0x43FA0000, 4, 0, 0x60, flagNX), (0x40400000, 5, 0, 0x58, 0), (0x42C80000, 5, 0, 0x79, flagNX),
        (0x459C4000, 5, 0, 0x7F, flagOF ||| flagNX), (0x3E99999A, 6, 0, 0x05, flagNX), (0x80000000, 5, 0, 0x00, 0),
        (0x7F800000, 3, 0, 0x7F, flagNV), (0x7F800000, 6, 0, 0x20, flagNAR), (0xC0200000, 8, 0, 0xFE, flagNX),
        (0xC0200000, 8, 3, 0xFD, flagNX), (0x43964000, 8, 0, 0x7F, flagSAT ||| flagNX), (0x43960000, 8, 0, 0x7F, flagSAT),
        (0x43E80000, 3, 0, 0x7E, flagNX), (0x477FF000, 2, 0, 0x7C00, flagOF ||| flagNX)] : List (Nat × Nat × Nat × Nat × Flags)),
      ∀ rho, Machine.round c.2.1 (decodeNum 0 c.1).1 c.2.2.1 rho = c.2.2.2)
    ∧ ∀ rho, Machine.round 1 (decodeNum 0 0x3F803000).1 4 rho = (if rho % 16 < 3 then 0x3F81 else 0x3F80, flagNX))

/-- FMIN, FMAX and the comparisons (R152, R153): the lesser or the greater with −0 < +0, the other operand when one is
a NaN, 0x7FC00000 when both are; FCMPEQ, FCMPLT and FCMPLE give 0 for a NaN, with NV for a signalling one or, in the
last two, any. The special cases of R153: a NaN operand gives 0x7FC00000, with NV when it is signalling; ∞ − ∞, 0 × ∞,
∞ / ∞, 0 / 0 and the square root of a negative number are 0x7FC00000 with NV; any other operation with an infinity is
exact; a finite nonzero number divided by ±0 is ±∞ with DZ; the square root of ±0 is itself; a NaN converts to 0 with
NV and ±∞ to the end of the range with SAT. -/
def Obligations.ScalarFloatComparisonsAndSpecialCases : Prop :=
  (∀ (s : State) (d a b : R5), s.cleanG [a, b] →
      let x := fp32 (s.rdG a)
      let y := fp32 (s.rdG b)
      let nv : Flags := if x.isSnan = true ∨ y.isSnan = true then flagNV else 0
      let low (w : Word64) : Word64 := .ofNat 64 (w.toNat % 2 ^ 32)
      (x.isNan = true → y.isNan = true →
        exec (.fmin d a b) s = .next (s.regF d 4 (0x7FC00000, nv)) ∧ exec (.fmax d a b) s = .next (s.regF d 4 (0x7FC00000, nv)))
      ∧ (x.isNan = true → y.isNan = false → exec (.fmin d a b) s = .next (s.regF d 4 (low (s.rdG b), nv))
        ∧ exec (.fmax d a b) s = .next (s.regF d 4 (low (s.rdG b), nv)))
      ∧ (x.isNan = false → y.isNan = true → exec (.fmin d a b) s = .next (s.regF d 4 (low (s.rdG a), nv))
        ∧ exec (.fmax d a b) s = .next (s.regF d 4 (low (s.rdG a), nv)))
      ∧ (x.isNan = false → y.isNan = false →
        (cmpNum x y < 0 ∨ cmpNum x y = 0 ∧ (x.sign = true ∨ y.sign = false) →
          exec (.fmin d a b) s = .next (s.regF d 4 (low (s.rdG a), 0)) ∧ exec (.fmax d a b) s = .next (s.regF d 4
            (low (if cmpNum x y = 0 ∧ x.sign = y.sign then s.rdG a else s.rdG b), 0)))
        ∧ (0 < cmpNum x y ∨ cmpNum x y = 0 ∧ x.sign = false ∧ y.sign = true →
          exec (.fmin d a b) s = .next (s.regF d 4 (low (s.rdG b), 0)) ∧ exec (.fmax d a b) s = .next (s.regF d 4 (low (s.rdG a), 0))))
      ∧ (∀ p q : Exact, x = .fin p → y = .fin q → (cmpNum x y < 0 ↔ p.rat < q.rat) ∧ (cmpNum x y = 0 ↔ p.rat = q.rat))
      ∧ (∀ p : Exact, x = .fin p → ∀ n, (y = .inf n → cmpNum x y = if n then 1 else -1) ∧ (y = .inf n → cmpNum y x = if n then -1 else 1))
      ∧ (x.isNan = false → y.isNan = false →
        exec (.fcmpeq d a b) s = .next (s.regF d 4 (if cmpNum x y = 0 then 1 else 0, 0))
        ∧ exec (.fcmplt d a b) s = .next (s.regF d 4 (if cmpNum x y < 0 then 1 else 0, 0))
        ∧ exec (.fcmple d a b) s = .next (s.regF d 4 (if cmpNum x y ≤ 0 then 1 else 0, 0)))
      ∧ (x.isNan = true ∨ y.isNan = true →
        exec (.fcmpeq d a b) s = .next (s.regF d 4 (0, nv))
        ∧ exec (.fcmplt d a b) s = .next (s.regF d 4 (0, flagNV))
        ∧ exec (.fcmple d a b) s = .next (s.regF d 4 (0, flagNV))))
  ∧ (∀ (s : State) (d a b : R5) (r : BitVec 2) (p q : Exact) (m n : Bool), s.cleanG [a, b] →
      let x := fp32 (s.rdG a)
      let y := fp32 (s.rdG b)
      let sg (k : Bool) (w : Word64) : Word64 := if k then w + 0x80000000 else w
      let inf (k : Bool) : Word64 := sg k 0x7F800000
      let nan : Word64 := 0x7FC00000
      let gives (i : Instr) (lat : Nat) (v : Word64) (f : Flags) : Prop := exec i s = .next (s.regF d lat (v, f))
      (x.isNan = true ∨ y.isNan = true → ∀ i ∈ [(Instr.fadd d a b r, 4), (.fsub d a b r, 4), (.fmul d a b r, 4), (.fdiv d a b r, 12)],
        gives i.1 i.2 nan (if x.isSnan = true ∨ y.isSnan = true then flagNV else 0))
      ∧ (x.isNan = true → gives (.fsqrt d a r) 12 nan (if x.isSnan = true then flagNV else 0) ∧ gives (.fcvti d a r) 4 0 flagNV)
      ∧ (x = .inf m → y = .inf n →
        (m = n → gives (.fadd d a b r) 4 (inf m) 0 ∧ gives (.fsub d a b r) 4 nan flagNV)
        ∧ (m ≠ n → gives (.fadd d a b r) 4 nan flagNV ∧ gives (.fsub d a b r) 4 (inf m) 0)
        ∧ gives (.fmul d a b r) 4 (inf (m != n)) 0 ∧ gives (.fdiv d a b r) 12 nan flagNV)
      ∧ (x = .inf m → y = .fin q → gives (.fadd d a b r) 4 (inf m) 0 ∧ gives (.fsub d a b r) 4 (inf m) 0
        ∧ gives (.fdiv d a b r) 12 (inf (m != q.neg)) 0
        ∧ (if q.m = 0 then gives (.fmul d a b r) 4 nan flagNV else gives (.fmul d a b r) 4 (inf (m != q.neg)) 0))
      ∧ (x = .fin p → y = .inf n → gives (.fadd d a b r) 4 (inf n) 0 ∧ gives (.fsub d a b r) 4 (inf (!n)) 0
        ∧ gives (.fdiv d a b r) 12 (sg (p.neg != n) 0) 0
        ∧ (if p.m = 0 then gives (.fmul d a b r) 4 nan flagNV else gives (.fmul d a b r) 4 (inf (p.neg != n)) 0))
      ∧ (x = .fin p → y = .fin q → q.m = 0 →
        if p.m = 0 then gives (.fdiv d a b r) 12 nan flagNV else gives (.fdiv d a b r) 12 (inf (p.neg != q.neg)) flagDZ)
      ∧ (x = .fin p → p.m = 0 → gives (.fsqrt d a r) 12 (sg p.neg 0) 0)
      ∧ (x = .fin p → p.m ≠ 0 → p.neg = true → gives (.fsqrt d a r) 12 nan flagNV)
      ∧ (x = .inf m → gives (.fsqrt d a r) 12 (if m then nan else inf false) (if m then flagNV else 0)
        ∧ gives (.fcvti d a r) 4 (if m then 0x8000000000000000 else 0x7FFFFFFFFFFFFFFF) flagSAT))

/-- What the scalar instructions leave alone: an instruction of classes 0 to 2 that runs puts results for its
destination register and its slot's flags in flight, and changes nothing else of the device: no other register, no
special register, no accumulator, no byte of memory (R154's counterpart for scalars, R31). A poisoned general register
that a scalar instruction reads raises UCE at its bundle, a memory fault, whichever instruction of classes 0 to 2 it
is: the bundle does not complete (14 R285). That SEL consumes both operands, poison of the one not chosen included, is
the model's reading (log 57, DEDUCED). -/
def Obligations.ScalarInstructionsWriteOnlyTheirDestination : Prop :=
  (∀ (s t : State) (i : Instr) (oc fn low : Nat) (x : Option (BitVec 27)), i.parts = some (oc, fn, low, x) → oc < 3 →
      exec i s = .next t → t.cur.fin = .ok → OnlyResults s t (writesG (.ofNat 5 (rD low))) ∧ t.cur = s.cur)
  ∧ (∀ (s : State) (i : Instr) (oc fn low : Nat) (x : Option (BitVec 27)) (k : Nat), i.parts = some (oc, fn, low, x) → oc < 3 →
      k ∈ gSources s.cur.row oc fn low → s.poisG (.ofNat 5 k) = true →
      ∃ t r, exec i s = .next t ∧ t.cur.fin = .trap r false ∧ r.cause = .uce ∧ r.fpc = s.cur.x)

/-! ### Control transfer, loop levels, iterators (12 R241-R257) -/

/-- BR, JAL and JALR transfer to their target, a multiple of 4, after the bundle; the links hold the address of the
bundle that follows (R241-R244). A target that is not a multiple of 4 raises ALIGN, a precise trap at the branching
bundle (R242). -/
def Obligations.BranchesTransferAndLink : Prop :=
  (∀ (s : State) (d a : R5) (o : BitVec 20) (p : BitVec 15) (i : BitVec 10), s.cleanG [a] →
      let link : Word64 := s.cur.x + .ofNat 64 (4 * s.cur.len)
      ((s.cur.x + o.signExtend 64 * 4).toNat % 4 = 0 →
        exec (.br o) s = .next (s.setCtl (.taken (s.cur.x + o.signExtend 64 * 4))))
      ∧ ((s.cur.x + p.signExtend 64 * 4).toNat % 4 = 0 →
        exec (.jal d p) s = .next ((s.wrG d link 1).setCtl (.taken (s.cur.x + p.signExtend 64 * 4))))
      ∧ ((s.rdG a + i.signExtend 64 * 4).toNat % 4 = 0 →
        exec (.jalr d a i) s = .next ((s.wrG d link 1).setCtl (.taken (s.rdG a + i.signExtend 64 * 4)))))
  ∧ (∀ (s : State) (d a : R5) (i : BitVec 10), s.cleanG [a] → (s.rdG a + i.signExtend 64 * 4).toNat % 4 ≠ 0 →
      ∃ t r, exec (.jalr d a i) s = .next t ∧ t.cur.fin = .trap r false ∧ r.cause = .align ∧ r.fpc = s.cur.x
        ∧ r.fslot = .ofNat 4 s.cur.slot)

/-- The address after a bundle (R241): a taken transfer wins and leaves the levels alone; a body skipped goes behind
it; where no active level ends at the bundle the next one follows in memory. End processing (R248): the innermost
active level that ends at the bundle goes on to its next iteration, or, at its last, becomes inactive and the next
level that ends there is asked. LBRK (R250): an active level and every level that it encloses become inactive and end
processing runs at its END, wherever in the body the LBRK stands: the bundle that follows is the one that end
processing gives, or, where no remaining level goes on, the one behind END (R248), which the header walk of the
level's activation found (R246, log 75). An inactive level changes nothing. Its bundle closed, the shift stands there. -/
def Obligations.TheNextBundleIsDecidedInOrder : Prop :=
  (∀ (ls : Vector Level 6) (x a : Addr) (len : Nat),
      State.nextBundle ls (.taken a) x len = (ls, a, true)
      ∧ State.nextBundle ls (.skipBody a) x len = (ls, a, true)
      ∧ ((∀ m ∈ ls.toList, m.act = true → m.stop ≠ x) →
          State.nextBundle ls .fall x len = (ls, x + .ofNat 64 (4 * len), false)))
  ∧ (∀ (ls : Vector Level 6) (x : Addr) (len : Nat) (k : Fin 6), ls[k].act = true → ls[k].stop = x →
      (∀ j : Fin 6, j ≠ k → ls[j].act = true → ls[j].stop = x → ls[j].ord.toNat < ls[k].ord.toNat) →
      ((ls[k].idx + 1).toNat < ls[k].trip.toNat → State.nextBundle ls .fall x len =
        (ls.set k { ls[k] with idx := ls[k].idx + 1 }, ls[k].start, true))
      ∧ (ls[k].trip.toNat ≤ (ls[k].idx + 1).toNat → State.nextBundle ls .fall x len =
        State.nextBundle (ls.set k { ls[k] with idx := ls[k].idx + 1, act := false, ord := 0 }) .fall x len))
  ∧ (let left (ls : Vector Level 6) (k : Fin 6) : Vector Level 6 :=
      ls.map fun m => if m.act = true ∧ ls[k].ord.toNat ≤ m.ord.toNat then { m with act := false, ord := 0 } else m
    (∀ (s : State) (l : BitVec 3), (s.level l.toNat).act = true → exec (.lbrk l) s =
        .next (s.setCtl (.lbrk l (s.level l.toNat).behind)))
    ∧ (∀ (s : State) (l : BitVec 3), (s.level l.toNat).act = false → exec (.lbrk l) s = .next s)
    ∧ (∀ (ls : Vector Level 6) (l : BitVec 3) (k : Fin 6) (x : Addr) (len n : Nat), l.toNat = k.val →
        ls[k].behind = ls[k].stop + .ofNat 64 (4 * n) → State.nextBundle ls (.lbrk l ls[k].behind) x len =
          ((State.nextBundle (left ls k) .fall ls[k].stop n).1, (State.nextBundle (left ls k) .fall ls[k].stop n).2.1, true))
    ∧ (∀ (s : State) (ls : Vector Level 6) (start stop behind : Addr) (i n : Nat),
        s.bodyWalk ls start start i (n + 1) = .ok (stop, behind) →
        ∃ len, s.headerLen ls stop (i + n) = .ok len ∧ behind = stop + .ofNat 64 (4 * len))
    ∧ ∀ (s : State) (l : BitVec 3) (k : Fin 6) (n : Nat), l.toNat = k.val → s.me.arch.l[k].act = true →
        s.me.arch.l[k].behind = s.me.arch.l[k].stop + .ofNat 64 (4 * n) → s.cur.after = .nothing → ∃ t,
        exec (.lbrk l) s = .next t
        ∧ t.closeBundle.me.pc = (State.nextBundle (left s.me.arch.l k) .fall s.me.arch.l[k].stop n).2.1
        ∧ t.closeBundle.me.arch.l = (State.nextBundle (left s.me.arch.l k) .fall s.me.arch.l[k].stop n).1
        ∧ t.closeBundle.me.k.port = s.portableAt s.cur.shift t.closeBundle.me.pc)

/-- LOOP, LOOPI and LOOPR (R246, R247) activate their level: with the trip count of a register (at most 2^32 − 1), of
the word, or of two row pointers in the scratchpad, indexed by the innermost level's iteration. A trip count of 0
activates nothing and skips the body; otherwise the level starts at iteration 0, innermost. A level that was active is
set aside first with every level that it encloses. Iterators (R254-R257): ITSET.base sets BASE and clears the rest,
ITSET.str sets one stride, ITREV flips directions, and ITGET reads BASE plus the sum over the levels of stride times
position, plus its immediate. LCNT reads the trip count and the iteration of a level, 0 for an inactive one (R251). -/
def Obligations.LoopsActivateTheirLevel : Prop :=
  (∀ (s : State) (i : Instr) (n : BitVec 6) (l : BitVec 3) (a : R5) (c : BitVec 10) (v : BitVec 1) (trip off : BitVec 32)
      (e behind : Addr) (K : Vector Level 6),
      let g := s.rdG a
      let j : Nat := match State.innermost s.me.arch.l with
        | none => 0
        | some k => if v = 1 then (s.level k).trip.toNat - 1 - (s.level k).idx.toNat else (s.level k).idx.toNat
      let p := (g.toNat + 4 * j) % 2 ^ 24
      let q := (p + 4) % 2 ^ 24
      let word (o : Nat) : BitVec 32 := s.byteS s.myGal (o + 3) ++ s.byteS s.myGal (o + 2) ++ s.byteS s.myGal (o + 1) ++ s.byteS s.myGal o
      (i = .loop n l a ∧ s.cleanG [a] ∧ trip = .ofNat 32 (min g.toNat (2 ^ 32 - 1)) ∧ off = 0
        ∨ i = .loopi n l c ∧ trip = c.setWidth 32 ∧ off = 0
        ∨ i = .loopr n l a v ∧ s.cleanG [a] ∧ g.toNat % 4 = 0 ∧ s.lsIdle
          ∧ (∀ b, b < 4 → s.violation s.cur.shift (p + b) = none ∧ s.violation s.cur.shift (q + b) = none)
          ∧ (∀ b, b < 4 → spKey s.myGal (p + b) ∉ s.poisonS ∧ spKey s.myGal (q + b) ∉ s.poisonS)
          ∧ trip = (if word p ≤ word q then word q - word p else 0) ∧ off = word p) →
      l.toNat < 6 → K = (if (s.level l.toNat).act then State.dropLevel s.me.arch.l l.toNat else s.me.arch.l) →
      s.bodyWalk K s.seqAddr s.seqAddr 0 (n.toNat + 1) = .ok (e, behind) →
      (∀ m ∈ K.toList, m.act = true → m.start.toNat ≤ s.cur.x.toNat → s.cur.x.toNat ≤ m.stop.toNat → e.toNat ≤ m.stop.toNat) →
      (trip = 0 → exec i s = .next ((s.modArch fun r => { r with l := K }).setCtl (.skipBody behind)))
      ∧ (trip ≠ 0 → ∃ t o, exec i s = .next t ∧ t.cur = s.cur
          ∧ t.me.arch.l = K.setIfInBounds l.toNat ⟨s.cur.x + .ofNat 64 (4 * s.cur.len), e, trip, 0, off, true, o, behind⟩
          ∧ ((∀ m ∈ K.toList, m.act = false) → o = 0)
          ∧ (∀ k, State.innermost K = some k → o = (K[k]?.getD .zero).ord + 1)))
  ∧ (∀ (s : State) (d a : R5) (i : BitVec 4) (l : BitVec 3) (m : BitVec 6) (c : BitVec 10), s.cleanG [a] →
      let it := s.iter i
      let pos (k : Nat) : Nat := if (s.level k).act then (s.level k).off.toNat
        + (if it.dir.getLsbD k then (s.level k).trip.toNat - 1 - (s.level k).idx.toNat else (s.level k).idx.toNat) else 0
      let addr : Int := it.base.toNat + ((List.range 6).map fun k => (it.stride[k]?.getD 0).toInt * (pos k : Int)).sum
      exec (.itsetBase i a) s = .next (s.setIter i ⟨s.rdG a, Vector.replicate 6 0, 0⟩)
      ∧ exec (.itsetStr i a l) s = .next (s.setIter i { it with stride := it.stride.setIfInBounds l.toNat (s.rdG a) })
      ∧ exec (.itrev i m) s = .next (s.setIter i { it with dir := it.dir ^^^ m })
      ∧ exec (.itget d i c) s = .next (s.wrG d (.ofInt 64 (addr + c.toInt)) 1)
      ∧ exec (.lcnt d l) s = .next (s.wrG d (if (s.level l.toNat).act
          then .ofNat 64 ((s.level l.toNat).trip.toNat * 2 ^ 32 + (s.level l.toNat).idx.toNat) else 0) 1))

/-- What class 3 leaves alone: an instruction of it that runs changes no byte of memory, no other shift, and of its
own shift only results in flight to its link or destination, the loop levels, the loop buffer, the iterators, and, in
a LOOPR whose pointers violate the window, the violation record (R242-R257, 05 R99). -/
def Obligations.ControlInstructionsWriteOnlyLevelsAndIterators : Prop :=
  ∀ (s t : State) (i : Instr) (fn low : Nat) (x : Option (BitVec 27)), i.parts = some (3, fn, low, x) →
    (fn ≠ 5 ∨ s.lsIdle) → exec i s = .next t → t.cur.fin = .ok →
    t = { s with shifts := t.shifts, cur := t.cur } ∧ t.cur = { s.cur with ctl := t.cur.ctl } ∧ SameOthers s t ∧ SameBytes s t
    ∧ (∃ r : List Landing, (∀ e ∈ r, writesG (.ofNat 5 (rD low)) e.what)
      ∧ t.me = { s.me with
          inflight := s.me.inflight ++ r
          loopBuf := t.me.loopBuf
          arch := { s.me.arch with l := t.me.arch.l, it := t.me.arch.it }
          k := { s.me.k with spfault := t.me.k.spfault, spfirst := t.me.k.spfirst } })

/-! ### Loads, stores, atomics (03 R59, 05 R104, 11 R220-R224, R234) -/

/-- A global load or store with an aligned address joins the load-store queue of its shift with the address (G[A] +
imm) mod 2^64, its width, and the data or the destination (R59, R220). An atomic with an aligned address joins the
load-store queue with its operands; one with release ordering does so behind the phase boundary that its bundle has
taken (R234). What an operation that only joins the load-store queue leaves alone: everything but that queue, every
byte of memory included (R220). A misaligned load or store raises ALIGN, a precise trap of its slot (R59). The result
of an atomic by its operation (R234): the new value of n bytes from the old one, the operand and, for ACAS, the value
to store; none for an ACAS that fails. ATOMIC (R220, R234): one read-modify-write of n bytes of M. The old value
arrives zero-extended in the destination; exactly the n bytes change, to the new value, or none where ACAS fails; the
shift's own gate is not read. A release takes one commit of its shift's gate a step before it, until the gate is
empty. An ACAS under `.facq` that a later entry has gone ahead of, as its success alone allows (R227), does not fail:
while it would, it waits (the model's reading, log 79). -/
def Obligations.LoadsStoresAndAtomicsJoinTheQueue : Prop :=
  (∀ (s : State) (d a : R5) (i : BitVec 10) (x : Option (BitVec 27)), s.cleanG [a, d] →
      let p : Addr := .ofInt 64 ((s.rdG a).toNat + match x with | none => i.toInt | some e => (e ++ i).toInt)
      let v := s.rdG d
      exec (.ldb d a i x) s = .next (s.pushLsq (.load d p 1 false))
      ∧ exec (.ldbx d a i x) s = .next (s.pushLsq (.load d p 1 true))
      ∧ exec (.stb d a i x) s = .next (s.pushLsq (.store p 1 v))
      ∧ (p.toNat % 2 = 0 → exec (.ldh d a i x) s = .next (s.pushLsq (.load d p 2 false))
        ∧ exec (.ldhx d a i x) s = .next (s.pushLsq (.load d p 2 true))
        ∧ exec (.sth d a i x) s = .next (s.pushLsq (.store p 2 v)))
      ∧ (p.toNat % 4 = 0 → exec (.ldw d a i x) s = .next (s.pushLsq (.load d p 4 false))
        ∧ exec (.ldwx d a i x) s = .next (s.pushLsq (.load d p 4 true))
        ∧ exec (.stw d a i x) s = .next (s.pushLsq (.store p 4 v)))
      ∧ (p.toNat % 8 = 0 → exec (.ldd d a i x) s = .next (s.pushLsq (.load d p 8 false))
        ∧ exec (.std d a i x) s = .next (s.pushLsq (.store p 8 v))))
  ∧ (∀ (s : State) (d a b : R5) (o f : BitVec 2) (w : BitVec 1), s.cleanG [a, b, d] →
      (s.rdG a).toNat % (if w = 1 then 4 else 8) = 0 → (o.toNat < 2 ∨ s.cur.bdone = true) →
      let op (k : AOp) (q : Bool) : LsqOp := .atomic k d (s.rdG a) (if w = 1 then 4 else 8) (s.rdG b) (s.rdG d) o q
      exec (.aadd d a b o w) s = .next (s.pushLsq (op .add false))
      ∧ exec (.amin d a b o w) s = .next (s.pushLsq (op .min false))
      ∧ exec (.aminu d a b o w) s = .next (s.pushLsq (op .minu false))
      ∧ exec (.amax d a b o w) s = .next (s.pushLsq (op .max false))
      ∧ exec (.amaxu d a b o w) s = .next (s.pushLsq (op .maxu false))
      ∧ exec (.aand d a b o w) s = .next (s.pushLsq (op .and false))
      ∧ exec (.aor d a b o w) s = .next (s.pushLsq (op .or false))
      ∧ exec (.axor d a b o w) s = .next (s.pushLsq (op .xor false))
      ∧ exec (.aswp d a b o w) s = .next (s.pushLsq (op .swp false))
      ∧ exec (.acas d a b o f w) s = .next (s.pushLsq (op .cas (f = 1))))
  ∧ (∀ (s : State) (op : LsqOp),
      s.pushLsq op = { s with shifts := (s.pushLsq op).shifts } ∧ SameOthers s (s.pushLsq op) ∧ SameBytes s (s.pushLsq op)
      ∧ (s.pushLsq op).me = { s.me with lsq := s.me.lsq ++ [⟨op, s.cur.x, s.cur.bundle⟩] })
  ∧ (∀ (s : State) (d a : R5) (i : BitVec 10) (x : Option (BitVec 27)), s.cleanG [a, d] →
      (∀ n, (n = 2 ∨ n = 4 ∨ n = 8) → (s.effAddr a i x).toNat % n ≠ 0 →
        ∀ j, (n = 2 ∧ j ∈ [Instr.ldh d a i x, .ldhx d a i x, .sth d a i x]
            ∨ n = 4 ∧ j ∈ [Instr.ldw d a i x, .ldwx d a i x, .stw d a i x]
            ∨ n = 8 ∧ j ∈ [Instr.ldd d a i x, .std d a i x, .sld d a i x, .sst d a i x]) →
          ∃ t r, exec j s = .next t ∧ t.cur.fin = .trap r false ∧ r.cause = .align ∧ r.fpc = s.cur.x
            ∧ r.fslot = .ofNat 4 s.cur.slot))
  ∧ (∀ (n old b new : Nat), (n = 4 ∨ n = 8) → old < 256 ^ n → b < 256 ^ n → new < 256 ^ n →
      let sg (v : Nat) : Int := if v < 256 ^ n / 2 then v else v - 256 ^ n
      State.atomicNew .add n old b new = some ((old + b) % 256 ^ n)
      ∧ (∃ m, State.atomicNew .min n old b new = some m ∧ sg m = min (sg old) (sg b) ∧ (m = old ∨ m = b))
      ∧ (∃ m, State.atomicNew .max n old b new = some m ∧ sg m = max (sg old) (sg b) ∧ (m = old ∨ m = b))
      ∧ State.atomicNew .minu n old b new = some (min old b) ∧ State.atomicNew .maxu n old b new = some (max old b)
      ∧ State.atomicNew .and n old b new = some (old &&& b) ∧ State.atomicNew .or n old b new = some (old ||| b)
      ∧ State.atomicNew .xor n old b new = some (old ^^^ b) ∧ State.atomicNew .swp n old b new = some b
      ∧ State.atomicNew .cas n old b new = if old = b then some new else none)
  ∧ (∀ (s : State) (n len key : Nat) (chip : Option Nat) (op : AOp) (d : R5) (a x : Addr) (bb nw : Word64) (ord : BitVec 2)
      (q : Bool) (b : Nat) (rest : List LsqEntry) (i : Instr),
      (i = .atomic ∧ s.arg = .unit n ∨ i = .perform ∧ s.arg = .queue n .lsq) → s.memOk →
      (s.sh n).lsq = ⟨.atomic op d a len bb nw ord q, x, b⟩ :: rest → (s.sh n).memTrap = none → (s.sh n).fences = [] →
      (len = 4 ∨ len = 8) → s.assayPair n = none → s.flat n a .readWrite = .m chip key →
      s.deadChip chip = false → anyPois s.poisonM key len = false →
      let waits : Prop := op = .cas ∧ b ∈ (s.sh n).acasGo ∧ memRead s.mem key len ≠ bb.toNat % 256 ^ len
      (waits → exec i s = .next s)
      ∧ (¬ waits → 2 ≤ ord.toNat → (s.sh n).gate ≠ [] → exec i s = .next (s.commitOne n))
      ∧ (¬ waits → (ord.toNat < 2 ∨ (s.sh n).gate = []) →
        ∃ t, exec i s = .next t ∧ (t.sh n).lsq = rest ∧ (t.sh n).gate = (s.sh n).gate
        ∧ (d ≠ 0 → (t.sh n).arch.g[d.toNat] = .ofNat 64 (memRead s.mem key len))
        ∧ (∀ r : R5, r ≠ d → (t.sh n).arch.g[r.toNat] = (s.sh n).arch.g[r.toNat])
        ∧ memRead t.mem key len = (State.atomicNew op len (memRead s.mem key len) (bb.toNat % 256 ^ len) (nw.toNat % 256 ^ len)).getD
            (memRead s.mem key len)
        ∧ (∀ k, k < key ∨ key + len ≤ k → t.byteM k = s.byteM k) ∧ (∀ g k, t.byteS g k = s.byteS g k)
        ∧ ∀ m, m ≠ n → t.sh m = s.sh m))

/-- SLD reads the eight bytes at (G[A] + imm) mod 2^24 of its gallery's scratchpad, SST writes them: with no
violation, and nothing queued before them, exactly those eight bytes change, their poison is cleared, and nothing else
does (R104). That an earlier entry of the load-store queue is performed first is the model's reading (log 14). -/
def Obligations.ScratchpadWordsLoadAndStore : Prop :=
  ∀ (s : State) (d a : R5) (i : BitVec 10) (x : Option (BitVec 27)) (p : Nat), s.memOk → s.cleanG [a, d] → s.lsIdle →
    p = (s.effAddr a i x).toNat % 2 ^ 24 → p % 8 = 0 → (∀ k, k < 8 → s.violation s.cur.shift (p + k) = none) →
    (∃ v : Word64, ∃ q : Bool, exec (.sld d a i x) s = .next (s.wrGp d v q 6)
      ∧ (∀ k, k < 8 → v.extractLsb' (8 * k) 8 = s.byteS s.myGal (p + k))
      ∧ (q = true ↔ ∃ k, k < 8 ∧ spKey s.myGal (p + k) ∈ s.poisonS))
    ∧ ∃ t, exec (.sst d a i x) s = .next t
      ∧ (∀ k, k < 8 → t.byteS s.myGal (p + k) = (s.rdG d).extractLsb' (8 * k) 8)
      ∧ (∀ g k, g ≠ s.myGal ∨ k < p ∨ p + 8 ≤ k → t.byteS g k = s.byteS g k)
      ∧ (∀ k, k ∈ t.poisonS ↔ k ∈ s.poisonS ∧ (k < spKey s.myGal p ∨ spKey s.myGal p + 8 ≤ k))
      ∧ t = { s with gals := t.gals, poisonS := t.poisonS }
      ∧ ∀ g, t.gal g = { s.gal g with sp := (t.gal g).sp }

/-- LOAD (R220, R59): the head of the load-store queue reads its n bytes, each from the youngest gated store of its
shift that covers it or from M, and the extended value arrives in its destination, with its poison; memory stands.
What one byte of a load is: the byte of the youngest gated store that covers it, else the byte of M (R59, R220). GATE
(R220, R223): a performed global store is translated and enters the gate of its shift; no byte of memory changes until
a boundary commits it. A 257th store raises GATEOVF, a memory fault. COMMIT (R220, R224): the oldest gated store is
written to M in one step: its bytes hold the data, and every other byte of memory stands. A failed one writes nothing
and is counted. -/
def Obligations.LoadsReadTheGateThenMemory : Prop :=
  (∀ (s : State) (n len key : Nat) (chip : Option Nat) (d : R5) (a x : Addr) (b : Nat) (sx : Bool) (rest : List LsqEntry) (i : Instr),
      (i = .load ∧ s.arg = .unit n ∨ i = .perform ∧ s.arg = .queue n .lsq) →
      (s.sh n).lsq = ⟨.load d a len sx, x, b⟩ :: rest → (s.sh n).memTrap = none → (s.sh n).fences = [] →
      (len = 1 ∨ len = 2 ∨ len = 4 ∨ len = 8) → s.flat n a .read = .m chip key → s.deadChip chip = false →
      ∃ t v, exec i s = .next t ∧ v = (s.loadBytes n key len).1
        ∧ (d ≠ 0 → (t.sh n).arch.g[d.toNat] = (if sx then .ofInt 64 (signedOf (8 * len) v) else .ofNat 64 v)
          ∧ (t.sh n).arch.gpois.getLsbD d.toNat = (s.loadBytes n key len).2)
        ∧ (∀ r : R5, r ≠ d → (t.sh n).arch.g[r.toNat] = (s.sh n).arch.g[r.toNat])
        ∧ (t.sh n).lsq = rest ∧ (t.sh n).gate = (s.sh n).gate ∧ (t.sh n).pc = (s.sh n).pc ∧ (t.sh n).k = (s.sh n).k
        ∧ (∀ m, m ≠ n → t.sh m = s.sh m) ∧ SameBytes s t)
  ∧ (∀ (s : State) (n key : Nat),
      ((∀ e ∈ (s.sh n).gate, ∀ f c k len d z b, e = .store f c k len d z b → key < k ∨ k + len ≤ key) →
        s.loadByte n key = ((s.byteM key).toNat, decide (key ∈ s.poisonM)))
      ∧ ∀ old young f c k len d z b, (s.sh n).gate = old ++ .store f c k len d z b :: young → k ≤ key → key < k + len →
        (∀ e ∈ young, ∀ f c k len d z b, e = .store f c k len d z b → key < k ∨ k + len ≤ key) →
        s.loadByte n key = (d.toNat / 256 ^ (key - k) % 256, false))
  ∧ (∀ (s : State) (n len key : Nat) (chip : Option Nat) (a x : Addr) (b : Nat) (data : Word64) (rest : List LsqEntry) (i : Instr),
      (i = .gate ∧ s.arg = .unit n ∨ i = .perform ∧ s.arg = .queue n .lsq) →
      (s.sh n).lsq = ⟨.store a len data, x, b⟩ :: rest → (s.sh n).memTrap = none → (s.sh n).fences = [] →
      s.flat n a .write = .m chip key →
      ∃ t, exec i s = .next t ∧ SameBytes s t ∧ (∀ m, m ≠ n → t.sh m = s.sh m) ∧ (t.sh n).arch = (s.sh n).arch
        ∧ (t.sh n).lsq = rest
        ∧ (State.gateStores (s.sh n).gate < 256 → (t.sh n).memTrap = none
          ∧ (t.sh n).gate = (s.sh n).gate ++ [.store a chip key len data (s.deadChip chip) b])
        ∧ (256 ≤ State.gateStores (s.sh n).gate → (t.sh n).gate = (s.sh n).gate
          ∧ ∃ r, (t.sh n).memTrap = some r ∧ r.cause = .gateovf ∧ r.fpc = x))
  ∧ (∀ (s : State) (n len key : Nat) (chip : Option Nat) (f : Addr) (b : Nat) (data : Word64) (z : Bool) (rest : List GateEntry),
      s.memOk → (s.sh n).gate = .store f chip key len data z b :: rest →
      ((s.commitOne n).sh n).gate = rest
      ∧ ((s.commitOne n).sh n).arch = (s.sh n).arch
      ∧ (∀ g k, (s.commitOne n).byteS g k = s.byteS g k)
      ∧ (z = false → (∀ k, k < len → (s.commitOne n).byteM (key + k) = .ofNat 8 (data.toNat / 256 ^ k))
        ∧ (∀ k, k < key ∨ key + len ≤ k → (s.commitOne n).byteM k = s.byteM k))
      ∧ (z = true → (∀ k, (s.commitOne n).byteM k = s.byteM k)
        ∧ ((s.commitOne n).sh n).status.nfail = min 255 ((s.sh n).status.nfail + 1)
        ∧ ((s.commitOne n).sh n).status.link = true))

/-! ### Address translation (03 R50-R64) -/

/-- Address translation (03 R51-R58). A flat address names a chip; window 0 is the shift's own scratchpad, which no
code fetch and no other gallery's address reaches; a byte window leads through its tensor's entry, and an element of
an ordinary tensor through the tile table: bounds, entry, permission and frame are checked in this order. Where no
tensor is named a fault has TID 0, and TRANS comes before PERM (log 78). Translation through a claim list (03
R60-R64): the sequence, the code fetch and the coordinates are checked; a head that streams sees its sinks and its
window at the ring's positions and nothing else; where an extent covers the position the element lies in its frame,
counted by the extent's stride; where none does a read finds it absent and a write faults. What the model takes for a
malformed entry is log 76, for tables beyond the HBM or poisoned log 77, before SETCHIP log 19, that a byte window
over an unsuited entry raises TRANS (WIN) before NOTID and the extent check is log 65 (DEDUCED), and which other chips
the domain holds is open (log 28). -/
def Obligations.AddressesTranslate : Prop :=
  ((∀ (s : State) (n : Nat) (a : Addr) (acc : Acc),
      let chip := (a.extractLsb' 50 14).toNat
      let w := (a.extractLsb' 46 4).toNat
      let off := (a.extractLsb' 0 46).toNat
      let own := chip = 0x3FFF ∨ s.bar.chipSet = true ∧ s.bar.chipNo.toNat = chip
      let k := (s.sh n).k
      let b := k.bwin[w]?.getD 0
      let tid := (b.extractLsb' 0 20).toNat
      (chip ≠ 0x3FFF → homeInDomain (s.homeOf chip) = false → s.flat n a acc = .bad .trans 5 0)
      ∧ (own → w = 0 → (2 ^ 30 ≤ off → s.flat n a acc = .bad .trans 4 0)
        ∧ (off < 2 ^ 30 → acc = .code ∨ off / 2 ^ 24 ≠ s.compGal n → s.flat n a acc = .bad .perm 0 0)
        ∧ (off / 2 ^ 24 = s.compGal n → off < 2 ^ 30 → acc ≠ .code → s.flat n a acc = .sp (off % 2 ^ 24)))
      ∧ (¬ own → homeInDomain (some chip) = true → w = 0 → off < 2 ^ 30 → s.flat n a acc = .bad .perm 0 0)
      ∧ (own → w ≠ 0 → (b.getLsbD 20 = false → s.flat n a acc = .bad .trans 4 tid)
        ∧ (b.getLsbD 20 = true →
          (s.tensorEntry k.ttbase k.ttlim tid = none → s.flat n a acc = .bad .trans 1 tid)
          ∧ ∀ e, s.tensorEntry k.ttbase k.ttlim tid = some e →
            (eNdim e ≠ 1 ∨ eFmt e ≠ 8 ∧ eFmt e ≠ 9 ∨ eXm e = true ∨ eL2t e 0 < 3 → s.flat n a acc = .bad .trans 4 tid)
            ∧ (entryOk e = true → eNdim e = 1 → (eFmt e = 8 ∨ eFmt e = 9) → eXm e = false → 3 ≤ eL2t e 0 →
              let home := if s.bar.chipSet then s.homeOf (eHome e) else none
              let t := off / 2 ^ eL2t e 0
              let p := s.readM (s.chipKey home (eTtf e * frameBytes + 8 * t)) 8
              let fr := p / 2 ^ 16 % 2 ^ 40
              homeInDomain home = true →
              (eExt e 0 ≤ off → s.flat n a acc = .bad .trans 2 tid)
              ∧ (off < eExt e 0 → s.deadChip home = true → ∃ key, s.flat n a acc = .m home key)
              ∧ (off < eExt e 0 → s.deadChip home = false →
                let valid := p / 2 ^ 63 = 1 ∧ p / 2 ^ 56 % 16 = 0 ∧ p % 2 ^ 16 = 0
                (¬ valid → s.flat n a acc = .bad .trans 3 tid)
                ∧ (valid → permOk p acc = false → s.flat n a acc = .bad .perm 0 tid)
                ∧ (valid → permOk p acc = true → framesPerChip ≤ fr ∨ fr % 32 ≠ portOf tid t → s.flat n a acc = .bad .trans 8 tid)
                ∧ (valid → permOk p acc = true → fr < framesPerChip → fr % 32 = portOf tid t →
                  s.flat n a acc = .m home (s.chipKey home (fr * frameBytes + off % 2 ^ eL2t e 0))))))))
    ∧ (∀ (s : State) (n tid seq : Nat) (xs : List Int) (acc : Acc),
      let k := (s.sh n).k
      (s.tensorEntry k.ttbase k.ttlim tid = none → s.translate n tid seq xs acc = .bad .trans 1)
      ∧ ∀ e, s.tensorEntry k.ttbase k.ttlim tid = some e →
        (entryOk e = false → s.translate n tid seq xs acc = .bad .trans 1)
        ∧ (entryOk e = true → homeInDomain (s.entryHome e) = false → s.translate n tid seq xs acc = .bad .trans 5)
        ∧ (entryOk e = true → homeInDomain (s.entryHome e) = true → s.deadChip (s.entryHome e) = true →
          ∃ key bit, s.translate n tid seq xs acc = .ok (s.entryHome e) key bit)
        ∧ (entryOk e = true → homeInDomain (s.entryHome e) = true → s.deadChip (s.entryHome e) = false → eXm e = false →
          let out := ∃ j, j < eNdim e ∧ (xs[j]?.getD 0 < 0 ∨ (eExt e j : Int) ≤ xs[j]?.getD 0)
          let at_ := tileIndex e (fun j => (xs[j]?.getD 0).toNat) (eNdim e)
          let p := s.readM (s.chipKey (s.entryHome e) (eTtf e * frameBytes + 8 * at_.1)) 8
          let fr := p / 2 ^ 16 % 2 ^ 40
          let valid := p / 2 ^ 63 = 1 ∧ p / 2 ^ 56 % 16 = 0 ∧ p % 2 ^ 16 = 0
          (out → s.translate n tid seq xs acc = .outside)
          ∧ (¬ out → ¬ valid → s.translate n tid seq xs acc = .bad .trans 3)
          ∧ (¬ out → valid → permOk p acc = false → s.translate n tid seq xs acc = .bad .perm 0)
          ∧ (¬ out → valid → permOk p acc = true → framesPerChip ≤ fr ∨ fr % 32 ≠ portOf tid at_.1 →
            s.translate n tid seq xs acc = .bad .trans 8)
          ∧ (¬ out → valid → permOk p acc = true → fr < framesPerChip → fr % 32 = portOf tid at_.1 →
            s.translate n tid seq xs acc = .ok (s.entryHome e)
              (s.chipKey (s.entryHome e) (fr * frameBytes + (elemOff (eFmt e) at_.2).1)) (elemOff (eFmt e) at_.2).2)))
    ∧ ∀ (e : BitVec 1024) (c0 c1 l0 l1 : Nat), eL2t e 0 = l0 → eL2t e 1 = l1 →
      tileIndex e (fun j => if j = 0 then c0 else c1) 2
        = (c0 / 2 ^ l0 * ((eExt e 1 + 2 ^ l1 - 1) / 2 ^ l1) + c1 / 2 ^ l1, c0 % 2 ^ l0 * 2 ^ l1 + c1 % 2 ^ l1))
  ∧ (∀ (s : State) (e : BitVec 1024) (seq p h x : Nat) (acc : Acc),
      let key := s.claimKey e seq
      let cur := s.readM key 3
      let isWrite := acc = .write ∨ acc = .readWrite
      let run : Trans := s.transClaim e seq [(p : Int), (h : Int), (x : Int)] acc
      (acc = .code → run = .bad .perm 0)
      ∧ (acc ≠ .code → (eNseq e ≤ seq → run = .bad .trans 7)
        ∧ (seq < eNseq e → eExt e 0 ≤ p ∨ eExt e 1 ≤ h ∨ eExt e 2 ≤ x → run = .outside)
        ∧ (seq < eNseq e → p < eExt e 0 → h < eExt e 1 → x < eExt e 2 →
          (s.ringSlot e cur h p = none → (isWrite → run = .discard) ∧ (¬ isWrite → run = .absent))
          ∧ ∀ q0, s.ringSlot e cur h p = some q0 →
            ((∀ w ∈ s.extents key, ¬ (xPos w ≤ q0 ∧ q0 < xPos w + xLen w)) →
              (isWrite → run = .bad .trans 6) ∧ (¬ isWrite → run = .absent))
            ∧ (∀ (l r : List (BitVec 128)) (w : BitVec 128), s.extents key = l ++ w :: r →
              (∀ y ∈ l, ¬ (xPos y ≤ q0 ∧ q0 < xPos y + xLen y)) → xPos w ≤ q0 → q0 < xPos w + xLen w →
              let q := q0 - xPos w + xFpo w
              let b := elemOff (eFmt e) (q % 64 * eExt e 1 * eExt e 2 + h * eExt e 2 + x)
              let fr := xBasef w + q / 64 * xStride w + b.1 / frameBytes
              (framesPerChip ≤ fr → run = .bad .trans 8)
              ∧ (fr < framesPerChip → run = .ok (s.entryHome e)
                (s.chipKey (s.entryHome e) (fr * frameBytes + b.1 % frameBytes)) b.2))))
      ∧ (let w := s.readM (s.chipKey (s.entryHome e) (eBudf e * frameBytes + 8 * h)) 8
         let sn := w / 2 ^ 8 % 128
         let win := w / 2 ^ 32 % 2 ^ 24
         (eBud e = false ∨ 256 ≤ h ∨ w % 2 = 0 → s.ringSlot e cur h p = some p)
         ∧ (eBud e = true → h < 256 → w % 2 = 1 → (p < sn → s.ringSlot e cur h p = some p)
           ∧ (sn ≤ p → cur - win ≤ p → p < cur → s.ringSlot e cur h p = some (sn + (p - sn) % win))
           ∧ (sn ≤ p → p < cur - win ∨ cur ≤ p → s.ringSlot e cur h p = none))))

/-! ### Coordinate maps and operands (06 R114-R122, 02 R35, R36) -/

/-- The coordinate of an element (R115): the element number, or for an INDEXED map the one in the companion register's
lane, gives the datum of the dimension, plus its position within the inner extent for the inner dimension and its
quotient for the outer one, each negated when reversed, modulo 2^32 as signed; a lane of all ones is absent and reads
0x8000_0000. Advance(M, k, n) gives element e the coordinates that M gives element e + k, for every e < n (R117); it
keeps a map NONE or BROKEN, and is BROKEN for an INDEXED map, and where the n elements from k would cross an inner
extent. A coordinate read of a map that is NONE or BROKEN, or of another width, raises CMAPBRK, precise, with the
register and the map's state in ctx.finfo; in soft mode it gives no coordinates instead. A read within a writer's
bound is not refused: it gives undefined coordinates (R116): free values, as is Lin of each element (log 38). The
combination of R119, maps in operand order: a NONE map is passed over, and none at all gives NONE; a BROKEN map, one
of another width or one that is not Equal to the first gives BROKEN; otherwise the first with FMT := F, BROKEN where
its companion is the destination. Operand B by its kind (R35, R36): the elements of vB; a coordinate of operand A's
register, a difference modulo 2^32 or its magnitude, 0x8000_0000 for an absent element, rounded into the format; the
low bits of gB in every lane; or the signed immediate in every lane. The magnitude of the difference -2^31 is
0x8000_0000, the model's reading (log 42). -/
def Obligations.CoordinatesFollowTheMap : Prop :=
  (∀ (s : State) (m : CMap) (e : Nat) (d : Fin 6),
      let form (c : Nat) : Int := (BitVec.ofInt 32 (m.datum[d].toInt
        + (if d.val = m.id.toNat then (if m.ir then -1 else 1) * ((c % m.ie.toNat : Nat) : Int) else 0)
        + (if d.val = m.od.toNat then (if m.orev then -1 else 1) * ((c / m.ie.toNat : Nat) : Int) else 0))).toInt
      let lane := getEl m.fmt.toNat (s.rdV m.cmp).data e
      (m.st ≠ .indexed → s.coordOf m e d.val = form e)
      ∧ (m.st = .indexed → s.coordOf m e d.val = if lane = 2 ^ m.width - 1 then -2 ^ 31 else form lane))
  ∧ ((∀ (s : State) (m : CMap) (k n e : Nat) (d : Fin 6), m.st = .affine → m.id.toNat < 6 → m.od.toNat < 6 → m.id ≠ m.od →
      m.ie ≠ 0 → (m.advance k n).st = .affine → e < n → s.coordOf (m.advance k n) e d.val = s.coordOf m (e + k) d.val)
    ∧ ∀ (m : CMap) (k n : Nat),
      (m.st = .none ∨ m.st = .broken ∨ k = 0 → m.advance k n = m)
      ∧ (m.st = .indexed → k ≠ 0 → m.advance k n = CMap.broken)
      ∧ (m.st = .affine → k ≠ 0 → (m.advance k n = CMap.broken ↔ k % m.ie.toNat ≠ 0 ∧ m.ie.toNat < k % m.ie.toNat + n)))
  ∧ (∀ (s : State) (r : R5) (w : Nat),
      (s.mapLate r = false → (s.rdV r).map.st = .none ∨ (s.rdV r).map.st = .broken ∨ (s.rdV r).map.width ≠ w →
        (s.me.arch.c.cmapsoft = true → s.readMap r w = .ok none)
        ∧ (s.me.arch.c.cmapsoft = false → ∃ t q, s.readMap r w = .error t ∧ t.cur.fin = .trap q false ∧ q.cause = .cmapbrk
          ∧ q.fpc = s.cur.x ∧ q.fslot = .ofNat 4 s.cur.slot
          ∧ q.finfo = .ofNat 64 (r.toNat + 64 * (s.rdV r).map.st.code)))
      ∧ (s.mapLate r = true → ∃ m k, s.readMap r w = .ok (some ⟨m, some k⟩)
        ∧ (w = 6 ∨ w = 8 ∨ w = 16 ∨ w = 32 → m.width = w)))
  ∧ (∀ (f : Nat) (d : R5) (m : CMap) (ms : List CMap),
      CMap.combine f d [] = CMap.none
      ∧ (m.st = .none → CMap.combine f d (m :: ms) = CMap.combine f d ms)
      ∧ (m.st ≠ .none → (∃ x ∈ m :: ms, x.st = .broken ∨ x.st ≠ .none ∧ (x.width ≠ fmtWidth f ∨ x.equal m = false)) →
        CMap.combine f d (m :: ms) = CMap.broken)
      ∧ (m.st ≠ .none → (∀ x ∈ m :: ms, x.st = .none ∨ x.st ≠ .broken ∧ x.width = fmtWidth f ∧ x.equal m = true) →
        CMap.combine f d (m :: ms) = if m.st = .indexed ∧ m.cmp = d then CMap.broken else { m with fmt := .ofNat 4 f }))
  ∧ (∀ (s : State) (f : Nat) (b a : R5), f ≤ 11 →
      s.opB f 0 b a = .ok (elems f (s.rdV b).data, 0)
      ∧ s.opB f 2 b a = .ok (List.replicate (elemCount f) ((s.rdG b).toNat % 2 ^ fmtWidth f), 0)
      ∧ (fmtIsInt f = true → f ≠ 9 ∨ 0 ≤ b.toInt →
        s.opB f 3 b a = .ok (List.replicate (elemCount f) (BitVec.ofInt (fmtWidth f) b.toInt).toNat, 0))
      ∧ (∀ m, s.readMap a (fmtWidth f) = .ok (some ⟨m, none⟩) → ∃ ys fl, s.opB f 1 b a = .ok (ys, fl)
        ∧ ys.length = elemCount f ∧ ∀ e, e < elemCount f →
          let inner := s.coordOf m e m.id.toNat
          let outer := s.coordOf m e m.od.toNat
          let absent := m.st = .indexed ∧ getEl m.fmt.toNat (s.rdV m.cmp).data e = 2 ^ m.width - 1
          let v : Int := if absent then -2 ^ 31 else match b.toNat / 8 with
            | 0 => s.coordOf m e (b.toNat % 8)
            | 1 => (BitVec.ofInt 32 (inner - outer)).toInt
            | 2 => (BitVec.ofInt 32 (outer - inner)).toInt
            | _ => (BitVec.ofInt 32 (BitVec.ofInt 32 (inner - outer)).toInt.natAbs).toInt
          ys.getD e 0 = (Machine.round f (.ofInt v) 0 0).1))

/-! ### Vector instructions (08 R156-R172, 07 R150, R151, 06 R124-R130) -/

/-- The element-wise integer and bitwise instructions of two operands: each element as R158 gives it, modulo 2^w, the
map the combination of the operands' maps, the flags those of operand B's entry (R36), within 2 cycles. The
element-wise integer instructions of three operands and of one (R159, R160): VFSHL takes the top w bits of a:d shifted
left by b mod w, VLUT3 looks bits up in its table, VPOPC and VCLZ count. -/
def Obligations.VectorIntegerElementsAreComputed : Prop :=
  (∀ (s : State) (d a b : R5) (k : BitVec 2) (f : BitVec 3) (ys : List Nat) (fl : Flags),
      let F := s.slotFmt f
      let w := fmtWidth F
      let sg (x : Nat) : Int := if F = 9 then (x : Int) else (BitVec.ofNat w x).toInt
      let ok : Prop := State.kindFits F k b = true ∧ s.cleanV (a :: State.bV k b) ∧ s.cleanG (State.bG k b)
        ∧ s.opB F k b a = .ok (ys, fl)
      let out (op : Nat → Nat → Nat) : Out := .next (s.vres d F (List.zipWith op (elems F (s.rdV a).data) ys, fl)
        (CMap.combine F d ((s.rdV a).map :: if k = 0 then [(s.rdV b).map] else [])) 2)
      ok →
      exec (.vand d a b k f) s = out (fun x y => x &&& y)
      ∧ exec (.vor d a b k f) s = out (fun x y => x ||| y)
      ∧ exec (.vxor d a b k f) s = out (fun x y => x ^^^ y)
      ∧ (fitsInt F = true →
        exec (.vadd d a b k f) s = out (fun x y => (x + y) % 2 ^ w)
        ∧ exec (.vsub d a b k f) s = out (fun x y => (((x : Int) - y) % 2 ^ w).toNat)
        ∧ exec (.vmul d a b k f) s = out (fun x y => x * y % 2 ^ w)
        ∧ exec (.vmulh d a b k f) s = out (fun x y => (sg x * sg y / 2 ^ w % 2 ^ w).toNat)
        ∧ exec (.vsll d a b k f) s = out (fun x y => x * 2 ^ (y % w) % 2 ^ w)
        ∧ exec (.vsrl d a b k f) s = out (fun x y => x / 2 ^ (y % w))
        ∧ exec (.vsra d a b k f) s = out (fun x y => (sg x / 2 ^ (y % w) % 2 ^ w).toNat)
        ∧ exec (.vmin d a b k f) s = out (fun x y => if sg y < sg x then y else x)
        ∧ exec (.vmax d a b k f) s = out (fun x y => if sg x < sg y then y else x)))
  ∧ (∀ (s : State) (d a b : R5) (k : BitVec 2) (f : BitVec 3) (t : BitVec 8) (ys : List Nat) (fl : Flags),
      let F := s.slotFmt f
      let w := fmtWidth F
      let X := elems F (s.rdV a).data
      let Z := elems F (s.rdV d).data
      let M := CMap.combine F d ((s.rdV a).map :: ((if k = 0 then [(s.rdV b).map] else []) ++ [(s.rdV d).map]))
      (State.kindFits F k b = true → s.cleanV (a :: (State.bV k b ++ [d])) → s.cleanG (State.bG k b) →
        s.opB F k b a = .ok (ys, fl) → F ≤ 11 →
        (fitsInt F = true → exec (.vfshl d a b k f) s = .next (s.vres d F
          ((X.zip (ys.zip Z)).map fun p => (p.1 * 2 ^ w + p.2.2) * 2 ^ (p.2.1 % w) / 2 ^ w % 2 ^ w, fl) M 2))
        ∧ ∃ els : List Nat, exec (.vlut3 d a b k f t) s = .next (s.vres d F (els, fl) M 2)
          ∧ els.length = elemCount F ∧ ∀ e, e < elemCount F → ∀ i, i < w → (els.getD e 0).testBit i =
            t.getLsbD (4 * ((X.getD e 0).testBit i).toNat + 2 * ((ys.getD e 0).testBit i).toNat + ((Z.getD e 0).testBit i).toNat))
      ∧ (fitsInt F = true → s.cleanV [a] →
        exec (.vpopc d a f) s = .next (s.vres d F (X.map fun x => (List.range w).countP fun i => x.testBit i, 0)
          (CMap.combine F d [(s.rdV a).map]) 2)
        ∧ ∃ els : List Nat, exec (.vclz d a f) s = .next (s.vres d F (els, 0) (CMap.combine F d [(s.rdV a).map]) 2)
          ∧ els.length = X.length ∧ ∀ e, e < X.length → X.getD e 0 < 2 ^ w → els.getD e 0 ≤ w ∧ X.getD e 0 < 2 ^ (w - els.getD e 0)
            ∧ (els.getD e 0 < w → 2 ^ (w - 1 - els.getD e 0) ≤ X.getD e 0)))

/-- Lane masks (R157): a compare writes lane e's result to bit e mod 64 of mask register base + e / 64, and VSEL reads
it there. The integer and float compares write the mask of their lanes (R161), and VSEL takes operand B where the mask
is set and keeps vD elsewhere (R162). Of the flags of operand B's entry VSEL raises NX alone: the model's reading (log
57). -/
def Obligations.VectorComparesAndSelectUseLaneMasks : Prop :=
  (∀ (s : State) (base : R5) (bits : List Bool) (lat e : Nat), State.maskFits base bits.length = true → 0 < base.toNat →
      e < bits.length →
      (((s.maskRes base bits lat).landAll s.cur.shift).me.arch.g[base.toNat + e / 64]!).getLsbD (e % 64) = bits.getD e false
      ∧ (∀ r : R5, (r.toNat < base.toNat ∨ base.toNat + (bits.length + 63) / 64 ≤ r.toNat) →
        ((s.maskRes base bits lat).landAll s.cur.shift).me.arch.g[r.toNat] = (s.landAll s.cur.shift).me.arch.g[r.toNat]))
  ∧ (∀ (s : State) (d a b : R5) (k : BitVec 2) (f : BitVec 3) (ys : List Nat) (fl : Flags),
      let F := s.slotFmt f
      let X := elems F (s.rdV a).data
      let num (x : Nat) : Machine.Num := (decodeNum F x).1
      let nan (x y : Nat) : Bool := (num x).isNan || (num y).isNan
      let out (test : Nat → Nat → Bool) (g : Nat → Nat → Flags) (lat : Nat) : Out :=
        .next ((s.maskRes d (List.zipWith test X ys) lat).wrFlags ((List.zipWith g X ys).foldl (fun p q => p ||| q) fl) lat)
      let fg (all : Bool) (x y : Nat) : Flags :=
        (if nan x y && (all || (num x).isSnan || (num y).isSnan) then flagNV else 0)
          ||| (if (decodeNum F x).2 || (decodeNum F y).2 then flagNAR else 0)
      (State.kindFits F k b = true → State.maskFits d (elemCount F) = true → s.cleanV (a :: State.bV k b) →
        s.cleanG (State.bG k b) → s.opB F k b a = .ok (ys, fl) →
        (fitsInt F = true →
          exec (.vcmpeq d a b k f) s = out (fun x y => decide (x = y)) (fun _ _ => 0) 2
          ∧ exec (.vcmplt d a b k f) s = out (fun x y => decide (elInt F x < elInt F y)) (fun _ _ => 0) 2
          ∧ exec (.vcmple d a b k f) s = out (fun x y => decide (elInt F x ≤ elInt F y)) (fun _ _ => 0) 2)
        ∧ (fitsFloat F = true →
          exec (.vfcmpeq d a b k f) s = out (fun x y => !nan x y && decide (cmpNum (num x) (num y) = 0)) (fg false) 4
          ∧ exec (.vfcmplt d a b k f) s = out (fun x y => !nan x y && decide (cmpNum (num x) (num y) < 0)) (fg true) 4
          ∧ exec (.vfcmple d a b k f) s = out (fun x y => !nan x y && decide (cmpNum (num x) (num y) ≤ 0)) (fg true) 4))
      ∧ (State.kindFits F k b = true → s.cleanV (d :: State.bV k b) → s.cleanG (State.bG k b ++ State.maskSrc a (elemCount F)) →
        s.opB F k b d = .ok (ys, fl) → ∃ els : List Nat,
          exec (.vsel d a b k f) s = .next (s.vres d F (els, fl &&& flagNX)
            (CMap.combine F d ((s.rdV d).map :: if k = 0 then [(s.rdV b).map] else [])) 2)
          ∧ els.length = elemCount F ∧ ∀ e, e < elemCount F → els.getD e 0 = if s.maskBit a e = true then ys.getD e 0 else getEl F (s.rdV d).data e))

/-- The integer reductions (R164): every lane of a group holds the group's exact sum, saturated, or its greatest or
least element; the map is NONE. A group is the whole register, or with `.row` a row of vA's map. VSPLAT spreads one
element, VMOV copies operand B, and the deprecated VDOT8 adds four exact products to each lane, saturated, when EMUL
is not enabled, and counts its expansion (R163, R165, R43). -/
def Obligations.VectorReductionsSplatMoveAndDot : Prop :=
  (∀ (s : State) (d a : R5) (r : BitVec 1) (f : BitVec 3) (gs : List Nat),
      let F := s.slotFmt f
      let groups := State.cut (elems F (s.rdV a).data) gs
      let v (l : List Nat) : List Int := l.map (elInt F)
      fitsInt F = true → s.cleanV [a] → s.rowsOf a F (r = 1) = .ok gs → (∀ g ∈ gs, 0 < g ∧ g ≤ 512) → gs.sum = elemCount F →
      exec (.vredadd d a r f) s = .next (s.vres d F
        (groups.flatMap fun l => List.replicate l.length (saturate F (v l).sum).1,
          if groups.any (fun l => decide ((v l).sum < intLo F) || decide (intHi F < (v l).sum)) then flagSAT else 0) .none 6)
      ∧ (∃ els : List Nat, exec (.vredmax d a r f) s = .next (s.vres d F (els, 0) .none 6)
        ∧ els = groups.flatMap (fun l => List.replicate l.length (encodeInt (fmtWidth F) ((v l).foldl max ((v l).headD 0)))))
      ∧ (∃ els : List Nat, exec (.vredmin d a r f) s = .next (s.vres d F (els, 0) .none 6)
        ∧ els = groups.flatMap (fun l => List.replicate l.length (encodeInt (fmtWidth F) ((v l).foldl min ((v l).headD 0))))))
  ∧ (∀ (s : State) (d a b : R5) (k : BitVec 2) (c : BitVec 1) (f : BitVec 3) (ys : List Nat) (fl : Flags),
      let F := s.slotFmt f
      let n := elemCount F
      let j : Nat := if c = 0 then (s.rdG b).toNat % 2 ^ fmtWidth F % n else (b.toInt % (n : Int)).toNat
      let p (i : Nat) : Int := elInt F (getEl 8 (s.rdV a).data i) * elInt F (getEl 8 (s.rdV b).data i)
      (s.cleanV [a] → s.cleanG (if c = 0 then [b] else []) →
        exec (.vsplat d a b c f) s = .next (s.vres d F (List.replicate n (getEl F (s.rdV a).data j), 0) .none 2))
      ∧ (State.kindFits F k b = true → s.cleanV (if k = 1 then [a] else State.bV k b) → s.cleanG (State.bG k b) →
        s.opB F k b a = .ok (ys, fl) → exec (.vmov d a b k f) s = .next (s.vres d F (ys, fl)
          (if k = 0 then CMap.combine F d [(s.rdV b).map] else if k = 1 then CMap.combine F d [(s.rdV a).map] else .none) 2))
      ∧ (F = 8 ∨ F = 9 → s.cleanV [d, a, b] → s.me.arch.c.trapmask.getLsbD 0x11 = false → ∃ t els fl',
        exec (.vdot8 d a b f) s = .next t ∧ t.me.k.deprcnt = s.me.k.deprcnt + 1 ∧ t.me.arch = s.me.arch
        ∧ t = (s.modK fun q => { q with deprcnt := q.deprcnt + 1 }).vres d 0xB (els, fl') .none 2 ∧ els.length = 64
        ∧ ∀ i, i < 64 → els.getD i 0 = (saturate 0xB (signedOf 32 (getEl 0xB (s.rdV d).data i)
            + (p (4 * i) + p (4 * i + 1) + p (4 * i + 2) + p (4 * i + 3)))).1))

/-- VFADD, VFSUB, VFMUL and VFMA: each element is decoded exactly, computed exactly and rounded once in the slot's
mode, with its random bits in a stochastic mode; NV for an invalid operation (R166, R139, R140). VFMAX and VFMIN
choose an element as it stands, the other operand of a NaN, the canonical NaN of two; VFABS and VFNEG clear and invert
the sign bit of a number of a binary float format (R167). -/
def Obligations.VectorFloatElementsRoundOnce : Prop :=
  (∀ (s : State) (d a b : R5) (k : BitVec 2) (f : BitVec 3) (ys : List Nat) (fl : Flags) (rho : Nat → Nat) (i : Instr)
      (op : Machine.Num → Machine.Num → Machine.Num → Machine.Num × Bool) (M : CMap) (src : List R5),
      let F := s.slotFmt f
      let rm := s.slotRm f
      let num (x : Nat) : Machine.Num := (decodeNum F x).1
      let maps : List CMap := (s.rdV a).map :: if k = 0 then [(s.rdV b).map] else []
      (i = .vfadd d a b k f ∧ op = (fun x y _ => addNum x y (rm = 3)) ∧ M = CMap.combine F d maps ∧ src = a :: State.bV k b
        ∨ i = .vfsub d a b k f ∧ op = (fun x y _ => addNum x y.neg (rm = 3)) ∧ M = CMap.combine F d maps
          ∧ src = a :: State.bV k b
        ∨ i = .vfmul d a b k f ∧ op = (fun x y _ => mulNum x y) ∧ M = CMap.combine F d maps ∧ src = a :: State.bV k b
        ∨ i = .vfma d a b k f ∧ op = (fun x y z => fmaNum x y z (rm = 3)) ∧ M = CMap.combine F d (maps ++ [(s.rdV d).map])
          ∧ s.cleanV [d] ∧ src = a :: (State.bV k b ++ [d])) →
      fitsFloat F = true → State.kindFits F k b = true → s.cleanV (a :: State.bV k b) → s.cleanG (State.bG k b) →
      s.opB F k b a = .ok (ys, fl) → s.randomBits src d M F rm 0xF0 = .ok rho →
      ∃ els g, exec i s = .next (s.vres d F (els, g) M 4) ∧ els.length = elemCount F ∧ ∀ e, e < elemCount F →
        let r := op (num (getEl F (s.rdV a).data e)) (num (ys.getD e 0)) (num (getEl F (s.rdV d).data e))
        els.getD e 0 = (Machine.round F r.1 rm (rho e)).1
        ∧ ∀ j, ((Machine.round F r.1 rm (rho e)).2 ||| (if r.2 then flagNV else 0)).getLsbD j = true → g.getLsbD j = true)
  ∧ (∀ (s : State) (d a b : R5) (k : BitVec 2) (f : BitVec 3) (ys : List Nat) (fl : Flags),
      let F := s.slotFmt f
      let w := fmtWidth F
      let X := elems F (s.rdV a).data
      let num (x : Nat) : Machine.Num := (decodeNum F x).1
      let M := CMap.combine F d ((s.rdV a).map :: if k = 0 then [(s.rdV b).map] else [])
      fitsFloat F = true →
      (State.kindFits F k b = true → s.cleanV (a :: State.bV k b) → s.cleanG (State.bG k b) → s.opB F k b a = .ok (ys, fl) →
        ∃ hi lo g, exec (.vfmax d a b k f) s = .next (s.vres d F (hi, g) M 4)
          ∧ exec (.vfmin d a b k f) s = .next (s.vres d F (lo, g) M 4)
          ∧ hi.length = elemCount F ∧ lo.length = elemCount F ∧ ∀ e, e < elemCount F →
            let x := X.getD e 0
            let y := ys.getD e 0
            ((num x).isNan = true → (num y).isNan = true → hi.getD e 0 = canonNan F ∧ lo.getD e 0 = canonNan F)
            ∧ ((num x).isNan = true → (num y).isNan = false → hi.getD e 0 = y ∧ lo.getD e 0 = y)
            ∧ ((num x).isNan = false → (num y).isNan = true → hi.getD e 0 = x ∧ lo.getD e 0 = x)
            ∧ ((num x).isNan = false → (num y).isNan = false → cmpNum (num x) (num y) < 0 → hi.getD e 0 = y ∧ lo.getD e 0 = x)
            ∧ ((num x).isNan = false → (num y).isNan = false → 0 < cmpNum (num x) (num y) → hi.getD e 0 = x ∧ lo.getD e 0 = y))
      ∧ (s.cleanV [a] → ∃ ab ng g, exec (.vfabs d a f) s = .next (s.vres d F (ab, g) (CMap.combine F d [(s.rdV a).map]) 4)
          ∧ exec (.vfneg d a f) s = .next (s.vres d F (ng, g) (CMap.combine F d [(s.rdV a).map]) 4)
          ∧ ab.length = elemCount F ∧ ng.length = elemCount F ∧ ∀ e, e < elemCount F → fmtIsFloat F = true →
            ((num (X.getD e 0)).isNan = true → ab.getD e 0 = canonNan F ∧ ng.getD e 0 = canonNan F)
            ∧ ((num (X.getD e 0)).isNan = false → ab.getD e 0 = X.getD e 0 % 2 ^ (w - 1)
              ∧ ng.getD e 0 = (X.getD e 0 + 2 ^ (w - 1)) % 2 ^ w)))

/-- VCVT (R150): a destination element comes from element e + H·nd of the source when that has at least as many, else
from e − H·ns where that exists, and keeps its value otherwise; it is decoded in the source format and rounded into
the other. The float reductions (R164): every lane of a group of more than one holds the pairwise tree of rounded
sums, or of greater elements; a group of one holds its element, a NaN made canonical. -/
def Obligations.VectorConversionAndFloatReductions : Prop :=
  (∀ (s : State) (d a : R5) (src dst rm h : BitVec 3) (st : BitVec 8) (rho : Nat → Nat),
      let S := s.slotFmt src
      let T := s.slotFmt dst
      let ns := elemCount S
      let nd := elemCount T
      let H := h.toNat
      let mode := if rm = 6 then s.slotRm dst else rm.toNat
      let M := CMap.convert S T H ns nd (s.rdV a).map (s.rdV d).map d
      let cv (j e : Nat) : Nat := (Machine.round T (decodeNum S (getEl S (s.rdV a).data j)).1 mode (rho e)).1
      S ≠ 7 → T ≠ 7 → H * min ns nd < max ns nd → s.cleanV (if ns < nd then [a, d] else [a]) →
      s.randomBits (if ns < nd then [a, d] else [a]) d M T mode st = .ok rho →
      ∃ els g, exec (.vcvt d a src dst rm h st) s = .next (s.vres d T (els, g) M 4) ∧ els.length = nd
        ∧ ∀ e, e < nd →
          (nd ≤ ns → e + H * nd < ns → els.getD e 0 = cv (e + H * nd) e)
          ∧ (nd ≤ ns → ns ≤ e + H * nd → els.getD e 0 = 0)
          ∧ (ns < nd → H * ns ≤ e → e - H * ns < ns → els.getD e 0 = cv (e - H * ns) e)
          ∧ (ns < nd → e < H * ns ∨ ns ≤ e - H * ns → els.getD e 0 = getEl T (s.rdV d).data e))
  ∧ (∀ (s : State) (d a : R5) (r : BitVec 1) (f : BitVec 3) (gs : List Nat),
      let F := s.slotFmt f
      let groups := State.cut (elems F (s.rdV a).data) gs
      let red (node : Nat × Flags → Nat × Flags → Nat × Flags) (l : List Nat) : Nat := match l with
        | [x] => (Machine.round F (decodeNum F x).1 0 0).1
        | _ => (reduceTree node (0, 0) (l.map fun x => (x, 0))).1
      fitsFloat F = true → s.cleanV [a] → s.rowsOf a F (r = 1) = .ok gs →
      (∃ g, exec (.vfredsum d a r f) s = .next (s.vres d F
        (groups.flatMap fun l => List.replicate l.length (red (sumNode F) l), g) .none 8))
      ∧ (∃ g, exec (.vfredmax d a r f) s = .next (s.vres d F
        (groups.flatMap fun l => List.replicate l.length (red (maxNode F) l), g) .none 8))
      ∧ ∀ u v w z : Nat, red (sumNode F) [u, v, w, z] =
          (sumNode F (sumNode F (u, 0) (v, 0)) (sumNode F (w, 0) (z, 0))).1)

/-- The special functions (R169): each element is the function's value rounded once to nearest, whatever the slot's
mode, with the flags of that rounding, NV, DZ and NAR; a NaN gives the canonical NaN, and every special input of the
table gives what the table says. Elsewhere the value is the one that the model computes to 512 fraction bits (log 11). -/
def Obligations.SpecialFunctionsRoundTheExactValue : Prop :=
  (∀ (s : State) (d a : R5) (f : BitVec 3) (i : Instr) (fn : Machine.Num → Machine.Num × Bool × Bool),
    let F := s.slotFmt f
    let el (e : Nat) : Machine.Num × Bool := decodeNum F (getEl F (s.rdV a).data e)
    (i = .vexp2 d a f ∧ fn = spExp2 ∨ i = .vlog2 d a f ∧ fn = spLog2 ∨ i = .vrcp d a f ∧ fn = spRcp
      ∨ i = .vrsq d a f ∧ fn = spRsq ∨ i = .vsint d a f ∧ fn = spSin ∨ i = .vcost d a f ∧ fn = spCos
      ∨ i = .vtanh d a f ∧ fn = spTanh) → fitsFloat F = true → s.cleanV [a] →
    ∃ els g, exec i s = .next (s.vres d F (els, g) (CMap.combine F d [(s.rdV a).map]) 12) ∧ els.length = elemCount F
      ∧ (∀ e, e < elemCount F → els.getD e 0 = (Machine.round F (fn (el e).1).1 0 0).1)
      ∧ ∀ j, g.getLsbD j = true ↔ ∃ e, e < elemCount F ∧ ((Machine.round F (fn (el e).1).1 0 0).2
          ||| (if (fn (el e).1).2.1 then flagNV else 0) ||| (if (fn (el e).1).2.2 then flagDZ else 0)
          ||| (if (el e).2 then flagNAR else 0)).getLsbD j = true)
  ∧ (∀ q, ∀ fn ∈ [spExp2, spLog2, spRcp, spRsq, spSin, spCos, spTanh], (fn (.nan q)).1.isNan = true ∧ (fn (.nan q)).2.1 = q
    ∧ (fn (.nan q)).2.2 = false)
  ∧ (∀ n, spExp2 (.inf n) = (if n then .zero false else .inf false, false, false)
    ∧ spLog2 (.inf n) = (if n then .nan false else .inf false, n, false)
    ∧ spRcp (.inf n) = (.zero n, false, false)
    ∧ spRsq (.inf n) = (if n then .nan false else .zero false, n, false)
    ∧ spSin (.inf n) = (.nan false, true, false) ∧ spCos (.inf n) = (.nan false, true, false)
    ∧ spTanh (.inf n) = (.fin ⟨n, 1, 0, false⟩, false, false))
  ∧ (∀ x : Exact, x.m = 0 → spExp2 (.fin x) = (.ofInt 1, false, false) ∧ spLog2 (.fin x) = (.inf true, false, true)
    ∧ spRcp (.fin x) = (.inf x.neg, false, true) ∧ spRsq (.fin x) = (.inf x.neg, false, true)
    ∧ spSin (.fin x) = (.fin x, false, false) ∧ spCos (.fin x) = (.ofInt 1, false, false) ∧ spTanh (.fin x) = (.fin x, false, false))
  ∧ (∀ x : Exact, x.m ≠ 0 → x.neg = true → spLog2 (.fin x) = (.nan false, true, false) ∧ spRsq (.fin x) = (.nan false, true, false))
  ∧ (∀ (k : Nat) (e : Int), spLog2 (.fin ⟨false, 2 ^ k, e, false⟩) = (.ofInt (e + k), false, false))
  ∧ (∀ (x : Exact) (i : Int), x.m ≠ 0 → 2 * x.rat = i → spSin (.fin x) = (.zero x.neg, false, false))
  ∧ (∀ (x : Exact) (i : Int), x.m ≠ 0 → 4 * x.rat = 2 * i + 1 → spCos (.fin x) = (.zero false, false, false))
  ∧ ∀ k : Int, -1000 < k → k < 1000 → spExp2 (.ofInt k) = (.fin ⟨false, 1, k, false⟩, false, false)

/-- RNGK, GUMB, VSCALE and TOPK (R151, R170-R172): the noise of each element's coordinates under the key and the
stream; the element plus the Gumbel noise, which the model computes to 512 fraction bits (log 11); the element times
its block's power of two; the k first-ranked elements, of the register or of each row: larger numbers first, then
NaNs, equal ones by their linear coordinate, absent elements left out; every lane not filled so holds 0 and
0x8000_0000. -/
def Obligations.NoiseScalesAndSelection : Prop :=
  ∀ (s : State) (d a b n : R5) (k v r : BitVec 1) (f : BitVec 3) (m : CMap) (rho : Nat → Nat),
    let F := s.slotFmt f
    let w := fmtWidth F
    let rm := s.slotRm f
    let M := CMap.combine F d [(s.rdV a).map]
    let st : BitVec 8 := if k = 1 then b.setWidth 8 else (s.rdG b).setWidth 8
    let c (e j : Nat) : BitVec 32 := .ofInt 32 (s.coordOf m e j)
    let h (e : Nat) : Nat := (noise s.me.arch.c.nkey (c e 0) (c e 1) (c e 2) (c e 3) st).toNat
    let num (e : Nat) : Machine.Num := (decodeNum F (getEl F (s.rdV a).data e)).1
    let p := min m.id.toNat m.od.toNat
    let q := max m.id.toNat m.od.toNat
    let sc (e : Nat) : Nat := fld (s.rdV b).data
      (8 * (16 * (s.coordOf m e p / 32 % 16).toNat + (s.coordOf m e q / 32 % 16).toNat)) 8
    s.cleanV [a] → s.readMap a w = .ok (some ⟨m, none⟩) →
    (fitsInt F = true → s.cleanG (if k = 0 then [b] else []) → ∃ els, exec (.rngk d a b k f) s = .next (s.vres d F (els, 0) M 6)
      ∧ els.length = elemCount F ∧ ∀ e, e < elemCount F → els.getD e 0 = h e % 2 ^ w)
    ∧ (fitsFloat F = true → s.randomBits [a] d M F rm 0xF0 = .ok rho →
      (s.cleanG (if k = 0 then [b] else []) → ∃ els g, exec (.gumb d a b k f) s = .next (s.vres d F (els, g) M 16)
        ∧ els.length = elemCount F ∧ ∀ e, e < elemCount F → els.getD e 0 = (Machine.round F
          (addNum (num e) (decodeNum 0 (Machine.round 0 (gumbel (h e)) 0 0).1).1 (rm = 3)).1 rm (rho e)).1)
      ∧ (s.cleanV [b] → ∃ els g, exec (.vscale d a b v f) s = .next (s.vres d F (els, g) M 4)
        ∧ els.length = elemCount F ∧ ∀ e, e < elemCount F →
          (sc e = 0xFF → els.getD e 0 = canonNan F)
          ∧ (∀ x : Exact, sc e ≠ 0xFF → num e = .fin x → els.getD e 0 = (Machine.round F
            (.fin { x with e := x.e + (if v = 1 then 127 - (sc e : Int) else (sc e : Int) - 127) }) rm (rho e)).1)))
    ∧ (F ≠ 6 → F ≠ 7 → ∀ gs, s.rowsOf a F (r = 1) = .ok gs →
      let lane (e : Nat) : Nat := getEl m.fmt.toNat (s.rdV m.cmp).data e
      let here (e : Nat) : Bool := !(m.st = .indexed && lane e = 2 ^ m.width - 1)
      let lin (e : Nat) : Nat := if m.st = .indexed then lane e else e
      let first (e e' : Nat) : Prop := ((num e).isNan = false ∧ (num e').isNan = true)
        ∨ ((num e).isNan = true ∧ (num e').isNan = true ∧ lin e < lin e')
        ∨ ((num e).isNan = false ∧ (num e').isNan = false
          ∧ (0 < cmpNum (num e) (num e') ∨ cmpNum (num e) (num e') = 0 ∧ lin e < lin e'))
      let size := n.toNat + 1
      let rows := (State.cut (List.range (elemCount F)) gs).map fun l => l.filter here
      (∀ e e', e < elemCount F → e' < elemCount F → here e = true → here e' = true → lin e = lin e' → e = e') →
      ∃ vals idx, exec (.topk d a n r f) s = .next (((s.wrV d (packEls F vals) .none 10).wrV (d + 1) (packEls 0xB idx) .none
          10).wrFlags (narFlag F (elems F (s.rdV a).data)) 10)
        ∧ vals.length = elemCount F ∧ idx.length = 64
        ∧ (∃ el : Nat → Nat, ∀ j i, j < rows.length → j * size + size ≤ 64 → i < size →
          let row := rows.getD j []
          let k := j * size + i
          (row.length ≤ i → vals.getD k 0 = 0 ∧ idx.getD k 0 = 0x80000000)
          ∧ (i < row.length → el k ∈ row ∧ vals.getD k 0 = getEl F (s.rdV a).data (el k)
            ∧ idx.getD k 0 = (if r = 1 then encodeInt 32 (s.coordOf m (el k) m.id.toNat) else lin (el k))
            ∧ (∀ i', i' < i → first (el (j * size + i')) (el k))
            ∧ ∀ e ∈ row, (∀ i', i' ≤ i → el (j * size + i') ≠ e) → first (el k) e))
        ∧ ∀ k, k < 64 → min rows.length (64 / size) * size ≤ k → vals.getD k 0 = 0 ∧ idx.getD k 0 = 0x80000000)

/-- CMSET, CMGET, CMSLC, CMTRN, CMREV, CMCPY and CMCLR (R124, R125): the maps that they write; where D = A the
register keeps its data, and an INDEXED map that would name D as its companion is BROKEN (R120). The map of an image
has the image's fields, and is BROKEN for each bad image of R124's list. -/
def Obligations.MapMovesWriteTheirMaps : Prop :=
  (∀ (s : State) (d a b : R5) (o : BitVec 1), s.cleanV [a] → s.cleanG [b] →
    let v := s.rdV a
    let m := v.map
    let own (x : CMap) : CMap := if x.st = .indexed ∧ x.cmp = d then CMap.broken else x
    let put (x : CMap) : State := if d = a then s.fly (.map d (own x)) 2 else s.wrV d v.data (own x) 2
    exec (.cmset d a) s = .next (s.fly (.map d (CMap.ofCmset d (v.data.setWidth 256).toNat)) 2)
    ∧ exec (.cmget d a) s = .next (s.fly (.v d ⟨.ofNat 2048 m.image, .none, false⟩) 2)
    ∧ exec (.cmclr d) s = .next (s.fly (.map d .none) 2)
    ∧ exec (.cmcpy d a) s = .next (put m)
    ∧ (m.st = .affine ∨ m.st = .indexed →
      exec (.cmtrn d a) s = .next (put { m with id := m.od, ir := m.orev, od := m.id, orev := m.ir })
      ∧ exec (.cmrev d a 0) s = .next (put { m with ir := !m.ir })
      ∧ exec (.cmrev d a 1) s = .next (put { m with orev := !m.orev })
      ∧ ∃ x : CMap, exec (.cmslc d a b) s = .next (put x) ∧ x = { m with datum := x.datum }
        ∧ ∀ j : Fin 6, x.datum[j] = m.datum[j] + (if j.val < 4 then ((s.rdG b).extractLsb' (16 * j.val) 16).signExtend 32 else 0))
    ∧ (m.st = .none ∨ m.st = .broken → ∀ i ∈ [Instr.cmtrn d a, .cmrev d a o, .cmslc d a b], exec i s = .next (put m)))
  ∧ ∀ (d : R5) (w : BitVec 256),
    let f (lo n : Nat) : Nat := (w.extractLsb' lo n).toNat
    let m := CMap.ofCmset d w.toNat
    let bad : Prop := f 34 30 ≠ 0 ∨ f 12 3 = f 16 3 ∨ 5 < f 12 3 ∨ 5 < f 16 3 ∨ f 20 9 = 0 ∨ 320 < f 20 9 ∨ 0xB < f 8 4
      ∨ f 0 2 = 1 ∧ f 29 5 ≠ 0 ∨ f 0 2 = 2 ∧ (f 29 5 = d.toNat ∨ f 8 4 = 6)
    (f 0 2 = 0 → m = CMap.none) ∧ (f 0 2 = 3 → m = CMap.broken)
    ∧ (f 0 2 = 1 ∨ f 0 2 = 2 → (bad → m = CMap.broken)
      ∧ (¬ bad → m.st.code = f 0 2 ∧ m.tt.toNat = f 2 6 ∧ m.fmt.toNat = f 8 4 ∧ m.id.toNat = f 12 3 ∧ m.ir.toNat = f 15 1
        ∧ m.od.toNat = f 16 3 ∧ m.orev.toNat = f 19 1 ∧ m.ie.toNat = f 20 9 ∧ m.cmp.toNat = f 29 5
        ∧ ∀ j : Fin 6, m.datum[j] = w.extractLsb' (64 + 32 * j.val) 32))

/-- VCRD reads a selector of 64 elements as I32, VSHUF and VROT and VSHFL move lanes, each with the map that its rule
writes; CMTST reads the states of two maps, whether they are Equal, and whether R119 would combine them (R126-R130).
VROPE (R127): pair i turns by the fraction of a turn in coordinate times frequency; with the cosine c and the sine n
of that turn, each rounded to F32, the pair (x, y) becomes x·c − y·n and x·n + y·c, rounded once each; a NaN in the
pair or an unusable frequency gives two canonical NaNs. The map is that of the data with the slot's format (R120 where
it would name D). The cosine and the sine are the model's 512-bit values rounded to F32 (log 11), and a map read
within a bound is free (log 38). -/
def Obligations.CoordinateReadsAndLanePermutations : Prop :=
  (∀ (s : State) (d a b : R5) (p : BitVec 2) (k : BitVec 1) (f : BitVec 3) (m : CMap),
      let F := s.slotFmt f
      let n := elemCount F
      let el (j : Nat) : Nat := getEl F (s.rdV a).data j
      let lost : CMap := if (s.rdV a).map.st = .none then .none else .broken
      let t : Nat := if k = 0 then (s.rdG b).toNat % 2 ^ fmtWidth F % n else (b.toInt % (n : Int)).toNat
      let own (x : CMap) : CMap := if x.st = .indexed ∧ x.cmp = d then CMap.broken else x
      let as (x : CMap) (c : BitVec 4) : CMap := if x.st = .affine ∨ x.st = .indexed then { x with fmt := c } else x
      let ma := (s.rdV a).map
      let mb := (s.rdV b).map
      (s.cleanV [a] → s.readMap a ma.width = .ok (some ⟨m, none⟩) → ∃ els g, exec (.vcrd d a b p) s = .next (s.vres d 0xB (els, g)
          (own (as (ma.advance (64 * p.toNat) 64) 0xB)) 2)
        ∧ els.length = 64 ∧ ∀ e, e < 64 → els.getD e 0 = if 64 * p.toNat + e < elemCount m.fmt.toNat
          then encodeInt 32 (s.select (some ⟨m, none⟩) b (64 * p.toNat + e)) else 0x80000000)
      ∧ (F ≠ 6 → s.cleanV [a, b] → ∃ els, exec (.vshuf d a b f) s = .next (s.vres d F (els, 0)
          (if ma.st = .affine ∧ ma.width = fmtWidth F ∧ b ≠ d then { ma with st := .indexed, cmp := b, fmt := .ofNat 4 F } else lost) 2)
        ∧ els.length = n
        ∧ ∀ e, e < n → els.getD e 0 = if getEl F (s.rdV b).data e < n then el (getEl F (s.rdV b).data e) else 0)
      ∧ (F ≠ 6 → s.cleanV [a] → s.cleanG (if k = 0 then [b] else []) →
        exec (.vrot d a b k f) s = .next (s.vres d F ((List.range n).map fun e => el ((e + t) % n), 0) lost 2))
      ∧ (F ≠ 6 → s.cleanV [a] → s.cleanG [b] → s.me.arch.c.trapmask.getLsbD 0x11 = false →
        exec (.vshfl d a b f) s = .next ((s.modK fun q => { q with deprcnt := q.deprcnt + 1 }).vres d F
          ((List.range n).map fun e => el (e ^^^ ((s.rdG b).toNat % n)), 0) lost 2))
      ∧ (s.cleanV [a, b] → ∃ c : Bool, exec (.cmtst d a b) s = .next (s.wrG d (.ofNat 64 (ma.st.code + 4 * mb.st.code
          + 16 * (ma.equal mb).toNat + 32 * c.toNat)) 2)
        ∧ (c = true ↔ ma.st ≠ .broken ∧ mb.st ≠ .broken ∧ (ma.st ≠ .none → mb.st ≠ .none → ma.equal mb = true))))
  ∧ (∀ (s : State) (d a b : R5) (v : BitVec 1) (f : BitVec 3) (m : CMap),
      let F := s.slotFmt f
      let x (j : Nat) : Machine.Num := (decodeNum F (getEl F (s.rdV a).data j)).1
      let q (i : Nat) : Machine.Num := (decodeNum F (getEl F (s.rdV b).data (2 * i))).1
      let f32 (y : Machine.Num) : Machine.Num := (decodeNum 0 (Machine.round 0 y 0 0).1).1
      let ma := (s.rdV a).map
      let y : CMap := if ma.st = .indexed ∧ ma.cmp = d then CMap.broken
        else if ma.st = .affine ∨ ma.st = .indexed then { ma with fmt := .ofNat 4 F } else ma
      F < 3 → s.cleanV [a, b] → s.readMap a (fmtWidth F) = .ok (some ⟨m, none⟩) → ∃ els g,
        exec (.vrope d a b v f) s = .next (s.vres d F (els, g) y 8) ∧ els.length = elemCount F ∧ ∀ i, i < elemCount F / 2 →
          (((x (2 * i)).isNan = true ∨ (x (2 * i + 1)).isNan = true ∨ (q i).isNan = true ∨ ∃ z, q i = .inf z) →
            els.getD (2 * i) 0 = canonNan F ∧ els.getD (2 * i + 1) 0 = canonNan F)
          ∧ (∀ u : Exact, (x (2 * i)).isNan = false → (x (2 * i + 1)).isNan = false → q i = .fin u →
            let k := (-u.e).toNat
            let turn : Int := s.coordOf m (2 * i) (if v = 1 then m.id.toNat else m.od.toNat)
              * ((if u.neg then -(u.m : Int) else u.m) * 2 ^ u.e.toNat)
            let fr : Exact := ⟨false, (turn % 2 ^ k).toNat, -(k : Int), false⟩
            let c := f32 (cosTurn fr)
            let n := f32 (sinTurn fr)
            els.getD (2 * i) 0 = (Machine.round F
              (addNum (mulNum (x (2 * i)) c).1 (mulNum (x (2 * i + 1)) n).1.neg false).1 0 0).1
            ∧ els.getD (2 * i + 1) 0 = (Machine.round F
              (addNum (mulNum (x (2 * i)) n).1 (mulNum (x (2 * i + 1)) c).1 false).1 0 0).1))

/-- What classes 5, 6 and 7 leave alone: an instruction of them that runs puts in flight results for the registers
that R28 names as its destinations, and its slot's flags, and counts a deprecated expansion; it touches no memory
(R154). -/
def Obligations.VectorInstructionsWriteOnlyTheirDestinations : Prop :=
  ∀ (s t : State) (i : Instr) (oc fn low : Nat) (x : Option (BitVec 27)), i.parts = some (oc, fn, low, x) →
    (oc = 5 ∨ oc = 6 ∨ oc = 7) → wellFormed i = true → exec i s = .next t → t.cur.fin = .ok →
    t = { s with shifts := t.shifts } ∧ SameOthers s t ∧ SameBytes s t
    ∧ ∃ r : List Landing, t.me = { s.me with inflight := s.me.inflight ++ r, k := { s.me.k with deprcnt := t.me.k.deprcnt } }
      ∧ ∀ e ∈ r, match e.what with
        | .g y _ _ => y.toNat ∈ gDests s.cur.row oc fn low
        | .v y _ => y.toNat ∈ vDests (fun _ => 0) oc fn low
        | .map y _ => y.toNat ∈ vDests (fun _ => 0) oc fn low
        | .flags _ => True
        | .win _ _ => False

/-! ### Windows, tags, guards (05 R101-R110) -/

/-- VLD, VLDC and VGATH (R105, R106): element e of the result is the scratchpad's element at the lane's region element
where that lies within the extents, and FILL elsewhere, bit for bit; the map is the window's; every byte stands. VLD
and VLDC run where no two granules meet in one bank, or in compatibility mode (R95, R100); VGATH runs in any case. A
window that is not valid raises LAYOUTRSV, precise (R101); the state answered is otherwise the one before. Outside
compatibility mode VLD, VST, VLDC and VSTC raise BANKCONF, precise, when two distinct granules of their elements
within the extents lie in one bank; ctx.finfo takes the bank and the offset of the first granule, in element order,
that meets an earlier one's (R95). Nothing else changes. VST, VSTC and VSCAT (R105, R106): each lane whose region
element lies within the extents is stored there, the highest lane's value standing where lanes meet; every byte that
no lane covers, and every register, stands. -/
def Obligations.WindowLoadsGatherTheirElements : Prop :=
  (∀ (s : State) (i : Instr) (d v b : R5) (w : BitVec 3) (x : Nat → List Nat) (m : CMap) (lat : Nat),
      let W := s.me.arch.w[w.toNat]?.getD .zero
      let F := W.fmt
      let c : List Nat := (List.range 6).map fun j => if j < 4 then (s.rdG b).toNat / 2 ^ (16 * j) % 2 ^ 16 else 0
      let at' (p q k : Nat) : List Nat := addAt c p (k % W.win p) q (k / W.win p)
      let offs := (List.range (elemCount F)).map fun e => if W.inside (x e) then some (W.off (x e)) else none
      let banks := distinctG (offs.flatMap fun o => match o with | some (k, _) => granulesOf k (locBytes F) | none => [])
      let cell (k n : Nat) : Nat := (k + n) % 2 ^ 24
      let word (k : Nat) : Nat := (List.range (locBytes F)).foldr (fun n acc => (s.byteS s.myGal (cell k n)).toNat + 256 * acc) 0
      (i = .vld d w b ∧ x = (fun e => at' W.vi W.vo e) ∧ m = State.loadMap W c W.vi W.vo ∧ lat = 8 ∧ (bankConflict [] banks = none ∨ s.me.k.compat = true)
        ∨ i = .vldc d w b ∧ x = (fun e => at' W.vo W.vi e) ∧ m = State.loadMap W c W.vo W.vi ∧ lat = 8 ∧ (bankConflict [] banks = none ∨ s.me.k.compat = true)
        ∨ i = .vgath d w v b ∧ x = (fun e => at' W.vi W.vo (getEl F (s.rdV v).data e)) ∧ F ≠ 6 ∧ s.cleanV [v] ∧ lat = 10
          ∧ m = (if d = v then .broken else { State.loadMap W c W.vi W.vo with st := .indexed, cmp := v })) →
      W.valid = true → (∀ l ∈ s.me.inflight, ∀ r y, l.what ≠ .win r y) → s.cleanG [b] → s.lsIdle →
      (∀ e, e < elemCount F → W.inside (x e) = true → ∀ n, n < locBytes F →
        s.violation s.cur.shift (cell (W.off (x e)).1 n) = none) →
      ∃ t els p, exec i s = .next t ∧ els.length = elemCount F
        ∧ t.me.inflight = (s.fly (.v d ⟨packEls F els, m, p⟩) lat).me.inflight
        ∧ (∀ e, e < elemCount F → els.getD e 0 =
            if W.inside (x e) = true then locExtract F (W.off (x e)).2 (word (W.off (x e)).1) else LRec.fillVal W.rcd)
        ∧ (p = true ↔ ∃ e, e < elemCount F ∧ W.inside (x e) = true
            ∧ ∃ n, n < locBytes F ∧ spKey s.myGal (cell (W.off (x e)).1 n) ∈ s.poisonS)
        ∧ t = { s with shifts := t.shifts } ∧ SameOthers s t ∧ SameBytes s t
        ∧ t.me = { s.me with inflight := t.me.inflight, k := { s.me.k with spstall := t.me.k.spstall } })
  ∧ (∀ (s : State) (d v b : R5) (w : BitVec 3), (s.me.arch.w[w.toNat]?.getD .zero).valid = false →
      (∀ l ∈ s.me.inflight, ∀ r y, l.what ≠ .win r y) → s.cleanG [b] → s.cleanV [d, v] →
      ∀ i ∈ [Instr.vld d w b, .vldc d w b, .vst d w b, .vstc d w b, .vgath d w v b, .vscat d w v b],
        ∃ t r, exec i s = .next t ∧ t = { s with cur := t.cur } ∧ t.cur.fin = .trap r false ∧ r.cause = .layoutrsv
          ∧ r.fpc = s.cur.x ∧ r.fslot = .ofNat 4 s.cur.slot)
  ∧ ((∀ (s : State) (i : Instr) (d b : R5) (w : BitVec 3) (x : Nat → List Nat) (g : Nat),
      let W := s.me.arch.w[w.toNat]?.getD .zero
      let F := W.fmt
      let c : List Nat := (List.range 6).map fun j => if j < 4 then (s.rdG b).toNat / 2 ^ (16 * j) % 2 ^ 16 else 0
      let at' (p q k : Nat) : List Nat := addAt c p (k % W.win p) q (k / W.win p)
      let offs := (List.range (elemCount F)).map fun e => if W.inside (x e) then some (W.off (x e)) else none
      let banks := distinctG (offs.flatMap fun o => match o with | some (k, _) => granulesOf k (locBytes F) | none => [])
      (i ∈ [Instr.vld d w b, .vst d w b] ∧ x = (fun e => at' W.vi W.vo e)
        ∨ i ∈ [Instr.vldc d w b, .vstc d w b] ∧ x = (fun e => at' W.vo W.vi e)) →
      W.valid = true → (∀ l ∈ s.me.inflight, ∀ r y, l.what ≠ .win r y) → s.cleanG [b] → s.cleanV [d] → s.lsIdle →
      s.me.k.compat = false → bankConflict [] banks = some g →
      ∃ t r, exec i s = .next t ∧ t = { s with cur := t.cur } ∧ t.cur.fin = .trap r false ∧ r.cause = .bankconf ∧ r.fpc = s.cur.x
        ∧ r.finfo = .ofNat 64 (g % 128 + 64 * g * 2 ^ 8))
    ∧ ∀ (l : List Nat) (g : Nat), bankConflict [] l = some g ↔
      ∃ a b, l = a ++ g :: b ∧ (∃ h ∈ a, h % 128 = g % 128) ∧ a.Pairwise fun h k => h % 128 ≠ k % 128)
  ∧ (∀ (s : State) (i : Instr) (d v b : R5) (w : BitVec 3) (x : Nat → List Nat),
      let W := s.me.arch.w[w.toNat]?.getD .zero
      let F := W.fmt
      let c : List Nat := (List.range 6).map fun j => if j < 4 then (s.rdG b).toNat / 2 ^ (16 * j) % 2 ^ 16 else 0
      let at' (p q k : Nat) : List Nat := addAt c p (k % W.win p) q (k / W.win p)
      let offs := (List.range (elemCount F)).map fun e => if W.inside (x e) then some (W.off (x e)) else none
      let banks := distinctG (offs.flatMap fun o => match o with | some (k, _) => granulesOf k (locBytes F) | none => [])
      let covers (e k : Nat) : Prop := W.inside (x e) = true ∧ ∃ n, n < locBytes F ∧ k = ((W.off (x e)).1 + n) % 2 ^ 24
      (i = .vst d w b ∧ x = (fun e => at' W.vi W.vo e) ∧ (bankConflict [] banks = none ∨ s.me.k.compat = true)
        ∨ i = .vstc d w b ∧ x = (fun e => at' W.vo W.vi e) ∧ (bankConflict [] banks = none ∨ s.me.k.compat = true)
        ∨ i = .vscat d w v b ∧ x = (fun e => at' W.vi W.vo (getEl F (s.rdV v).data e)) ∧ F ≠ 6 ∧ s.cleanV [v]) →
      W.valid = true → (∀ l ∈ s.me.inflight, ∀ r y, l.what ≠ .win r y) → s.cleanG [b] → s.cleanV [d] → s.lsIdle → s.memOk →
      (∀ e k, e < elemCount F → covers e k → s.violation s.cur.shift k = none) →
      ∃ t, exec i s = .next t
        ∧ (F ≠ 6 → ∀ e n, e < elemCount F → W.inside (x e) = true → n < locBytes F →
            (∀ e', e < e' → e' < elemCount F → ¬ covers e' (((W.off (x e)).1 + n) % 2 ^ 24)) →
            t.byteS s.myGal (((W.off (x e)).1 + n) % 2 ^ 24) = .ofNat 8 (getEl F (s.rdV d).data e / 256 ^ n))
        ∧ (∀ g k, (g ≠ s.myGal ∨ ∀ e, e < elemCount F → ¬ covers e k) → t.byteS g k = s.byteS g k)
        ∧ t = { s with gals := t.gals, poisonS := t.poisonS, shifts := t.shifts } ∧ SameOthers s t
        ∧ (∀ g, t.gal g = { s.gal g with sp := (t.gal g).sp })
        ∧ t.me = { s.me with k := { s.me.k with spstall := t.me.k.spstall } })

/-- RGLD (R108): the window becomes the record at G[A] and the origin block at G[B], within 8 cycles; without an
origin block the origin is 0, VI is the last dimension and VO the one before it (R102). VCOMP (R107): the selected
lanes move to the low lanes of vD and their indices to v(D+1). TAGQ finds the lowest slot that holds the key, or
answers −1; TAGSET and TAGCLR fill and clear one slot (R109). GUARD sets or clears the guard bits of the granules that
lie in the shift's window, and writes no other (R110). None of them writes a byte, or a register beside TAGQ's. That
VCOMP leaves a NONE or BROKEN map of its source as it is, in a T6 slot too, is the model's reading (log 57, DEDUCED). -/
def Obligations.WindowsTagsAndGuardsFollowTheirTables : Prop :=
  ((∀ (s : State) (w : BitVec 3) (a b : R5) (r : LRec) (o ctl : Nat),
      let p := (s.rdG a).toNat
      let q := (s.rdG b).toNat
      let num (k n : Nat) : Nat := (List.range n).foldr (fun j acc => (s.byteS s.myGal (k + j)).toNat + 256 * acc) 0
      let ok (k n : Nat) : Prop := ∀ j, j < n → s.violation s.cur.shift (k + j) = none ∧ spKey s.myGal (k + j) ∉ s.poisonS
      s.cleanG [a, b] → s.lsIdle → p % 8 = 0 → q % 8 = 0 → ok p 96 → (q ≠ 0 → ok q 32) →
      r = recOf (num p 96) → o = (if q = 0 then 0 else num q 32) → r.kind = 1 → recCheck r true none = none →
      ctl = (if q = 0 then (r.ndim - 1) + 16 * (if r.ndim = 1 then 1 else r.ndim - 2) else o / 2 ^ 192 % 2 ^ 32) →
      originBad r ctl (o / 2 ^ 224) = none →
      exec (.rgld w a b) s = .next (s.fly (.win w
        ⟨r, Vector.ofFn fun (j : Fin 6) => .ofNat 32 (o / 2 ^ (32 * j.val)), .ofNat 32 ctl, true⟩) 8))
    ∧ ∀ (s : State) (d a b : R5) (f : BitVec 3),
      let F := if s.slotFmt f = 6 then 0xB else s.slotFmt f
      let n := elemCount F
      let A := s.rdV a
      let sel := (List.range n).filter fun e => s.maskBit b e
      s.cleanV (if A.map.st = .indexed then [a, A.map.cmp] else [a]) → s.cleanG (State.maskSrc b n) → s.vLate a = false → ∃ vals idx m,
        exec (.vcomp d a b f) s = .next ((s.wrV d (packEls F vals) m 6).wrV (d + 1) (packEls F idx) .none 6)
        ∧ vals.length = n ∧ idx.length = n
        ∧ (∀ k e, sel[k]? = some e → vals.getD k 0 = getEl F A.data e
          ∧ idx.getD k 0 = if A.map.st = .indexed then getEl F (s.rdV A.map.cmp).data e else e)
        ∧ (∀ k, sel.length ≤ k → k < n → vals.getD k 0 = 0 ∧ idx.getD k 0 = 2 ^ fmtWidth F - 1)
        ∧ (A.map.st = .none ∨ A.map.st = .broken → m = A.map)
        ∧ (A.map.st = .affine ∨ A.map.st = .indexed → s.slotFmt f = F → A.map.width = fmtWidth F →
          m = { A.map with st := .indexed, cmp := d + 1, fmt := .ofNat 4 F })
        ∧ (A.map.st = .affine ∨ A.map.st = .indexed → s.slotFmt f ≠ F ∨ A.map.width ≠ fmtWidth F → m = .broken))
  ∧ (∀ (s : State) (d a b : R5), s.cleanG [a, b] → s.memOk →
      let G := s.gal s.myGal
      let slot := (s.rdG a).toNat % 2 ^ 12
      let tag (t : State) (k : Nat) : Option (BitVec 48) := ((t.gal s.myGal).tags.find? fun p => p.1 = k).map Prod.snd
      let frame (t : State) : Prop := t = { s with gals := t.gals, shifts := t.shifts } ∧ SameOthers s t ∧ SameBytes s t
        ∧ ∀ g, g ≠ s.myGal → t.gal g = s.gal g
      (∃ r, exec (.tagq d a) s = .next (s.wrG d r 4)
        ∧ ((∀ k, tag s k ≠ some ((s.rdG a).setWidth 48)) → r = 0xFFFFFFFFFFFFFFFF)
        ∧ (∀ k, k < 2 ^ 64 → tag s k = some ((s.rdG a).setWidth 48) → tag s r.toNat = some ((s.rdG a).setWidth 48) ∧ r.toNat ≤ k))
      ∧ (∃ t, exec (.tagset a b) s = .next t ∧ tag t slot = some ((s.rdG b).setWidth 48) ∧ (∀ k, k ≠ slot → tag t k = tag s k)
        ∧ frame t ∧ t.me = s.me ∧ t.gal s.myGal = { G with tags := (t.gal s.myGal).tags })
      ∧ (∃ t, exec (.tagclr a) s = .next t ∧ tag t slot = none ∧ (∀ k, k ≠ slot → tag t k = tag s k)
        ∧ frame t ∧ t.me = s.me ∧ t.gal s.myGal = { G with tags := (t.gal s.myGal).tags })
      ∧ ((s.rdG a).toNat % 64 = 0 → (s.rdG a).toNat ≤ 0xFFFFFF → s.lsIdle → ∀ z : Bool, ∃ t,
        exec (if z then .guardSet a b else .guardClr a b) s = .next t ∧ frame t
        ∧ t.gal s.myGal = { G with guard := (t.gal s.myGal).guard }
        ∧ (∀ g, g ∈ (t.gal s.myGal).guard ↔
            if (s.rdG a).toNat / 64 ≤ g ∧ g < min ((s.rdG a).toNat / 64 + (s.rdG b).toNat) 262144
              ∧ s.me.k.spbase.toNat ≤ g ∧ g < s.me.k.splim.toNat then z = true else g ∈ G.guard)
        ∧ t.me = { s.me with k := { s.me.k with spfault := t.me.k.spfault, spfirst := t.me.k.spfirst } }
        ∧ ((∀ g, (s.rdG a).toNat / 64 ≤ g → g < min ((s.rdG a).toNat / 64 + (s.rdG b).toNat) 262144 →
            s.me.k.spbase.toNat ≤ g ∧ g < s.me.k.splim.toNat) → t.me = s.me)))

/-! ### The matrix unit (09 R175-R202) -/

/-- Every MX instruction that runs is an entry at the tail of its shift's queue with a snapshot of its inputs (R176):
MZERO, MREL, MLDA and MSTA name a tile of the allotment and a valid window of the right format, MWR needs the
supervisor mode, a GEMM call passes the checks of R177 to R180. MPARM writes a parameter register at once (R197). What
an MX instruction refuses (R175, R177, R196, R198, R200, R202): a tile beyond the allotment, a routine beyond 63 and
MWR in user mode trap early, ILLEGAL and PRIV; a full queue stalls the bundle, which changes nothing else; MWAIT waits
while more than N entries stand unreleased in the queue, and goes on otherwise, MRD's results and the flags of the
calls then being due. Which parameters are checked at issue is the model's reading (log 47). -/
def Obligations.MatrixEntriesJoinTheQueue : Prop :=
  (∀ (s : State) (n t w : BitVec 3) (d a b : R5) (f : BitVec 3) (c : BitVec 10),
      let push (s : State) (op : MxOp) (sn : MxSnap) : State :=
        s.modMe fun x => { x with mxq := x.mxq ++ [⟨op, sn, s.cur.x, s.cur.bundle, none, 0, 0, none⟩] }
      let W := s.me.arch.w[w.toNat]?.getD .zero
      let sn := s.mxSnap
      (s.cleanG [a] → exec (.mparm n a) s = .next (s.modArch fun x => { x with m := x.m.setIfInBounds n.toNat (s.rdG a) }))
      ∧ ((Shift.mxLive s.me).length < 8 →
        (t.toNat < s.me.k.na.toNat →
          exec (.mzero t) s = .next (push s (.zero t) sn) ∧ exec (.mrel t) s = .next (push s (.rel t) sn)
          ∧ (s.cleanG [b] → (∀ l ∈ s.me.inflight, ∀ r y, l.what ≠ .win r y) → W.valid = true →
            (W.fmt = 0 ∨ W.fmt = 0xB → exec (.mlda t w b) s = .next (push s (.lda t w (s.rdG b)) sn))
            ∧ (W.fmt = s.slotFmt f → s.slotFmt f ≠ 7 → s.slotRm f < 4 →
              exec (.msta t w b f) s = .next (push s (.sta t w (s.rdG b) (f.setWidth 8)) sn))))
        ∧ (s.cleanG [a, b] → s.me.k.priv = true → exec (.mwr a b) s = .next (push s (.wr (s.rdG a) (s.rdG b)) sn))
        ∧ (s.cleanG [a] → exec (.mrd d a) s = .next (push s (.rd d (s.rdG a)) sn))
        ∧ (s.cleanG [a] → s.groupBad (s.rdG a) = false → s.cur.fin = .ok → ∃ g, exec (.mbgrp a) s = .next
            ((push s (.bgrp (s.rdG a)) sn).modMe fun x => { x with bgIss := g })
          ∧ g = if (s.rdG a).toNat % 2 ^ 8 = 0 then none
              else some (.ofNat 2 ((s.rdG a).toNat / 2 ^ 8), .ofNat 8 (s.rdG a).toNat))
        ∧ (c.toNat = 0 ∨ c.toNat = 1 ∨ c.toNat = 2 ∨ c.toNat = 5 → s.gemmCheck c.toNat sn = .ok () → fld (sn.p 2) 23 1 = 0 →
          exec (.mcall c) s = .next (push s (.call c.toNat) sn))
        ∧ (c.toNat = 3 → (sn.p 2).toNat % 8 < s.me.k.na.toNat → ∀ sn' s', s.mxRecords sn = .ok (sn', s') →
          epiBad sn' sn'.erec (s.galLimit sn'.erec) (sn'.p 6) sn'.eorg (sn'.p 7) ((sn.p 2).toNat % 8)
            ((s'.queuedMap s.cur.shift ((sn.p 2).toNat % 8)).live && (s'.queuedMap s.cur.shift ((sn.p 2).toNat % 8)).fmt = 0xB)
            (s'.queuedMap s.cur.shift ((sn.p 2).toNat % 8)) = none → (Shift.mxLive s'.me).length < 8 →
          exec (.mcall c) s = .next (push s' (.call 3) sn'))))
  ∧ (∀ (s : State) (n t w : BitVec 3) (a b : R5) (f : BitVec 3) (c : BitVec 10),
      let trap (o : Out) (k : Cause) : Prop := ∃ u r, o = .next u ∧ u.cur.fin = .trap r true ∧ r.cause = k ∧ r.fpc = s.cur.x
        ∧ r.fslot = .ofNat 4 s.cur.slot
      (s.me.k.na.toNat ≤ t.toNat → ∀ i ∈ [Instr.mzero t, .mrel t, .mlda t w b, .msta t w b f], trap (exec i s) .illegal)
      ∧ (64 ≤ c.toNat → trap (exec (.mcall c) s) .illegal)
      ∧ (s.me.k.priv = false → trap (exec (.mwr a b) s) .priv)
      ∧ (8 ≤ (Shift.mxLive s.me).length → t.toNat < s.me.k.na.toNat → ∀ i ∈ [Instr.mzero t, .mrel t],
          exec i s = .next { s with cur := { s.cur with fin := .blocked } })
      ∧ ((Shift.mxLive s.me).length ≤ n.toNat → exec (.mwait n) s = .next
          (s.modMe fun y => { y with
            mrd := y.mrd.map fun p => (p.1, p.2.1, p.2.2.1, true)
            mxFl := y.mxFl.map fun p => (p.1, p.2.1, p.2.2.1, true) }))
      ∧ (n.toNat < (Shift.mxLive s.me).length → s.me.mxFault = none → ∃ u, exec (.mwait n) s = .next u ∧ u.cur.fin = .blocked
          ∧ u.me.st = .blocked))

/-- MXQ_PERFORM (R175): the matrix unit of a core performs the head entry of the shift whose turn it is. A MZERO makes
its tile live and zero, a MREL not live, and a MRD reads the microprogram store. Each performance of a GEMM call
without broadcast, scales or epilogue takes one chunk of its k range, at whose boundary a pre-emption can stop it
(R194), and the last one releases the entry; once all are done, element (i, j) of its tile's corner is the
accumulation over the chunks: of the integer class the saturated sum, of the float class the exact chunk sum rounded
and then added and rounded, to nearest (R181). That one performance takes one chunk is the model's (log 16). -/
def Obligations.MatrixUnitPerformsTheHeadEntry : Prop :=
  ∀ (s : State) (c n : Nat) (e : MxEntry), s.arg = .unit c → s.mxNext c = some n → s.mxHead n = some e → State.isBcast e = false →
    (∀ t : BitVec 3, e.op = .zero t → ∃ u, exec .mxqPerform s = .next u ∧ (u.sh n).mxq = (s.sh n).mxq.drop 1
      ∧ u.tile n t.toNat = { Tile.zero with live := true })
    ∧ (∀ t : BitVec 3, e.op = .rel t → ∃ u, exec .mxqPerform s = .next u ∧ (u.sh n).mxq = (s.sh n).mxq.drop 1
      ∧ u.tile n t.toNat = { s.tile n t.toNat with live := false })
    ∧ (∀ (d : R5) (a : Word64), e.op = .rd d a → a.toNat < 2 ^ 10 → ∃ u, exec .mxqPerform s = .next u
      ∧ (u.sh n).mxq = (s.sh n).mxq.drop 1 ∧ (u.sh n).mrd = (s.sh n).mrd ++ [(d, s.ustoreWord (n / 4) a.toNat, e.bundle, false)])
    ∧ (∀ idx, e.op = .call idx → idx < 3 → e.bus = none → fld (e.snap.p 2) 23 1 = 0 →
      let g := gemmOf idx e.snap
      let A := (s.readA n g (List.range g.k)).1
      let B := ((s.readA n g (List.range g.k)).2.2.readB n g (List.range g.k)).1
      let val (f x : Nat) : Int := if f = 9 then ((x % 256 : Nat) : Int) else signedOf 8 x
      let a (i t : Nat) : Nat := (A.getD i []).getD t 0
      let b (j t : Nat) : Nat := (B.getD t []).getD j 0
      let chunk (i j : Nat) (acc : BitVec 32) (ts : List Nat) : BitVec 32 :=
        if g.isInt = true then
          .ofNat 32 (saturate 0xB (acc.toInt + (ts.map fun t => val g.fa (a i t) * val g.fb (b j t)).sum)).1
        else
          let p := (chunkSum (ts.map fun t => mulNum (decodeNum g.fa (a i t)).1 (decodeNum g.fb (b j t)).1)).1
          .ofNat 32 (Machine.round 0 (addNum (decodeFloat 0 acc.toNat) (decodeFloat 0 (Machine.round 0 p 0 0).1) false).1 0 0).1
      g.scale = none → 0 < g.k → g.m ≤ 128 → g.n ≤ 128 → g.tile < 8 → e.done < g.chunks.length →
      (e.done = 0 → g.acc = true → (s.tileSeen n g.tile).pois = false) →
      (∃ u, exec .mxqPerform s = .next u ∧ (u.tile n g.tile).live = true
        ∧ (u.sh n).mxq = (if e.done + 1 < g.chunks.length then
            [{ e with done := e.done + 1, fl := ((u.sh n).mxq.headD e).fl }] else []) ++ (s.sh n).mxq.drop 1
        ∧ ∀ i j, i < g.m → j < g.n → (u.tile n g.tile).get (128 * i + j) = chunk i j
            (if e.done ≠ 0 ∨ g.acc = true then (s.tileSeen n g.tile).get (128 * i + j) else 0) (g.chunks.getD e.done []))
      ∧ (e.done = 0 → ∀ f : Nat → State, f 0 = s → (∀ k, k < g.chunks.length → exec .mxqPerform (f k) = .next (f (k + 1))) →
        let u := f g.chunks.length
        (u.sh n).mxq = (s.sh n).mxq.drop 1 ∧ (u.tile n g.tile).live = true
          ∧ ∀ i j, i < g.m → j < g.n → (u.tile n g.tile).get (128 * i + j)
            = g.chunks.foldl (chunk i j) (if g.acc = true then (s.tileSeen n g.tile).get (128 * i + j) else 0)))

/-! ### The copy engine and claim lists (04 R70-R91, 03 R60-R69) -/

/-- CPY, CPYP, CPYZ and CPFILL (R70): the command block and the records, read from the shift's own scratchpad, pass
the checks of R73, and a snapshot of them is the last entry of the named queue; CPQF is an entry of every queue of its
mask (R87). Nothing else changes. A full queue blocks the shift instead. A claim instruction stands in all four copy
queues of its shift until it is performed (R69, 11 R219); CLAPP reads its extent image at issue, whatever the window,
SEAMRET stands behind the phase boundary of its bundle. That a claim instruction stands in all four queues, and is
performed at the head of each, is the model's reading (log 52), and so is that CLAPP reads its image at G[B] modulo
2^24 (log 88, DESIGN CHOICE). -/
def Obligations.CopiesAndClaimsJoinTheirQueues : Prop :=
  (∀ (s : State) (i : Instr) (q : BitVec 2) (a b c : R5) (kind : CpKind) (m : BitVec 4) (e : CpEntry),
      let num (k n : Nat) : Nat := (List.range n).foldr (fun j acc => (s.byteS s.myGal (k + j)).toNat + 256 * acc) 0
      let ok (k n : Nat) : Prop := k % 8 = 0 ∧ ∀ j, j < n → s.violation s.cur.shift (k + j) = none ∧ spKey s.myGal (k + j) ∉ s.poisonS
      let src := recOf (num (s.rdG a).toNat 96)
      let cmd (dst : LRec) : CopyCmd := ⟨kind, src, dst, blkOf (num (s.rdG c).toNat 64), s.cur.x, s.cur.bundle, [], none⟩
      let issued (c : CopyCmd) : CpEntry := .cmd { c with seen := s.seenOf s.cur.shift c } 0
      let two (n : Nat) : Prop := s.cleanG [a, b, c] ∧ ok (s.rdG a).toNat 96 ∧ ok (s.rdG b).toNat n ∧ ok (s.rdG c).toNat 64
        ∧ s.copyCheck (cmd (recOf (num (s.rdG b).toNat n))) (num (s.rdG b).toNat n) = none
        ∧ e = issued (cmd (recOf (num (s.rdG b).toNat n))) ∧ m = 1#4 <<< q.toNat
      (i = .cpy q a b c ∧ kind = .cpy ∧ two 96 ∨ i = .cpyp q a b c ∧ kind = .cpyp ∧ two 96
        ∨ i = .cpyz q a b c ∧ kind = .cpyz ∧ two 32
        ∨ i = .cpfill q a c ∧ kind = .cpfill ∧ s.cleanG [a, c] ∧ ok (s.rdG a).toNat 96 ∧ ok (s.rdG c).toNat 64
          ∧ s.copyCheck (cmd src) 0 = none ∧ e = issued (cmd src) ∧ m = 1#4 <<< q.toNat
        ∨ i = .cpqf m ∧ e = .join s.joinId m) →
      ((∀ k : Fin 4, m.getLsbD k.val = true → (s.me.cpq[k]).length < 16) → ∃ t, exec i s = .next t
        ∧ (∀ k : Fin 4, t.me.cpq[k] = if m.getLsbD k.val then s.me.cpq[k] ++ [e] else s.me.cpq[k])
        ∧ t = { s with shifts := t.shifts } ∧ SameOthers s t ∧ SameBytes s t ∧ t.me = { s.me with cpq := t.me.cpq })
      ∧ ((∃ k : Fin 4, m.getLsbD k.val = true ∧ 16 ≤ (s.me.cpq[k]).length) → ∃ t, exec i s = .next t ∧ t.cur.fin = .blocked
        ∧ t.me.cpq = s.me.cpq))
  ∧ (∀ (s : State) (i : Instr) (d a b c : R5) (f : BitVec 1) (op : ClaimOp),
      let p := (s.rdG b).toNat
      let img : BitVec 128 := .ofNat 128 ((List.range 16).foldr (fun j acc => (s.byteS s.myGal (p % 2 ^ 24 + j)).toNat + 256 * acc) 0)
      (i = .clapp d a b ∧ op = .clapp (s.rdG a) img ∧ p % 16 = 0 ∧ xPos img = 0 ∧ xTag img = 0 ∧ xSh img = false ∧ xRef img = 0
          ∧ (∀ j, j < 16 → spKey s.myGal (p % 2 ^ 24 + j) ∉ s.poisonS)
        ∨ i = .clshr d a b c ∧ op = .clshr (s.rdG a) (s.rdG b) (s.rdG c)
        ∨ i = .seamtag d a b ∧ op = .seamtag (s.rdG a) (s.rdG b)
        ∨ i = .seamret d a b f ∧ op = .seamret (s.rdG a) (s.rdG b) (f = 1) ∧ s.cur.bdone = true
        ∨ i = .hbudg d a b c ∧ op = .hbudg (s.rdG a) (s.rdG b) (s.rdG c)) →
      s.cleanG [a, b, c] → (∀ k : Fin 4, (s.me.cpq[k]).length < 16) → ∃ t, exec i s = .next t
        ∧ (∀ k : Fin 4, t.me.cpq[k] = s.me.cpq[k] ++ [.claim s.joinId d s.cur.x op])
        ∧ t = { s with shifts := t.shifts } ∧ SameOthers s t ∧ SameBytes s t ∧ t.me = { s.me with cpq := t.me.cpq })

/-- COPY_PERFORM (R70, R84, R86): a CPFILL of at most a slab into the shift's own scratchpad writes the record's FILL
at every coordinate of its window, counts one command done and leaves its queue; no other byte changes. A join leaves
its queues once it is at the head of each of them. AWSET arms an arrival word, leaves its generation and answers it at
the shift's next bundle (R90); CPST answers a queue's occupancy, whether its head is in progress, and its DONE count
(R91); an arrival adds its bytes modulo the target, and the generation counts how often the target is reached (R81).
CLAIM_PERFORM (R60, R69): the claim instruction at the head of all four queues is performed at its home as one
operation; its status arrives in its destination, and its entries leave. CLAPP appends its extent behind the list and
raises CUR and NEXT (R61, R62); SEAMTAG sets CTAG and answers the old one. Model's readings: AWSET is performed at
issue and answers at the next bundle (log 15), a claim stands in all four queues (log 52), and a copy moves any number
of a slab's elements in a step (log 35). -/
def Obligations.CopyQueuesAndClaimsPerform : Prop :=
  (∀ (s : State) (i : Instr) (n : Nat) (q : BitVec 2),
      (i = .copyPerform ∧ s.arg = .queue n (.cpq q) ∨ i = .perform ∧ s.arg = .queue n (.cpq q)) →
      (s.sh n).memTrap = none → (s.sh n).cpHold = false → (s.sh n).fences = [] → (s.sh n).lsq = [] →
      (∀ (c : CopyCmd) (rest : List CpEntry),
        let r : LRec := c.src
        let key (k : Nat) : Nat × Nat := recOff r (c.dstCoord k)
        (s.sh n).cpq[q.toNat]?.getD [] = .cmd c 0 :: rest → s.memOk → c.kind = .cpfill → r.kind = 1 → r.fmt ≠ 6 →
        Blk.aw c.blk = 0 → Blk.pres c.blk = 0 → 0 < c.n → c.n ≤ State.slabElems r.fmt →
        (∀ k, k < c.n → recInside r (c.dstCoord k) = true
          ∧ ∀ j, j < locBytes r.fmt → s.violation n ((key k).1 + j) = none) →
        (∀ k k' j j', (key k).1 + j = (key k').1 + j' → j < locBytes r.fmt → j' < locBytes r.fmt → j = j') →
        ∃ t, exec i s = .next t ∧ (t.sh n).cpq[q.toNat]?.getD [] = rest
          ∧ (t.sh n).done[q.toNat]?.getD 0 = ((s.sh n).done[q.toNat]?.getD 0) + 1
          ∧ (∀ k j, k < c.n → j < locBytes r.fmt → t.byteS (n / 32) ((key k).1 + j) = .ofNat 8 (LRec.fillVal r / 256 ^ j))
          ∧ (∀ g x, (g ≠ n / 32 ∨ ∀ k j, k < c.n → j < locBytes r.fmt → x ≠ (key k).1 + j) → t.byteS g x = s.byteS g x)
          ∧ (∀ k, t.byteM k = s.byteM k) ∧ (∀ h, h ≠ n → t.sh h = s.sh h))
      ∧ (∀ (id : Nat) (m : BitVec 4), (s.sh n).cpq[q.toNat]?.getD [] ≠ [] →
        (∀ k : Fin 4, m.getLsbD k.val = true → ((s.sh n).cpq[k]).head? = some (.join id m)) →
        ((s.sh n).cpq[q.toNat]?.getD []).head? = some (.join id m) →
        ∃ t, exec i s = .next t ∧ t = { s with shifts := t.shifts } ∧ (∀ h, h ≠ n → t.sh h = s.sh h)
          ∧ t.sh n = { s.sh n with cpq := (t.sh n).cpq }
          ∧ ∀ k : Fin 4, (t.sh n).cpq[k] = if m.getLsbD k.val = true then ((s.sh n).cpq[k]).drop 1 else (s.sh n).cpq[k]))
  ∧ ((∀ (s : State) (d a b : R5), s.memOk → s.cleanG [a, b] →
      let p := (s.rdG a).toNat
      let w : Word64 := .ofNat 64 ((List.range 8).foldr (fun j acc => (s.byteS s.myGal (p + j)).toNat + 256 * acc) 0)
      let v : Word64 := w.extractLsb' 48 16 ++ (s.rdG b).extractLsb' 0 24 ++ 0#24
      p % 8 = 0 → (∀ j, j < 8 → s.violation s.cur.shift (p + j) = none ∧ spKey s.myGal (p + j) ∉ s.poisonS) → ∃ t,
        exec (.awset d a b) s = .next t ∧ (∀ j, j < 8 → t.byteS s.myGal (p + j) = v.extractLsb' (8 * j) 8)
        ∧ (∀ g k, g ≠ s.myGal ∨ k < p ∨ p + 8 ≤ k → t.byteS g k = s.byteS g k)
        ∧ t.me = { s.me with mrd := s.me.mrd ++ [(d, (w.extractLsb' 48 16).setWidth 64, s.cur.bundle, true)] }
        ∧ t = { s with gals := t.gals, poisonS := t.poisonS, shifts := t.shifts } ∧ SameOthers s t)
    ∧ (∀ (s : State) (d : R5) (q : BitVec 2), ∃ v : Word64, exec (.cpst d q) s = .next (s.wrG d v 2)
      ∧ ((s.me.cpq[q.toNat]?.getD []).length < 32 → (v.extractLsb' 0 5).toNat = (s.me.cpq[q.toNat]?.getD []).length
        ∧ (v.getLsbD 5 = true ↔ ∃ c n, (s.me.cpq[q.toNat]?.getD []).head? = some (.cmd c n) ∧ n ≠ 0)
        ∧ v.extractLsb' 16 32 = s.me.done[q.toNat]?.getD 0))
    ∧ ∀ (w : Word64) (n : Nat),
      let target := (w.extractLsb' 24 24).toNat
      let count := (w.extractLsb' 0 24).toNat
      (target = 0 → arrivalAdd w n = w)
      ∧ (target ≠ 0 → ((arrivalAdd w n).extractLsb' 24 24).toNat = target
        ∧ ((arrivalAdd w n).extractLsb' 0 24).toNat = (count + n) % target
        ∧ ((arrivalAdd w n).extractLsb' 48 16).toNat = ((w.extractLsb' 48 16).toNat + (count + n) / target) % 2 ^ 16))
  ∧ ((∀ (s s' : State) (n id : Nat) (d : R5) (x : Addr) (op : ClaimOp) (v : Word64), s.arg = .unit n →
      s.claimHeadOf n = some (id, d, x, op) → s.assayPair n = none → s.claimRun n op = .done v s' → (s'.sh n) = s.sh n →
      ∃ t, exec .claimPerform s = .next t
        ∧ (d ≠ 0 → (t.sh n).arch.g[d.toNat] = v) ∧ (∀ r : R5, r ≠ d → (t.sh n).arch.g[r.toNat] = (s.sh n).arch.g[r.toNat])
        ∧ (∀ k : Fin 4, (t.sh n).cpq[k] = ((s.sh n).cpq[k]).drop 1) ∧ t.mem = s'.mem)
    ∧ ∀ (s : State) (e : BitVec 1024) (h : Word64) (t : Word64) (img : BitVec 128), s.memOk →
      let key := s.claimKey e (hSeq h)
      let cur := (s.claimHead key).1
      let tag := (s.claimHead key).2.1
      let next := (s.claimHead key).2.2
      (next < 32 → xLen img ≠ 0 → xStride img ≠ 0 → xRunp img ≠ 0 → xFpo img + xLen img ≤ 64 * xRunp img →
        cur + xLen img ≤ eExt e 0 → cur + xLen img < 2 ^ 24 → ∃ u, s.claimAppend e h img = (.ofNat 64 (cur + xLen img), u)
          ∧ u.claimHead key = (cur + xLen img, tag, next + 1)
          ∧ u.extents key = s.extents key ++ [xWith img (xLen img) cur tag false 0]
          ∧ ∀ k, (k < key ∨ key + 64 + 16 * 32 ≤ k) → u.byteM k = s.byteM k)
      ∧ (next = 32 → s.claimAppend e h img = (.ofInt 64 (-1), s))
      ∧ (t.toNat < 8 → ∃ u, s.claimTag e h t = (.ofNat 64 tag, u) ∧ u.claimHead key = (cur, t.toNat, next)
          ∧ ∀ k, (k < key ∨ key + 8 ≤ k) → u.byteM k = s.byteM k))

/-- COPY_PERFORM of a CPY or CPFILL inside the shift's own scratchpad (R76, R77, R81, R84, R86): every element of the
window, or FILL where a source outside its extents allows it, stands at its destination; where PRES is not 0 its bit
of the bitmap says whether it was present, and the bits beyond the last element of the last byte are 0; where AW is
not 0 the arrival word counts the bytes; the queue's DONE rises, the command leaves, and no other byte changes. How
many elements of a slab one step takes is open (log 35). -/
def Obligations.CopiesMoveTheirElements : Prop :=
  ∀ (s : State) (i : Instr) (n : Nat) (q : BitVec 2) (c : CopyCmd) (rest : List CpEntry),
    let src : LRec := c.src
    let dst : LRec := c.dstRec
    let g := n / 32
    let b := locBytes src.fmt
    let inside (k : Nat) : Bool := c.kind ≠ .cpfill && recInside src (c.srcCoord k)
    let S (k : Nat) : Nat := (recOff src (c.srcCoord k)).1
    let D (k : Nat) : Nat := (recOff dst (c.dstCoord k)).1
    let pres := Blk.pres c.blk
    let aw := Blk.aw c.blk
    let isD (x : Nat) : Prop := ∃ k j, k < c.n ∧ j < b ∧ x = D k + j
    let isP (x : Nat) : Prop := pres ≠ 0 ∧ pres ≤ x ∧ x < pres + (c.n + 7) / 8
    let isA (x : Nat) : Prop := aw ≠ 0 ∧ aw ≤ x ∧ x < aw + 8
    (i = .copyPerform ∧ s.arg = .queue n (.cpq q) ∨ i = .perform ∧ s.arg = .queue n (.cpq q)) →
    (s.sh n).memTrap = none → (s.sh n).cpHold = false → (s.sh n).fences = [] → (s.sh n).lsq = [] → s.memOk →
    (s.sh n).cpq[q.toNat]?.getD [] = .cmd c 0 :: rest → (c.kind = .cpy ∧ dst.fmt = src.fmt ∨ c.kind = .cpfill) → src.kind = 1 →
    dst.kind = 1 → src.fmt ≠ 6 → 0 < c.n → c.n ≤ State.slabElems src.fmt →
    (∀ k, k < c.n → (inside k = true ∨ c.kind = .cpfill ∨ src.fillen = true) ∧ recInside dst (c.dstCoord k) = true) →
    (∀ x, isD x ∨ isP x ∨ isA x ∨ (∃ k j, k < c.n ∧ inside k = true ∧ j < b ∧ x = S k + j) → s.violation n x = none) →
    (∀ k k' j j', D k + j = D k' + j' → k < c.n → k' < c.n → j < b → j' < b → k = k' ∧ j = j') →
    (∀ k j, k < c.n → inside k = true → j < b → ¬ isD (S k + j) ∧ ¬ isP (S k + j) ∧ ¬ isA (S k + j)) →
    (∀ x, ¬ (isD x ∧ isP x) ∧ ¬ (isD x ∧ isA x) ∧ ¬ (isP x ∧ isA x)) →
    ∃ t, exec i s = .next t ∧ (t.sh n).cpq[q.toNat]?.getD [] = rest
      ∧ (t.sh n).done[q.toNat]?.getD 0 = ((s.sh n).done[q.toNat]?.getD 0) + 1
      ∧ (∀ k j, k < c.n → j < b → t.byteS g (D k + j)
          = if inside k then s.byteS g (S k + j) else .ofNat 8 (LRec.fillVal src / 256 ^ j))
      ∧ (pres ≠ 0 → ∀ m, m < 8 * ((c.n + 7) / 8) → (t.byteS g (pres + m / 8)).getLsbD (m % 8)
          = (decide (m < c.n) && (inside m || decide (c.kind = .cpfill))))
      ∧ (aw ≠ 0 → memRead (t.gal g).sp aw 8 = (arrivalAdd (.ofNat 64 (memRead (s.gal g).sp aw 8)) (c.n * b)).toNat)
      ∧ (∀ h x, h ≠ g ∨ ¬ isD x ∧ ¬ isP x ∧ ¬ isA x → t.byteS h x = s.byteS h x)
      ∧ (∀ k, t.byteM k = s.byteM k) ∧ ∀ h, h ≠ n → t.sh h = s.sh h

/-- A CPYP (R81, R83, R85). At the sender each element leaves for the peer's gallery in order, and behind the last one
the end of the command with the bytes to count; the command then waits at the head of its queue. At the receiver a
packet of it writes its bytes where the grant table admits every granule. The answer ends the command. The packets'
kinds and the acknowledgement are the model's form of R85 and R311 (log 69), and so is the source number 0 of a packet
sent before SETCHIP (log 19). -/
def Obligations.PeerCopiesReachTheirPeer : Prop :=
  (∀ (s : State) (n : Nat) (q : BitVec 2) (c : CopyCmd) (rest : List CpEntry) (chip : Nat),
    let src : LRec := c.src
    let dst : LRec := c.dst
    let b := locBytes src.fmt
    let S (k : Nat) : Nat := (recOff src (c.srcCoord k)).1
    let id : CpId := ⟨q, s.freeN + 1⟩
    let out (body : PacketBody) : BitVec 13 × Packet := (.ofNat 13 chip, ⟨s.bar.chipNo, body⟩)
    s.arg = .queue n (.cpq q) → (s.sh n).memTrap = none → (s.sh n).cpHold = false → (s.sh n).fences = [] →
    (s.sh n).lsq = [] → s.assayPair n = none → (s.sh n).cpq[q.toNat]?.getD [] = .cmd c 0 :: rest → c.kind = .cpyp →
    c.seen = [] → src.kind = 1 → dst.kind = 2 → dst.fmt = src.fmt → src.fmt ≠ 6 → 0 < c.n → c.n ≤ State.slabElems src.fmt →
    Blk.pres c.blk = 0 → s.peerOf n dst = (some chip, dst.galF) → homeInDomain (some chip) = true →
    s.deadChip (some chip) = false →
    (∀ k, k < c.n → recInside src (c.srcCoord k) = true ∧ recInside dst (c.dstCoord k) = true
      ∧ ∀ j, j < b → s.violation n (S k + j) = none ∧ spKey (n / 32) (S k + j) ∉ s.poisonS) →
    ∃ t, exec .copyPerform s = .next t ∧ (t.sh n).cpq[q.toNat]?.getD [] = .cmd c c.n :: rest ∧ SameBytes s t
      ∧ t.netOut = s.netOut
        ++ ((List.range c.n).map fun k => out (.copy id dst.galF (recOff dst (c.dstCoord k)).1
            ((List.range b).map fun j => (s.byteS (n / 32) (S k + j), 0xFF#8)) false))
        ++ [out (.arrive id dst.galF (Blk.aw c.blk) (c.n * b))])
  ∧ (∀ (s : State) (c src : BitVec 13) (h : BitVec 480) (data rest : List (BitVec 480)) (id : CpId) (g off : Nat)
      (bytes : List (Byte × Byte)), s.arg = .chip c → lget s.linkFlits c.toNat [] = h :: (data ++ rest) →
    data.length = min 16 (Config.packetFlits h) → h.extractLsb' 0 13 = s.bar.chipNo → h.extractLsb' 13 13 = src →
    s.frame.hbmUp = true → s.bar.chipSet = true → (src, id) ∉ s.refusedCp → s.memOk →
    (Config.packetBody h data = .copy id g off bytes false →
      (∀ i, i < bytes.length → s.admits src.toNat g ((off + i) / 64) false = true) →
      ∃ t, exec .packet s = .next t ∧ lget t.linkFlits c.toNat [] = rest
        ∧ (∀ i d m, bytes[i]? = some (d, m) → t.byteS g (off + i) = (s.byteS g (off + i) &&& ~~~ m) ||| (d &&& m))
        ∧ (∀ k x, k ≠ g ∨ x < off ∨ off + bytes.length ≤ x → t.byteS k x = s.byteS k x) ∧ ∀ k, t.byteM k = s.byteM k)
    ∧ (∀ k, Config.packetBody h data = .arrive id g off k → off ≠ 0 → s.admits src.toNat g (off / 64) true = true →
      ∃ t, exec .packet s = .next t ∧ t.netOut = s.netOut ++ [(src, ⟨s.bar.chipNo, .ack id⟩)]
        ∧ memRead (t.gal g).sp off 8 = (arrivalAdd (.ofNat 64 (memRead (s.gal g).sp off 8)) k).toNat
        ∧ ∀ m x, m ≠ g ∨ x < off ∨ off + 8 ≤ x → t.byteS m x = s.byteS m x)
    ∧ (∀ n e, Config.packetBody h data = .ack id → s.sentCopy id = some (n, e) → s.assayPair n = none →
      ∃ t, exec .packet s = .next t ∧ (∃ l p k r, (s.sh n).cpq[id.q.toNat]?.getD [] = l ++ .cmd p k :: r ∧ p.kind = .cpyp
          ∧ (∀ y ∈ l, ∀ p k, y = .cmd p k → p.kind ≠ .cpyp) ∧ (t.sh n).cpq[id.q.toNat]?.getD [] = l ++ r)
        ∧ (t.sh n).done[id.q.toNat]?.getD 0 = ((s.sh n).done[id.q.toNat]?.getD 0) + 1 ∧ SameBytes s t))

/-- A gated command (R78, R84, R89): at its performance every element is translated and it enters the gate with none
of M written, a CPYZ with as many places as its source has nonzeros; each COMMIT then writes its next element: of a
CPY the source element; of a CPYZ the nonzeros in row-major order, each followed by its column, and then the row
pointers from NZ0 on. That all elements are translated as the command enters the gate is the model's (log 35), and so
is the count of a CPYZ there (log 51) and on which side its origin stands (log 20). -/
def Obligations.GatedCopiesCommitTheirElements : Prop :=
  (∀ (s : State) (n : Nat) (q : BitVec 2) (c : CopyCmd) (rest : List CpEntry) (srcs : List SrcEl) (dsts : List (Option Loc)),
    s.arg = .queue n (.cpq q) → (s.sh n).memTrap = none → (s.sh n).cpHold = false → (s.sh n).fences = [] →
    (s.sh n).lsq = [] → (s.sh n).cpq[q.toNat]?.getD [] = .cmd c 0 :: rest → State.gateCmds (s.sh n).gate < 64 →
    s.allSrc n c = .ok srcs → s.srcDead n c 0 = false →
    (c.kind = .cpy ∧ LRec.kind c.dst = 0 ∧ s.allDst n c = .ok dsts
      ∨ c.kind = .cpyz ∧ (s.sh n).gate = []
        ∧ s.cpyzDst n c (srcs.filter fun e => State.isNonzero (LRec.fmt c.src) (s.peekSrc n c.src e).1).length = .ok dsts) →
    ∃ t, exec .copyPerform s = .next t ∧ (t.sh n).gate = (s.sh n).gate ++ [.cmd c q srcs dsts (s.deadEls dsts) 0]
      ∧ (t.sh n).cpq[q.toNat]?.getD [] = rest ∧ (t.sh n).done[q.toNat]?.getD 0 = ((s.sh n).done[q.toNat]?.getD 0) + 1
      ∧ SameBytes s t)
  ∧ (∀ (s : State) (n : Nat) (q : BitVec 2) (c : CopyCmd) (srcs : List SrcEl) (dsts : List (Option Loc)) (done : Nat)
      (r : List GateEntry),
    let src : LRec := c.src
    let F := src.fmt
    let val (i : Nat) : Nat := (s.peekSrc n c.src (srcs.getD i .fill)).1
    let w1 := src.win 1
    let nz : List Nat := (List.range (src.win 0 * w1)).filter fun i => State.isNonzero F (val i)
    let nnz := nz.length
    -- the place, the format and the value of write number `done`
    let put : Nat × Nat × Nat :=
      if c.kind = .cpyz then
        (if done < 2 * nnz then
          (if done % 2 = 0 then (done / 2, F, val (nz.getD (done / 2) 0)) else (nnz + done / 2, 0xB, nz.getD (done / 2) 0 % w1))
        else (done, 0xB, (((c.dst[2]).extractLsb' 0 32).toNat
          + (nz.filter fun i => decide (i / w1 < done - 2 * nnz)).length) % 2 ^ 32))
      else (done, F, val done)
    let total := if c.kind = .cpyz then 2 * nnz + src.win 0 + 1 else c.n
    s.arg = .unit n → State.inCommit (s.sh n) = true → (s.sh n).gate = .cmd c q srcs dsts [] done :: r → s.memOk →
    (c.kind = .cpy ∧ LRec.kind c.dst = 0 ∧ LRec.fmt c.dst = F ∨ c.kind = .cpyz ∧ dsts.length = 2 * nnz + src.win 0 + 1 ∧ 0 < w1) →
    src.kind = 1 → F ≠ 6 → srcs.length = c.n → dsts.length = total → done < total →
    c.torn = none → c.seen.map (fun p => p.1) = (List.range c.n).map (fun i => (s.heldSrc n c.src (srcs.getD i .fill)).1) →
    ∀ key, dsts[put.1]? = some (some ⟨none, key, 0⟩) → ∃ t, exec .commit s = .next t ∧ t.cur.fin = .blocked
      ∧ (∀ j, j < locBytes put.2.1 → t.byteM (key + j) = .ofNat 8 (put.2.2 / 256 ^ j))
      ∧ (∀ k, k < key ∨ key + locBytes put.2.1 ≤ k → t.byteM k = s.byteM k)
      ∧ (t.sh n).gate = if done + 1 < total then .cmd c q srcs dsts [] (done + 1) :: r else r)

/-- Claims at their home (R64-R68). CLSHR gives an empty list the extents of another below a position, the last one
cut there, and every extent of their runs, in whatever list, counts one list more. SEAMRET takes the extents of a tag
out of their list, answers and counts their positions, with CLOSE closes the gaps, puts each run that no list refers
to any longer in the free queue with the time, lowers the counts of a shared one, and waits while the queue lacks
room; a tag above 7 is refused. HBUDG writes a head's budget. Which extents rise and fall where SH = 0 stands among
shared ones is log 86, whose free queue takes a run freed at another chip log 81. -/
def Obligations.ClaimListsShareRetireAndBudget : Prop :=
  ∀ (s : State) (e : BitVec 1024) (h : Word64), s.memOk →
    let key := s.claimKey e (hSeq h)
    let cur := (s.claimHead key).1
    let tag := (s.claimHead key).2.1
    let old := s.extents key
    (∀ q, q < eNseq e → (s.claimHead (s.claimKey e q)).2.2 ≤ 32) → hSeq h < eNseq e →
    (∀ (n k : Word64),
      let kn := s.claimKey e (hSeq n)
      let l := (old.filter fun x => decide (xPos x < k.toNat)).map fun x =>
        if k.toNat < xPos x + xLen x then xWith x (k.toNat - xPos x) (xPos x) (xTag x) (xSh x) (xRef x) else x
      let one (x : BitVec 128) : BitVec 128 :=
        if xBasef x ∈ l.map xBasef then xWith x (xLen x) (xPos x) (xTag x) true (if xSh x then xRef x + 1 else 2) else x
      hSeq n < eNseq e → hTid n = hTid h → (s.claimHead kn).1 = 0 → (s.claimHead kn).2.2 = 0 → k ≠ 0 → k.toNat ≤ cur →
      (∀ q, q < eNseq e → ∀ x ∈ s.extents (s.claimKey e q), xBasef x ∈ l.map xBasef → xSh x = true → xRef x < 255) →
      ∃ u, s.claimShare e h n k = (.ofNat 64 l.length, u) ∧ u.claimHead kn = (k.toNat, tag, l.length)
        ∧ u.extents kn = l.map one
        ∧ ∀ q, q < eNseq e → q ≠ hSeq n → u.extents (s.claimKey e q) = (s.extents (s.claimKey e q)).map one)
    ∧ (∀ (t : Word64) (close : Bool),
      let gone := old.filter fun x => xTag x = t.toNat
      let rest := old.filter fun x => xTag x ≠ t.toNat
      let n := (gone.map xLen).sum
      let down (x : BitVec 128) : BitVec 128 :=
        xWith x (xLen x) (xPos x - ((gone.filter fun y => xPos y < xPos x).map xLen).sum) (xTag x) (xSh x) (xRef x)
      let ring := s.d.fqbase.toNat * frameBytes
      (7 < t.toNat → s.claimRetire e h t close = some (.ofInt 64 (-2), s))
      ∧ (t.toNat ≤ 7 → (old.map xBasef).Nodup →
        ((∀ x ∈ gone, xSh x = false) →
          ((s.d.fqsize - (s.d.fqtail - s.d.fqhead)).toNat < gone.length → s.claimRetire e h t close = none)
          ∧ (gone.length ≤ (s.d.fqsize - (s.d.fqtail - s.d.fqhead)).toNat → gone.length ≤ s.d.fqsize.toNat →
            s.d.fqtail.toNat + gone.length < 2 ^ 64 → s.d.fqBad = false →
            (ring + 16 * s.d.fqsize.toNat ≤ key ∨ key + 1024 ≤ ring) → ∃ u, s.claimRetire e h t close = some (.ofNat 64 n, u)
              ∧ u.claimHead key = (if close then cur - n else cur, tag, rest.length)
              ∧ u.extents key = (if close then rest.map down else rest)
              ∧ u.readM (key + 8) 8 = (s.readM (key + 8) 8 + n) % 2 ^ 64
              ∧ u.d = { s.d with fqtail := s.d.fqtail + .ofNat 64 gone.length }
              ∧ ∀ i x, gone[i]? = some x → u.readM (ring + 16 * ((s.d.fqtail.toNat + i) % s.d.fqsize.toNat)) 16
                = xBasef x + xRunp x * xStride x % 2 ^ 24 * 2 ^ 40 + s.gtc.toNat * 2 ^ 64))
        ∧ (∀ x, gone = [x] → xSh x = true → ∃ u, s.claimRetire e h t close = some (.ofNat 64 n, u) ∧ u.d = s.d
          ∧ ∀ q, q < eNseq e → q ≠ hSeq h → u.extents (s.claimKey e q) = (s.extents (s.claimKey e q)).map fun y =>
            if xBasef y = xBasef x then
              (if xSh y then (if xRef y ≤ 2 then xWith y (xLen y) (xPos y) (xTag y) false 0
                else xWith y (xLen y) (xPos y) (xTag y) true (xRef y - 1)) else y)
            else y)))
    ∧ ∀ (hd v : Word64),
      let at_ := s.chipKey (s.entryHome e) (eBudf e * frameBytes + 8 * hd.toNat)
      let win := (v.extractLsb' 32 24).toNat
      eBud e = true → hd.toNat < 256 → hd.toNat < eExt e 1 → v.extractLsb' 56 8 = 0 → v.extractLsb' 15 17 = 0 →
      v.extractLsb' 1 7 = 0 → (v.extractLsb' 8 7).toNat ≤ 64 → (v.getLsbD 0 = true → win ≠ 0 ∧ win % 64 = 0) →
      ∃ u, s.claimBudget e hd v = (0, u) ∧ u.readM at_ 8 = v.toNat
        ∧ ∀ k, k < at_ ∨ at_ + 8 ≤ k → u.byteM k = s.byteM k

/-! ### Front accumulators (10 R204-R218) -/

/-- An arrival into a front (R207, R208), in the order of the rule: a NaN in an enabled objective sets NV and is
dropped; an arrival that a held tuple dominates, or equals under KEEPFIRST, is dropped; else the tuples that it
dominates leave, and it enters as the youngest with the age AGE, a full front giving way as its policy says. -/
def Obligations.FrontArrivalsFollowTheInsertionRule : Prop :=
  ∀ (s : State) (f : Front) (t : FTuple),
    let nan := f.isI32 = false ∧ ∃ k, k < f.nobj ∧ f.ena k = true ∧ (f.val (t.obj[k]?.getD 0)).isNan = true
    let good (a b : FTuple) (k : Nat) : Int := (if f.dir k then 1 else -1) * cmpNum (f.val (a.obj[k]?.getD 0)) (f.val (b.obj[k]?.getD 0))
    let dom (a b : FTuple) : Prop := (∀ k, k < f.nobj → f.ena k = true → 0 ≤ good a b k)
      ∧ ∃ k, k < f.nobj ∧ f.ena k = true ∧ 0 < good a b k
    let eq (a b : FTuple) : Prop := ∀ k, k < f.nobj → f.ena k = true → good a b k = 0
    let rest := f.tuples.filter fun h => !f.dominates t h
    let new : FTuple := { t with age := f.age }
    (∀ a b, f.dominates a b = true ↔ dom a b)
    ∧ (nan → s.insert f t = some (s, f, true))
    ∧ (¬ nan → (∃ h ∈ f.tuples, dom h t) → s.insert f t = some (s, f, false))
    ∧ (¬ nan → (∀ h ∈ f.tuples, ¬ dom h t) → f.keepAll = false → (∃ h ∈ f.tuples, eq h t) → s.insert f t = some (s, f, false))
    ∧ (¬ nan → (∀ h ∈ f.tuples, ¬ dom h t) → (f.keepAll = true ∨ ∀ h ∈ f.tuples, ¬ eq h t) →
      (rest.length ≠ f.cap → s.insert f t = some (s, { f with tuples := rest ++ [new], age := f.age + 1 }, false))
      ∧ (rest.length = f.cap →
        (f.ovf = 0 → s.insert f t = some (s, { f with tuples := rest }, false))
        ∧ (f.ovf = 1 → s.insert f t = some (s, { f with tuples := rest.drop 1 ++ [new], age := f.age + 1 }, false))
        ∧ (f.ovf = 2 → (f.isI32 = true ∨ ∀ h ∈ rest, (f.val (h.obj[0]?.getD 0)).isNan = false) → ∀ i w, rest[i]? = some w →
          (∀ j y, rest[j]? = some y → good w y 0 < 0 ∨ good w y 0 = 0 ∧ i ≤ j) →
          s.insert f t = some (s, { f with tuples := rest.eraseIdx i ++ [new], age := f.age + 1 }, false))
        ∧ (f.ovf = 2 → rest ≠ [] → ∃ i, i < rest.length
          ∧ s.insert f t = some (s, { f with tuples := rest.eraseIdx i ++ [new], age := f.age + 1 }, false))
        ∧ (f.ovf = 3 → s.insert f t = none)
        ∧ (f.ovf = 4 → s.insert f t = some (s.spillWrite f t, { f with tuples := rest, age := f.age + 1 }, false))))

/-- FCFG, FINS, FMERGE, FREAD, FCNT and FCLR on fronts of the allotment (R213-R217): a valid configuration empties the
front; the selected lanes, with the data of vB or with their linear coordinates as payload (an absent lane of an
INDEXED map stays out, and soft mode gives 0x8000_0000), or the other front's tuples, arrive in order; the tuples and
the count are read; what an arrival under TRAP meets raises FRONTOVF with nothing done. FSAVE writes the image of a
front, and FLOAD makes a front of it again (R218): saving a front of the allotment to a place of the shift's window
and loading it gives the same configuration, tuples and AGE; only the image's bytes change. That insertions are
performed within their bundle, their flags landing within the bound, is the model's reading (log 56, DEDUCED). -/
def Obligations.FrontInstructionsUpdateTheirFront : Prop :=
  (∀ (s : State) (n m : BitVec 2) (d a b c : R5),
      let f := s.front n.toNat
      let g := s.front m.toNat
      let put (t : State) (x : Front) : State := t.modArch fun r => { r with fronts := r.fronts.setIfInBounds n.toNat x }
      let lane (r : R5) (e : Nat) : BitVec 32 := (s.rdV r).data.extractLsb' (32 * e) 32
      let tuple (e : Nat) : FTuple :=
        ⟨Vector.ofFn fun (k : Fin 4) => if k.val < f.nobj then lane (a + .ofNat 5 k.val) e else 0, lane b e, 0⟩
      let lanes := ((List.range 64).filter fun e => (s.rdG c).getLsbD e).map fun e => (e, tuple e)
      let done (o : Out) (l : List (Nat × FTuple)) : Prop :=
        (∀ t x nv, s.insertAll f false l = .ok (t, x, nv) → o = .next ((put t x).wrFlags (if nv then flagNV else 0) 70))
        ∧ (∀ i, s.insertAll f false l = .error i → ∃ t r, o = .next t ∧ t.cur.fin = .trap r false ∧ r.cause = .frontovf
            ∧ r.finfo = .ofNat 64 (i + n.toNat * 256))
      n.toNat < s.me.k.nf.toNat → m.toNat < s.me.k.nf.toNat →
      (s.cleanG [a] → frontCfgOk (s.rdG a) = true → exec (.fcfg n a) s = .next (put s ⟨s.rdG a, [], 0, false⟩))
      ∧ exec (.fclr n) s = .next (put s { f with tuples := [], age := 0, pois := false })
      ∧ (f.pois = false →
        (f.cfg = 0 → exec (.fcnt d n) s = .next (s.wrG d 0 2))
        ∧ (f.cfg ≠ 0 → exec (.fcnt d n) s = .next (s.wrG d (f.age ++ BitVec.ofNat 32 f.tuples.length) 2))
        ∧ (f.cfg ≠ 0 → d.toNat + f.nobj ≤ 31 → ∃ t, exec (.fread d n) s = .next t ∧ t = { s with shifts := t.shifts }
          ∧ t.me = { s.me with inflight := s.me.inflight ++ (List.range (f.nobj + 1)).map fun k =>
              (⟨.v (d + .ofNat 5 k) ⟨packEls 0xB (f.tuples.map fun u => (if k < f.nobj then u.obj[k]?.getD 0 else u.pay).toNat),
                .none, false⟩, 8, s.cur.bundle, s.cur.slot, s.cur.x⟩ : Landing) })
        ∧ (f.cfg ≠ 0 → a.toNat + f.nobj ≤ 32 → s.cleanV ((List.range f.nobj).map (fun k => a + .ofNat 5 k) ++ [b]) → s.cleanG [c] →
          done (exec (.fins 0 n a b c) s) lanes)
        ∧ (f.cfg ≠ 0 → a.toNat + f.nobj ≤ 32 → s.cleanV ((List.range f.nobj).map (fun k => a + .ofNat 5 k)) → s.cleanG [c] →
          (∀ q, s.readMap a 32 = .ok (some ⟨q, none⟩) → q.st = .affine →
            done (exec (.fins 1 n a b c) s) (lanes.map fun p => (p.1, { p.2 with pay := .ofNat 32 p.1 })))
          ∧ (∀ q, s.readMap a 32 = .ok (some ⟨q, none⟩) → q.st = .indexed → done (exec (.fins 1 n a b c) s)
            ((lanes.filter fun p => lane q.cmp p.1 != 0xFFFFFFFF).map fun p => (p.1, { p.2 with pay := lane q.cmp p.1 })))
          ∧ (s.readMap a 32 = .ok none → done (exec (.fins 1 n a b c) s) (lanes.map fun p => (p.1, { p.2 with pay := 0x80000000 }))))
        ∧ (n ≠ m → f.cfg ≠ 0 → g.cfg ≠ 0 → g.pois = false → f.cfg.toNat % 2 ^ 22 = g.cfg.toNat % 2 ^ 22 →
          done (exec (.fmerge n m) s) (g.tuples.zipIdx.map fun p => (p.2, p.1)))))
  ∧ (∀ (s : State) (n m : BitVec 2) (b : R5),
      let f := s.front n.toNat
      let p := (s.rdG b).toNat
      let len := 64 + 32 * f.tuples.length
      n.toNat < s.me.k.nf.toNat → m.toNat < s.me.k.nf.toNat → f.pois = false → s.memOk → s.cleanG [b] → s.lsIdle → p % 64 = 0 →
      (∀ k, k < len → s.violation s.cur.shift (p + k) = none) → frontCfgOk f.cfg = true → f.tuples.length ≤ f.cap →
      (∀ t ∈ f.tuples, ∀ k, k < 4 → (f.nobj ≤ k → t.obj[k]?.getD 0 = 0)
        ∧ (k < f.nobj → f.ena k = true → f.isI32 = false → (f.val (t.obj[k]?.getD 0)).isNan = false)) →
      ∃ t u, exec (.fsave n b) s = .next t ∧ t = { s with gals := t.gals, poisonS := t.poisonS }
        ∧ (∀ g k, g ≠ s.myGal ∨ k < p ∨ p + len ≤ k → t.byteS g k = s.byteS g k)
        ∧ exec (.fload m b) t = .next u ∧ u = { t with shifts := u.shifts } ∧ SameOthers t u
        ∧ u.me = { t.me with arch := { t.me.arch with fronts := t.me.arch.fronts.setIfInBounds m.toNat f } })

/-! ### Synchronisation and system instructions (11, 13, 14) -/

/-- The instructions of class 12 behind their boundary: PHASE has no further effect (R232); FENCE goes on and
completes later, its result interlocked (R233); AWAIT goes on when the word's generation differs, and waits while it
is the same (04 R92); RETIRE has its bundle's end end the task (R279), or, when its own commit has left something to
report, raises that: a refusal GRANT, a violation GUARD or SPWIN, a failed store or element LINK (R224, 05 R99); YIELD
has it give the core up (R280); TIME reads the GTC (R282); SLEEPT waits for the next multiple of 100 ns (R283). At the
end of such a bundle a YIELD leaves all that the shift holds, and the core takes another READY shift if there is one;
a RETIRE makes the task's TAKEN slots DONE, HEAD passing one that stands there, writes its trace record, counts the
task as retired, and leaves the shift IDLE without a task, its registers as they are. BARG and BARD (R275, R276): an
arrival that completes a barrier releases it, and all that arrived may go on; one that does not waits; a shift that
has been released goes on, its barrier state cleared; a count of 0 or beyond the shifts of a gallery or device is a
QUEUE trap. Stage queues (13 R264, R277, R278): a producer's ENQ reserves the next slot and copies 64 bytes of the
scratchpad into it, with their poison, RES going on by one and no other byte changing, or closes the queue at its next
boundary; a consumer's DEQ takes the oldest READY slot, which becomes TAKEN and the shift's, and answers its offset at
the shift's next bundle, all ones on a closed queue with nothing left; each waits otherwise. Model's readings: which
entries a FENCE covers (log 45), that a DEQ's result arrives with the shift's next bundle (log 49), the opaque payload
of a RETIRE record (log 32), that each launch has its own BARD barriers (log 60), that ENQ carries poison (log 70),
how SLEEPT rounds (log 74), and that of several pending refusals the oldest is reported (log 64). -/
def Obligations.SynchronisationInstructionsRun : Prop :=
  (∀ (s : State) (d a b : R5) (e : BitVec 3),
      let p := (s.rdG a).toNat
      let gen : BitVec 16 := s.byteS s.myGal (p + 7) ++ s.byteS s.myGal (p + 6)
      let bad : Prop := fld s.me.k.spfault 32 2 ≠ 0 ∧ s.me.k.compat = false
      let failed : Prop := s.me.status.link = true ∨ s.me.status.nfail ≠ 0
      let wait (w : BlockWhy) (o : Out) : Prop := ∃ t, o = .next t ∧ t.cur.fin = .blocked ∧ t.me.st = .blocked ∧ t.me.blockOn = some w
      (s.cur.bdone = true → exec .phase s = .next s
        ∧ (¬ (s.me.bndSt = .taken ∧ (s.me.grantPend ≠ [] ∨ bad ∨ failed)) → exec .retire s = .next (s.setAfter .retire))
        ∧ (s.me.bndSt = .taken → s.me.lsq = [] → s.me.gate = [] → (∀ k : Fin 4, s.me.cpq[k] = []) →
          let raises (c : Cause) (i : Word64) (P : State → Prop) : Prop := ∃ t r, exec .retire s = .next t
            ∧ t.cur.fin = .trap r false ∧ r.cause = c ∧ r.fpc = s.cur.x ∧ r.finfo = i ∧ P t
          (∀ chip b l, s.me.grantPend = (chip, b) :: l → raises .grant (chip.setWidth 64) fun _ => True)
          ∧ (s.me.grantPend = [] → bad → raises (if fld s.me.k.spfault 32 2 = 1 then .guard else .spwin) s.me.k.spfault
              fun t => t.me.k.spfault = 0)
          ∧ (s.me.grantPend = [] → ¬ bad → failed → raises .link (s.me.status.word false) fun t => t.me.status = .clear)))
      ∧ exec .yield s = .next (s.setAfter .yield)
      ∧ exec (.fence d e) s = .next (s.modMe fun x => { x with fences := x.fences ++ [⟨d, e, s.cur.bundle, 0⟩] })
      ∧ exec (.time d) s = .next (s.wrG d s.gtc 2)
      ∧ (s.cleanG [a, b] → s.memOk → p % 8 = 0 → s.reportViol = none → s.me.awaiting = none →
        (∀ j, j < 8 → s.violation s.cur.shift (p + j) = none ∧ spKey s.myGal (p + j) ∉ s.poisonS) →
        (gen ≠ (s.rdG b).extractLsb' 0 16 → exec (.await a b) s = .next s)
        ∧ (gen = (s.rdG b).extractLsb' 0 16 → wait (.await (.ofNat 24 p) gen false) (exec (.await a b) s)))
      ∧ (s.cleanG [a] →
        (p ≤ s.gtc.toNat / 100 * 100 → exec (.sleept a) s = .next s)
        ∧ (s.gtc.toNat / 100 * 100 < p → s.gtc.toNat < (p + 99) / 100 * 100 → wait (.sleep ((p + 99) / 100 * 100)) (exec (.sleept a) s)))
      ∧ (let n := s.cur.shift
         let g := n / 32
         let core := State.shiftsOf (n / 4)
         let sl := (s.gal g).slots
         let c := ({ s with cur := { s.cur with after := .nothing } }.closeBundle).sh n
         let t := s.closeBundle
         (s.cur.after = .yield → t.sh n = { c with st := (t.sh n).st, blockOn := none, waitCy := 0 } ∧ SameBytes s t
           ∧ ((∀ m ∈ core, m ≠ n → (s.sh m).st ≠ .running) →
             ((∀ m ∈ core, m ≠ n → (s.sh m).st ≠ .ready) → (t.sh n).st = .running)
             ∧ ((∃ m ∈ core, m ≠ n ∧ (s.sh m).st = .ready) → (t.sh n).st = .ready ∧ ∃ m ∈ core, m ≠ n ∧ (t.sh m).st = .running)))
         ∧ (s.cur.after = .retire →
           (t.sh n).task = none ∧ (t.sh n).st = .idle ∧ (t.sh n).blockOn = none ∧ (t.sh n).bound = s.me.bound
           ∧ (t.sh n).arch = c.arch ∧ c.arch.g = s.me.arch.g ∧ c.arch.fronts = s.me.arch.fronts ∧ (t.sh n).tiles = s.me.tiles
           ∧ (∀ y ∈ (t.gal g).slots, y.owner = n → y.st ≠ .taken)
           ∧ ((∀ y ∈ sl, ∀ z ∈ sl, y.q = z.q → y.idx = z.idx → y = z) → ∀ y ∈ sl, y.owner ≠ n → y.st ≠ .done → y ∈ (t.gal g).slots)
           ∧ (∀ y d, y ∈ sl → y.owner = n → y.st = .taken → s.myQueues n = [(y.q, d)] → y.idx.toNat = s.qHead g d →
             (∀ z ∈ (t.gal g).slots, z.q = y.q → z.idx ≠ y.idx)
             ∧ (sl = [y] → s.memOk → memRead (t.gal g).sp (d.cb + 8) 4 = (s.qHead g d + 1) % 2 ^ 32
               ∧ memRead (t.gal g).sp (d.cb + 18) 2 = 0))
           ∧ (∀ seq k, s.me.bound = some (seq, k) → s.isTwin n = false →
             t.launches = s.launches.map fun l => if l.seq = seq then { l with retired := bump l.retired k } else l)
           ∧ (s.d.trmask.getLsbD 2 = true → s.d.trtail - s.d.trhead ≠ s.d.trsize → s.memOk → ∀ k, s.me.task = some k →
             t.d.trtail = s.d.trtail + 1
             ∧ memRead t.mem (s.d.trbase.toNat * 65536 + 32 * (s.d.trtail.toNat % s.d.trsize.toNat)) 32
               = State.recordBits s.gtc (State.srcOf n 0) 2 0 k.num (Config.payload 2 [k.cycles]) % 2 ^ 256))))
  ∧ (∀ (s : State) (a : R5) (b : BitVec 2) (dev : Bool),
      let i : Instr := if dev then .bard a b else .barg a b
      let c := (s.rdG a).toNat % 2 ^ 16
      let n := s.cur.shift
      let old := s.barrier n dev b
      s.cleanG [a] → s.cur.bdone = true → s.cur.fin = .ok →
      (c = 0 ∨ (if dev then 2044 else 32) < c → ∃ t r, exec i s = .next t ∧ t.cur.fin = .trap r false ∧ r.cause = .queue
        ∧ r.finfo = .ofNat 64 (4 + b.toNat * 256))
      ∧ (0 < c → c ≤ (if dev then 2044 else 32) →
        (s.me.barr = some true → exec i s = .next (s.modMe fun y => { y with barr := none }))
        ∧ (s.me.barr = none → (∀ k, s.assayPair k = none) → s.saved = [] → old.arrivals.Nodup → n ∉ old.arrivals →
          (old.arrivals = [] ∨ old.count = c) →
          (old.arrivals.length + 1 < c → ∃ t, exec i s = .next t ∧ t.cur.fin = .blocked ∧ t.me.blockOn = some .barrier
            ∧ t.barrier n dev b = ⟨c, old.arrivals ++ [n]⟩)
          ∧ (old.arrivals.length + 1 = c → ∃ t, exec i s = .next t ∧ t.cur.fin = .ok ∧ t.me.barr = none
            ∧ t.barrier n dev b = .empty ∧ ∀ m ∈ old.arrivals, (t.sh m).barr = some true))))
  ∧ (∀ (s : State) (d a n : R5) (q : QueueDecl),
      let p := (s.rdG a).toNat
      let g := s.myGal
      s.queueDecl s.cur.shift n.toNat = some q → s.myStage ≠ none →
      (q.prod = s.myStage → s.cleanG [a] → s.qClosed g q = false → s.closePending n.toNat = false →
        (a = 0 → exec (.enq n a 1) s = .next (s.modMe fun x => { x with closePend := x.closePend ++ [n.toNat] }))
        ∧ (∀ c : BitVec 1, p % 64 = 0 → s.qOcc g q ≠ q.cap → s.lsIdle → (c = 0 ∨ a ≠ 0) → ∃ t, exec (.enq n a c) s = .next t
          ∧ (t.gal g).slots = (s.gal g).slots ++ [⟨n.toNat, .ofNat 32 (s.qRes g q), .rsvd, s.cur.shift, s.cur.bundle⟩]
          ∧ t.me.arch = s.me.arch ∧ t.me.closePend = s.me.closePend ++ (if c = 1 then [n.toNat] else [])
          ∧ (∀ k, t.byteM k = s.byteM k) ∧ (∀ h, h ≠ g → t.gal h = s.gal h)
          ∧ (let off := (q.ring + 64 * (s.qRes g q % q.cap)) % 2 ^ 24
             let bad (k : Nat) : Prop := s.violation s.cur.shift k ≠ none
             (s.memOk → ∀ k, (k < off ∨ off + 64 ≤ k) → (k < q.cb + 12 ∨ q.cb + 16 ≤ k) → t.byteS g k = s.byteS g k)
             ∧ (s.memOk → (∀ j, j < 64 → ¬ bad (off + j)) → (p + 64 ≤ q.cb + 12 ∨ q.cb + 16 ≤ p) →
               (∀ j, j < 64 → (bad (p + j) → t.byteS g (off + j) = 0) ∧ (¬ bad (p + j) → t.byteS g (off + j) = s.byteS g (p + j))
                 ∧ (spKey g (off + j) ∈ t.poisonS ↔ ∃ i, i < 64 ∧ ¬ bad (p + i) ∧ spKey g (p + i) ∈ s.poisonS))
               ∧ (off + 64 ≤ q.cb + 12 ∨ q.cb + 16 ≤ off → memRead (t.gal g).sp (q.cb + 12) 4 = (s.qRes g q + 1) % 2 ^ 32))))
        ∧ (p % 64 = 0 → a ≠ 0 → s.qOcc g q = q.cap → ∃ t, exec (.enq n a 0) s = .next t ∧ t.cur.fin = .blocked
          ∧ t.me.blockOn = some (.enq n.toNat)))
      ∧ (q.cons = s.myStage →
        (∀ x, s.oldestReady g n.toNat q = some x → ∃ t, exec (.deq d n) s = .next t
          ∧ t.me.mrd = s.me.mrd ++ [(d, .ofNat 64 ((q.ring + 64 * (x.idx.toNat % q.cap)) % 2 ^ 24), s.cur.bundle, true)]
          ∧ t.me.arch = s.me.arch ∧ (∀ k, t.byteM k = s.byteM k) ∧ (∀ h, h ≠ g → t.gal h = s.gal h)
          ∧ (s.memOk → ∀ k, k < q.cb + 8 ∨ q.cb + 20 ≤ k → t.byteS g k = s.byteS g k)
          ∧ ((∀ y ∈ (s.gal g).slots, ∀ z ∈ (s.gal g).slots, y.q = z.q → y.idx = z.idx → y = z) →
            { x with st := .taken, owner := s.cur.shift, bundle := s.cur.bundle } ∈ (t.gal g).slots
            ∧ ∀ y ∈ (s.gal g).slots, y ≠ x → y.st ≠ .done → y ∈ (t.gal g).slots))
        ∧ (s.oldestReady g n.toNat q = none → s.slotsIn g n.toNat .rsvd = [] → s.qClosed g q = true → ∃ t,
          exec (.deq d n) s = .next t ∧ t.me.mrd = s.me.mrd ++ [(d, 0xFFFFFFFFFFFFFFFF, s.cur.bundle, true)]
          ∧ t.me.arch = s.me.arch ∧ SameBytes s t)
        ∧ (s.oldestReady g n.toNat q = none → s.qClosed g q = false → ∃ t, exec (.deq d n) s = .next t
          ∧ t.cur.fin = .blocked ∧ t.me.blockOn = some (.deq n.toNat))))

/-- CSRR reads, CSRW, CSRS and CSRC write, set and clear a CSR that the chapters assign; user code reads the numbers
below 0x100 and writes those of them that it may; a write to a read-only CSR or an unassigned number is ILLEGAL, a
supervisor CSR in user mode PRIV with the CSR's number, both before anything is read (R302, R291, R23). A write lands
in its register, the reserved and fixed bits apart; every other CSR reads as before, and no other register, and no
byte, changes. A write that would change ctx.mode.PORT is ILLEGAL, any other write to ctx.mode changes nothing (02
R40). -/
def Obligations.CsrAccessesFollowTheirNumber : Prop :=
  ∀ (s : State) (d a : R5) (c : BitVec 12),
    let v := s.rdG a
    let old := s.csrGet s.cur.shift c.toNat
    let writes : List (Instr × Word64 × Bool) := [(.csrw a c, v, true), (.csrs a c, old ||| v, true), (.csrc a c, old &&& ~~~ v, false)]
    let illegal (o : Out) : Prop := ∃ t r, o = .next t ∧ t.cur.fin = .trap r true ∧ r.cause = .illegal ∧ r.fpc = s.cur.x
    let priv (o : Out) : Prop := ∃ t r, o = .next t ∧ t.cur.fin = .trap r true ∧ r.cause = .priv ∧ r.fpc = s.cur.x
      ∧ r.finfo = c.setWidth 64
    (csrKnown c.toNat = false → illegal (exec (.csrr d c) s))
    ∧ (csrKnown c.toNat = true → (s.me.k.priv = true ∨ c.toNat < 0x100) →
      exec (.csrr d c) s = .next (s.wrG d old 2))
    ∧ (csrKnown c.toNat = true → s.me.k.priv = false → 0x100 ≤ c.toNat → priv (exec (.csrr d c) s))
    ∧ (∀ w ∈ writes,
      (csrKnown c.toNat = false ∨ csrReadOnly c.toNat = true → illegal (exec w.1 s))
      ∧ (csrKnown c.toNat = true → csrReadOnly c.toNat = false →
        (s.me.k.priv = false → (0x100 ≤ c.toNat ∨ csrSupWrite c.toNat = true) → priv (exec w.1 s))
        ∧ (s.me.k.priv = false → c.toNat = 1 → w.2.2 = true → v.getLsbD 1 = true → s.me.pendingG.contains a = false →
          (s.me.k.port = true → s.me.pendingMx.contains a = false) →
          priv (exec w.1 s))
        ∧ (s.cleanG [a] → c.toNat ≠ 0 → (s.me.k.priv = true ∨ c.toNat < 0x100 ∧ csrSupWrite c.toNat = false
            ∧ (c.toNat = 1 → w.2.2 = true → v.getLsbD 1 = false)) → exec w.1 s = .next (s.csrSet c.toNat w.2.1))))
    ∧ (s.cleanG [a] → ∀ w ∈ [(Instr.csrw a 0, v), (.csrs a 0, s.csrGet s.cur.shift 0 ||| v),
        (.csrc a 0, s.csrGet s.cur.shift 0 &&& ~~~ v)],
      (w.2.getLsbD 0 = (s.csrGet s.cur.shift 0).getLsbD 0 → exec w.1 s = .next s)
      ∧ (w.2.getLsbD 0 ≠ (s.csrGet s.cur.shift 0).getLsbD 0 → ∃ t r, exec w.1 s = .next t ∧ t.cur.fin = .trap r false
        ∧ r.cause = .illegal ∧ r.fpc = s.cur.x ∧ r.finfo = .ofNat 64 Illegal.opnd.code))
    ∧ (∀ p ∈ ([(0x002, 0x1FF), (0x003, ~~~ 0), (0x005, 0xF), (0x006, ~~~ 0), (0x007, 0x3FF), (0x010, ~~~ 3), (0x011, ~~~ 0x711E00),
        (0x021, 1), (0x022, 0xFFF), (0x023, 0x7F), (0x024, ~~~ 0), (0x025, ~~~ 0), (0x030, 0xFFFFC0), (0x031, 0x1FFFFC0), (0x032, 1),
        (0x033, 0x1FFFFFF), (0x034, ~~~ 0), (0x035, 0xFF03FFFFFFFF), (0x048, 0xFE03FFFFFFFFFFFF), (0x049, 0x7F),
        (0x100, 0xFFFFFFFFFF), (0x101, 0xFFFFFFFF), (0x120, 0xFFFFFFFFFF), (0x121, ~~~ 0), (0x122, ~~~ 0), (0x124, 0xFFFFFFFF),
        (0x130, 0xFFFFFFFFFF), (0x131, ~~~ 0), (0x132, ~~~ 0), (0x134, ~~~ 0), (0x140, ~~~ 2), (0x141, 0x1FFFFF), (0x142, 3),
        (0x143, 0xFFFFF), (0x180, ~~~ 0)] : List (Nat × Word64)), (s.csrSet p.1 v).csrGet s.cur.shift p.1 = v &&& p.2)
    ∧ (∀ k, k < 8 → (s.csrSet (0x40 + k) v).csrGet s.cur.shift (0x40 + k) = v &&& 0x7F)
    ∧ (∀ k, 1 ≤ k → k < 16 → (s.csrSet (0x110 + k) v).csrGet s.cur.shift (0x110 + k) = v &&& 0x1FFFFF)
    ∧ (s.csrSet 0x01 v).csrGet s.cur.shift 0x01 = (v &&& 0xE) ||| (s.csrGet s.cur.shift 0x01 &&& 0x11)
    ∧ (s.csrSet 0x20 v).csrGet s.cur.shift 0x20 = (if v.toNat % 16 < 6 then v &&& 0xF else 0xF)
    ∧ (∀ k, k ≠ c.toNat → (s.csrSet c.toNat v).csrGet s.cur.shift k = s.csrGet s.cur.shift k)
    ∧ SameBytes s (s.csrSet c.toNat v) ∧ SameOthers s (s.csrSet c.toNat v)
    ∧ (s.csrSet c.toNat v).me.arch.g = s.me.arch.g ∧ (s.csrSet c.toNat v).me.arch.v = s.me.arch.v
    ∧ (s.csrSet c.toNat v).me.pc = s.me.pc ∧ (s.csrSet c.toNat v).me.k.priv = s.me.k.priv

/-- FMTT replaces one row of the format table, FMTT.ALL all sixteen, with a row whose entries are all formats (07
R149); GSET writes the portable guard (R304); FLAGR packs the slots' flags, FLAGC clears the chosen flags of the
chosen slots (R305); NOP and IPF have no effect (R306, 03 R69); RNGP reads the generator, all zero once it has failed,
and counts the read (R303). TRAP takes its exception behind its bundle, and ERET returns behind its own (R300, R301):
with nothing in flight, TRAP k enters the handler with SWTRAP, the next bundle's address and k in the record; ERET
goes to the recorded address, or to the start of the phase when the record is that of a memory fault, restores the
privilege and admits exceptions again. User code that would return to the supervisor mode gets PRIV instead. What RNGP
reads is an opaque source (log 10). -/
def Obligations.SystemInstructionsRun : Prop :=
  (∀ (s : State) (a b d : R5) (i : BitVec 6) (x : BitVec 1) (m : BitVec 8) (f : BitVec 7),
      let row := s.rdG b
      let fmtsOk : Prop := ∀ j, j < 8 → row.toNat / 2 ^ (8 * j) % 16 ≤ 0xB ∧ row.toNat / 2 ^ (8 * j + 4) % 8 ≤ 5
        ∧ row.toNat / 2 ^ (8 * j + 7) % 2 = 0
      (s.cleanG [a, b] → fmtsOk → exec (.fmtt a b) s = .next
          (s.modArch fun y => { y with fmtt := y.fmtt.setIfInBounds ((s.rdG a).toNat % 16) row })
        ∧ exec (.fmttAll b) s = .next (s.modArch fun y => { y with fmtt := Vector.replicate 16 row }))
      ∧ (s.cleanG [a, b] → ¬ fmtsOk → ∃ t r, exec (.fmtt a b) s = .next t ∧ t.cur.fin = .trap r false ∧ r.cause = .illegal
        ∧ r.fpc = s.cur.x)
      ∧ exec (.gset a i x) s = .next (s.modC fun r => { r with pguard := a ++ i ++ x })
      ∧ (∃ v : Word64, exec (.flagr d) s = .next (s.wrG d v 2) ∧ ∀ k, k < 8 → ∀ j, j < 8 →
          v.getLsbD (8 * k + j) = (s.me.arch.c.flags[k]?.getD 0).getLsbD j)
      ∧ (∃ t, exec (.flagc m f) s = .next t ∧ t = s.modC (fun r => { r with flags := t.me.arch.c.flags })
        ∧ ∀ k, k < 8 → t.me.arch.c.flags[k]?.getD 0 = if m.getLsbD k then s.me.arch.c.flags[k]?.getD 0 &&& ~~~ f
            else s.me.arch.c.flags[k]?.getD 0)
      ∧ exec .nop s = .next s ∧ exec (.ipf a b) s = .next s
      ∧ (s.cur.bdone = true → s.published.find? (fun p => p.1 = s.cur.x) = none → exec .nopBench s = .next s)
      ∧ (s.me.k.rngmode = 0 → exec (.rngp d) s = .next
          ((s.wrG d (if s.health.rngBad then 0 else Config.entropy s.freeN) 8).modC fun r => { r with rngidx := r.rngidx + 1 })))
  ∧ (∀ (s : State) (k : BitVec 10),
      (exec (.trap k) s = .next (s.setAfter (.softTrap k)))
      ∧ (s.me.k.priv = false → s.me.k.ppriv = true → ∀ z : BitVec 1, ∃ t r, exec (.eret z) s = .next t ∧ t.cur.fin = .trap r true
        ∧ r.cause = .priv ∧ r.fpc = s.cur.x)
      ∧ (s.me.k.priv = true ∨ s.me.k.ppriv = false → exec (.eret 0) s = .next (s.setAfter (.eret false))
        ∧ (memoryCode (s.me.k.cause.toNat % 256) = false → exec (.eret 1) s = .next (s.setAfter (.eret true))))
      ∧ (s.cur.ctl = .fall → s.me.inflight = [] → s.me.mrd = [] → s.me.mxFl = [] → s.me.lsq = [] → s.me.memTrap = none → (∀ m ∈ s.me.arch.l.toList, m.act = false) →
        let t := (s.setAfter (.softTrap k)).closeBundle
        let u := (s.setAfter (.eret false)).closeBundle
        let next := s.cur.x + .ofNat 64 (4 * s.cur.len)
        (s.me.k.inh = false → ∀ vec sup, State.handlerOf s.me .swtrap = some (vec, sup) → (t.sh s.cur.shift).pc = vec
          ∧ (t.sh s.cur.shift).k.cause = .ofNat 9 Cause.swtrap.code ∧ (t.sh s.cur.shift).k.fpc = next
          ∧ (t.sh s.cur.shift).k.finfo = k.setWidth 64 ∧ (t.sh s.cur.shift).k.ppriv = s.me.k.priv
          ∧ (t.sh s.cur.shift).k.priv = sup ∧ (t.sh s.cur.shift).k.inh = true ∧ (t.sh s.cur.shift).arch.g = s.me.arch.g)
        ∧ (u.sh s.cur.shift).pc = (if memoryCode (s.me.k.cause.toNat % 256) then s.me.k.spc else s.me.k.fpc)
        ∧ (u.sh s.cur.shift).k.priv = s.me.k.ppriv ∧ (u.sh s.cur.shift).k.inh = false
        ∧ (u.sh s.cur.shift).k.fpc = s.me.k.fpc ∧ (u.sh s.cur.shift).arch.g = s.me.arch.g ∧ SameBytes s u))

/-! ### Exceptions and the phase boundary (14 R285-R293, 11 R222, R229) -/

/-- Taking an exception (R287, R288): the results in flight having landed, the record takes the cause, the address,
the slot and the information; the privilege and the form are saved, INH is set, and the shift goes on at the handler.
Memory faults go to the supervisor handler, LOSTREGION, LOSTCTX and WATCHDOG to none, SWTRAP and EMUL to the user
handler if there is one, every other cause to the user handler when user code has enabled it. Without a handler, or
with INH set, the task is aborted (R288, R289). That results in flight land first is R287; fields that no rule gives
are free (log 25). -/
def Obligations.ExceptionsEnterTheirHandler : Prop :=
  (∀ (s : State) (n : Nat) (r : TrapRec), r.cause.memory = false → (s.sh n).inflight = [] → (s.sh n).mrd = [] →
    (s.sh n).mxFl = [] → (s.sh n).lsq = [] → (s.sh n).memTrap = none →
    (∀ vec sup, (s.sh n).k.inh = false → State.handlerOf (s.sh n) r.cause = some (vec, sup) →
      let k := ((s.enterTrap n r).sh n).k
      ((s.enterTrap n r).sh n).pc = vec ∧ k.cause.toNat % 256 = r.cause.code % 256
      ∧ (k.cause.getLsbD 8 = true ↔ r.cause = .guard ∨ r.cause = .link ∨ r.cause = .spwin)
      ∧ k.fpc = r.fpc ∧ k.fslot = r.fslot ∧ k.finfo = r.finfo ∧ k.fstep = r.fstep
      ∧ k.ppriv = (s.sh n).k.priv ∧ k.pport = (s.sh n).k.port ∧ k.priv = sup ∧ k.inh = true ∧ k.spc = (s.sh n).k.spc
      ∧ ((s.enterTrap n r).sh n).arch = (s.sh n).arch ∧ ((s.enterTrap n r).sh n).tiles = (s.sh n).tiles
      ∧ ∀ g o, (s.enterTrap n r).byteS g o = s.byteS g o)
    ∧ ((s.sh n).k.inh = true ∨ State.handlerOf (s.sh n) r.cause = none → s.assayPair n = none →
      ((s.enterTrap n r).sh n).task = none))
  ∧ ∀ (x : Shift) (c : Cause),
    let user : Option (Word64 × Bool) := some (x.arch.c.trapvec &&& ~~~ 3#64, false)
    let sup : Option (Word64 × Bool) := if x.k.svec.getLsbD 0 then some (x.k.svec &&& ~~~ 3#64, true) else none
    let has := x.arch.c.trapvec &&& ~~~ 3#64 ≠ 0
    ((c = .trans ∨ c = .perm ∨ c = .grant ∨ c = .uce ∨ c = .gateovf) → State.handlerOf x c = sup)
    ∧ ((c = .lostregion ∨ c = .lostctx ∨ c = .watchdog) → State.handlerOf x c = none)
    ∧ ((c = .swtrap ∨ c = .emul) → (has → State.handlerOf x c = user) ∧ (¬ has → State.handlerOf x c = sup))
    ∧ (c ∉ [Cause.trans, .perm, .grant, .uce, .gateovf, .lostregion, .lostctx, .watchdog, .swtrap, .emul] →
      (x.k.priv = false → has → x.arch.c.trapmask.getLsbD c.code = true → State.handlerOf x c = user)
      ∧ (x.k.priv = true ∨ ¬ has ∨ x.arch.c.trapmask.getLsbD c.code = false → State.handlerOf x c = sup))

/-- A memory fault (R285, R292, R293; 11 R229): in a restartable phase the shift is put back at its last boundary,
with the registers as the shadow holds them, nothing gated, queued or in flight, and then its handler is entered; in a
non-restartable one, or with INH set, its task is aborted. TRAP_ENTRY takes a pending one. The phase boundary (11
R222): the gate is committed and empty, the shadow takes the registers, ctx.spc the bundle's address, the phase is
restartable. PHASE_BOUNDARY and COMMIT open the shift's next bundle for its boundary only, when it has one. -/
def Obligations.MemoryFaultsRollBackTheirPhase : Prop :=
  (∀ (s : State) (n : Nat) (r : TrapRec) (i : Instr) (a : Arch), r.cause.memory = true → s.arg = .unit n → i = .trapEntry →
      (s.sh n).memTrap = some r → State.inCommit (s.sh n) = false → exec i s = .next (s.enterTrap n r)
      ∧ ((s.sh n).k.nr = false → (s.sh n).shadow = some a → (s.sh n).k.inh = false → (s.sh n).k.svec.getLsbD 0 = true →
        let x := (s.enterTrap n r).sh n
        x.arch = a ∧ x.gate = [] ∧ x.lsq = [] ∧ x.mxq = [] ∧ x.inflight = [] ∧ x.memTrap = none
        ∧ x.pc = (s.sh n).k.svec &&& ~~~ 3#64 ∧ x.k.fpc = r.fpc ∧ x.k.spc = (s.sh n).k.spc ∧ x.k.priv = true ∧ x.k.inh = true
        ∧ x.k.ppriv = (s.sh n).k.priv ∧ x.k.pport = (s.sh n).k.port ∧ x.k.cause.toNat = r.cause.code ∧ (s.myQueues n = [] → ∀ g o, (s.enterTrap n r).byteS g o = s.byteS g o))
      ∧ ((s.sh n).k.nr = true ∨ (s.sh n).k.inh = true → s.assayPair n = none → ((s.enterTrap n r).sh n).task = none))
  ∧ ((∀ (s : State) (n b : Nat) (x : Addr), (s.sh n).gate = [] → (s.sh n).closePend = [] →
      let y := (s.commitBoundary n x b).sh n
      y.gate = [] ∧ y.shadow = some (s.sh n).arch ∧ y.arch = (s.sh n).arch ∧ y.k = { (s.sh n).k with spc := x, nr := false }
      ∧ y.bnd = b ∧ (∀ t, t < 8 → y.liveAt.getLsbD t = ((s.sh n).tiles[t]?.getD .zero).live)
      ∧ (s.commitBoundary n x b).mem = s.mem ∧ ∀ h, h ≠ n → (s.commitBoundary n x b).sh h = s.sh h)
    ∧ (∀ (s : State) (n b : Nat) (x : Addr), ((s.commitBoundary n x b).sh n).gate = [])
    ∧ ∀ (s : State) (n : Nat), s.arg = .unit n → s.canOpen n = true → State.inCommit (s.sh n) = false →
      (s.openBundle n).cur.fin = .ok →
      ((s.openBundle n).cur.bench = true ∨ ∃ t ∈ State.acting (s.openBundle n).cur, State.isBoundary t.instr = true) →
      exec .phaseBoundary s = .next { s.openBundle n with cur := { (s.openBundle n).cur with want := .boundary } }
      ∧ (s.draining n = false → exec .commit s = .next { s.openBundle n with cur := { (s.openBundle n).cur with want := .commit } }))

/-- PHASE_BOUNDARY and COMMIT (11 R220, R222). A boundary that waits for nothing and raises nothing commits the whole
gate: M then holds what the shift's own loads saw; the shadow takes the registers, ctx.spc the bundle's address, and
the phase is restartable. A COMMIT begins step 4 with the oldest entry, the shift being blocked; each further COMMIT
writes the then oldest; when the gate is empty the boundary ends in the same way. A COMMIT also writes the oldest
entry while a release atomic empties the gate. -/
def Obligations.BoundariesCommitBeforeTheirBundle : Prop :=
  ∀ (s : State) (n : Nat),
    let plain (e : GateEntry) : Prop := ∃ flat chip key k d b, e = .store flat chip key k d false b
    (n = s.cur.shift → s.cur.fin = .ok → s.assayPair n = none → earlyTrap exec s s.myProfile s.cur.slots = none →
      s.interlock = [] → s.guardPois = false → (∃ t ∈ State.acting s.cur, State.isBoundary t.instr = true) → s.memOk →
      s.me.closePend = [] →
      (s.me.bndSt = .away →
        s.boundaryWaits n ((State.acting s.cur).any fun t => State.isBoundary t.instr && State.waitsCopies t.instr) = false →
        s.me.mxFault = none → lateTrap exec s (State.acting s.cur) = none → s.me.grantPend = [] → fld s.me.k.spfault 32 2 = 0 →
        s.me.status.link = false → s.me.status.nfail = 0 →
        (s.cur.want = .boundary → ∃ t, finishBundle exec s = .next t ∧ (t.sh n).gate = [] ∧ (t.sh n).shadow = some s.me.arch
          ∧ (t.sh n).arch = s.me.arch ∧ (t.sh n).k = { s.me.k with spc := s.cur.x, nr := false } ∧ (t.sh n).bnd = s.cur.bundle
          ∧ (t.sh n).bndSt = .taken
          ∧ ((∀ e ∈ s.me.gate, plain e) → ∀ k, t.byteM k = .ofNat 8 (s.loadByte n k).1))
        ∧ (∀ flat chip key k d b r, s.cur.want = .commit → s.me.gate = .store flat chip key k d false b :: r →
          ∃ t, finishBundle exec s = .next t ∧ (t.sh n).gate = r ∧ (t.sh n).bndSt = .committing s.cur.bundle none
            ∧ (t.sh n).st = .blocked ∧ (t.sh n).shadow = s.me.shadow
            ∧ (∀ j, j < k → t.byteM (key + j) = .ofNat 8 (d.toNat / 256 ^ j))
            ∧ ∀ x, x < key ∨ key + k ≤ x → t.byteM x = s.byteM x))
      ∧ (∀ b sig, s.me.bndSt = .committing b sig → s.cur.want = .boundary → ∃ t, finishBundle exec s = .next t
        ∧ (t.sh n).shadow = some s.me.arch ∧ (t.sh n).k = { s.me.k with spc := s.me.pc, nr := false } ∧ (t.sh n).bnd = b
        ∧ (t.sh n).bndSt = .taken ∧ t.mem = s.mem))
    ∧ (∀ flat chip key k d b r, s.arg = .unit n → (State.inCommit (s.sh n) = true ∨ s.draining n = true) → s.memOk →
      (s.sh n).gate = .store flat chip key k d false b :: r →
      ∃ t, exec .commit s = .next t ∧ t.cur.fin = .blocked ∧ (t.sh n).gate = r ∧ (t.sh n).bndSt = (s.sh n).bndSt
        ∧ (∀ j, j < k → t.byteM (key + j) = .ofNat 8 (d.toNat / 256 ^ j))
        ∧ ∀ x, x < key ∨ key + k ≤ x → t.byteM x = s.byteM x)

/-! ### Steps without an encoding (11 R220, 13 R259-R274, 14 R294-R299, 15 R307-R316) -/

/-- RESULT_LANDING lands one result before its bound (02 R30); SHIFT_WAKE makes a shift READY whose wait is over (13
R259); FENCE_TIMEOUT ends a FENCE with TMO set (11 R233); FPX enters its handler in place of the next bundle (07
R144); SHPINV empties the caches of entries (03 R53); BROADCAST_STRIP gives the group's calls the source's next strip
of B (09 R185). Model's readings: when FENCEs complete and which entries they cover (log 45), a pending FPX waits
while INH = 1 (log 23), and the bus never delays a strip (log 50). -/
def Obligations.QueuesAndWaitsAdvance : Prop :=
  ∀ (s : State) (n : Nat),
    (∀ (k lat b q : Nat) (x : Addr) (d : R5) (v : Word64) (p : Bool), s.arg = .pair n k →
      (s.sh n).inflight[k]? = some ⟨.g d v p, lat, b, q, x⟩ → d ≠ 0 → ∃ t, exec .resultLanding s = .next t
        ∧ (t.sh n).arch.g[d.toNat] = v ∧ (t.sh n).arch.gpois.getLsbD d.toNat = p
        ∧ (∀ r : R5, r ≠ d → (t.sh n).arch.g[r.toNat] = (s.sh n).arch.g[r.toNat])
        ∧ (t.sh n).inflight = (s.sh n).inflight.eraseIdx k ∧ t = { s with shifts := t.shifts } ∧ ∀ h, h ≠ n → t.sh h = s.sh h)
    ∧ (s.arg = .unit n →
      (s.canWake n = true → ∃ t, exec .shiftWake s = .next t ∧ ((t.sh n).st = .ready ∨ (t.sh n).st = .running)
        ∧ (t.sh n).blockOn = none ∧ (t.sh n).arch = (s.sh n).arch ∧ t = { s with shifts := t.shifts })
      ∧ (∀ f, s.fenceLate n = some f → f.d ≠ 0 → ∃ t, exec .fenceTimeout s = .next t
        ∧ ((t.sh n).arch.g[f.d.toNat]).getLsbD 3 = true ∧ (t.sh n).fences = (s.sh n).fences.erase f
        ∧ (t.sh n).status = .clear ∧ t = { s with shifts := t.shifts })
      ∧ (∀ o r vec sup, s.canIssue n = true → (s.sh n).fpx = [(o, r)] → r.cause.memory = false → (s.sh n).inflight = [] →
        (s.sh n).mxFl = [] → (s.sh n).lsq = [] → (s.sh n).k.inh = false → State.handlerOf (s.sh n) r.cause = some (vec, sup) → ∃ t,
        exec .fpx s = .next t ∧ (t.sh n).pc = vec ∧ (t.sh n).k.fpc = (s.sh n).pc ∧ (t.sh n).fpx = [] ∧ (t.sh n).k.priv = sup))
    ∧ exec .shpinv s = .next { s with ttCache := [] }
    ∧ (∀ (g k : Nat) (e : MxEntry) (i : Nat), s.arg = .pair g k → s.activeGroups g k = [[n]] → s.mxHead n = some e →
      e.op = .call i → i < 6 → State.isBcast e = true → e.bus = none → MxEntry.released e = false → (∀ h ∈ State.shiftsOf (n / 4), h = n ∨ s.mxPartial h = false) →
      let gm := gemmOf i e.snap
      let ts := (gm.chunks.find? fun c => c.head? = some 0).getD [0]
      ∃ t b, exec .broadcastStrip s = .next t ∧ (t.sh n).mxq.head?.map (fun y => y.bus) = some (some b)
        ∧ b.rows = (s.readB n gm ts).1 ∧ b.n = gm.n ∧ b.k = gm.k ∧ b.fmt = gm.fb)

/-- The task machine (13 R266-R268, R274; 14 R294, R295; 15 R309): a task starts at its stage's entry with the
launch's arguments; a stage that is over frees its shifts; steering rebinds a shift to a stage whose queue is over its
mark; a watchdog that runs out aborts its task; a pre-empted shift whose copies and commits stand at a slab boundary
has its results land and writes its registers, tiles and queues into its save area, and its context leaves it; a
resume reads the area and gives the registers, the address, the privilege and the task back. Where the area does not
translate or is poisoned the task is aborted. A launch that is complete, or halted and at rest, leaves the device.
Model's readings: a task start takes the shadow (log 18), the abort of one assay copy aborts the other (log 22),
steering (log 67), pre-emption, resume and the save area (logs 8, 63); a resume that meets a lost area aborts the task
(R297). -/
def Obligations.TasksStagesAndLaunchesMove : Prop :=
  ∀ (s : State) (n : Nat),
    (s.arg = .unit n →
      (∀ l k st, s.startable n = some (l, k, st) → s.assayPair n = none → ∃ t, exec .taskStart s = .next t
        ∧ (t.sh n).pc = st.entry ∧ (t.sh n).task = some ⟨.ofNat 32 l.nextTask, l.seq, k, 0, false, 0, false⟩
        ∧ ((t.sh n).st = .ready ∨ (t.sh n).st = .running) ∧ (t.sh n).arch.g[0] = 0
        ∧ (∀ j : Fin 8, (t.sh n).arch.g[j.val + 1]'(by omega) = l.args[j]) ∧ (t.sh n).arch.g[28] = .ofNat 64 (l.nextTask % 2 ^ 32)
        ∧ (t.sh n).k.priv = false ∧ (t.sh n).k.inh = false ∧ (t.sh n).arch.c.flags = Vector.replicate 8 0
        ∧ (t.sh n).arch.c.nkey = l.nkey ∧ (t.sh n).k.spc = st.entry ∧ (t.sh n).shadow = some (t.sh n).arch)
      ∧ (s.watchDue n = true → s.assayPair n = none → ∃ t, exec .watchdog s = .next t ∧ (t.sh n).task = none)
      ∧ (∀ l st q d c m, 256 ≤ (s.gal n).steerCy → (s.gal n).holder.bind s.launchAt = some l →
        indexIn l.place n = some c → c ∉ l.stopped → l.obj.stages = [st] → st.input = some q → st.gal = c →
        l.obj.queues.find? (fun p => p.1 = q) = some (q, d) → d.hwm < (s.slotsIn n q .ready).length →
        s.steerPick l 0 st n = some m → l.twin = [] → ∃ t, exec .steering s = .next t
        ∧ (t.sh m).bound = some (l.seq, 0) ∧ (t.sh m).st = .idle ∧ (t.gal n).steerCy = 0)
      ∧ (∀ tk, (s.sh n).preemptReq = true → (s.sh n).task = some tk → (s.sh n).memTrap = none → (s.sh n).trapPend = none → (s.sh n).fpx = [] →
        (s.sh n).inflight = [] → (s.sh n).mxFl = [] → (s.sh n).lsq = [] → State.hasClaim (s.sh n) = false →
        (∀ (q : Fin 4) c d, ((s.sh n).cpq[q]).head? = some (.cmd c d) →
          c.gated = true ∨ c.n ≤ d ∨ d % State.slabElems (LRec.fmt c.src) = 0) →
        (∀ e, (s.sh n).gate.head? = some e → match e with
          | .store .. => True
          | .cmd _ _ _ _ _ d => d = 0
          | .epi _ _ _ _ _ _ d => d = 0) →
        s.assayPair n = none →
        let s1 := (s.landAll n).atRest n
        let y := s1.sh n
        let words := s1.saveImage n
        let area := s1.areaTiles y.k (s1.saveRow n) (8 * words.length) .write
        ∃ t, exec .preemption s = .next t ∧ (t.sh n).task = none
          ∧ ((s.sh n).mrd = [] → y.arch = (s.sh n).arch) ∧ y.task = some tk ∧ y.pc = (s.sh n).pc
          ∧ y.tiles = (s.sh n).tiles ∧ y.k = { (s.sh n).k with nr := y.k.nr }
          ∧ (∀ o, area = .error o → t.saved = s.saved)
          ∧ ∀ keys, area = .ok keys →
            (∃ v, t.saved = s.saved ++ [v] ∧ v.sh = y ∧ v.at_ = n ∧ v.row = s.saveRow n ∧ v.gal = s.compGal n ∧ v.lost = none)
            ∧ ((keys.Pairwise fun a b => a + 32768 ≤ b ∨ b + 32768 ≤ a) → s.d.trmask.getLsbD 8 = false →
              t.areaWords keys words.length = words)))
    ∧ (∀ row v l, s.arg = .pair n row → s.savedRow row (n / 32) = some v → s.launchAt v.seq = some l → l.assay = false →
      v.gal ∉ l.stopped → s.canTake l v n = true → State.bgTags v.sh = [] → (v.sh.bound.map fun p => p.1) = some v.seq →
      (∀ w ∈ s.saved, w.vid = v.vid → w = v) →
      let len := 10240 + 8192 * v.sh.k.na.toNat
      let area := s.areaTiles v.sh.k v.row (8 * len) .read
      ∃ t, exec .shiftResume s = .next t ∧ t.saved = s.saved.filter (fun w => w.vid != v.vid)
      ∧ ((v.lost ≠ none ∨ (∃ o, area = .error o) ∨ ∃ keys, area = .ok keys ∧ s.areaPois keys (8 * len) ≠ none) → (t.sh n).task = none)
      ∧ ∀ keys, v.lost = none → area = .ok keys → s.areaPois keys (8 * len) = none →
        let x := t.sh n
        let y := v.sh
        x.task = y.task ∧ ∀ (s0 : State) (m : Nat), s0.sh m = y → s.areaWords keys len = s0.saveImage m →
          x.pc = y.pc ∧ (∀ r : R5, r ≠ 0 → x.arch.g[r.toNat] = y.arch.g[r.toNat]) ∧ x.arch.gpois = y.arch.gpois
          ∧ x.arch.v = y.arch.v ∧ x.arch.m = y.arch.m ∧ x.arch.l = y.arch.l ∧ x.arch.w = y.arch.w ∧ x.arch.it = y.arch.it
          ∧ x.arch.c.flags = y.arch.c.flags ∧ x.arch.c.nkey = y.arch.c.nkey
          ∧ x.k.priv = y.k.priv ∧ x.k.ppriv = y.k.ppriv ∧ x.k.inh = y.k.inh ∧ x.k.nr = y.k.nr ∧ x.k.port = y.k.port
          ∧ x.k.cause = y.k.cause ∧ x.k.fpc = y.k.fpc ∧ x.k.spc = y.k.spc
          ∧ ∀ (q : Fin 8), q.val < y.k.na.toNat → (∀ k, k < 16384 → (x.tiles[q]).get k = (y.tiles[q]).get k)
            ∧ (x.tiles[q]).map = (y.tiles[q]).map ∧ (x.tiles[q]).pois = (y.tiles[q]).pois)
    ∧ (∀ seq k l st, s.arg = .launch seq k → s.launchAt seq = some l → l.obj.stages[k]? = some st → s.stageOver l k st = true →
      ∃ t, exec .stageDone s = .next t ∧ (∀ p ∈ s.boundTo seq, p.2 = k → (t.sh p.1).st = .free ∧ (t.sh p.1).bound = none)
        ∧ ∃ m, t.launchAt seq = some m ∧ m.doneSt[k]? = some true)
    ∧ (∀ seq k l, s.arg = .launch seq k → s.launchAt seq = some l →
      (s.launchDone l = true → ∃ t, exec .done s = .next t ∧ t.launches = s.launches.filter (fun m => m.seq != l.seq))
      ∧ (s.launchHalted l = true → ∃ t, exec .halt s = .next t ∧ t.launches = s.launches.filter (fun m => m.seq != l.seq)))

/-- The mailbox (15 R310-R313, R316; 01 R13, R15): a command whose code the request holds and whose operands are fit
is answered OK, with vector 1 raised and the doorbell free, and has its effect; an image that does not verify is
answered AUTH. How the arguments lie in the request is not given: each is an opaque function of its bytes 8-63 (log
17). Signatures are opaque (log 10); answers that R310 leaves open, the place of a resumed gallery among them, are log
63. -/
def Obligations.MailboxCommandsTakeEffect : Prop :=
  ∀ (s : State),
    let ok (t : State) : Prop := (t.bar.mbRsp[0]).toNat % 256 = 0 ∧ t.bar.mbBusy = false ∧ t.msix = s.msix ++ [1]
    let args := s.mbArgs
    (∀ i, s.arg = .image i → s.serves 1 = true → s.frame.st = .safe → ∃ t, exec .image s = .next t
      ∧ t.bar.mbBusy = false ∧ t.msix = s.msix ++ [1]
      ∧ (if Config.imageVerifies i = true ∧ s.frame.fuse.toNat ≤ i.secVer.toNat
          then ok t ∧ t.frame = { s.frame with imageOk := true, digest := i.digest, secVer := i.secVer }
          else (t.bar.mbRsp[0]).toNat % 256 = 3 ∧ t.frame = s.frame))
    ∧ (s.serves 2 = true → s.launches = [] → s.bar.chipSet = false → Config.mbChip args ≤ 6143 → ∃ t,
      exec .setchip s = .next t ∧ ok t ∧ t.bar.chipNo.toNat = Config.mbChip args ∧ t.bar.chipSet = true)
    ∧ (s.serves 3 = true → ∃ t, exec .fenceGalleries s = .next t ∧ ok t
      ∧ ∀ g, g < 64 → (Config.mbMask args).getLsbD g = true → ((s.gal g).holder = none → (t.gal g).fenced = true)
        ∧ ((s.gal g).holder ≠ none → (t.gal g).fenceReq = true))
    ∧ (s.serves 4 = true → ∃ t, exec .unfence s = .next t ∧ ok t
      ∧ ∀ g, g < 64 → if (Config.mbMask args).getLsbD g then (t.gal g).fenced = false ∧ (t.gal g).fenceReq = false
        else t.gal g = s.gal g)
    ∧ (∀ seq gal d l, Config.mbPart args = (seq, gal, d) → s.launchAt seq = some l →
      let ks := match gal with
        | some k => [k]
        | none => List.range l.ngal
      (∀ k ∈ ks, k < l.ngal) →
      (s.serves 5 = true → l.savetid.getLsbD 20 = true → ∃ t, exec .preempt s = .next t ∧ ok t
        ∧ (∃ m, t.launchAt seq = some m ∧ ∀ k ∈ ks, k ∈ m.stopped)
        ∧ ∀ n k, (n, s.sh n) ∈ s.shifts → k ∈ ks → (l.place[k]? = some (n / 32) ∨ l.twin[k]? = some (n / 32)) →
          (s.sh n).task ≠ none → (t.sh n).preemptReq = true)
      ∧ (s.serves 6 = true → (∀ k ∈ ks, k ∈ l.stopped) → (∀ p ∈ s.shifts, p.2.preemptReq = false) →
        (d = none → (∀ k ∈ ks, ∀ g, l.place[k]? = some g ∨ l.twin[k]? = some g → s.roomFor l k g = true) →
          ∃ t, exec .resume s = .next t ∧ ok t ∧ ∃ m, t.launchAt seq = some m ∧ ∀ k, k ∈ m.stopped ↔ k ∈ l.stopped ∧ k ∉ ks)
        ∧ (∀ k old g, gal = some k → d = some g → l.place[k]? = some old → g ≠ old → s.canMove l k old g = true →
          ∃ t, exec .resume s = .next t ∧ ok t ∧ ∃ m, t.launchAt seq = some m ∧ k ∉ m.stopped ∧ m.place[k]? = some g)))
    ∧ (s.serves 7 = true → s.frame.lmsIdx < 2 ^ 20 → ∃ t r, exec .attest s = .next t ∧ ok t
      ∧ t.frame.lmsIdx = s.frame.lmsIdx + 1 ∧ t.attReports = s.attReports ++ [r] ∧ r.nonce = Config.mbNonce args
      ∧ r.digest = s.frame.digest ∧ r.secVer = s.frame.secVer ∧ r.fuse = s.frame.fuse ∧ r.chip = s.bar.chipNo ∧ r.gtc = s.gtc)
    ∧ (s.serves 8 = true → s.frame.imageOk = true → ∃ t, exec .arbump s = .next t ∧ ok t
      ∧ t.frame.fuse.toNat = max s.frame.fuse.toNat s.frame.secVer.toNat)
    ∧ (s.serves 9 = true → ∃ t, exec .hlthcfg s = .next t ∧ ok t ∧ t.health.degTh = (Config.mbThresholds args).1
      ∧ t.health.repTh = (Config.mbThresholds args).2)
    ∧ (s.serves 10 = true →
      let v := Config.mbSyscfg args
      (Config.mbHeads args = false → s.launches = [] → v[1] ≠ 0 → ∃ t, exec .syscfg s = .next t ∧ ok t
        ∧ t.d.fqbase = v[0].setWidth 40 ∧ t.d.fqsize = v[1] ∧ t.d.trbase = v[2].setWidth 40 ∧ t.d.trsize = v[3]
        ∧ t.d.trmask = v[4] ∧ t.d.fqhead = 0 ∧ t.d.fqtail = 0 ∧ t.d.trhead = 0 ∧ t.d.trtail = 0)
      ∧ (Config.mbHeads args = true → ∃ t, exec .syscfgHeads s = .next t ∧ ok t
        ∧ t.d = { s.d.withHead v[0] with trhead := v[1] }))

/-- The host link (15 R307-R309, 14 R299, 13 R269-R271): register writes land, those of the command ring only while no
launch is held, and read-only ones do nothing; the doorbell makes a request pending; a kick is refused in SAFE; its
packet is read until its CRC matches, in the order of SEQ. Then the launch that it describes is refused when the
packet, its code object or its save tensor is unfit or no placement exists; otherwise it takes distinct unfenced
galleries that held no launch, and each stage's shifts stand there idle in user mode with the packet's values (13
R269-R271). Host accesses reach HBM; the oldest waiting event is written to the ring when it has room. Model's
readings: kicks wait in order and one in SAFE is reported REFUSED (log 61), and event payloads without a layout are
opaque (log 32). -/
def Obligations.HostAccessesAndEventsPass : Prop :=
  ∀ (s : State),
    (∀ (o : BitVec 12) (v : Word64), s.arg = .register o v → s.frame.st ≠ .cold →
      (o = 0x038 → ∃ t, exec .registerWrite s = .next t ∧ t = { s with bar := { s.bar with evHead := v.setWidth 32 } })
      ∧ (o = 0x008 → exec .registerWrite s = .next (if s.launches = [] then
          { s with bar := { s.bar with ringBase := v &&& 0x800000FFFFFFFFFF } } else s))
      ∧ (o = 0x010 → exec .registerWrite s = .next (if s.launches = [] then
          { s with bar := { s.bar with ringLog := v.setWidth 4 } } else s))
      ∧ (o = 0x028 → exec .registerWrite s = .next { s with bar := { s.bar with evBase := v.setWidth 40 } })
      ∧ (o = 0x030 → exec .registerWrite s = .next { s with bar := { s.bar with evLog := v.setWidth 4 } })
      ∧ (∀ k : Fin 8, o.toNat = 0x100 + 8 * k.val → ∃ t, exec .registerWrite s = .next t ∧ t.bar.mbReq[k] = v
        ∧ ∀ j : Fin 8, j ≠ k → t.bar.mbReq[j] = s.bar.mbReq[j])
      ∧ (o = 0x180 → v.getLsbD 0 = true → s.bar.mbBusy = false → 1 ≤ (s.bar.mbReq[0]).toNat % 256 → (s.bar.mbReq[0]).toNat % 256 ≤ 10 →
        exec .registerWrite s = .next { s with bar := { s.bar with mbBusy := true } })
      ∧ (o = 0x000 ∨ o = 0x020 ∨ o = 0x040 ∨ o = 0x048 ∨ o = 0x050 → exec .registerWrite s = .next s))
    ∧ (∀ w c, s.arg = .kick w c →
      (s.frame.st = .safe → ∃ t e, exec .kick s = .next t ∧ t.events = s.events ++ [e] ∧ e.kind = 0x12 ∧ t.kicks = s.kicks)
      ∧ (s.frame.st = .full → s.kicks ≠ [] → ∃ t, exec .kick s = .next t ∧ t.kicks = s.kicks ++ [⟨w, c, 0⟩]))
    ∧ (∀ k r, s.kicks = k :: r → (k.tries = 0 → k.word.setWidth 32 = s.bar.kseq + 1) →
      (crc32 polyIeee (s.ringPacket (k.word.setWidth 32)) ≠ (k.word >>> 32).setWidth 32 → k.tries < 16 →
        exec .kickReread s = .next { s with kicks := { k with tries := k.tries + 1 } :: r })
      ∧ (crc32 polyIeee (s.ringPacket (k.word.setWidth 32)) = (k.word >>> 32).setWidth 32 → ∃ t, exec .kickReread s = .next t
        ∧ t.kicks = r ∧ t.bar.kseq = k.word.setWidth 32
        ∧ let seq : BitVec 32 := k.word.setWidth 32
          let p : Pkt := .ofNat 2048 (State.packBytes (s.ringPacket seq))
          let fit : Prop := p.reserved = false ∧ 1 ≤ p.ngal ∧ p.ngal ≤ 64 ∧ objectOk p.ngal k.obj = true ∧ s.saveOk p k.obj.stages = true
          let places := s.placement seq p.ngal p.assay k.obj
          (¬ fit ∨ places = none → t.launches = s.launches ∧ ∃ e, t.events = s.events ++ [e] ∧ e.kind = 0x12)
          ∧ ∀ place twin, fit → places = some (place, twin) → ∃ l, t.launches = s.launches ++ [l] ∧ t.events = s.events
            ∧ l.seq = seq ∧ l.obj = k.obj ∧ l.ngal = p.ngal ∧ l.assay = p.assay ∧ l.place = place ∧ l.twin = twin
            ∧ l.wdog = .ofNat 64 (p.f 16 8) ∧ l.nkey = .ofNat 64 (p.f 24 8) ∧ (∀ j : Fin 8, l.args[j] = .ofNat 64 (p.f (64 + 8 * j.val) 8))
            ∧ place.length = p.ngal ∧ twin.length = (if p.assay then p.ngal else 0) ∧ (place ++ twin).Nodup
            ∧ (∀ g, g ∉ place ++ twin → t.gal g = s.gal g)
            ∧ ∀ c g, (place[c]? = some g ∨ twin[c]? = some g) → g < 64 ∧ (s.gal g).holder = none ∧ (s.gal g).fenced = false
              ∧ (t.gal g).holder = some seq ∧ (t.gal g).guard = [] ∧ (t.gal g).tags = [] ∧ (t.gal g).slots = []
              ∧ ∀ b, bindGallery k.obj.stages c = some b → ∀ x ∈ b, ∀ st, k.obj.stages[x.1]? = some st →
                let y := t.sh (32 * g + 4 * x.2.1 + x.2.2)
                y.bound = some (seq, x.1) ∧ y.st = .idle ∧ y.task = none ∧ y.k.priv = false ∧ y.k.na = .ofNat 4 st.tiles
                ∧ y.k.nf = .ofNat 3 st.fronts ∧ y.k.spbase = .ofNat 18 (st.winLo / 64) ∧ y.k.splim = .ofNat 19 (st.winHi / 64)
                ∧ y.k.ttbase = .ofNat 40 (p.f 32 8) ∧ y.k.ttlim = .ofNat 32 (p.f 40 4) ∧ y.k.svec = .ofNat 64 (p.f 128 8) &&& ~~~ 2#64
                ∧ y.k.savetid = .ofNat 21 (p.f 136 8) ∧ y.k.rngmode = .ofNat 2 (p.f 144 1) ∧ y.k.rngtid = .ofNat 20 (p.f 148 4)
                ∧ y.k.fencetmo = .ofNat 32 (p.f 152 8)
                ∧ ∀ w : Fin 16, w ≠ 0 → y.k.bwin[w] = .ofNat 21 (p.f (156 + 4 * w.val) 4)))
    ∧ (∀ a (l : List Byte), s.arg = .hostWrite a l → s.frame.hbmUp = true → a + l.length ≤ State.hbmBytes → s.memOk → ∃ t,
      exec .hostMemWrite s = .next t ∧ (∀ i b, l[i]? = some b → t.byteM (a + i) = b)
        ∧ ∀ k, k < a ∨ a + l.length ≤ k → t.byteM k = s.byteM k)
    ∧ (∀ a n, s.arg = .hostRead a n → s.frame.hbmUp = true → a + n ≤ State.hbmBytes →
      exec .hostMemRead s = .next { s with hostData := (List.range n).map fun i => s.byteM (a + i) })
    ∧ (∀ i kind e r, (i, kind) ∈ [(Instr.done, 0x10#8), (.halt, 0x11), (.refused, 0x12), (.granterr, 0x13), (.memerr, 0x14),
        (.linkerr, 0x15), (.thermal, 0x16), (.attlow, 0x17)] → (∀ q k, s.arg ≠ .launch q k) → s.events = e :: r → e.kind = kind →
      s.frame.hbmUp = true → (s.bar.evTail - s.bar.evHead).toNat < 2 ^ s.bar.evLog.toNat → s.memOk → ∃ t, exec i s = .next t
        ∧ t.events = r ∧ t.bar.evTail = s.bar.evTail + 1
        ∧ memRead t.mem (s.bar.evBase.toNat * 65536 + 32 * (s.bar.evTail.toNat % 2 ^ s.bar.evLog.toNat)) 32
          = State.recordBits e.gtc e.src.toNat e.kind.toNat e.flg.toNat e.task e.pay % 2 ^ 256)

/-- Boot, reset, errors, the link and time (15 R311-R316, 01 R11, R14; 14 R303): each event of the device has the
effect that the chapter gives it. A packet leaves as one header flit, which names its destination and its source, and
at most 16 data flits, each with the CRC-32C of its 60 bytes; they go on the path and stay in the retry buffer, from
which one that has failed is sent again. A device without a number performs no packet (01 R13). How a header flit
names its packet's length and contents is not given (log 69). Model's readings: what a reset and a trip leave (log
30), nothing happens in COLD (log 31), which granule an error poisons (log 27), what kills a path (log 69), how a
correction of the time is taken (log 72), what a sent packet's flits hold beside the chips (log 69), that an event's
payload without a layout is opaque (log 32, DESIGN CHOICE), and the source number 0 before SETCHIP (log 19). -/
def Obligations.DeviceEventsTakeEffect : Prop :=
  ∀ (s : State),
    (s.frame.st = .cold → exec .enterSafe s = .next { s with frame := { s.frame with st := .safe }, gtc := 0, gtcFrac := 0 })
    ∧ (s.frame.st = .safe → s.frame.imageOk = true → exec .enterReduced s = .next { s with frame := { s.frame with st := .reduced, hbmUp := true } })
    ∧ (s.frame.st = .reduced → s.launches = [] → exec .enterFull s = .next { s with frame := { s.frame with st := .full } })
    ∧ (∀ i ∈ [Instr.cxlReset, .powerLoss], ∃ t, exec i s = .next t ∧ t.frame.st = .cold ∧ t.launches = [] ∧ t.shifts = []
      ∧ t.bar = State.reset.bar ∧ t.frame.fuse = s.frame.fuse ∧ t.frame.lmsIdx = s.frame.lmsIdx ∧ t.frame.imageOk = false)
    ∧ (∀ d, s.arg = .unit d → s.frame.st ≠ .cold → ∃ t, exec .thermalTrip s = .next t ∧ t.frame.st = .safe ∧ t.frame.tripped = true
      ∧ t.frame.tripGtc = s.gtc ∧ t.frame.tripDie = .ofNat 2 d ∧ t.frame.imageOk = false ∧ t.launches = [] ∧ t.shifts = [])
    ∧ (s.frame.st ≠ .cold →
      (∀ u a, s.arg = .ecc (.corrected u a) → s.health.ce ≠ 0xFFFFFFFF → ∃ t, exec .eccError s = .next t
        ∧ t.health.ce = s.health.ce + 1
        ∧ (s.health.ce + 1 = s.health.degTh ∨ s.health.ce + 1 = s.health.repTh →
          ∃ e, t.events = s.events ++ [e] ∧ e.kind = 0x14 ∧ e.pay = Config.payload 0x14 [u, a])
        ∧ (s.health.ce + 1 ≠ s.health.degTh → s.health.ce + 1 ≠ s.health.repTh → t.events = s.events))
      ∧ (∀ n (r : R5), s.arg = .ecc (.greg n r) → n < 2048 → r ≠ 0 → ∃ t, exec .eccError s = .next t ∧ t.health.ue = s.health.ue + 1
        ∧ (t.sh n).arch.gpois.getLsbD r.toNat = true ∧ (t.sh n).arch.g = (s.sh n).arch.g)
      ∧ exec .rngHealthFail s = .next { s with health := { s.health with rngBad := true } }
      ∧ (∀ (p : BitVec 13) (c : BitVec 480) (crc : BitVec 32), s.arg = .flit p c crc →
        let got (k : BitVec 13) (t : State) : List (BitVec 480) := lget t.linkFlits k.toNat []
        let bad (k : BitVec 13) (t : State) : Nat := lget t.replays k.toNat 0
        (crc32 polyC (State.flitBytes c) = crc → ∃ t, exec .flit s = .next t ∧ got p t = got p s ++ [c] ∧ bad p t = 0
          ∧ ∀ k, k ≠ p → got k t = got k s ∧ bad k t = bad k s)
        ∧ (crc32 polyC (State.flitBytes c) ≠ crc → ∃ t, exec .flit s = .next t ∧ (∀ k, got k t = got k s)
          ∧ (bad p s < 16 → bad p t = bad p s + 1 ∧ t.health = s.health) ∧ (16 ≤ bad p s → p ∈ t.health.dead)))
      ∧ (∀ (p : BitVec 13) (k : Nat) (f : BitVec 512), s.arg = .resend p k → (lget s.retry p.toNat [])[k]? = some f →
        ∃ t, exec .flit s = .next t ∧ t.wire = s.wire ++ [(p, f)] ∧ t.retry = s.retry ∧ t.netOut = s.netOut)
      ∧ (∀ c : BitVec 13, s.arg = .chip c →
        (c ∉ s.health.degraded → ∃ t e, exec .linkDegraded s = .next t ∧ t.health.degraded = s.health.degraded ++ [c]
          ∧ t.events = s.events ++ [e] ∧ e.kind = 0x15)
        ∧ (c ∉ s.health.dead → ∃ t e, exec .linkDead s = .next t ∧ t.health.dead = s.health.dead ++ [c]
          ∧ t.events = s.events ++ [e] ∧ e.kind = 0x15)
        ∧ (∃ t, exec .linkRecovery s = .next t ∧ c ∉ t.health.dead ∧ c ∉ t.health.degraded))
      ∧ (∀ d : Int, s.arg = .delta d → ∀ i ∈ [Instr.ptpMessage, .ppsInput], ∃ t, exec i s = .next t ∧ t.health.hold = false
        ∧ (s.frame.launchSeen = false → t.gtc = .ofInt 64 (s.gtc.toNat + d) ∧ t.frame.slew = s.frame.slew)
        ∧ (s.frame.launchSeen = true → t.gtc = s.gtc ∧ t.frame.slew = s.frame.slew + d))
      ∧ ∃ t, exec .grandmasterLost s = .next t ∧ t.health.hold = true ∧ t.frame.slew = 0)
    ∧ (∀ (c : BitVec 13) (b : PacketBody), let t := s.send c b
      t.netOut = s.netOut ++ [(c, ⟨s.bar.chipNo, b⟩)] ∧ SameBytes s t ∧ ∃ h l, l.length ≤ 17 ∧ l.head? = some h
        ∧ h.extractLsb' 0 13 = c ∧ h.extractLsb' 13 13 = s.bar.chipNo ∧ t.wire = s.wire ++ l.map (fun f => (c, f))
        ∧ lget t.retry c.toNat [] = lget s.retry c.toNat [] ++ l
        ∧ ∀ f ∈ l, f.extractLsb' 480 32 = crc32 polyC (State.flitBytes (f.extractLsb' 0 480)))
    ∧ (∀ (c : BitVec 13) (h : BitVec 480) (data rest : List (BitVec 480)), s.arg = .chip c →
      lget s.linkFlits c.toNat [] = h :: (data ++ rest) → data.length = min 16 (Config.packetFlits h) →
      (s.bar.chipSet = false ∨ h.extractLsb' 0 13 ≠ s.bar.chipNo → exec .packet s = .next { s with linkFlits := lput s.linkFlits c.toNat rest })
      ∧ (∀ a (l : List Byte), s.bar.chipSet = true → h.extractLsb' 0 13 = s.bar.chipNo → Config.packetBody h data = .store a l → s.frame.hbmUp = true →
        a + l.length ≤ State.hbmBytes → s.memOk → ∃ t, exec .packet s = .next t ∧ lget t.linkFlits c.toNat [] = rest
          ∧ (∀ i b, l[i]? = some b → t.byteM (a + i) = b) ∧ ∀ k, k < a ∨ a + l.length ≤ k → t.byteM k = s.byteM k))

end Statements
end

