-- ==== Sys2Proof/Laws/State.lean ====
section
/-! SUPPORT. What each update of the state leaves in each field: one lemma per field and update, and the lists of
shifts, cores and galleries read after a write. -/

namespace Sys2Proof.Machine

/-! ### Keyed lists -/

theorem lget_lput_same {α : Type} (l : List (Nat × α)) (k : Nat) (v d : α) : lget (lput l k v) k d = v := by
  induction l with
  | nil => simp [lput, lget]
  | cons p r ih =>
    obtain ⟨k', v'⟩ := p
    simp only [lput]
    split
    · simp [lget]
    · split
      · simp [lget]
      · rename_i h1 h2
        have : ¬ k' = k := fun e => h2 e.symm
        simp [lget, this, ih]

theorem lget_lput_other {α : Type} (l : List (Nat × α)) (k m : Nat) (v d : α) (h : m ≠ k) :
    lget (lput l k v) m d = lget l m d := by
  induction l with
  | nil => simp [lput, lget, Ne.symm h]
  | cons p r ih =>
    obtain ⟨k', v'⟩ := p
    simp only [lput]
    split
    · simp [lget, Ne.symm h]
    · split
      · rename_i h1 h2
        subst h2
        simp [lget, Ne.symm h]
      · simp [lget, ih]

namespace State

/-! ### Fields -/

@[simp] theorem setSh_mem (s : State) (n : Nat) (x : Shift) : (s.setSh n x).mem = s.mem := rfl
@[simp] theorem setSh_poisonM (s : State) (n : Nat) (x : Shift) : (s.setSh n x).poisonM = s.poisonM := rfl
@[simp] theorem setSh_poisonS (s : State) (n : Nat) (x : Shift) : (s.setSh n x).poisonS = s.poisonS := rfl
@[simp] theorem setSh_cores (s : State) (n : Nat) (x : Shift) : (s.setSh n x).cores = s.cores := rfl
@[simp] theorem setSh_gals (s : State) (n : Nat) (x : Shift) : (s.setSh n x).gals = s.gals := rfl
@[simp] theorem setSh_launches (s : State) (n : Nat) (x : Shift) : (s.setSh n x).launches = s.launches := rfl
@[simp] theorem setSh_grants (s : State) (n : Nat) (x : Shift) : (s.setSh n x).grants = s.grants := rfl
@[simp] theorem setSh_bard (s : State) (n : Nat) (x : Shift) : (s.setSh n x).bard = s.bard := rfl
@[simp] theorem setSh_d (s : State) (n : Nat) (x : Shift) : (s.setSh n x).d = s.d := rfl
@[simp] theorem setSh_ttCache (s : State) (n : Nat) (x : Shift) : (s.setSh n x).ttCache = s.ttCache := rfl
@[simp] theorem setSh_bar (s : State) (n : Nat) (x : Shift) : (s.setSh n x).bar = s.bar := rfl
@[simp] theorem setSh_kicks (s : State) (n : Nat) (x : Shift) : (s.setSh n x).kicks = s.kicks := rfl
@[simp] theorem setSh_events (s : State) (n : Nat) (x : Shift) : (s.setSh n x).events = s.events := rfl
@[simp] theorem setSh_msix (s : State) (n : Nat) (x : Shift) : (s.setSh n x).msix = s.msix := rfl
@[simp] theorem setSh_health (s : State) (n : Nat) (x : Shift) : (s.setSh n x).health = s.health := rfl
@[simp] theorem setSh_frame (s : State) (n : Nat) (x : Shift) : (s.setSh n x).frame = s.frame := rfl
@[simp] theorem setSh_gtc (s : State) (n : Nat) (x : Shift) : (s.setSh n x).gtc = s.gtc := rfl
@[simp] theorem setSh_gtcFrac (s : State) (n : Nat) (x : Shift) : (s.setSh n x).gtcFrac = s.gtcFrac := rfl
@[simp] theorem setSh_saved (s : State) (n : Nat) (x : Shift) : (s.setSh n x).saved = s.saved := rfl
@[simp] theorem setSh_savedN (s : State) (n : Nat) (x : Shift) : (s.setSh n x).savedN = s.savedN := rfl
@[simp] theorem setSh_published (s : State) (n : Nat) (x : Shift) : (s.setSh n x).published = s.published := rfl
@[simp] theorem setSh_netOut (s : State) (n : Nat) (x : Shift) : (s.setSh n x).netOut = s.netOut := rfl
@[simp] theorem setSh_wire (s : State) (n : Nat) (x : Shift) : (s.setSh n x).wire = s.wire := rfl
@[simp] theorem setSh_retry (s : State) (n : Nat) (x : Shift) : (s.setSh n x).retry = s.retry := rfl
@[simp] theorem setSh_resends (s : State) (n : Nat) (x : Shift) : (s.setSh n x).resends = s.resends := rfl
@[simp] theorem setSh_linkFlits (s : State) (n : Nat) (x : Shift) : (s.setSh n x).linkFlits = s.linkFlits := rfl
@[simp] theorem setSh_replays (s : State) (n : Nat) (x : Shift) : (s.setSh n x).replays = s.replays := rfl
@[simp] theorem setSh_refusedCp (s : State) (n : Nat) (x : Shift) : (s.setSh n x).refusedCp = s.refusedCp := rfl
@[simp] theorem setSh_hostData (s : State) (n : Nat) (x : Shift) : (s.setSh n x).hostData = s.hostData := rfl
@[simp] theorem setSh_attReports (s : State) (n : Nat) (x : Shift) : (s.setSh n x).attReports = s.attReports := rfl
@[simp] theorem setSh_schedule (s : State) (n : Nat) (x : Shift) : (s.setSh n x).schedule = s.schedule := rfl
@[simp] theorem setSh_arg (s : State) (n : Nat) (x : Shift) : (s.setSh n x).arg = s.arg := rfl
@[simp] theorem setSh_freeN (s : State) (n : Nat) (x : Shift) : (s.setSh n x).freeN = s.freeN := rfl
@[simp] theorem setSh_bundles (s : State) (n : Nat) (x : Shift) : (s.setSh n x).bundles = s.bundles := rfl
@[simp] theorem setSh_cur (s : State) (n : Nat) (x : Shift) : (s.setSh n x).cur = s.cur := rfl
@[simp] theorem setSh_turn (s : State) (n : Nat) (x : Shift) : (s.setSh n x).turn = s.turn := rfl

@[simp] theorem modSh_mem (s : State) (n : Nat) (f : Shift → Shift) : (s.modSh n f).mem = s.mem := rfl
@[simp] theorem modSh_poisonM (s : State) (n : Nat) (f : Shift → Shift) : (s.modSh n f).poisonM = s.poisonM := rfl
@[simp] theorem modSh_poisonS (s : State) (n : Nat) (f : Shift → Shift) : (s.modSh n f).poisonS = s.poisonS := rfl
@[simp] theorem modSh_cores (s : State) (n : Nat) (f : Shift → Shift) : (s.modSh n f).cores = s.cores := rfl
@[simp] theorem modSh_gals (s : State) (n : Nat) (f : Shift → Shift) : (s.modSh n f).gals = s.gals := rfl
@[simp] theorem modSh_launches (s : State) (n : Nat) (f : Shift → Shift) : (s.modSh n f).launches = s.launches := rfl
@[simp] theorem modSh_grants (s : State) (n : Nat) (f : Shift → Shift) : (s.modSh n f).grants = s.grants := rfl
@[simp] theorem modSh_bard (s : State) (n : Nat) (f : Shift → Shift) : (s.modSh n f).bard = s.bard := rfl
@[simp] theorem modSh_d (s : State) (n : Nat) (f : Shift → Shift) : (s.modSh n f).d = s.d := rfl
@[simp] theorem modSh_ttCache (s : State) (n : Nat) (f : Shift → Shift) : (s.modSh n f).ttCache = s.ttCache := rfl
@[simp] theorem modSh_bar (s : State) (n : Nat) (f : Shift → Shift) : (s.modSh n f).bar = s.bar := rfl
@[simp] theorem modSh_kicks (s : State) (n : Nat) (f : Shift → Shift) : (s.modSh n f).kicks = s.kicks := rfl
@[simp] theorem modSh_events (s : State) (n : Nat) (f : Shift → Shift) : (s.modSh n f).events = s.events := rfl
@[simp] theorem modSh_msix (s : State) (n : Nat) (f : Shift → Shift) : (s.modSh n f).msix = s.msix := rfl
@[simp] theorem modSh_health (s : State) (n : Nat) (f : Shift → Shift) : (s.modSh n f).health = s.health := rfl
@[simp] theorem modSh_frame (s : State) (n : Nat) (f : Shift → Shift) : (s.modSh n f).frame = s.frame := rfl
@[simp] theorem modSh_gtc (s : State) (n : Nat) (f : Shift → Shift) : (s.modSh n f).gtc = s.gtc := rfl
@[simp] theorem modSh_gtcFrac (s : State) (n : Nat) (f : Shift → Shift) : (s.modSh n f).gtcFrac = s.gtcFrac := rfl
@[simp] theorem modSh_saved (s : State) (n : Nat) (f : Shift → Shift) : (s.modSh n f).saved = s.saved := rfl
@[simp] theorem modSh_savedN (s : State) (n : Nat) (f : Shift → Shift) : (s.modSh n f).savedN = s.savedN := rfl
@[simp] theorem modSh_published (s : State) (n : Nat) (f : Shift → Shift) : (s.modSh n f).published = s.published := rfl
@[simp] theorem modSh_netOut (s : State) (n : Nat) (f : Shift → Shift) : (s.modSh n f).netOut = s.netOut := rfl
@[simp] theorem modSh_wire (s : State) (n : Nat) (f : Shift → Shift) : (s.modSh n f).wire = s.wire := rfl
@[simp] theorem modSh_retry (s : State) (n : Nat) (f : Shift → Shift) : (s.modSh n f).retry = s.retry := rfl
@[simp] theorem modSh_resends (s : State) (n : Nat) (f : Shift → Shift) : (s.modSh n f).resends = s.resends := rfl
@[simp] theorem modSh_linkFlits (s : State) (n : Nat) (f : Shift → Shift) : (s.modSh n f).linkFlits = s.linkFlits := rfl
@[simp] theorem modSh_replays (s : State) (n : Nat) (f : Shift → Shift) : (s.modSh n f).replays = s.replays := rfl
@[simp] theorem modSh_refusedCp (s : State) (n : Nat) (f : Shift → Shift) : (s.modSh n f).refusedCp = s.refusedCp := rfl
@[simp] theorem modSh_hostData (s : State) (n : Nat) (f : Shift → Shift) : (s.modSh n f).hostData = s.hostData := rfl
@[simp] theorem modSh_attReports (s : State) (n : Nat) (f : Shift → Shift) : (s.modSh n f).attReports = s.attReports := rfl
@[simp] theorem modSh_schedule (s : State) (n : Nat) (f : Shift → Shift) : (s.modSh n f).schedule = s.schedule := rfl
@[simp] theorem modSh_arg (s : State) (n : Nat) (f : Shift → Shift) : (s.modSh n f).arg = s.arg := rfl
@[simp] theorem modSh_freeN (s : State) (n : Nat) (f : Shift → Shift) : (s.modSh n f).freeN = s.freeN := rfl
@[simp] theorem modSh_bundles (s : State) (n : Nat) (f : Shift → Shift) : (s.modSh n f).bundles = s.bundles := rfl
@[simp] theorem modSh_cur (s : State) (n : Nat) (f : Shift → Shift) : (s.modSh n f).cur = s.cur := rfl
@[simp] theorem modSh_turn (s : State) (n : Nat) (f : Shift → Shift) : (s.modSh n f).turn = s.turn := rfl

@[simp] theorem setMe_mem (s : State) (x : Shift) : (s.setMe x).mem = s.mem := rfl
@[simp] theorem setMe_poisonM (s : State) (x : Shift) : (s.setMe x).poisonM = s.poisonM := rfl
@[simp] theorem setMe_poisonS (s : State) (x : Shift) : (s.setMe x).poisonS = s.poisonS := rfl
@[simp] theorem setMe_cores (s : State) (x : Shift) : (s.setMe x).cores = s.cores := rfl
@[simp] theorem setMe_gals (s : State) (x : Shift) : (s.setMe x).gals = s.gals := rfl
@[simp] theorem setMe_launches (s : State) (x : Shift) : (s.setMe x).launches = s.launches := rfl
@[simp] theorem setMe_grants (s : State) (x : Shift) : (s.setMe x).grants = s.grants := rfl
@[simp] theorem setMe_bard (s : State) (x : Shift) : (s.setMe x).bard = s.bard := rfl
@[simp] theorem setMe_d (s : State) (x : Shift) : (s.setMe x).d = s.d := rfl
@[simp] theorem setMe_ttCache (s : State) (x : Shift) : (s.setMe x).ttCache = s.ttCache := rfl
@[simp] theorem setMe_bar (s : State) (x : Shift) : (s.setMe x).bar = s.bar := rfl
@[simp] theorem setMe_kicks (s : State) (x : Shift) : (s.setMe x).kicks = s.kicks := rfl
@[simp] theorem setMe_events (s : State) (x : Shift) : (s.setMe x).events = s.events := rfl
@[simp] theorem setMe_msix (s : State) (x : Shift) : (s.setMe x).msix = s.msix := rfl
@[simp] theorem setMe_health (s : State) (x : Shift) : (s.setMe x).health = s.health := rfl
@[simp] theorem setMe_frame (s : State) (x : Shift) : (s.setMe x).frame = s.frame := rfl
@[simp] theorem setMe_gtc (s : State) (x : Shift) : (s.setMe x).gtc = s.gtc := rfl
@[simp] theorem setMe_gtcFrac (s : State) (x : Shift) : (s.setMe x).gtcFrac = s.gtcFrac := rfl
@[simp] theorem setMe_saved (s : State) (x : Shift) : (s.setMe x).saved = s.saved := rfl
@[simp] theorem setMe_savedN (s : State) (x : Shift) : (s.setMe x).savedN = s.savedN := rfl
@[simp] theorem setMe_published (s : State) (x : Shift) : (s.setMe x).published = s.published := rfl
@[simp] theorem setMe_netOut (s : State) (x : Shift) : (s.setMe x).netOut = s.netOut := rfl
@[simp] theorem setMe_wire (s : State) (x : Shift) : (s.setMe x).wire = s.wire := rfl
@[simp] theorem setMe_retry (s : State) (x : Shift) : (s.setMe x).retry = s.retry := rfl
@[simp] theorem setMe_resends (s : State) (x : Shift) : (s.setMe x).resends = s.resends := rfl
@[simp] theorem setMe_linkFlits (s : State) (x : Shift) : (s.setMe x).linkFlits = s.linkFlits := rfl
@[simp] theorem setMe_replays (s : State) (x : Shift) : (s.setMe x).replays = s.replays := rfl
@[simp] theorem setMe_refusedCp (s : State) (x : Shift) : (s.setMe x).refusedCp = s.refusedCp := rfl
@[simp] theorem setMe_hostData (s : State) (x : Shift) : (s.setMe x).hostData = s.hostData := rfl
@[simp] theorem setMe_attReports (s : State) (x : Shift) : (s.setMe x).attReports = s.attReports := rfl
@[simp] theorem setMe_schedule (s : State) (x : Shift) : (s.setMe x).schedule = s.schedule := rfl
@[simp] theorem setMe_arg (s : State) (x : Shift) : (s.setMe x).arg = s.arg := rfl
@[simp] theorem setMe_freeN (s : State) (x : Shift) : (s.setMe x).freeN = s.freeN := rfl
@[simp] theorem setMe_bundles (s : State) (x : Shift) : (s.setMe x).bundles = s.bundles := rfl
@[simp] theorem setMe_cur (s : State) (x : Shift) : (s.setMe x).cur = s.cur := rfl
@[simp] theorem setMe_turn (s : State) (x : Shift) : (s.setMe x).turn = s.turn := rfl

@[simp] theorem modMe_mem (s : State) (f : Shift → Shift) : (s.modMe f).mem = s.mem := rfl
@[simp] theorem modMe_poisonM (s : State) (f : Shift → Shift) : (s.modMe f).poisonM = s.poisonM := rfl
@[simp] theorem modMe_poisonS (s : State) (f : Shift → Shift) : (s.modMe f).poisonS = s.poisonS := rfl
@[simp] theorem modMe_cores (s : State) (f : Shift → Shift) : (s.modMe f).cores = s.cores := rfl
@[simp] theorem modMe_gals (s : State) (f : Shift → Shift) : (s.modMe f).gals = s.gals := rfl
@[simp] theorem modMe_launches (s : State) (f : Shift → Shift) : (s.modMe f).launches = s.launches := rfl
@[simp] theorem modMe_grants (s : State) (f : Shift → Shift) : (s.modMe f).grants = s.grants := rfl
@[simp] theorem modMe_bard (s : State) (f : Shift → Shift) : (s.modMe f).bard = s.bard := rfl
@[simp] theorem modMe_d (s : State) (f : Shift → Shift) : (s.modMe f).d = s.d := rfl
@[simp] theorem modMe_ttCache (s : State) (f : Shift → Shift) : (s.modMe f).ttCache = s.ttCache := rfl
@[simp] theorem modMe_bar (s : State) (f : Shift → Shift) : (s.modMe f).bar = s.bar := rfl
@[simp] theorem modMe_kicks (s : State) (f : Shift → Shift) : (s.modMe f).kicks = s.kicks := rfl
@[simp] theorem modMe_events (s : State) (f : Shift → Shift) : (s.modMe f).events = s.events := rfl
@[simp] theorem modMe_msix (s : State) (f : Shift → Shift) : (s.modMe f).msix = s.msix := rfl
@[simp] theorem modMe_health (s : State) (f : Shift → Shift) : (s.modMe f).health = s.health := rfl
@[simp] theorem modMe_frame (s : State) (f : Shift → Shift) : (s.modMe f).frame = s.frame := rfl
@[simp] theorem modMe_gtc (s : State) (f : Shift → Shift) : (s.modMe f).gtc = s.gtc := rfl
@[simp] theorem modMe_gtcFrac (s : State) (f : Shift → Shift) : (s.modMe f).gtcFrac = s.gtcFrac := rfl
@[simp] theorem modMe_saved (s : State) (f : Shift → Shift) : (s.modMe f).saved = s.saved := rfl
@[simp] theorem modMe_savedN (s : State) (f : Shift → Shift) : (s.modMe f).savedN = s.savedN := rfl
@[simp] theorem modMe_published (s : State) (f : Shift → Shift) : (s.modMe f).published = s.published := rfl
@[simp] theorem modMe_netOut (s : State) (f : Shift → Shift) : (s.modMe f).netOut = s.netOut := rfl
@[simp] theorem modMe_wire (s : State) (f : Shift → Shift) : (s.modMe f).wire = s.wire := rfl
@[simp] theorem modMe_retry (s : State) (f : Shift → Shift) : (s.modMe f).retry = s.retry := rfl
@[simp] theorem modMe_resends (s : State) (f : Shift → Shift) : (s.modMe f).resends = s.resends := rfl
@[simp] theorem modMe_linkFlits (s : State) (f : Shift → Shift) : (s.modMe f).linkFlits = s.linkFlits := rfl
@[simp] theorem modMe_replays (s : State) (f : Shift → Shift) : (s.modMe f).replays = s.replays := rfl
@[simp] theorem modMe_refusedCp (s : State) (f : Shift → Shift) : (s.modMe f).refusedCp = s.refusedCp := rfl
@[simp] theorem modMe_hostData (s : State) (f : Shift → Shift) : (s.modMe f).hostData = s.hostData := rfl
@[simp] theorem modMe_attReports (s : State) (f : Shift → Shift) : (s.modMe f).attReports = s.attReports := rfl
@[simp] theorem modMe_schedule (s : State) (f : Shift → Shift) : (s.modMe f).schedule = s.schedule := rfl
@[simp] theorem modMe_arg (s : State) (f : Shift → Shift) : (s.modMe f).arg = s.arg := rfl
@[simp] theorem modMe_freeN (s : State) (f : Shift → Shift) : (s.modMe f).freeN = s.freeN := rfl
@[simp] theorem modMe_bundles (s : State) (f : Shift → Shift) : (s.modMe f).bundles = s.bundles := rfl
@[simp] theorem modMe_cur (s : State) (f : Shift → Shift) : (s.modMe f).cur = s.cur := rfl
@[simp] theorem modMe_turn (s : State) (f : Shift → Shift) : (s.modMe f).turn = s.turn := rfl

@[simp] theorem modArch_mem (s : State) (f : Arch → Arch) : (s.modArch f).mem = s.mem := rfl
@[simp] theorem modArch_poisonM (s : State) (f : Arch → Arch) : (s.modArch f).poisonM = s.poisonM := rfl
@[simp] theorem modArch_poisonS (s : State) (f : Arch → Arch) : (s.modArch f).poisonS = s.poisonS := rfl
@[simp] theorem modArch_cores (s : State) (f : Arch → Arch) : (s.modArch f).cores = s.cores := rfl
@[simp] theorem modArch_gals (s : State) (f : Arch → Arch) : (s.modArch f).gals = s.gals := rfl
@[simp] theorem modArch_launches (s : State) (f : Arch → Arch) : (s.modArch f).launches = s.launches := rfl
@[simp] theorem modArch_grants (s : State) (f : Arch → Arch) : (s.modArch f).grants = s.grants := rfl
@[simp] theorem modArch_bard (s : State) (f : Arch → Arch) : (s.modArch f).bard = s.bard := rfl
@[simp] theorem modArch_d (s : State) (f : Arch → Arch) : (s.modArch f).d = s.d := rfl
@[simp] theorem modArch_ttCache (s : State) (f : Arch → Arch) : (s.modArch f).ttCache = s.ttCache := rfl
@[simp] theorem modArch_bar (s : State) (f : Arch → Arch) : (s.modArch f).bar = s.bar := rfl
@[simp] theorem modArch_kicks (s : State) (f : Arch → Arch) : (s.modArch f).kicks = s.kicks := rfl
@[simp] theorem modArch_events (s : State) (f : Arch → Arch) : (s.modArch f).events = s.events := rfl
@[simp] theorem modArch_msix (s : State) (f : Arch → Arch) : (s.modArch f).msix = s.msix := rfl
@[simp] theorem modArch_health (s : State) (f : Arch → Arch) : (s.modArch f).health = s.health := rfl
@[simp] theorem modArch_frame (s : State) (f : Arch → Arch) : (s.modArch f).frame = s.frame := rfl
@[simp] theorem modArch_gtc (s : State) (f : Arch → Arch) : (s.modArch f).gtc = s.gtc := rfl
@[simp] theorem modArch_gtcFrac (s : State) (f : Arch → Arch) : (s.modArch f).gtcFrac = s.gtcFrac := rfl
@[simp] theorem modArch_saved (s : State) (f : Arch → Arch) : (s.modArch f).saved = s.saved := rfl
@[simp] theorem modArch_savedN (s : State) (f : Arch → Arch) : (s.modArch f).savedN = s.savedN := rfl
@[simp] theorem modArch_published (s : State) (f : Arch → Arch) : (s.modArch f).published = s.published := rfl
@[simp] theorem modArch_netOut (s : State) (f : Arch → Arch) : (s.modArch f).netOut = s.netOut := rfl
@[simp] theorem modArch_wire (s : State) (f : Arch → Arch) : (s.modArch f).wire = s.wire := rfl
@[simp] theorem modArch_retry (s : State) (f : Arch → Arch) : (s.modArch f).retry = s.retry := rfl
@[simp] theorem modArch_resends (s : State) (f : Arch → Arch) : (s.modArch f).resends = s.resends := rfl
@[simp] theorem modArch_linkFlits (s : State) (f : Arch → Arch) : (s.modArch f).linkFlits = s.linkFlits := rfl
@[simp] theorem modArch_replays (s : State) (f : Arch → Arch) : (s.modArch f).replays = s.replays := rfl
@[simp] theorem modArch_refusedCp (s : State) (f : Arch → Arch) : (s.modArch f).refusedCp = s.refusedCp := rfl
@[simp] theorem modArch_hostData (s : State) (f : Arch → Arch) : (s.modArch f).hostData = s.hostData := rfl
@[simp] theorem modArch_attReports (s : State) (f : Arch → Arch) : (s.modArch f).attReports = s.attReports := rfl
@[simp] theorem modArch_schedule (s : State) (f : Arch → Arch) : (s.modArch f).schedule = s.schedule := rfl
@[simp] theorem modArch_arg (s : State) (f : Arch → Arch) : (s.modArch f).arg = s.arg := rfl
@[simp] theorem modArch_freeN (s : State) (f : Arch → Arch) : (s.modArch f).freeN = s.freeN := rfl
@[simp] theorem modArch_bundles (s : State) (f : Arch → Arch) : (s.modArch f).bundles = s.bundles := rfl
@[simp] theorem modArch_cur (s : State) (f : Arch → Arch) : (s.modArch f).cur = s.cur := rfl
@[simp] theorem modArch_turn (s : State) (f : Arch → Arch) : (s.modArch f).turn = s.turn := rfl

@[simp] theorem modC_mem (s : State) (f : RCsr → RCsr) : (s.modC f).mem = s.mem := rfl
@[simp] theorem modC_poisonM (s : State) (f : RCsr → RCsr) : (s.modC f).poisonM = s.poisonM := rfl
@[simp] theorem modC_poisonS (s : State) (f : RCsr → RCsr) : (s.modC f).poisonS = s.poisonS := rfl
@[simp] theorem modC_cores (s : State) (f : RCsr → RCsr) : (s.modC f).cores = s.cores := rfl
@[simp] theorem modC_gals (s : State) (f : RCsr → RCsr) : (s.modC f).gals = s.gals := rfl
@[simp] theorem modC_launches (s : State) (f : RCsr → RCsr) : (s.modC f).launches = s.launches := rfl
@[simp] theorem modC_grants (s : State) (f : RCsr → RCsr) : (s.modC f).grants = s.grants := rfl
@[simp] theorem modC_bard (s : State) (f : RCsr → RCsr) : (s.modC f).bard = s.bard := rfl
@[simp] theorem modC_d (s : State) (f : RCsr → RCsr) : (s.modC f).d = s.d := rfl
@[simp] theorem modC_ttCache (s : State) (f : RCsr → RCsr) : (s.modC f).ttCache = s.ttCache := rfl
@[simp] theorem modC_bar (s : State) (f : RCsr → RCsr) : (s.modC f).bar = s.bar := rfl
@[simp] theorem modC_kicks (s : State) (f : RCsr → RCsr) : (s.modC f).kicks = s.kicks := rfl
@[simp] theorem modC_events (s : State) (f : RCsr → RCsr) : (s.modC f).events = s.events := rfl
@[simp] theorem modC_msix (s : State) (f : RCsr → RCsr) : (s.modC f).msix = s.msix := rfl
@[simp] theorem modC_health (s : State) (f : RCsr → RCsr) : (s.modC f).health = s.health := rfl
@[simp] theorem modC_frame (s : State) (f : RCsr → RCsr) : (s.modC f).frame = s.frame := rfl
@[simp] theorem modC_gtc (s : State) (f : RCsr → RCsr) : (s.modC f).gtc = s.gtc := rfl
@[simp] theorem modC_gtcFrac (s : State) (f : RCsr → RCsr) : (s.modC f).gtcFrac = s.gtcFrac := rfl
@[simp] theorem modC_saved (s : State) (f : RCsr → RCsr) : (s.modC f).saved = s.saved := rfl
@[simp] theorem modC_savedN (s : State) (f : RCsr → RCsr) : (s.modC f).savedN = s.savedN := rfl
@[simp] theorem modC_published (s : State) (f : RCsr → RCsr) : (s.modC f).published = s.published := rfl
@[simp] theorem modC_netOut (s : State) (f : RCsr → RCsr) : (s.modC f).netOut = s.netOut := rfl
@[simp] theorem modC_wire (s : State) (f : RCsr → RCsr) : (s.modC f).wire = s.wire := rfl
@[simp] theorem modC_retry (s : State) (f : RCsr → RCsr) : (s.modC f).retry = s.retry := rfl
@[simp] theorem modC_resends (s : State) (f : RCsr → RCsr) : (s.modC f).resends = s.resends := rfl
@[simp] theorem modC_linkFlits (s : State) (f : RCsr → RCsr) : (s.modC f).linkFlits = s.linkFlits := rfl
@[simp] theorem modC_replays (s : State) (f : RCsr → RCsr) : (s.modC f).replays = s.replays := rfl
@[simp] theorem modC_refusedCp (s : State) (f : RCsr → RCsr) : (s.modC f).refusedCp = s.refusedCp := rfl
@[simp] theorem modC_hostData (s : State) (f : RCsr → RCsr) : (s.modC f).hostData = s.hostData := rfl
@[simp] theorem modC_attReports (s : State) (f : RCsr → RCsr) : (s.modC f).attReports = s.attReports := rfl
@[simp] theorem modC_schedule (s : State) (f : RCsr → RCsr) : (s.modC f).schedule = s.schedule := rfl
@[simp] theorem modC_arg (s : State) (f : RCsr → RCsr) : (s.modC f).arg = s.arg := rfl
@[simp] theorem modC_freeN (s : State) (f : RCsr → RCsr) : (s.modC f).freeN = s.freeN := rfl
@[simp] theorem modC_bundles (s : State) (f : RCsr → RCsr) : (s.modC f).bundles = s.bundles := rfl
@[simp] theorem modC_cur (s : State) (f : RCsr → RCsr) : (s.modC f).cur = s.cur := rfl
@[simp] theorem modC_turn (s : State) (f : RCsr → RCsr) : (s.modC f).turn = s.turn := rfl

@[simp] theorem modK_mem (s : State) (f : KCsr → KCsr) : (s.modK f).mem = s.mem := rfl
@[simp] theorem modK_poisonM (s : State) (f : KCsr → KCsr) : (s.modK f).poisonM = s.poisonM := rfl
@[simp] theorem modK_poisonS (s : State) (f : KCsr → KCsr) : (s.modK f).poisonS = s.poisonS := rfl
@[simp] theorem modK_cores (s : State) (f : KCsr → KCsr) : (s.modK f).cores = s.cores := rfl
@[simp] theorem modK_gals (s : State) (f : KCsr → KCsr) : (s.modK f).gals = s.gals := rfl
@[simp] theorem modK_launches (s : State) (f : KCsr → KCsr) : (s.modK f).launches = s.launches := rfl
@[simp] theorem modK_grants (s : State) (f : KCsr → KCsr) : (s.modK f).grants = s.grants := rfl
@[simp] theorem modK_bard (s : State) (f : KCsr → KCsr) : (s.modK f).bard = s.bard := rfl
@[simp] theorem modK_d (s : State) (f : KCsr → KCsr) : (s.modK f).d = s.d := rfl
@[simp] theorem modK_ttCache (s : State) (f : KCsr → KCsr) : (s.modK f).ttCache = s.ttCache := rfl
@[simp] theorem modK_bar (s : State) (f : KCsr → KCsr) : (s.modK f).bar = s.bar := rfl
@[simp] theorem modK_kicks (s : State) (f : KCsr → KCsr) : (s.modK f).kicks = s.kicks := rfl
@[simp] theorem modK_events (s : State) (f : KCsr → KCsr) : (s.modK f).events = s.events := rfl
@[simp] theorem modK_msix (s : State) (f : KCsr → KCsr) : (s.modK f).msix = s.msix := rfl
@[simp] theorem modK_health (s : State) (f : KCsr → KCsr) : (s.modK f).health = s.health := rfl
@[simp] theorem modK_frame (s : State) (f : KCsr → KCsr) : (s.modK f).frame = s.frame := rfl
@[simp] theorem modK_gtc (s : State) (f : KCsr → KCsr) : (s.modK f).gtc = s.gtc := rfl
@[simp] theorem modK_gtcFrac (s : State) (f : KCsr → KCsr) : (s.modK f).gtcFrac = s.gtcFrac := rfl
@[simp] theorem modK_saved (s : State) (f : KCsr → KCsr) : (s.modK f).saved = s.saved := rfl
@[simp] theorem modK_savedN (s : State) (f : KCsr → KCsr) : (s.modK f).savedN = s.savedN := rfl
@[simp] theorem modK_published (s : State) (f : KCsr → KCsr) : (s.modK f).published = s.published := rfl
@[simp] theorem modK_netOut (s : State) (f : KCsr → KCsr) : (s.modK f).netOut = s.netOut := rfl
@[simp] theorem modK_wire (s : State) (f : KCsr → KCsr) : (s.modK f).wire = s.wire := rfl
@[simp] theorem modK_retry (s : State) (f : KCsr → KCsr) : (s.modK f).retry = s.retry := rfl
@[simp] theorem modK_resends (s : State) (f : KCsr → KCsr) : (s.modK f).resends = s.resends := rfl
@[simp] theorem modK_linkFlits (s : State) (f : KCsr → KCsr) : (s.modK f).linkFlits = s.linkFlits := rfl
@[simp] theorem modK_replays (s : State) (f : KCsr → KCsr) : (s.modK f).replays = s.replays := rfl
@[simp] theorem modK_refusedCp (s : State) (f : KCsr → KCsr) : (s.modK f).refusedCp = s.refusedCp := rfl
@[simp] theorem modK_hostData (s : State) (f : KCsr → KCsr) : (s.modK f).hostData = s.hostData := rfl
@[simp] theorem modK_attReports (s : State) (f : KCsr → KCsr) : (s.modK f).attReports = s.attReports := rfl
@[simp] theorem modK_schedule (s : State) (f : KCsr → KCsr) : (s.modK f).schedule = s.schedule := rfl
@[simp] theorem modK_arg (s : State) (f : KCsr → KCsr) : (s.modK f).arg = s.arg := rfl
@[simp] theorem modK_freeN (s : State) (f : KCsr → KCsr) : (s.modK f).freeN = s.freeN := rfl
@[simp] theorem modK_bundles (s : State) (f : KCsr → KCsr) : (s.modK f).bundles = s.bundles := rfl
@[simp] theorem modK_cur (s : State) (f : KCsr → KCsr) : (s.modK f).cur = s.cur := rfl
@[simp] theorem modK_turn (s : State) (f : KCsr → KCsr) : (s.modK f).turn = s.turn := rfl

@[simp] theorem landAll_mem (s : State) (n : Nat) : (s.landAll n).mem = s.mem := rfl
@[simp] theorem landAll_poisonM (s : State) (n : Nat) : (s.landAll n).poisonM = s.poisonM := rfl
@[simp] theorem landAll_poisonS (s : State) (n : Nat) : (s.landAll n).poisonS = s.poisonS := rfl
@[simp] theorem landAll_cores (s : State) (n : Nat) : (s.landAll n).cores = s.cores := rfl
@[simp] theorem landAll_gals (s : State) (n : Nat) : (s.landAll n).gals = s.gals := rfl
@[simp] theorem landAll_launches (s : State) (n : Nat) : (s.landAll n).launches = s.launches := rfl
@[simp] theorem landAll_grants (s : State) (n : Nat) : (s.landAll n).grants = s.grants := rfl
@[simp] theorem landAll_bard (s : State) (n : Nat) : (s.landAll n).bard = s.bard := rfl
@[simp] theorem landAll_d (s : State) (n : Nat) : (s.landAll n).d = s.d := rfl
@[simp] theorem landAll_ttCache (s : State) (n : Nat) : (s.landAll n).ttCache = s.ttCache := rfl
@[simp] theorem landAll_bar (s : State) (n : Nat) : (s.landAll n).bar = s.bar := rfl
@[simp] theorem landAll_kicks (s : State) (n : Nat) : (s.landAll n).kicks = s.kicks := rfl
@[simp] theorem landAll_events (s : State) (n : Nat) : (s.landAll n).events = s.events := rfl
@[simp] theorem landAll_msix (s : State) (n : Nat) : (s.landAll n).msix = s.msix := rfl
@[simp] theorem landAll_health (s : State) (n : Nat) : (s.landAll n).health = s.health := rfl
@[simp] theorem landAll_frame (s : State) (n : Nat) : (s.landAll n).frame = s.frame := rfl
@[simp] theorem landAll_gtc (s : State) (n : Nat) : (s.landAll n).gtc = s.gtc := rfl
@[simp] theorem landAll_gtcFrac (s : State) (n : Nat) : (s.landAll n).gtcFrac = s.gtcFrac := rfl
@[simp] theorem landAll_saved (s : State) (n : Nat) : (s.landAll n).saved = s.saved := rfl
@[simp] theorem landAll_savedN (s : State) (n : Nat) : (s.landAll n).savedN = s.savedN := rfl
@[simp] theorem landAll_published (s : State) (n : Nat) : (s.landAll n).published = s.published := rfl
@[simp] theorem landAll_netOut (s : State) (n : Nat) : (s.landAll n).netOut = s.netOut := rfl
@[simp] theorem landAll_wire (s : State) (n : Nat) : (s.landAll n).wire = s.wire := rfl
@[simp] theorem landAll_retry (s : State) (n : Nat) : (s.landAll n).retry = s.retry := rfl
@[simp] theorem landAll_resends (s : State) (n : Nat) : (s.landAll n).resends = s.resends := rfl
@[simp] theorem landAll_linkFlits (s : State) (n : Nat) : (s.landAll n).linkFlits = s.linkFlits := rfl
@[simp] theorem landAll_replays (s : State) (n : Nat) : (s.landAll n).replays = s.replays := rfl
@[simp] theorem landAll_refusedCp (s : State) (n : Nat) : (s.landAll n).refusedCp = s.refusedCp := rfl
@[simp] theorem landAll_hostData (s : State) (n : Nat) : (s.landAll n).hostData = s.hostData := rfl
@[simp] theorem landAll_attReports (s : State) (n : Nat) : (s.landAll n).attReports = s.attReports := rfl
@[simp] theorem landAll_schedule (s : State) (n : Nat) : (s.landAll n).schedule = s.schedule := rfl
@[simp] theorem landAll_arg (s : State) (n : Nat) : (s.landAll n).arg = s.arg := rfl
@[simp] theorem landAll_freeN (s : State) (n : Nat) : (s.landAll n).freeN = s.freeN := rfl
@[simp] theorem landAll_bundles (s : State) (n : Nat) : (s.landAll n).bundles = s.bundles := rfl
@[simp] theorem landAll_cur (s : State) (n : Nat) : (s.landAll n).cur = s.cur := rfl
@[simp] theorem landAll_turn (s : State) (n : Nat) : (s.landAll n).turn = s.turn := rfl

@[simp] theorem fly_mem (s : State) (w : LandTo) (lat : Nat) : (s.fly w lat).mem = s.mem := rfl
@[simp] theorem fly_poisonM (s : State) (w : LandTo) (lat : Nat) : (s.fly w lat).poisonM = s.poisonM := rfl
@[simp] theorem fly_poisonS (s : State) (w : LandTo) (lat : Nat) : (s.fly w lat).poisonS = s.poisonS := rfl
@[simp] theorem fly_cores (s : State) (w : LandTo) (lat : Nat) : (s.fly w lat).cores = s.cores := rfl
@[simp] theorem fly_gals (s : State) (w : LandTo) (lat : Nat) : (s.fly w lat).gals = s.gals := rfl
@[simp] theorem fly_launches (s : State) (w : LandTo) (lat : Nat) : (s.fly w lat).launches = s.launches := rfl
@[simp] theorem fly_grants (s : State) (w : LandTo) (lat : Nat) : (s.fly w lat).grants = s.grants := rfl
@[simp] theorem fly_bard (s : State) (w : LandTo) (lat : Nat) : (s.fly w lat).bard = s.bard := rfl
@[simp] theorem fly_d (s : State) (w : LandTo) (lat : Nat) : (s.fly w lat).d = s.d := rfl
@[simp] theorem fly_ttCache (s : State) (w : LandTo) (lat : Nat) : (s.fly w lat).ttCache = s.ttCache := rfl
@[simp] theorem fly_bar (s : State) (w : LandTo) (lat : Nat) : (s.fly w lat).bar = s.bar := rfl
@[simp] theorem fly_kicks (s : State) (w : LandTo) (lat : Nat) : (s.fly w lat).kicks = s.kicks := rfl
@[simp] theorem fly_events (s : State) (w : LandTo) (lat : Nat) : (s.fly w lat).events = s.events := rfl
@[simp] theorem fly_msix (s : State) (w : LandTo) (lat : Nat) : (s.fly w lat).msix = s.msix := rfl
@[simp] theorem fly_health (s : State) (w : LandTo) (lat : Nat) : (s.fly w lat).health = s.health := rfl
@[simp] theorem fly_frame (s : State) (w : LandTo) (lat : Nat) : (s.fly w lat).frame = s.frame := rfl
@[simp] theorem fly_gtc (s : State) (w : LandTo) (lat : Nat) : (s.fly w lat).gtc = s.gtc := rfl
@[simp] theorem fly_gtcFrac (s : State) (w : LandTo) (lat : Nat) : (s.fly w lat).gtcFrac = s.gtcFrac := rfl
@[simp] theorem fly_saved (s : State) (w : LandTo) (lat : Nat) : (s.fly w lat).saved = s.saved := rfl
@[simp] theorem fly_savedN (s : State) (w : LandTo) (lat : Nat) : (s.fly w lat).savedN = s.savedN := rfl
@[simp] theorem fly_published (s : State) (w : LandTo) (lat : Nat) : (s.fly w lat).published = s.published := rfl
@[simp] theorem fly_netOut (s : State) (w : LandTo) (lat : Nat) : (s.fly w lat).netOut = s.netOut := rfl
@[simp] theorem fly_wire (s : State) (w : LandTo) (lat : Nat) : (s.fly w lat).wire = s.wire := rfl
@[simp] theorem fly_retry (s : State) (w : LandTo) (lat : Nat) : (s.fly w lat).retry = s.retry := rfl
@[simp] theorem fly_resends (s : State) (w : LandTo) (lat : Nat) : (s.fly w lat).resends = s.resends := rfl
@[simp] theorem fly_linkFlits (s : State) (w : LandTo) (lat : Nat) : (s.fly w lat).linkFlits = s.linkFlits := rfl
@[simp] theorem fly_replays (s : State) (w : LandTo) (lat : Nat) : (s.fly w lat).replays = s.replays := rfl
@[simp] theorem fly_refusedCp (s : State) (w : LandTo) (lat : Nat) : (s.fly w lat).refusedCp = s.refusedCp := rfl
@[simp] theorem fly_hostData (s : State) (w : LandTo) (lat : Nat) : (s.fly w lat).hostData = s.hostData := rfl
@[simp] theorem fly_attReports (s : State) (w : LandTo) (lat : Nat) : (s.fly w lat).attReports = s.attReports := rfl
@[simp] theorem fly_schedule (s : State) (w : LandTo) (lat : Nat) : (s.fly w lat).schedule = s.schedule := rfl
@[simp] theorem fly_arg (s : State) (w : LandTo) (lat : Nat) : (s.fly w lat).arg = s.arg := rfl
@[simp] theorem fly_freeN (s : State) (w : LandTo) (lat : Nat) : (s.fly w lat).freeN = s.freeN := rfl
@[simp] theorem fly_bundles (s : State) (w : LandTo) (lat : Nat) : (s.fly w lat).bundles = s.bundles := rfl
@[simp] theorem fly_cur (s : State) (w : LandTo) (lat : Nat) : (s.fly w lat).cur = s.cur := rfl
@[simp] theorem fly_turn (s : State) (w : LandTo) (lat : Nat) : (s.fly w lat).turn = s.turn := rfl

@[simp] theorem pushLsq_mem (s : State) (op : LsqOp) : (s.pushLsq op).mem = s.mem := rfl
@[simp] theorem pushLsq_poisonM (s : State) (op : LsqOp) : (s.pushLsq op).poisonM = s.poisonM := rfl
@[simp] theorem pushLsq_poisonS (s : State) (op : LsqOp) : (s.pushLsq op).poisonS = s.poisonS := rfl
@[simp] theorem pushLsq_cores (s : State) (op : LsqOp) : (s.pushLsq op).cores = s.cores := rfl
@[simp] theorem pushLsq_gals (s : State) (op : LsqOp) : (s.pushLsq op).gals = s.gals := rfl
@[simp] theorem pushLsq_launches (s : State) (op : LsqOp) : (s.pushLsq op).launches = s.launches := rfl
@[simp] theorem pushLsq_grants (s : State) (op : LsqOp) : (s.pushLsq op).grants = s.grants := rfl
@[simp] theorem pushLsq_bard (s : State) (op : LsqOp) : (s.pushLsq op).bard = s.bard := rfl
@[simp] theorem pushLsq_d (s : State) (op : LsqOp) : (s.pushLsq op).d = s.d := rfl
@[simp] theorem pushLsq_ttCache (s : State) (op : LsqOp) : (s.pushLsq op).ttCache = s.ttCache := rfl
@[simp] theorem pushLsq_bar (s : State) (op : LsqOp) : (s.pushLsq op).bar = s.bar := rfl
@[simp] theorem pushLsq_kicks (s : State) (op : LsqOp) : (s.pushLsq op).kicks = s.kicks := rfl
@[simp] theorem pushLsq_events (s : State) (op : LsqOp) : (s.pushLsq op).events = s.events := rfl
@[simp] theorem pushLsq_msix (s : State) (op : LsqOp) : (s.pushLsq op).msix = s.msix := rfl
@[simp] theorem pushLsq_health (s : State) (op : LsqOp) : (s.pushLsq op).health = s.health := rfl
@[simp] theorem pushLsq_frame (s : State) (op : LsqOp) : (s.pushLsq op).frame = s.frame := rfl
@[simp] theorem pushLsq_gtc (s : State) (op : LsqOp) : (s.pushLsq op).gtc = s.gtc := rfl
@[simp] theorem pushLsq_gtcFrac (s : State) (op : LsqOp) : (s.pushLsq op).gtcFrac = s.gtcFrac := rfl
@[simp] theorem pushLsq_saved (s : State) (op : LsqOp) : (s.pushLsq op).saved = s.saved := rfl
@[simp] theorem pushLsq_savedN (s : State) (op : LsqOp) : (s.pushLsq op).savedN = s.savedN := rfl
@[simp] theorem pushLsq_published (s : State) (op : LsqOp) : (s.pushLsq op).published = s.published := rfl
@[simp] theorem pushLsq_netOut (s : State) (op : LsqOp) : (s.pushLsq op).netOut = s.netOut := rfl
@[simp] theorem pushLsq_wire (s : State) (op : LsqOp) : (s.pushLsq op).wire = s.wire := rfl
@[simp] theorem pushLsq_retry (s : State) (op : LsqOp) : (s.pushLsq op).retry = s.retry := rfl
@[simp] theorem pushLsq_resends (s : State) (op : LsqOp) : (s.pushLsq op).resends = s.resends := rfl
@[simp] theorem pushLsq_linkFlits (s : State) (op : LsqOp) : (s.pushLsq op).linkFlits = s.linkFlits := rfl
@[simp] theorem pushLsq_replays (s : State) (op : LsqOp) : (s.pushLsq op).replays = s.replays := rfl
@[simp] theorem pushLsq_refusedCp (s : State) (op : LsqOp) : (s.pushLsq op).refusedCp = s.refusedCp := rfl
@[simp] theorem pushLsq_hostData (s : State) (op : LsqOp) : (s.pushLsq op).hostData = s.hostData := rfl
@[simp] theorem pushLsq_attReports (s : State) (op : LsqOp) : (s.pushLsq op).attReports = s.attReports := rfl
@[simp] theorem pushLsq_schedule (s : State) (op : LsqOp) : (s.pushLsq op).schedule = s.schedule := rfl
@[simp] theorem pushLsq_arg (s : State) (op : LsqOp) : (s.pushLsq op).arg = s.arg := rfl
@[simp] theorem pushLsq_freeN (s : State) (op : LsqOp) : (s.pushLsq op).freeN = s.freeN := rfl
@[simp] theorem pushLsq_bundles (s : State) (op : LsqOp) : (s.pushLsq op).bundles = s.bundles := rfl
@[simp] theorem pushLsq_cur (s : State) (op : LsqOp) : (s.pushLsq op).cur = s.cur := rfl
@[simp] theorem pushLsq_turn (s : State) (op : LsqOp) : (s.pushLsq op).turn = s.turn := rfl

@[simp] theorem setCore_mem (s : State) (c : Nat) (x : CoreSt) : (s.setCore c x).mem = s.mem := rfl
@[simp] theorem setCore_poisonM (s : State) (c : Nat) (x : CoreSt) : (s.setCore c x).poisonM = s.poisonM := rfl
@[simp] theorem setCore_poisonS (s : State) (c : Nat) (x : CoreSt) : (s.setCore c x).poisonS = s.poisonS := rfl
@[simp] theorem setCore_shifts (s : State) (c : Nat) (x : CoreSt) : (s.setCore c x).shifts = s.shifts := rfl
@[simp] theorem setCore_gals (s : State) (c : Nat) (x : CoreSt) : (s.setCore c x).gals = s.gals := rfl
@[simp] theorem setCore_launches (s : State) (c : Nat) (x : CoreSt) : (s.setCore c x).launches = s.launches := rfl
@[simp] theorem setCore_grants (s : State) (c : Nat) (x : CoreSt) : (s.setCore c x).grants = s.grants := rfl
@[simp] theorem setCore_bard (s : State) (c : Nat) (x : CoreSt) : (s.setCore c x).bard = s.bard := rfl
@[simp] theorem setCore_d (s : State) (c : Nat) (x : CoreSt) : (s.setCore c x).d = s.d := rfl
@[simp] theorem setCore_ttCache (s : State) (c : Nat) (x : CoreSt) : (s.setCore c x).ttCache = s.ttCache := rfl
@[simp] theorem setCore_bar (s : State) (c : Nat) (x : CoreSt) : (s.setCore c x).bar = s.bar := rfl
@[simp] theorem setCore_kicks (s : State) (c : Nat) (x : CoreSt) : (s.setCore c x).kicks = s.kicks := rfl
@[simp] theorem setCore_events (s : State) (c : Nat) (x : CoreSt) : (s.setCore c x).events = s.events := rfl
@[simp] theorem setCore_msix (s : State) (c : Nat) (x : CoreSt) : (s.setCore c x).msix = s.msix := rfl
@[simp] theorem setCore_health (s : State) (c : Nat) (x : CoreSt) : (s.setCore c x).health = s.health := rfl
@[simp] theorem setCore_frame (s : State) (c : Nat) (x : CoreSt) : (s.setCore c x).frame = s.frame := rfl
@[simp] theorem setCore_gtc (s : State) (c : Nat) (x : CoreSt) : (s.setCore c x).gtc = s.gtc := rfl
@[simp] theorem setCore_gtcFrac (s : State) (c : Nat) (x : CoreSt) : (s.setCore c x).gtcFrac = s.gtcFrac := rfl
@[simp] theorem setCore_saved (s : State) (c : Nat) (x : CoreSt) : (s.setCore c x).saved = s.saved := rfl
@[simp] theorem setCore_savedN (s : State) (c : Nat) (x : CoreSt) : (s.setCore c x).savedN = s.savedN := rfl
@[simp] theorem setCore_published (s : State) (c : Nat) (x : CoreSt) : (s.setCore c x).published = s.published := rfl
@[simp] theorem setCore_netOut (s : State) (c : Nat) (x : CoreSt) : (s.setCore c x).netOut = s.netOut := rfl
@[simp] theorem setCore_wire (s : State) (c : Nat) (x : CoreSt) : (s.setCore c x).wire = s.wire := rfl
@[simp] theorem setCore_retry (s : State) (c : Nat) (x : CoreSt) : (s.setCore c x).retry = s.retry := rfl
@[simp] theorem setCore_resends (s : State) (c : Nat) (x : CoreSt) : (s.setCore c x).resends = s.resends := rfl
@[simp] theorem setCore_linkFlits (s : State) (c : Nat) (x : CoreSt) : (s.setCore c x).linkFlits = s.linkFlits := rfl
@[simp] theorem setCore_replays (s : State) (c : Nat) (x : CoreSt) : (s.setCore c x).replays = s.replays := rfl
@[simp] theorem setCore_refusedCp (s : State) (c : Nat) (x : CoreSt) : (s.setCore c x).refusedCp = s.refusedCp := rfl
@[simp] theorem setCore_hostData (s : State) (c : Nat) (x : CoreSt) : (s.setCore c x).hostData = s.hostData := rfl
@[simp] theorem setCore_attReports (s : State) (c : Nat) (x : CoreSt) : (s.setCore c x).attReports = s.attReports := rfl
@[simp] theorem setCore_schedule (s : State) (c : Nat) (x : CoreSt) : (s.setCore c x).schedule = s.schedule := rfl
@[simp] theorem setCore_arg (s : State) (c : Nat) (x : CoreSt) : (s.setCore c x).arg = s.arg := rfl
@[simp] theorem setCore_freeN (s : State) (c : Nat) (x : CoreSt) : (s.setCore c x).freeN = s.freeN := rfl
@[simp] theorem setCore_bundles (s : State) (c : Nat) (x : CoreSt) : (s.setCore c x).bundles = s.bundles := rfl
@[simp] theorem setCore_cur (s : State) (c : Nat) (x : CoreSt) : (s.setCore c x).cur = s.cur := rfl
@[simp] theorem setCore_turn (s : State) (c : Nat) (x : CoreSt) : (s.setCore c x).turn = s.turn := rfl

@[simp] theorem setGal_mem (s : State) (g : Nat) (x : Gallery) : (s.setGal g x).mem = s.mem := rfl
@[simp] theorem setGal_poisonM (s : State) (g : Nat) (x : Gallery) : (s.setGal g x).poisonM = s.poisonM := rfl
@[simp] theorem setGal_poisonS (s : State) (g : Nat) (x : Gallery) : (s.setGal g x).poisonS = s.poisonS := rfl
@[simp] theorem setGal_shifts (s : State) (g : Nat) (x : Gallery) : (s.setGal g x).shifts = s.shifts := rfl
@[simp] theorem setGal_cores (s : State) (g : Nat) (x : Gallery) : (s.setGal g x).cores = s.cores := rfl
@[simp] theorem setGal_launches (s : State) (g : Nat) (x : Gallery) : (s.setGal g x).launches = s.launches := rfl
@[simp] theorem setGal_grants (s : State) (g : Nat) (x : Gallery) : (s.setGal g x).grants = s.grants := rfl
@[simp] theorem setGal_bard (s : State) (g : Nat) (x : Gallery) : (s.setGal g x).bard = s.bard := rfl
@[simp] theorem setGal_d (s : State) (g : Nat) (x : Gallery) : (s.setGal g x).d = s.d := rfl
@[simp] theorem setGal_ttCache (s : State) (g : Nat) (x : Gallery) : (s.setGal g x).ttCache = s.ttCache := rfl
@[simp] theorem setGal_bar (s : State) (g : Nat) (x : Gallery) : (s.setGal g x).bar = s.bar := rfl
@[simp] theorem setGal_kicks (s : State) (g : Nat) (x : Gallery) : (s.setGal g x).kicks = s.kicks := rfl
@[simp] theorem setGal_events (s : State) (g : Nat) (x : Gallery) : (s.setGal g x).events = s.events := rfl
@[simp] theorem setGal_msix (s : State) (g : Nat) (x : Gallery) : (s.setGal g x).msix = s.msix := rfl
@[simp] theorem setGal_health (s : State) (g : Nat) (x : Gallery) : (s.setGal g x).health = s.health := rfl
@[simp] theorem setGal_frame (s : State) (g : Nat) (x : Gallery) : (s.setGal g x).frame = s.frame := rfl
@[simp] theorem setGal_gtc (s : State) (g : Nat) (x : Gallery) : (s.setGal g x).gtc = s.gtc := rfl
@[simp] theorem setGal_gtcFrac (s : State) (g : Nat) (x : Gallery) : (s.setGal g x).gtcFrac = s.gtcFrac := rfl
@[simp] theorem setGal_saved (s : State) (g : Nat) (x : Gallery) : (s.setGal g x).saved = s.saved := rfl
@[simp] theorem setGal_savedN (s : State) (g : Nat) (x : Gallery) : (s.setGal g x).savedN = s.savedN := rfl
@[simp] theorem setGal_published (s : State) (g : Nat) (x : Gallery) : (s.setGal g x).published = s.published := rfl
@[simp] theorem setGal_netOut (s : State) (g : Nat) (x : Gallery) : (s.setGal g x).netOut = s.netOut := rfl
@[simp] theorem setGal_wire (s : State) (g : Nat) (x : Gallery) : (s.setGal g x).wire = s.wire := rfl
@[simp] theorem setGal_retry (s : State) (g : Nat) (x : Gallery) : (s.setGal g x).retry = s.retry := rfl
@[simp] theorem setGal_resends (s : State) (g : Nat) (x : Gallery) : (s.setGal g x).resends = s.resends := rfl
@[simp] theorem setGal_linkFlits (s : State) (g : Nat) (x : Gallery) : (s.setGal g x).linkFlits = s.linkFlits := rfl
@[simp] theorem setGal_replays (s : State) (g : Nat) (x : Gallery) : (s.setGal g x).replays = s.replays := rfl
@[simp] theorem setGal_refusedCp (s : State) (g : Nat) (x : Gallery) : (s.setGal g x).refusedCp = s.refusedCp := rfl
@[simp] theorem setGal_hostData (s : State) (g : Nat) (x : Gallery) : (s.setGal g x).hostData = s.hostData := rfl
@[simp] theorem setGal_attReports (s : State) (g : Nat) (x : Gallery) : (s.setGal g x).attReports = s.attReports := rfl
@[simp] theorem setGal_schedule (s : State) (g : Nat) (x : Gallery) : (s.setGal g x).schedule = s.schedule := rfl
@[simp] theorem setGal_arg (s : State) (g : Nat) (x : Gallery) : (s.setGal g x).arg = s.arg := rfl
@[simp] theorem setGal_freeN (s : State) (g : Nat) (x : Gallery) : (s.setGal g x).freeN = s.freeN := rfl
@[simp] theorem setGal_bundles (s : State) (g : Nat) (x : Gallery) : (s.setGal g x).bundles = s.bundles := rfl
@[simp] theorem setGal_cur (s : State) (g : Nat) (x : Gallery) : (s.setGal g x).cur = s.cur := rfl
@[simp] theorem setGal_turn (s : State) (g : Nat) (x : Gallery) : (s.setGal g x).turn = s.turn := rfl

@[simp] theorem writeM_poisonS (s : State) (key n v : Nat) : (s.writeM key n v).poisonS = s.poisonS := rfl
@[simp] theorem writeM_shifts (s : State) (key n v : Nat) : (s.writeM key n v).shifts = s.shifts := rfl
@[simp] theorem writeM_cores (s : State) (key n v : Nat) : (s.writeM key n v).cores = s.cores := rfl
@[simp] theorem writeM_gals (s : State) (key n v : Nat) : (s.writeM key n v).gals = s.gals := rfl
@[simp] theorem writeM_launches (s : State) (key n v : Nat) : (s.writeM key n v).launches = s.launches := rfl
@[simp] theorem writeM_grants (s : State) (key n v : Nat) : (s.writeM key n v).grants = s.grants := rfl
@[simp] theorem writeM_bard (s : State) (key n v : Nat) : (s.writeM key n v).bard = s.bard := rfl
@[simp] theorem writeM_d (s : State) (key n v : Nat) : (s.writeM key n v).d = s.d := rfl
@[simp] theorem writeM_ttCache (s : State) (key n v : Nat) : (s.writeM key n v).ttCache = s.ttCache := rfl
@[simp] theorem writeM_bar (s : State) (key n v : Nat) : (s.writeM key n v).bar = s.bar := rfl
@[simp] theorem writeM_kicks (s : State) (key n v : Nat) : (s.writeM key n v).kicks = s.kicks := rfl
@[simp] theorem writeM_events (s : State) (key n v : Nat) : (s.writeM key n v).events = s.events := rfl
@[simp] theorem writeM_msix (s : State) (key n v : Nat) : (s.writeM key n v).msix = s.msix := rfl
@[simp] theorem writeM_health (s : State) (key n v : Nat) : (s.writeM key n v).health = s.health := rfl
@[simp] theorem writeM_frame (s : State) (key n v : Nat) : (s.writeM key n v).frame = s.frame := rfl
@[simp] theorem writeM_gtc (s : State) (key n v : Nat) : (s.writeM key n v).gtc = s.gtc := rfl
@[simp] theorem writeM_gtcFrac (s : State) (key n v : Nat) : (s.writeM key n v).gtcFrac = s.gtcFrac := rfl
@[simp] theorem writeM_saved (s : State) (key n v : Nat) : (s.writeM key n v).saved = s.saved := rfl
@[simp] theorem writeM_savedN (s : State) (key n v : Nat) : (s.writeM key n v).savedN = s.savedN := rfl
@[simp] theorem writeM_published (s : State) (key n v : Nat) : (s.writeM key n v).published = s.published := rfl
@[simp] theorem writeM_netOut (s : State) (key n v : Nat) : (s.writeM key n v).netOut = s.netOut := rfl
@[simp] theorem writeM_wire (s : State) (key n v : Nat) : (s.writeM key n v).wire = s.wire := rfl
@[simp] theorem writeM_retry (s : State) (key n v : Nat) : (s.writeM key n v).retry = s.retry := rfl
@[simp] theorem writeM_resends (s : State) (key n v : Nat) : (s.writeM key n v).resends = s.resends := rfl
@[simp] theorem writeM_linkFlits (s : State) (key n v : Nat) : (s.writeM key n v).linkFlits = s.linkFlits := rfl
@[simp] theorem writeM_replays (s : State) (key n v : Nat) : (s.writeM key n v).replays = s.replays := rfl
@[simp] theorem writeM_refusedCp (s : State) (key n v : Nat) : (s.writeM key n v).refusedCp = s.refusedCp := rfl
@[simp] theorem writeM_hostData (s : State) (key n v : Nat) : (s.writeM key n v).hostData = s.hostData := rfl
@[simp] theorem writeM_attReports (s : State) (key n v : Nat) : (s.writeM key n v).attReports = s.attReports := rfl
@[simp] theorem writeM_schedule (s : State) (key n v : Nat) : (s.writeM key n v).schedule = s.schedule := rfl
@[simp] theorem writeM_arg (s : State) (key n v : Nat) : (s.writeM key n v).arg = s.arg := rfl
@[simp] theorem writeM_freeN (s : State) (key n v : Nat) : (s.writeM key n v).freeN = s.freeN := rfl
@[simp] theorem writeM_bundles (s : State) (key n v : Nat) : (s.writeM key n v).bundles = s.bundles := rfl
@[simp] theorem writeM_cur (s : State) (key n v : Nat) : (s.writeM key n v).cur = s.cur := rfl
@[simp] theorem writeM_turn (s : State) (key n v : Nat) : (s.writeM key n v).turn = s.turn := rfl

@[simp] theorem setCtl_mem (s : State) (c : Ctl) : (s.setCtl c).mem = s.mem := rfl
@[simp] theorem setCtl_poisonM (s : State) (c : Ctl) : (s.setCtl c).poisonM = s.poisonM := rfl
@[simp] theorem setCtl_poisonS (s : State) (c : Ctl) : (s.setCtl c).poisonS = s.poisonS := rfl
@[simp] theorem setCtl_shifts (s : State) (c : Ctl) : (s.setCtl c).shifts = s.shifts := rfl
@[simp] theorem setCtl_cores (s : State) (c : Ctl) : (s.setCtl c).cores = s.cores := rfl
@[simp] theorem setCtl_gals (s : State) (c : Ctl) : (s.setCtl c).gals = s.gals := rfl
@[simp] theorem setCtl_launches (s : State) (c : Ctl) : (s.setCtl c).launches = s.launches := rfl
@[simp] theorem setCtl_grants (s : State) (c : Ctl) : (s.setCtl c).grants = s.grants := rfl
@[simp] theorem setCtl_bard (s : State) (c : Ctl) : (s.setCtl c).bard = s.bard := rfl
@[simp] theorem setCtl_d (s : State) (c : Ctl) : (s.setCtl c).d = s.d := rfl
@[simp] theorem setCtl_ttCache (s : State) (c : Ctl) : (s.setCtl c).ttCache = s.ttCache := rfl
@[simp] theorem setCtl_bar (s : State) (c : Ctl) : (s.setCtl c).bar = s.bar := rfl
@[simp] theorem setCtl_kicks (s : State) (c : Ctl) : (s.setCtl c).kicks = s.kicks := rfl
@[simp] theorem setCtl_events (s : State) (c : Ctl) : (s.setCtl c).events = s.events := rfl
@[simp] theorem setCtl_msix (s : State) (c : Ctl) : (s.setCtl c).msix = s.msix := rfl
@[simp] theorem setCtl_health (s : State) (c : Ctl) : (s.setCtl c).health = s.health := rfl
@[simp] theorem setCtl_frame (s : State) (c : Ctl) : (s.setCtl c).frame = s.frame := rfl
@[simp] theorem setCtl_gtc (s : State) (c : Ctl) : (s.setCtl c).gtc = s.gtc := rfl
@[simp] theorem setCtl_gtcFrac (s : State) (c : Ctl) : (s.setCtl c).gtcFrac = s.gtcFrac := rfl
@[simp] theorem setCtl_saved (s : State) (c : Ctl) : (s.setCtl c).saved = s.saved := rfl
@[simp] theorem setCtl_savedN (s : State) (c : Ctl) : (s.setCtl c).savedN = s.savedN := rfl
@[simp] theorem setCtl_published (s : State) (c : Ctl) : (s.setCtl c).published = s.published := rfl
@[simp] theorem setCtl_netOut (s : State) (c : Ctl) : (s.setCtl c).netOut = s.netOut := rfl
@[simp] theorem setCtl_wire (s : State) (c : Ctl) : (s.setCtl c).wire = s.wire := rfl
@[simp] theorem setCtl_retry (s : State) (c : Ctl) : (s.setCtl c).retry = s.retry := rfl
@[simp] theorem setCtl_resends (s : State) (c : Ctl) : (s.setCtl c).resends = s.resends := rfl
@[simp] theorem setCtl_linkFlits (s : State) (c : Ctl) : (s.setCtl c).linkFlits = s.linkFlits := rfl
@[simp] theorem setCtl_replays (s : State) (c : Ctl) : (s.setCtl c).replays = s.replays := rfl
@[simp] theorem setCtl_refusedCp (s : State) (c : Ctl) : (s.setCtl c).refusedCp = s.refusedCp := rfl
@[simp] theorem setCtl_hostData (s : State) (c : Ctl) : (s.setCtl c).hostData = s.hostData := rfl
@[simp] theorem setCtl_attReports (s : State) (c : Ctl) : (s.setCtl c).attReports = s.attReports := rfl
@[simp] theorem setCtl_schedule (s : State) (c : Ctl) : (s.setCtl c).schedule = s.schedule := rfl
@[simp] theorem setCtl_arg (s : State) (c : Ctl) : (s.setCtl c).arg = s.arg := rfl
@[simp] theorem setCtl_freeN (s : State) (c : Ctl) : (s.setCtl c).freeN = s.freeN := rfl
@[simp] theorem setCtl_bundles (s : State) (c : Ctl) : (s.setCtl c).bundles = s.bundles := rfl
@[simp] theorem setCtl_turn (s : State) (c : Ctl) : (s.setCtl c).turn = s.turn := rfl

@[simp] theorem setAfter_mem (s : State) (a : After) : (s.setAfter a).mem = s.mem := rfl
@[simp] theorem setAfter_poisonM (s : State) (a : After) : (s.setAfter a).poisonM = s.poisonM := rfl
@[simp] theorem setAfter_poisonS (s : State) (a : After) : (s.setAfter a).poisonS = s.poisonS := rfl
@[simp] theorem setAfter_shifts (s : State) (a : After) : (s.setAfter a).shifts = s.shifts := rfl
@[simp] theorem setAfter_cores (s : State) (a : After) : (s.setAfter a).cores = s.cores := rfl
@[simp] theorem setAfter_gals (s : State) (a : After) : (s.setAfter a).gals = s.gals := rfl
@[simp] theorem setAfter_launches (s : State) (a : After) : (s.setAfter a).launches = s.launches := rfl
@[simp] theorem setAfter_grants (s : State) (a : After) : (s.setAfter a).grants = s.grants := rfl
@[simp] theorem setAfter_bard (s : State) (a : After) : (s.setAfter a).bard = s.bard := rfl
@[simp] theorem setAfter_d (s : State) (a : After) : (s.setAfter a).d = s.d := rfl
@[simp] theorem setAfter_ttCache (s : State) (a : After) : (s.setAfter a).ttCache = s.ttCache := rfl
@[simp] theorem setAfter_bar (s : State) (a : After) : (s.setAfter a).bar = s.bar := rfl
@[simp] theorem setAfter_kicks (s : State) (a : After) : (s.setAfter a).kicks = s.kicks := rfl
@[simp] theorem setAfter_events (s : State) (a : After) : (s.setAfter a).events = s.events := rfl
@[simp] theorem setAfter_msix (s : State) (a : After) : (s.setAfter a).msix = s.msix := rfl
@[simp] theorem setAfter_health (s : State) (a : After) : (s.setAfter a).health = s.health := rfl
@[simp] theorem setAfter_frame (s : State) (a : After) : (s.setAfter a).frame = s.frame := rfl
@[simp] theorem setAfter_gtc (s : State) (a : After) : (s.setAfter a).gtc = s.gtc := rfl
@[simp] theorem setAfter_gtcFrac (s : State) (a : After) : (s.setAfter a).gtcFrac = s.gtcFrac := rfl
@[simp] theorem setAfter_saved (s : State) (a : After) : (s.setAfter a).saved = s.saved := rfl
@[simp] theorem setAfter_savedN (s : State) (a : After) : (s.setAfter a).savedN = s.savedN := rfl
@[simp] theorem setAfter_published (s : State) (a : After) : (s.setAfter a).published = s.published := rfl
@[simp] theorem setAfter_netOut (s : State) (a : After) : (s.setAfter a).netOut = s.netOut := rfl
@[simp] theorem setAfter_wire (s : State) (a : After) : (s.setAfter a).wire = s.wire := rfl
@[simp] theorem setAfter_retry (s : State) (a : After) : (s.setAfter a).retry = s.retry := rfl
@[simp] theorem setAfter_resends (s : State) (a : After) : (s.setAfter a).resends = s.resends := rfl
@[simp] theorem setAfter_linkFlits (s : State) (a : After) : (s.setAfter a).linkFlits = s.linkFlits := rfl
@[simp] theorem setAfter_replays (s : State) (a : After) : (s.setAfter a).replays = s.replays := rfl
@[simp] theorem setAfter_refusedCp (s : State) (a : After) : (s.setAfter a).refusedCp = s.refusedCp := rfl
@[simp] theorem setAfter_hostData (s : State) (a : After) : (s.setAfter a).hostData = s.hostData := rfl
@[simp] theorem setAfter_attReports (s : State) (a : After) : (s.setAfter a).attReports = s.attReports := rfl
@[simp] theorem setAfter_schedule (s : State) (a : After) : (s.setAfter a).schedule = s.schedule := rfl
@[simp] theorem setAfter_arg (s : State) (a : After) : (s.setAfter a).arg = s.arg := rfl
@[simp] theorem setAfter_freeN (s : State) (a : After) : (s.setAfter a).freeN = s.freeN := rfl
@[simp] theorem setAfter_bundles (s : State) (a : After) : (s.setAfter a).bundles = s.bundles := rfl
@[simp] theorem setAfter_turn (s : State) (a : After) : (s.setAfter a).turn = s.turn := rfl

/-! ### Units -/

@[simp] theorem sh_setSh (s : State) (n : Nat) (x : Shift) : (s.setSh n x).sh n = x := lget_lput_same ..
theorem sh_setSh_other (s : State) (n m : Nat) (x : Shift) (h : m ≠ n) : (s.setSh n x).sh m = s.sh m :=
  lget_lput_other _ _ _ _ _ h
@[simp] theorem sh_modSh (s : State) (n : Nat) (f : Shift → Shift) : (s.modSh n f).sh n = f (s.sh n) := sh_setSh ..
theorem sh_modSh_other (s : State) (n m : Nat) (f : Shift → Shift) (h : m ≠ n) : (s.modSh n f).sh m = s.sh m :=
  sh_setSh_other _ _ _ _ h
@[simp] theorem gal_setGal (s : State) (n : Nat) (x : Gallery) : (s.setGal n x).gal n = x := lget_lput_same ..
theorem gal_setGal_other (s : State) (n m : Nat) (x : Gallery) (h : m ≠ n) : (s.setGal n x).gal m = s.gal m :=
  lget_lput_other _ _ _ _ _ h
@[simp] theorem core_setCore (s : State) (n : Nat) (x : CoreSt) : (s.setCore n x).core n = x := lget_lput_same ..
theorem core_setCore_other (s : State) (n m : Nat) (x : CoreSt) (h : m ≠ n) : (s.setCore n x).core m = s.core m :=
  lget_lput_other _ _ _ _ _ h

@[simp] theorem sh_setGal (s : State) (g n : Nat) (x : Gallery) : (s.setGal g x).sh n = s.sh n := rfl
@[simp] theorem sh_setCore (s : State) (c n : Nat) (x : CoreSt) : (s.setCore c x).sh n = s.sh n := rfl
@[simp] theorem sh_writeM (s : State) (k n v m : Nat) : (s.writeM k n v).sh m = s.sh m := rfl
@[simp] theorem sh_setCtl (s : State) (c : Ctl) (n : Nat) : (s.setCtl c).sh n = s.sh n := rfl
@[simp] theorem sh_setAfter (s : State) (a : After) (n : Nat) : (s.setAfter a).sh n = s.sh n := rfl
@[simp] theorem gal_setSh (s : State) (n g : Nat) (x : Shift) : (s.setSh n x).gal g = s.gal g := rfl
@[simp] theorem gal_modSh (s : State) (n g : Nat) (f : Shift → Shift) : (s.modSh n f).gal g = s.gal g := rfl
@[simp] theorem gal_modMe (s : State) (g : Nat) (f : Shift → Shift) : (s.modMe f).gal g = s.gal g := rfl
@[simp] theorem gal_setCore (s : State) (c g : Nat) (x : CoreSt) : (s.setCore c x).gal g = s.gal g := rfl
@[simp] theorem gal_writeM (s : State) (k n v g : Nat) : (s.writeM k n v).gal g = s.gal g := rfl
@[simp] theorem core_modSh (s : State) (n c : Nat) (f : Shift → Shift) : (s.modSh n f).core c = s.core c := rfl
@[simp] theorem core_setGal (s : State) (g c : Nat) (x : Gallery) : (s.setGal g x).core c = s.core c := rfl
@[simp] theorem core_writeM (s : State) (k n v c : Nat) : (s.writeM k n v).core c = s.core c := rfl

@[simp] theorem me_setMe (s : State) (x : Shift) : (s.setMe x).me = x := sh_setSh ..
@[simp] theorem me_modMe (s : State) (f : Shift → Shift) : (s.modMe f).me = f s.me := sh_modSh ..
theorem sh_modMe_other (s : State) (m : Nat) (f : Shift → Shift) (h : m ≠ s.cur.shift) : (s.modMe f).sh m = s.sh m :=
  sh_modSh_other _ _ _ _ h
@[simp] theorem me_modArch (s : State) (f : Arch → Arch) : (s.modArch f).me = { s.me with arch := f s.me.arch } := me_modMe ..
@[simp] theorem me_modC (s : State) (f : RCsr → RCsr) :
    (s.modC f).me = { s.me with arch := { s.me.arch with c := f s.me.arch.c } } := me_modMe ..
@[simp] theorem me_modK (s : State) (f : KCsr → KCsr) : (s.modK f).me = { s.me with k := f s.me.k } := me_modMe ..
@[simp] theorem me_setCtl (s : State) (c : Ctl) : (s.setCtl c).me = s.me := rfl
@[simp] theorem me_setAfter (s : State) (a : After) : (s.setAfter a).me = s.me := rfl
@[simp] theorem me_fly (s : State) (w : LandTo) (lat : Nat) :
    (s.fly w lat).me = { s.me with inflight := s.me.inflight ++ [⟨w, lat, s.cur.bundle, s.cur.slot, s.cur.x⟩] } := me_modMe ..
@[simp] theorem me_pushLsq (s : State) (op : LsqOp) :
    (s.pushLsq op).me = { s.me with lsq := s.me.lsq ++ [⟨op, s.cur.x, s.cur.bundle⟩] } := me_modMe ..
@[simp] theorem sh_landAll (s : State) (n : Nat) : (s.landAll n).sh n = Shift.landAll s.freeSlot (s.sh n) := sh_modSh ..

end State

end Sys2Proof.Machine
end

