-- ==== Sys2Proof/Laws/Memory.lean ====
section
/-! SUPPORT. Keyed lists and byte memories: a read after a write, and every memory operation keeps the canonical form. -/

namespace Sys2Proof.Machine

/-! ### Keyed lists -/

theorem mem_of_mem_lput {α : Type} {l : List (Nat × α)} {k : Nat} {v : α} {p : Nat × α} (h : p ∈ lput l k v) :
    p = (k, v) ∨ p ∈ l := by
  induction l with
  | nil => simpa [lput] using h
  | cons q r ih =>
    obtain ⟨k', v'⟩ := q
    simp only [lput] at h
    split at h
    · simpa using h
    · split at h
      · rcases List.mem_cons.1 h with h | h
        · exact .inl h
        · exact .inr (List.mem_cons_of_mem _ h)
      · rcases List.mem_cons.1 h with h | h
        · exact .inr (h ▸ List.mem_cons_self)
        · exact (ih h).imp_right (List.mem_cons_of_mem _)

theorem lget_mem_or_default {α : Type} (l : List (Nat × α)) (k : Nat) (d : α) : (k, lget l k d) ∈ l ∨ lget l k d = d := by
  induction l with
  | nil => exact .inr rfl
  | cons q r ih =>
    obtain ⟨k', v'⟩ := q
    simp only [lget]
    split
    · rename_i h; subst h; exact .inl List.mem_cons_self
    · exact ih.imp_left (List.mem_cons_of_mem _)

/-- A key written keeps the keys rising. -/
theorem lput_keys_pairwise {α : Type} (l : List (Nat × α)) (k : Nat) (v : α)
    (h : (l.map Prod.fst).Pairwise (· < ·)) : ((lput l k v).map Prod.fst).Pairwise (· < ·) := by
  induction l with
  | nil => simp [lput]
  | cons q r ih =>
    obtain ⟨k', v'⟩ := q
    simp only [List.map_cons, List.pairwise_cons] at h
    obtain ⟨hk, hr⟩ := h
    simp only [lput]
    split
    · rename_i hlt
      simp only [List.map_cons, List.pairwise_cons, List.mem_cons]
      exact ⟨fun a ha => ha.elim (fun e => e ▸ hlt) (fun ha => Nat.lt_trans hlt (hk a ha)), hk, hr⟩
    · split
      · rename_i e; subst e; simpa using ⟨fun a b hb => hk a (List.mem_map.2 ⟨(a, b), hb, rfl⟩), hr⟩
      · rename_i h1 h2
        simp only [List.map_cons, List.pairwise_cons]
        refine ⟨fun a ha => ?_, ih hr⟩
        obtain ⟨p, hp, rfl⟩ := List.mem_map.1 ha
        rcases mem_of_mem_lput hp with rfl | hp
        · simp; omega
        · exact hk _ (List.mem_map.2 ⟨p, hp, rfl⟩)

/-! ### The canonical form -/

/-- The canonical form as a property: addresses strictly rising, no entry that reads as an unlisted byte does. -/
theorem Memory.wfFrom_iff (lo : Option Nat) (m : List Host.Cell) : Memory.wfFrom lo m = true ↔
    (m.map Prod.fst).Pairwise (· < ·) ∧ (∀ c ∈ m, c.2 ≠ memDefault) ∧ ∀ l, lo = some l → ∀ c ∈ m, l < c.1 := by
  induction m generalizing lo with
  | nil => simp [Memory.wfFrom]
  | cons c r ih =>
    obtain ⟨a, b⟩ := c
    simp only [Memory.wfFrom, Bool.and_eq_true, decide_eq_true_eq, ih, List.map_cons, List.pairwise_cons]
    constructor
    · rintro ⟨⟨hl, hb⟩, hp, hd, hr⟩
      have hr := hr a rfl
      refine ⟨⟨fun x hx => ?_, hp⟩, ?_, ?_⟩
      · obtain ⟨c, hc, rfl⟩ := List.mem_map.1 hx; exact hr c hc
      · intro c hc; rcases List.mem_cons.1 hc with rfl | hc
        · exact hb
        · exact hd c hc
      · rintro l rfl c hc
        have hl : l < a := by simpa using hl
        rcases List.mem_cons.1 hc with rfl | hc
        · exact hl
        · exact Nat.lt_trans hl (hr c hc)
    · rintro ⟨⟨hp, hr⟩, hd, hl⟩
      refine ⟨⟨?_, hd _ List.mem_cons_self⟩, hr, fun c hc => hd c (List.mem_cons_of_mem _ hc), ?_⟩
      · cases lo with
        | none => rfl
        | some l => simpa using hl l rfl _ List.mem_cons_self
      · rintro l ⟨⟩ c hc; exact hp _ (List.mem_map.2 ⟨c, hc, rfl⟩)

theorem Memory.wf_iff (m : List Host.Cell) :
    Memory.wf m = true ↔ (m.map Prod.fst).Pairwise (· < ·) ∧ ∀ c ∈ m, c.2 ≠ memDefault := by
  simp [Memory.wf, Memory.wfFrom_iff]

/-- The canonical form as rising entries, for lists built from parts. -/
theorem Memory.wf_iff_pairwise (m : List Host.Cell) :
    Memory.wf m = true ↔ m.Pairwise (fun c d => c.1 < d.1) ∧ ∀ c ∈ m, c.2 ≠ memDefault := by
  rw [Memory.wf_iff, List.pairwise_map]

@[simp] theorem Memory.wf_nil : Memory.wf [] = true := rfl

theorem mem_of_mem_memPut {m : List Host.Cell} {a : Nat} {b : Byte} {c : Host.Cell} (h : c ∈ memPut m a b) :
    c = (a, b) ∧ b ≠ memDefault ∨ c ∈ m := by
  induction m with
  | nil => simp only [memPut] at h; split at h <;> simp_all
  | cons q r ih =>
    obtain ⟨a', b'⟩ := q
    simp only [memPut] at h
    split at h
    · split at h
      · exact .inr h
      · rcases List.mem_cons.1 h with h | h
        · exact .inl ⟨h, ‹_›⟩
        · exact .inr h
    · split at h
      · split at h
        · exact .inr (List.mem_cons_of_mem _ h)
        · rcases List.mem_cons.1 h with h | h
          · exact .inl ⟨h, ‹_›⟩
          · exact .inr (List.mem_cons_of_mem _ h)
      · rcases List.mem_cons.1 h with h | h
        · exact .inr (h ▸ List.mem_cons_self)
        · exact (ih h).imp_right (List.mem_cons_of_mem _)

/-- Writing one byte keeps the canonical form. -/
theorem memPut_wf (m : List Host.Cell) (a : Nat) (b : Byte) (h : Memory.wf m = true) : Memory.wf (memPut m a b) = true := by
  rw [Memory.wf_iff_pairwise] at h ⊢
  refine ⟨?_, fun c hc => ?_⟩
  · obtain ⟨hp, -⟩ := h
    induction m with
    | nil => simp only [memPut]; split <;> simp
    | cons q r ih =>
      obtain ⟨a', b'⟩ := q
      rw [List.pairwise_cons] at hp
      simp only [memPut]
      split
      · rename_i hlt
        split
        · exact List.pairwise_cons.2 hp
        · refine List.pairwise_cons.2 ⟨fun c hc => ?_, List.pairwise_cons.2 hp⟩
          rcases List.mem_cons.1 hc with rfl | hc
          · exact hlt
          · exact Nat.lt_trans hlt (hp.1 c hc)
      · split
        · rename_i e; subst e
          split
          · exact hp.2
          · exact List.pairwise_cons.2 hp
        · refine List.pairwise_cons.2 ⟨fun c hc => ?_, ih hp.2⟩
          rcases mem_of_mem_memPut hc with ⟨rfl, -⟩ | hc
          · simp; omega
          · exact hp.1 c hc
  · rcases mem_of_mem_memPut hc with ⟨rfl, hb⟩ | hc
    · exact hb
    · exact h.2 c hc

/-- Writing n bytes keeps the canonical form. -/
theorem memWrite_wf (m : List Host.Cell) (a n v : Nat) (h : Memory.wf m = true) : Memory.wf (memWrite m a n v) = true := by
  induction n generalizing m a v with
  | zero => exact h
  | succ n ih => exact ih _ _ _ (memPut_wf m a _ h)

theorem cellsFrom_bounds {a : Nat} {l : List Byte} {c : Host.Cell} (h : c ∈ cellsFrom a l) :
    a ≤ c.1 ∧ c.1 < a + l.length ∧ c.2 ≠ memDefault := by
  induction l generalizing a with
  | nil => simp [cellsFrom] at h
  | cons b r ih =>
    simp only [cellsFrom] at h
    split at h
    · have := ih h; exact ⟨by omega, by simp only [List.length_cons]; omega, this.2.2⟩
    · rcases List.mem_cons.1 h with rfl | h
      · exact ⟨Nat.le_refl _, by simp, ‹_›⟩
      · have := ih h; exact ⟨by omega, by simp only [List.length_cons]; omega, this.2.2⟩

theorem cellsFrom_pairwise (a : Nat) (l : List Byte) : (cellsFrom a l).Pairwise (fun c d => c.1 < d.1) := by
  induction l generalizing a with
  | nil => simp [cellsFrom]
  | cons b r ih =>
    simp only [cellsFrom]
    split
    · exact ih _
    · exact List.pairwise_cons.2 ⟨fun c hc => (cellsFrom_bounds hc).1, ih _⟩

/-- Writing a run of bytes keeps the canonical form. -/
theorem memBlit_wf (m : List Host.Cell) (a : Nat) (l : List Byte) (h : Memory.wf m = true) :
    Memory.wf (memBlit m a l) = true := by
  rw [Memory.wf_iff_pairwise] at h ⊢
  obtain ⟨hp, hd⟩ := h
  refine ⟨?_, fun c hc => ?_⟩
  · simp only [memBlit, List.pairwise_append]
    refine ⟨⟨hp.filter _, cellsFrom_pairwise a l, fun c hc d hd => ?_⟩, hp.filter _, fun c hc d hd => ?_⟩
    · have h1 := (List.mem_filter.1 hc).2; have h2 := (cellsFrom_bounds hd).1; simp at h1; omega
    · have h2 := (List.mem_filter.1 hd).2
      simp at h2
      rcases List.mem_append.1 hc with hc | hc
      · have h1 := (List.mem_filter.1 hc).2; simp at h1; omega
      · have h1 := (cellsFrom_bounds hc).2.1; omega
  · simp only [memBlit, List.mem_append] at hc
    rcases hc with (hc | hc) | hc
    · exact hd c (List.mem_filter.1 hc).1
    · exact (cellsFrom_bounds hc).2.2
    · exact hd c (List.mem_filter.1 hc).1

theorem Memory.wf_filter (m : List Host.Cell) (p : Host.Cell → Bool) (h : Memory.wf m = true) :
    Memory.wf (m.filter p) = true := by
  rw [Memory.wf_iff_pairwise] at h ⊢
  exact ⟨h.1.filter _, fun c hc => h.2 c (List.mem_filter.1 hc).1⟩

/-- A list of runs written one after the other keeps the canonical form. -/
theorem foldl_memBlit_wf (l : List (Nat × List Byte)) (m : List Host.Cell) (h : Memory.wf m = true) :
    Memory.wf (l.foldl (fun m i => memBlit m i.1 i.2) m) = true := by
  induction l generalizing m with
  | nil => exact h
  | cons i r ih => exact ih _ (memBlit_wf m i.1 i.2 h)

/-- A list of bytes written one after the other keeps the canonical form. -/
theorem foldl_memPut_wf (l : List Host.Cell) (m : List Host.Cell) (h : Memory.wf m = true) :
    Memory.wf (l.foldl (fun m c => memPut m c.1 c.2) m) = true := by
  induction l generalizing m with
  | nil => exact h
  | cons i r ih => exact ih _ (memPut_wf m i.1 i.2 h)

/-! ### Read after write -/

theorem memByte_above (m : List Host.Cell) (a : Nat) (h : ∀ c ∈ m, a < c.1) : memByte m a = memDefault := by
  induction m with
  | nil => rfl
  | cons q r ih =>
    obtain ⟨a', b'⟩ := q
    have := h (a', b') List.mem_cons_self
    simp only [memByte]
    rw [if_neg (by simp at this; omega)]
    exact ih fun c hc => h c (List.mem_cons_of_mem _ hc)

/-- A byte reads as it was written last; a write to another address does not change it. -/
theorem memByte_memPut (m : List Host.Cell) (a k : Nat) (b : Byte) (h : Memory.wf m = true) :
    memByte (memPut m a b) k = if k = a then b else memByte m k := by
  rw [Memory.wf_iff_pairwise] at h
  obtain ⟨hp, -⟩ := h
  induction m with
  | nil =>
    simp only [memPut]
    split
    · rename_i hb; simp only [memByte]; split <;> simp [hb]
    · simp only [memByte, eq_comm]
  | cons q r ih =>
    obtain ⟨a', b'⟩ := q
    rw [List.pairwise_cons] at hp
    simp only [memPut]
    split
    · rename_i hlt
      split
      · rename_i hb
        split
        · rename_i e; subst e
          rw [hb]; exact memByte_above _ _ fun c hc => by
            rcases List.mem_cons.1 hc with rfl | hc
            · exact hlt
            · exact Nat.lt_trans hlt (hp.1 c hc)
        · rfl
      · simp only [memByte, eq_comm]
    · split
      · rename_i e; subst e
        split
        · rename_i hb
          split
          · rename_i e; subst e
            rw [hb]; exact memByte_above _ _ fun c hc => hp.1 c hc
          · rename_i hne; simp only [memByte, if_neg (Ne.symm hne)]
        · rename_i hb
          by_cases hk : k = a
          · simp [memByte, hk]
          · simp [memByte, hk, Ne.symm hk]
      · rename_i h1 h2
        simp only [memByte, ih hp.2]
        by_cases hk : a' = k
        · simp [hk]; intro e; omega
        · simp [hk]

/-- A byte outside the n bytes written stands. -/
theorem memByte_memWrite_outside (m : List Host.Cell) (a n v k : Nat) (h : Memory.wf m = true) (hk : k < a ∨ a + n ≤ k) :
    memByte (memWrite m a n v) k = memByte m k := by
  induction n generalizing m a v with
  | zero => rfl
  | succ n ih =>
    simp only [memWrite]
    rw [ih _ _ _ (memPut_wf m a _ h) (by omega), memByte_memPut _ _ _ _ h, if_neg (by omega)]

/-- The cells of a run read as its bytes. -/
theorem memByte_cellsFrom (a k : Nat) (l : List Byte) (h : a ≤ k) : memByte (cellsFrom a l) k = l.getD (k - a) memDefault := by
  induction l generalizing a with
  | nil => simp [cellsFrom, memByte]
  | cons b r ih =>
    simp only [cellsFrom]
    by_cases e : k = a
    · subst e
      split
      · rename_i hb
        rw [memByte_above _ _ fun c hc => (cellsFrom_bounds hc).1]; simp [hb]
      · simp [memByte]
    · have hs : k - a = (k - (a + 1)) + 1 := by omega
      split
      · rw [ih _ (by omega), hs]; simp
      · simp only [memByte, if_neg (Ne.symm e)]; rw [ih _ (by omega), hs]; simp

/-! ### The memories of the state -/

/-- The initial gallery is in canonical form. -/
theorem Gallery.initial_ok : Memory.wf Gallery.initial.sp = true ∧ (Gallery.initial.tags.map Prod.fst).Pairwise (· < ·) :=
  ⟨rfl, List.Pairwise.nil⟩

/-- Every gallery read from a state in canonical form is in canonical form. -/
theorem State.memOk.gal {s : State} (h : s.memOk) (g : Nat) :
    Memory.wf (s.gal g).sp = true ∧ ((s.gal g).tags.map Prod.fst).Pairwise (· < ·) := by
  rcases lget_mem_or_default s.gals g .initial with hm | hm
  · exact h.2 _ hm
  · rw [State.gal, hm]; exact Gallery.initial_ok

/-- A gallery in canonical form put into a state keeps its canonical form. -/
theorem State.memOk.setGal {s : State} (h : s.memOk) (g : Nat) (x : Gallery)
    (hx : Memory.wf x.sp = true ∧ (x.tags.map Prod.fst).Pairwise (· < ·)) : (s.setGal g x).memOk :=
  ⟨h.1, fun p hp => (mem_of_mem_lput hp).elim (fun e => e ▸ hx) (h.2 p)⟩

/-- A state with the memories of another in canonical form is in canonical form. -/
theorem State.memOk.of_eq {s t : State} (h : s.memOk) (hm : t.mem = s.mem) (hg : t.gals = s.gals) : t.memOk := by
  unfold State.memOk; rw [hm, hg]; exact h

@[simp] theorem State.memOk_setSh (s : State) (n : Nat) (x : Shift) : (s.setSh n x).memOk ↔ s.memOk := Iff.rfl
@[simp] theorem State.memOk_modSh (s : State) (n : Nat) (f : Shift → Shift) : (s.modSh n f).memOk ↔ s.memOk := Iff.rfl
@[simp] theorem State.memOk_setCore (s : State) (n : Nat) (x : CoreSt) : (s.setCore n x).memOk ↔ s.memOk := Iff.rfl

end Sys2Proof.Machine
end

