-- ==== Sys2Proof/Laws/Save.lean ====
section
/-! SUPPORT. The save area (14 R296): what stands at each place of its image, that a shift rebuilt from its image has the
registers it had, and that an area reads as it was written. -/

namespace Sys2Proof.Machine

theorem padTo_length (l : List Word64) (n : Nat) : (padTo l n).length = n := by
  simp [padTo]; omega

theorem padTo_get (l : List Word64) (n i : Nat) (h : i < l.length) (hn : l.length ≤ n) : (padTo l n)[i]? = l[i]? := by
  rw [padTo, List.getElem?_take_of_lt (by omega), List.getElem?_append_left h]

theorem natWords_length (v n : Nat) : (natWords v n).length = n := by simp [natWords]

/-- Entry (k, i) of a flat list of parts of one length. -/
theorem flatMap_get {α β : Type} (l : List α) (f : α → List β) (n : Nat) (hf : ∀ a, (f a).length = n) (k i : Nat) (hi : i < n) :
    (l.flatMap f)[n * k + i]? = (l[k]?).bind fun a => (f a)[i]? := by
  induction l generalizing k with
  | nil => simp
  | cons a r ih =>
    rw [List.flatMap_cons]
    cases k with
    | zero => simp [List.getElem?_append_left, hf, hi]
    | succ k =>
      rw [List.getElem?_append_right (by rw [hf, Nat.mul_succ]; omega), hf, show n * (k + 1) + i - n = n * k + i by rw [Nat.mul_succ]; omega, ih]
      simp

theorem flatMap_length {α β : Type} (l : List α) (f : α → List β) (n : Nat) (hf : ∀ a, (f a).length = n) :
    (l.flatMap f).length = n * l.length := by
  induction l with
  | nil => rfl
  | cons a r ih => rw [List.flatMap_cons, List.length_append, hf, ih, List.length_cons, Nat.mul_succ, Nat.add_comm]

/-- A number from its words. -/
theorem natWords_sum (v n : Nat) : ((List.range n).map fun j => (v / 2 ^ (64 * j)) % 2 ^ 64 * 2 ^ (64 * j)).sum = v % 2 ^ (64 * n) := by
  induction n with
  | zero => simp [Nat.mod_one]
  | succ n ih =>
    rw [List.range_succ, List.map_append, List.sum_append, ih, List.map_singleton, List.sum_singleton,
      show 64 * (n + 1) = 64 * n + 64 by omega, Nat.pow_add, Nat.mod_mul, Nat.mul_comm (2 ^ (64 * n))]

/-- A number whose words of 32 bits are d and then those of r. -/
theorem word_div (d r j : Nat) (h : d < 2 ^ 32) : (d + r * 2 ^ 32) / 2 ^ (32 * (j + 1)) = r / 2 ^ (32 * j) := by
  rw [show 32 * (j + 1) = 32 + 32 * j by omega, Nat.pow_add, ← Nat.div_div_eq_div_mul]
  congr 1; omega

theorem bv_eq {k : Nat} (x : BitVec k) (y : Nat) (h : y % 2 ^ k = x.toNat) : BitVec.ofNat k y = x := by
  apply BitVec.eq_of_toNat_eq; simpa using h

/-- The word list of a vector of 32-bit words, as one number. -/
def packed32 (d : Nat → Nat) : Nat → Nat
  | 0 => 0
  | n + 1 => d 0 + packed32 (fun j => d (j + 1)) n * 2 ^ 32

theorem packed32_div (n : Nat) : ∀ (d : Nat → Nat) (j : Nat), (∀ k, d k < 2 ^ 32) → j < n →
    packed32 d n / 2 ^ (32 * j) % 2 ^ 32 = d j := by
  induction n with
  | zero => intro d j _ h; omega
  | succ n ih =>
    intro d j hd hj
    cases j with
    | zero => have := hd 0; rw [packed32]; simp only [Nat.mul_zero, Nat.pow_zero, Nat.div_one]; omega
    | succ j => rw [packed32, word_div _ _ _ (hd 0), ih _ _ (fun k => hd _) (by omega)]

theorem sum_mul (l : List Nat) (c : Nat) : l.sum * c = (l.map (· * c)).sum := by
  induction l with
  | nil => simp
  | cons a r ih => rw [List.sum_cons, List.map_cons, List.sum_cons, Nat.add_mul, ih]

theorem packed32_sum (n : Nat) : ∀ d : Nat → Nat, packed32 d n = ((List.range n).map fun j => d j * 2 ^ (32 * j)).sum := by
  induction n with
  | zero => intro d; rfl
  | succ n ih =>
    intro d
    rw [packed32, ih, List.range_succ_eq_map, List.map_cons, List.sum_cons, List.map_map, Nat.mul_zero, Nat.pow_zero, Nat.mul_one,
      sum_mul, List.map_map]
    refine congrArg (d 0 + ·) (congrArg List.sum (List.map_congr_left fun j _ => ?_))
    simp only [Function.comp]
    rw [Nat.mul_assoc, ← Nat.pow_add]
    rfl

theorem packed32_lt (n : Nat) : ∀ d : Nat → Nat, (∀ k, d k < 2 ^ 32) → packed32 d n < 2 ^ (32 * n) := by
  induction n with
  | zero => intro d _; simp [packed32]
  | succ n ih =>
    intro d hd
    have h0 := hd 0
    have h1 := ih (fun j => d (j + 1)) fun k => hd _
    rw [packed32, show 32 * (n + 1) = 32 * n + 32 by omega, Nat.pow_add]
    have : packed32 (fun j => d (j + 1)) n + 1 ≤ 2 ^ (32 * n) := h1
    have := Nat.mul_le_mul_right (2 ^ 32) this
    omega

/-- The image of a map is its fields, and above them the words of its DATUM. -/
theorem CMap.image_eq (m : CMap) : ∃ P, P < 2 ^ 192 ∧ (∀ j, j < 6 → P / 2 ^ (32 * j) % 2 ^ 32 = (m.datum[j]?.getD 0).toNat)
    ∧ m.image = m.st.code + m.tt.toNat * 2 ^ 2 + m.fmt.toNat * 2 ^ 8 + m.id.toNat * 2 ^ 12 + m.ir.toNat * 2 ^ 15
      + m.od.toNat * 2 ^ 16 + m.orev.toNat * 2 ^ 19 + m.ie.toNat * 2 ^ 20 + m.cmp.toNat * 2 ^ 29 + P * 2 ^ 64 := by
  have hd : ∀ k : Nat, (m.datum[k]?.getD 0).toNat < 2 ^ 32 := fun k => (m.datum[k]?.getD 0).isLt
  refine ⟨packed32 (fun j => (m.datum[j]?.getD 0).toNat) 6, packed32_lt 6 _ hd, fun j hj => packed32_div 6 _ j hd hj, ?_⟩
  have h : ((List.range 6).map fun j => (m.datum[j]?.getD 0).toNat * 2 ^ (64 + 32 * j)).sum
      = packed32 (fun j => (m.datum[j]?.getD 0).toNat) 6 * 2 ^ 64 := by
    rw [packed32_sum, sum_mul, List.map_map]
    refine congrArg List.sum (List.map_congr_left fun j _ => ?_)
    simp only [Function.comp]
    rw [Nat.mul_assoc, ← Nat.pow_add, Nat.add_comm]
  rw [CMap.image, h]

theorem MapSt.code_lt (m : MapSt) : m.code < 4 := by cases m <;> decide

theorem CMap.image_lt (m : CMap) : m.image < 2 ^ 256 := by
  obtain ⟨P, hP, -, h⟩ := m.image_eq
  have := m.st.code_lt
  have := m.tt.isLt
  have := m.fmt.isLt
  have := m.id.isLt
  have := m.od.isLt
  have := m.ie.isLt
  have := m.cmp.isLt
  have := Bool.toNat_lt m.ir
  have := Bool.toNat_lt m.orev
  generalize m.image = I at h ⊢
  rw [h, show (256 : Nat) = 192 + 64 from rfl, Nat.pow_add]
  have : (P + 1) * 2 ^ 64 ≤ 2 ^ 192 * 2 ^ 64 := Nat.mul_le_mul_right _ hP
  omega

/-- The map of a map's image is that map. -/
theorem CMap.ofImage_image (m : CMap) : CMap.ofImage m.image = m := by
  obtain ⟨P, -, hP, key⟩ := m.image_eq
  have hs := m.st.code_lt
  have ht := m.tt.isLt
  have hf := m.fmt.isLt
  have hi := m.id.isLt
  have ho := m.od.isLt
  have he := m.ie.isLt
  have hc := m.cmp.isLt
  have hr := Bool.toNat_lt m.ir
  have hv := Bool.toNat_lt m.orev
  generalize m.image = I at key
  have div64 (L : Nat) (hL : L < 2 ^ 64) : (L + P * 2 ^ 64) / 2 ^ 64 = P := by omega
  have hq : I / 2 ^ 64 = P := by
    subst key
    exact div64 _ (by omega)
  have big (j : Nat) (hj : j < 6) : I / 2 ^ (64 + 32 * j) % 2 ^ 32 = (m.datum[j]?.getD 0).toNat := by
    rw [Nat.pow_add, ← Nat.div_div_eq_div_mul, hq, hP j hj]
  obtain ⟨st, tt, fmt, id, ir, od, orev, ie, cmp, datum⟩ := m
  simp only at key hs ht hf hi ho he hc hr hv big
  simp only [CMap.ofImage, CMap.mk.injEq]
  refine ⟨?_, bv_eq _ _ (by omega), bv_eq _ _ (by omega), bv_eq _ _ (by omega), ?_, bv_eq _ _ (by omega), ?_,
    bv_eq _ _ (by omega), bv_eq _ _ (by omega), ?_⟩
  · rw [show I % 4 = st.code by omega]; cases st <;> rfl
  · cases ir <;> simp only [Bool.toNat_false, Bool.toNat_true, decide_eq_true_eq, decide_eq_false_iff_not] at key ⊢ <;> omega
  · cases orev <;> simp only [Bool.toNat_false, Bool.toNat_true, decide_eq_true_eq, decide_eq_false_iff_not] at key ⊢ <;> omega
  · ext1 j hj
    rw [Vector.getElem_ofFn]
    exact bv_eq _ _ (by rw [big j hj]; simp [hj])

/-- Bit k of marks. -/
theorem marks_lt (n : Nat) (f : Nat → Bool) : marks n f < 2 ^ n := by
  unfold marks
  induction n with
  | zero => simp
  | succ n ih =>
    rw [List.range_succ, List.map_append, List.sum_append, List.map_singleton, List.sum_singleton, Nat.pow_succ]
    split <;> omega

theorem marks_get (n : Nat) (f : Nat → Bool) (k : Nat) (h : k < n) : (marks n f).testBit k = f k := by
  induction n with
  | zero => omega
  | succ n ih =>
    have e : marks (n + 1) f = marks n f + if f n then 2 ^ n else 0 := by
      simp [marks, List.range_succ, List.sum_append]
    have hl := marks_lt n f
    rw [e]
    by_cases hk : k = n
    · subst hk
      cases hf : f k
      · simpa using Nat.testBit_lt_two_pow hl
      · rw [if_pos rfl, Nat.add_comm, Nat.testBit_two_pow_add_eq, Nat.testBit_lt_two_pow hl]; rfl
    · have hk' : k < n := by omega
      rw [← ih hk']
      split
      · rw [Nat.add_comm, Nat.testBit_two_pow_add_gt hk']
      · simp

namespace State

theorem saveHeader_length (s : State) (n : Nat) : (s.saveHeader n).length = 32 := padTo_length ..
theorem saveQueues_length (x : Shift) : (saveQueues x).length = 8 := by simp [saveQueues, openWords]
theorem saveMeta_length (x : Shift) : (saveMeta x).length = 256 := by simp [saveMeta, openWords]

theorem saveImage_header (s : State) (n i : Nat) (h : i < 32) : (s.saveImage n)[i]? = (s.saveHeader n)[i]? := by
  unfold saveImage
  repeat rw [List.getElem?_append_left (by simp only [List.length_append, saveHeader_length]; omega)]

theorem saveImage_pc (s : State) (n : Nat) : (s.saveImage n)[1]? = some (s.sh n).pc := by
  rw [saveImage_header s n 1 (by omega), saveHeader, padTo_get _ _ _ (by simp) (by simp)]
  rfl

theorem saveImage_gpois (s : State) (n : Nat) : (s.saveImage n)[6]? = some ((s.sh n).arch.gpois.setWidth 64) := by
  rw [saveImage_header s n 6 (by omega), saveHeader, padTo_get _ _ _ (by simp) (by simp)]
  rfl

theorem saveImage_vpois (s : State) (n : Nat) :
    (s.saveImage n)[7]? = some (.ofNat 64 (marks 32 fun k => ((s.sh n).arch.v[k]?.getD .zero).pois)) := by
  rw [saveImage_header s n 7 (by omega), saveHeader, padTo_get _ _ _ (by simp) (by simp)]
  rfl

theorem saveImage_tpois (s : State) (n : Nat) :
    (s.saveImage n)[8]? = some (.ofNat 64 (marks 8 (fun k => ((s.sh n).tiles[k]?.getD .zero).pois)
      + marks 4 (fun k => ((s.sh n).arch.fronts[k]?.getD .empty).pois) * 2 ^ 8)) := by
  rw [saveImage_header s n 8 (by omega), saveHeader, padTo_get _ _ _ (by simp) (by simp)]
  rfl

theorem saveImage_g (s : State) (n : Nat) (r : Fin 32) : (s.saveImage n)[32 + r.val]? = some (s.sh n).arch.g[r] := by
  unfold saveImage
  repeat rw [List.getElem?_append_left (by simp only [List.length_append, saveHeader_length, padTo_length]; omega)]
  rw [List.getElem?_append_right (by simp only [saveHeader_length]; omega), saveHeader_length,
    padTo_get _ _ _ (by simp) (by simp)]
  simp

theorem saveCsrs_length : saveCsrs.length = 33 := by decide

/-- The CSR words: those of `saveCsrs`, the start of the phase, the DONE counts. -/
theorem saveImage_csr (s : State) (n i : Nat) (h : i < 33) :
    (s.saveImage n)[64 + i]? = (saveCsrs[i]?).map (s.csrGet n) := by
  unfold saveImage
  repeat rw [List.getElem?_append_left (by simp only [List.length_append, saveHeader_length, padTo_length]; omega)]
  rw [List.getElem?_append_right (by simp only [List.length_append, padTo_length, saveHeader_length]; omega), List.length_append,
    saveHeader_length, padTo_length, show 64 + i - (32 + 32) = i by omega]
  rw [padTo_get _ _ _ (by simp [saveCsrs_length]; omega) (by simp [saveCsrs_length])]
  rw [List.append_assoc, List.getElem?_append_left (by simp [saveCsrs_length]; omega), List.getElem?_map]

theorem levelWords_length (l : Level) : (Level.words l).length = 4 := rfl
theorem windowWords_length (w : Window) : (Window.words w).length = 16 := by simp [Window.words]
theorem iterWords_length (i : Iter) : (Iter.words i).length = 8 := by simp [Iter.words]

theorem saveImage_level (s : State) (n : Nat) (r : Fin 6) (i : Nat) (h : i < 4) :
    (s.saveImage n)[128 + 4 * r.val + i]? = (Level.words (s.sh n).arch.l[r])[i]? := by
  unfold saveImage
  repeat rw [List.getElem?_append_left (by simp only [List.length_append, saveHeader_length, padTo_length]; omega)]
  rw [List.getElem?_append_right (by simp only [List.length_append, padTo_length, saveHeader_length]; omega)]
  simp only [List.length_append, saveHeader_length, padTo_length]
  rw [show 128 + 4 * r.val + i - (32 + 32 + 64) = 4 * r.val + i by omega,
    padTo_get _ _ _ (by rw [flatMap_length _ _ 4 levelWords_length]; simp; omega)
      (by rw [flatMap_length _ _ 4 levelWords_length]; simp),
    flatMap_get _ _ 4 levelWords_length _ _ h]
  simp

theorem saveImage_fmtt (s : State) (n : Nat) (r : Fin 16) : (s.saveImage n)[160 + r.val]? = some (s.sh n).arch.fmtt[r] := by
  unfold saveImage
  repeat rw [List.getElem?_append_left (by simp only [List.length_append, saveHeader_length, padTo_length]; omega)]
  rw [List.getElem?_append_right (by simp only [List.length_append, padTo_length, saveHeader_length]; omega)]
  simp only [List.length_append, saveHeader_length, padTo_length]
  rw [show 160 + r.val - (32 + 32 + 64 + 32) = r.val by omega, padTo_get _ _ _ (by simp) (by simp)]
  simp

theorem saveImage_m (s : State) (n : Nat) (r : Fin 8) : (s.saveImage n)[176 + r.val]? = some (s.sh n).arch.m[r] := by
  unfold saveImage
  repeat rw [List.getElem?_append_left (by simp only [List.length_append, saveHeader_length, padTo_length]; omega)]
  rw [List.getElem?_append_right (by simp only [List.length_append, padTo_length, saveHeader_length]; omega)]
  simp only [List.length_append, saveHeader_length, padTo_length]
  rw [show 176 + r.val - (32 + 32 + 64 + 32 + 16) = r.val by omega, padTo_get _ _ _ (by simp) (by simp)]
  simp

theorem saveImage_window (s : State) (n : Nat) (r : Fin 8) (i : Nat) (h : i < 16) :
    (s.saveImage n)[192 + 16 * r.val + i]? = (Window.words (s.sh n).arch.w[r])[i]? := by
  unfold saveImage
  repeat rw [List.getElem?_append_left (by
    simp only [List.length_append, saveHeader_length, padTo_length, saveQueues_length]; omega)]
  rw [List.getElem?_append_right (by
    simp only [List.length_append, padTo_length, saveHeader_length, saveQueues_length]; omega)]
  simp only [List.length_append, saveHeader_length, padTo_length, saveQueues_length]
  rw [show 192 + 16 * r.val + i - (32 + 32 + 64 + 32 + 16 + 8 + 8) = 16 * r.val + i by omega,
    padTo_get _ _ _ (by rw [flatMap_length _ _ 16 windowWords_length]; simp; omega)
      (by rw [flatMap_length _ _ 16 windowWords_length]; simp),
    flatMap_get _ _ 16 windowWords_length _ _ h]
  simp

theorem saveImage_iter (s : State) (n : Nat) (r : Fin 16) (i : Nat) (h : i < 8) :
    (s.saveImage n)[320 + 8 * r.val + i]? = (Iter.words (s.sh n).arch.it[r])[i]? := by
  unfold saveImage
  repeat rw [List.getElem?_append_left (by
    simp only [List.length_append, saveHeader_length, padTo_length, saveQueues_length]; omega)]
  rw [List.getElem?_append_right (by
    simp only [List.length_append, padTo_length, saveHeader_length, saveQueues_length]; omega)]
  simp only [List.length_append, saveHeader_length, padTo_length, saveQueues_length]
  rw [show 320 + 8 * r.val + i - (32 + 32 + 64 + 32 + 16 + 8 + 8 + 128) = 8 * r.val + i by omega,
    padTo_get _ _ _ (by rw [flatMap_length _ _ 8 iterWords_length]; simp; omega)
      (by rw [flatMap_length _ _ 8 iterWords_length]; simp),
    flatMap_get _ _ 8 iterWords_length _ _ h]
  simp

theorem saveImage_vmap (s : State) (n : Nat) (r : Fin 32) (i : Nat) (h : i < 4) :
    (s.saveImage n)[448 + 4 * r.val + i]? = (natWords (s.sh n).arch.v[r].map.image 4)[i]? := by
  unfold saveImage
  repeat rw [List.getElem?_append_left (by
    simp only [List.length_append, saveHeader_length, padTo_length, saveQueues_length]; omega)]
  rw [List.getElem?_append_right (by
    simp only [List.length_append, padTo_length, saveHeader_length, saveQueues_length]; omega)]
  simp only [List.length_append, saveHeader_length, padTo_length, saveQueues_length]
  rw [show 448 + 4 * r.val + i - (32 + 32 + 64 + 32 + 16 + 8 + 8 + 128 + 128) = 4 * r.val + i by omega,
    padTo_get _ _ _ (by rw [flatMap_length _ _ 4 fun _ => natWords_length ..]; simp; omega)
      (by rw [flatMap_length _ _ 4 fun _ => natWords_length ..]; simp),
    flatMap_get _ _ 4 (fun _ => natWords_length ..) _ _ h]
  simp

theorem saveImage_tmap (s : State) (n : Nat) (r : Fin 8) (i : Nat) (h : i < 4) :
    (s.saveImage n)[576 + 4 * r.val + i]? = (natWords (s.sh n).tiles[r].map.image 4)[i]? := by
  unfold saveImage
  repeat rw [List.getElem?_append_left (by
    simp only [List.length_append, saveHeader_length, padTo_length, saveQueues_length]; omega)]
  rw [List.getElem?_append_right (by
    simp only [List.length_append, padTo_length, saveHeader_length, saveQueues_length]; omega)]
  simp only [List.length_append, saveHeader_length, padTo_length, saveQueues_length]
  rw [show 576 + 4 * r.val + i - (32 + 32 + 64 + 32 + 16 + 8 + 8 + 128 + 128 + 128) = 4 * r.val + i by omega,
    padTo_get _ _ _ (by rw [flatMap_length _ _ 4 fun _ => natWords_length ..]; simp; omega)
      (by rw [flatMap_length _ _ 4 fun _ => natWords_length ..]; simp),
    flatMap_get _ _ 4 (fun _ => natWords_length ..) _ _ h]
  simp

theorem saveImage_vdata (s : State) (n : Nat) (r : Fin 32) (i : Nat) (h : i < 32) :
    (s.saveImage n)[640 + 32 * r.val + i]? = (natWords (s.sh n).arch.v[r].data.toNat 32)[i]? := by
  unfold saveImage
  repeat rw [List.getElem?_append_left (by
    simp only [List.length_append, saveHeader_length, padTo_length, saveQueues_length]; omega)]
  rw [List.getElem?_append_right (by
    simp only [List.length_append, padTo_length, saveHeader_length, saveQueues_length]; omega)]
  simp only [List.length_append, saveHeader_length, padTo_length, saveQueues_length]
  rw [show 640 + 32 * r.val + i - (32 + 32 + 64 + 32 + 16 + 8 + 8 + 128 + 128 + 128 + 32 + 32) = 32 * r.val + i by omega,
    padTo_get _ _ _ (by rw [flatMap_length _ _ 32 fun _ => natWords_length ..]; simp; omega)
      (by rw [flatMap_length _ _ 32 fun _ => natWords_length ..]; simp),
    flatMap_get _ _ 32 (fun _ => natWords_length ..) _ _ h]
  simp

theorem tileWords_length (t : Tile) : (tileWords t).length = 8192 := by simp [tileWords]

theorem saveImage_tile (s : State) (n t i : Nat) (ht : t < (s.sh n).k.na.toNat) (h8 : t < 8) (h : i < 8192) :
    (s.saveImage n)[10240 + 8192 * t + i]?
      = some ((s.tile n t).get (2 * i + 1) ++ (s.tile n t).get (2 * i)) := by
  unfold saveImage
  have hf : ((s.sh n).arch.fronts.toList.flatMap fun f => padTo f.image 264).length = 1056 := by
    rw [flatMap_length _ _ 264 fun _ => padTo_length ..]; simp
  rw [List.getElem?_append_right (by
    simp only [List.length_append, padTo_length, saveHeader_length, saveQueues_length, saveMeta_length, hf]; omega)]
  simp only [List.length_append, saveHeader_length, padTo_length, saveQueues_length, saveMeta_length, hf]
  rw [show 10240 + 8192 * t + i - (32 + 32 + 64 + 32 + 16 + 8 + 8 + 128 + 128 + 128 + 32 + 32 + 1024 + 1056 + 1376 + 2048
      + 2048 + 512 + 256 + 1024 + 256) = 8192 * t + i by omega,
    flatMap_get _ _ 8192 tileWords_length _ _ h]
  rw [List.getElem?_take_of_lt ht]
  simp [tileWords, h, tile, h8]

/-- The image has the words that a resume reads (14 R296): its fixed part and the tiles of the allotment. -/
theorem saveImage_length (s : State) (n : Nat) (h : (s.sh n).k.na.toNat ≤ 8) :
    (s.saveImage n).length = 10240 + 8192 * (s.sh n).k.na.toNat := by
  have hf : ((s.sh n).arch.fronts.toList.flatMap fun f => padTo f.image 264).length = 1056 := by
    rw [flatMap_length _ _ 264 fun _ => padTo_length ..]; simp
  unfold saveImage
  simp only [List.length_append, saveHeader_length, padTo_length, saveQueues_length, saveMeta_length, hf,
    flatMap_length _ _ 8192 tileWords_length, List.length_take, Vector.length_toList]
  omega

end State

end Sys2Proof.Machine

namespace Sys2Proof.Machine.State

theorem toArray_word (l : List Word64) (i : Nat) : l.toArray.getD i 0 = l[i]?.getD 0 := by simp

theorem rebuild_pc (x : Shift) (s : State) (n : Nat) : (rebuild x (s.saveImage n)).pc = (s.sh n).pc := by
  simp only [rebuild, toArray_word, saveImage_pc, Option.getD_some]

theorem rebuild_g (x : Shift) (s : State) (n : Nat) (r : Fin 32) (h : r ≠ 0) :
    (rebuild x (s.saveImage n)).arch.g[r] = (s.sh n).arch.g[r] := by
  have : r.val ≠ 0 := fun h0 => h (Fin.ext h0)
  simp only [rebuild, toArray_word, Fin.getElem_fin, Vector.getElem_ofFn, this, if_false]
  rw [saveImage_g s n r]; rfl

theorem rebuild_gpois (x : Shift) (s : State) (n : Nat) : (rebuild x (s.saveImage n)).arch.gpois = (s.sh n).arch.gpois := by
  simp only [rebuild, toArray_word, saveImage_gpois, Option.getD_some]
  simp

/-- A map from its four words. -/
theorem map_back (m : CMap) (w : Nat → Word64) (h : ∀ j, j < 4 → w j = (natWords m.image 4)[j]?.getD 0) :
    CMap.ofImage ((List.range 4).map fun j => (w j).toNat * 2 ^ (64 * j)).sum = m := by
  have e : ((List.range 4).map fun j => (w j).toNat * 2 ^ (64 * j)) = (List.range 4).map fun j =>
      (m.image / 2 ^ (64 * j)) % 2 ^ 64 * 2 ^ (64 * j) := by
    refine List.map_congr_left fun j hj => ?_
    have hj : j < 4 := by simpa using hj
    rw [h j hj]
    simp [natWords, hj]
  rw [e, natWords_sum, Nat.mod_eq_of_lt m.image_lt, CMap.ofImage_image]


theorem rebuild_v (x : Shift) (s : State) (n : Nat) (r : Fin 32) : (rebuild x (s.saveImage n)).arch.v[r] = (s.sh n).arch.v[r] := by
  simp only [rebuild, toArray_word, Fin.getElem_fin, Vector.getElem_ofFn]
  have hm := map_back (s.sh n).arch.v[r].map (fun j => (s.saveImage n)[448 + 4 * r.val + j]?.getD 0) fun j hj => by
    rw [saveImage_vmap s n r j hj]
  have hp : ((s.saveImage n)[7]?.getD 0).getLsbD r.val = (s.sh n).arch.v[r].pois := by
    rw [saveImage_vpois, Option.getD_some, BitVec.getLsbD_ofNat, marks_get _ _ _ r.isLt]
    simp; omega
  have hd : (BitVec.ofNat 2048 ((List.range 32).map fun j => ((s.saveImage n)[640 + 32 * r.val + j]?.getD 0).toNat * 2 ^ (64 * j)).sum)
      = (s.sh n).arch.v[r].data := by
    have e : ((List.range 32).map fun j => ((s.saveImage n)[640 + 32 * r.val + j]?.getD 0).toNat * 2 ^ (64 * j))
        = (List.range 32).map fun j => ((s.sh n).arch.v[r].data.toNat / 2 ^ (64 * j)) % 2 ^ 64 * 2 ^ (64 * j) := by
      refine List.map_congr_left fun j hj => ?_
      have hj : j < 32 := by simpa using hj
      rw [saveImage_vdata s n r j hj]
      simp [natWords, hj]
    rw [e, natWords_sum, show 64 * 32 = 2048 from rfl, Nat.mod_eq_of_lt (s.sh n).arch.v[r].data.isLt, BitVec.ofNat_toNat,
      BitVec.setWidth_eq]
  rw [hm, hp, hd]; rfl

theorem rebuild_m (x : Shift) (s : State) (n : Nat) : (rebuild x (s.saveImage n)).arch.m = (s.sh n).arch.m := by
  ext1 r hr
  have := saveImage_m s n ⟨r, hr⟩
  simp only [rebuild, toArray_word, Vector.getElem_ofFn]
  rw [this]; rfl

theorem level_back (l : Level) (w : Nat → Word64) (h : ∀ i, i < 4 → w i = (Level.words l)[i]?.getD 0) :
    { Level.ofWords w with behind := l.behind } = l := by
  have h0 : w 0 = l.start := h 0 (by omega)
  have h1 : w 1 = l.stop := h 1 (by omega)
  have h2 : w 2 = l.idx ++ l.trip := h 2 (by omega)
  have h3 : w 3 = .ofNat 64 (l.off.toNat + l.act.toNat * 2 ^ 32 + l.ord.toNat * 2 ^ 40) := h 3 (by omega)
  have ho := l.off.isLt
  have hr := l.ord.isLt
  have ha := Bool.toNat_lt l.act
  have ht := l.trip.isLt
  have hi := l.idx.isLt
  obtain ⟨start, stop, trip, idx, off, act, ord, behind⟩ := l
  simp only at h0 h1 h2 h3 ho hr ha ht hi
  have e2 : (idx ++ trip).toNat = trip.toNat + idx.toNat * 2 ^ 32 := by
    rw [BitVec.toNat_append, ← Nat.shiftLeft_add_eq_or_of_lt ht, Nat.shiftLeft_eq, Nat.add_comm]
  simp only [Level.ofWords, Level.mk.injEq, h0, h1, h2, h3, fld, e2, BitVec.toNat_ofNat, true_and, and_true]
  refine ⟨bv_eq _ _ (by omega), bv_eq _ _ (by omega), bv_eq _ _ (by omega), ?_, bv_eq _ _ (by omega)⟩
  cases act <;> simp only [Bool.toNat_false, Bool.toNat_true, decide_eq_true_eq, decide_eq_false_iff_not] <;> omega

theorem rebuild_l (x : Shift) (s : State) (n : Nat) (r : Fin 6) (h : x.arch.l[r].behind = (s.sh n).arch.l[r].behind) :
    (rebuild x (s.saveImage n)).arch.l[r] = (s.sh n).arch.l[r] := by
  have := level_back (s.sh n).arch.l[r] (fun i => (s.saveImage n)[128 + 4 * r.val + i]?.getD 0) fun i hi => by
    rw [saveImage_level s n r i hi]
  rw [← h] at this
  simp only [rebuild, toArray_word, Fin.getElem_fin, Vector.getElem_ofFn]
  exact this

theorem rebuild_csr (x : Shift) (s : State) (n : Nat) :
    let y := rebuild x (s.saveImage n)
    let z := s.sh n
    y.k.priv = z.k.priv ∧ y.k.ppriv = z.k.ppriv ∧ y.k.inh = z.k.inh ∧ y.k.nr = z.k.nr ∧ y.k.pport = z.k.pport
    ∧ y.k.port = z.k.port ∧ y.k.cause = z.k.cause ∧ y.k.fpc = z.k.fpc ∧ y.k.spc = z.k.spc ∧ y.k.finfo = z.k.finfo
    ∧ y.arch.c.nkey = z.arch.c.nkey ∧ y.arch.c.flags = z.arch.c.flags := by
  have c (i : Nat) (h : i < 33) := saveImage_csr s n i h
  have hc (i j : Nat) (h : i < 33) (hj : saveCsrs[i]? = some j) : (s.saveImage n)[64 + i]?.getD 0 = s.csrGet n j := by
    rw [c i h, hj]; rfl
  simp only [rebuild, toArray_word]
  rw [hc 0 0 (by omega) (by decide), hc 1 1 (by omega) (by decide), hc 2 2 (by omega) (by decide), hc 3 3 (by omega) (by decide),
    hc 4 4 (by omega) (by decide), hc 6 6 (by omega) (by decide), hc 14 0x24 (by omega) (by decide)]
  have st : s.csrGet n 1 = (s.sh n).k.status := rfl
  have b (p : Bool) : (if p = true then (1 : Word64) else 0).getLsbD 0 = p := by cases p <;> rfl
  refine ⟨?_, ?_, ?_, ?_, ?_, b _, ?_, rfl, rfl, rfl, rfl, ?_⟩
  iterate 5 (rw [st, KCsr.status]; cases (s.sh n).k.nr <;> cases (s.sh n).k.pport <;> cases (s.sh n).k.inh <;>
    cases (s.sh n).k.ppriv <;> cases (s.sh n).k.priv <;> rfl)
  · show (BitVec.setWidth 64 (s.sh n).k.cause).setWidth 9 = _
    simp
  · ext1 i hi
    rw [Vector.getElem_ofFn]
    have h1 : (s.saveImage n)[64 + (22 + i)]?.getD 0 = s.csrGet n (0x40 + i) :=
      hc (22 + i) (0x40 + i) (by omega) (by
        have : i = 0 ∨ i = 1 ∨ i = 2 ∨ i = 3 ∨ i = 4 ∨ i = 5 ∨ i = 6 ∨ i = 7 := by omega
        rcases this with rfl | rfl | rfl | rfl | rfl | rfl | rfl | rfl <;> decide)
    rw [h1]
    have : i = 0 ∨ i = 1 ∨ i = 2 ∨ i = 3 ∨ i = 4 ∨ i = 5 ∨ i = 6 ∨ i = 7 := by omega
    rcases this with rfl | rfl | rfl | rfl | rfl | rfl | rfl | rfl <;> simp [csrGet]

theorem append32 (a b : BitVec 32) : (a ++ b).toNat = b.toNat + a.toNat * 2 ^ 32 := by
  rw [BitVec.toNat_append, ← Nat.shiftLeft_add_eq_or_of_lt b.isLt, Nat.shiftLeft_eq, Nat.add_comm]

theorem window_back (v : Window) (w : Nat → Word64) (h : ∀ i, i < 16 → w i = (Window.words v)[i]?.getD 0) : Window.ofWords w = v := by
  have hr (i : Nat) (hi : i < 12) : w i = v.rcd[i] := by
    rw [h i (by omega), Window.words, List.append_assoc, List.getElem?_append_left (by simpa using hi)]
    simp [hi]
  have ho (j : Nat) (hj : j < 3) : w (12 + j) = v.org[2 * j + 1] ++ v.org[2 * j] := by
    rw [h _ (by omega), Window.words, List.append_assoc, List.getElem?_append_right (by simp), List.getElem?_append_left (by simp; omega)]
    simp [hj, show 2 * j + 1 < 6 by omega, show 2 * j < 6 by omega]
  have hc : w 15 = .ofNat 64 (v.ctl.toNat + v.valid.toNat * 2 ^ 32) := by
    rw [h 15 (by omega), Window.words, List.getElem?_append_right (by simp)]
    simp
  have hl := v.ctl.isLt
  have hb := Bool.toNat_lt v.valid
  have e1 : (Window.ofWords w).rcd = v.rcd := by
    ext1 i hi
    rw [Window.ofWords, Vector.getElem_ofFn, hr i hi]
  have e2 : (Window.ofWords w).org = v.org := by
    ext1 j hj
    rw [Window.ofWords, Vector.getElem_ofFn]
    simp only [ho (j / 2) (by omega), fld, append32]
    have h0 := (v.org[2 * (j / 2) + 1]).isLt
    have h1 := (v.org[2 * (j / 2)]).isLt
    rcases Nat.mod_two_eq_zero_or_one j with hm | hm
    · refine bv_eq _ _ ?_
      have e : v.org[2 * (j / 2)] = v.org[j] := by congr 1; omega
      rw [e] at h1 ⊢
      rw [hm]; omega
    · refine bv_eq _ _ ?_
      have e : v.org[2 * (j / 2) + 1] = v.org[j] := by congr 1; omega
      rw [e] at h0 ⊢
      rw [hm]; omega
  have e3 : (Window.ofWords w).ctl = v.ctl := by
    rw [Window.ofWords]
    simp only [hc, fld, BitVec.toNat_ofNat]
    exact bv_eq _ _ (by omega)
  have e4 : (Window.ofWords w).valid = v.valid := by
    rw [Window.ofWords]
    simp only [hc, fld, BitVec.toNat_ofNat]
    cases hv : v.valid <;> rw [hv] at hb <;>
      simp only [Bool.toNat_false, Bool.toNat_true, decide_eq_true_eq, decide_eq_false_iff_not] <;> omega
  calc Window.ofWords w = ⟨(Window.ofWords w).rcd, (Window.ofWords w).org, (Window.ofWords w).ctl, (Window.ofWords w).valid⟩ := rfl
    _ = v := by rw [e1, e2, e3, e4]

theorem rebuild_w (x : Shift) (s : State) (n : Nat) : (rebuild x (s.saveImage n)).arch.w = (s.sh n).arch.w := by
  ext1 r hr
  have := window_back (s.sh n).arch.w[r] (fun i => (s.saveImage n)[192 + 16 * r + i]?.getD 0) fun i hi => by
    rw [saveImage_window s n ⟨r, hr⟩ i hi]; rfl
  simp only [rebuild, toArray_word, Vector.getElem_ofFn]
  exact this

theorem iter_back (v : Iter) (w : Nat → Word64) (h : ∀ i, i < 8 → w i = (Iter.words v)[i]?.getD 0) : Iter.ofWords w = v := by
  have h0 : w 0 = v.base := by rw [h 0 (by omega)]; rfl
  have hs (i : Nat) (hi : i < 6) : w (1 + i) = v.stride[i] := by
    rw [h _ (by omega), Iter.words, List.append_assoc, List.getElem?_append_right (by simp), List.getElem?_append_left (by simp; omega)]
    simp [hi]
  have h7 : w 7 = v.dir.setWidth 64 := by
    rw [h 7 (by omega), Iter.words, List.getElem?_append_right (by simp)]
    simp
  have e2 : (Iter.ofWords w).stride = v.stride := by
    ext1 i hi
    rw [Iter.ofWords, Vector.getElem_ofFn, hs i hi]
  have e3 : (Iter.ofWords w).dir = v.dir := by
    have := v.dir.isLt
    rw [Iter.ofWords]
    simp only [h7, fld]
    exact bv_eq _ _ (by rw [BitVec.toNat_setWidth]; omega)
  calc Iter.ofWords w = ⟨w 0, (Iter.ofWords w).stride, (Iter.ofWords w).dir⟩ := rfl
    _ = v := by rw [h0, e2, e3]

theorem rebuild_it (x : Shift) (s : State) (n : Nat) : (rebuild x (s.saveImage n)).arch.it = (s.sh n).arch.it := by
  ext1 r hr
  have := iter_back (s.sh n).arch.it[r] (fun i => (s.saveImage n)[320 + 8 * r + i]?.getD 0) fun i hi => by
    rw [saveImage_iter s n ⟨r, hr⟩ i hi]; rfl
  simp only [rebuild, toArray_word, Vector.getElem_ofFn]
  exact this

theorem lget_listed (f : Nat → BitVec 32) (k : Nat) (l : List Nat) :
    lget (l.filterMap fun j => if f j = 0 then none else some (j, f j)) k 0 = if k ∈ l then f k else 0 := by
  induction l with
  | nil => rfl
  | cons a r ih =>
    by_cases h : f a = 0
    · rw [List.filterMap_cons_none (by rw [if_pos h]), ih]
      by_cases hk : k = a
      · subst hk; rw [if_pos List.mem_cons_self, h]; split <;> rfl
      · simp only [List.mem_cons, hk, false_or]
    · rw [List.filterMap_cons_some (b := (a, f a)) (by rw [if_neg h]), lget]
      by_cases hk : a = k
      · subst hk; rw [if_pos rfl, if_pos List.mem_cons_self]
      · rw [if_neg hk, ih]
        simp only [List.mem_cons, Ne.symm hk, false_or]

theorem get_make (f : Nat → BitVec 32) (m : CMap) (p : Bool) (k : Nat) (h : k < 16384) : (Tile.make f m p).get k = f k := by
  rw [Tile.get, Tile.make]
  simp only []
  rw [lget_listed, if_pos (by simpa [tileSize] using h)]

theorem rebuild_tile (x : Shift) (s : State) (n : Nat) (t : Fin 8) (h : t.val < (s.sh n).k.na.toNat) (hx : x.k.na = (s.sh n).k.na) :
    (∀ k, k < 16384 → ((rebuild x (s.saveImage n)).tiles[t]).get k = ((s.sh n).tiles[t]).get k)
    ∧ ((rebuild x (s.saveImage n)).tiles[t]).map = ((s.sh n).tiles[t]).map
    ∧ ((rebuild x (s.saveImage n)).tiles[t]).pois = ((s.sh n).tiles[t]).pois := by
  have ht : s.tile n t.val = (s.sh n).tiles[t] := by simp [tile]
  simp only [rebuild, toArray_word, Fin.getElem_fin, Vector.getElem_ofFn, hx, h, if_true]
  refine ⟨fun k hk => ?_, ?_, ?_⟩
  · rw [show ∀ (a : Tile) (b : Bool) , ({ a with live := b } : Tile).get k = a.get k from fun _ _ => rfl, get_make _ _ _ _ hk,
      saveImage_tile s n t.val (k / 2) h t.isLt (by omega), Option.getD_some, ht, fld, append32]
    have h0 := (((s.sh n).tiles[t]).get (2 * (k / 2) + 1)).isLt
    have h1 := (((s.sh n).tiles[t]).get (2 * (k / 2))).isLt
    rcases Nat.mod_two_eq_zero_or_one k with hm | hm
    · have e : 2 * (k / 2) = k := by omega
      rw [e] at h1 ⊢
      exact bv_eq _ _ (by rw [hm]; simp only [Fin.getElem_fin] at *; omega)
    · have e : 2 * (k / 2) + 1 = k := by omega
      rw [e] at h0 ⊢
      exact bv_eq _ _ (by rw [hm]; simp only [Fin.getElem_fin] at *; omega)
  · exact map_back _ _ fun j hj => by rw [saveImage_tmap s n t j hj]; rfl
  · show ((s.saveImage n)[8]?.getD 0).getLsbD t.val = _
    rw [saveImage_tpois, Option.getD_some, BitVec.getLsbD_ofNat]
    have := marks_get 8 (fun k => ((s.sh n).tiles[k]?.getD .zero).pois) t.val t.isLt
    have hl := marks_lt 8 (fun k => ((s.sh n).tiles[k]?.getD .zero).pois)
    rw [Nat.add_comm, Nat.mul_comm, Nat.testBit_two_pow_mul_add _ hl, if_pos t.isLt, this]
    simp; omega

end Sys2Proof.Machine.State

namespace Sys2Proof.Machine

theorem memByte_append (a b : List Host.Cell) (k : Nat) (h : (∃ c ∈ a, c.1 = k) ∨ memByte b k = memByte a k) :
    memByte (a ++ b) k = memByte a k := by
  induction a with
  | nil => rcases h with ⟨c, hc, -⟩ | h
           · simp at hc
           · simpa using h
  | cons q r ih =>
    obtain ⟨x, v⟩ := q
    simp only [List.cons_append, memByte]
    by_cases e : x = k
    · simp [e]
    · simp only [e, if_false]
      apply ih
      rcases h with ⟨c, hc, he⟩ | h
      · rcases List.mem_cons.1 hc with rfl | hc
        · exact absurd he e
        · exact .inl ⟨c, hc, he⟩
      · right; simpa [memByte, e] using h

theorem memByte_append_of_absent (a b : List Host.Cell) (k : Nat) (h : ∀ c ∈ a, c.1 ≠ k) : memByte (a ++ b) k = memByte b k := by
  induction a with
  | nil => rfl
  | cons q r ih =>
    obtain ⟨x, v⟩ := q
    have e : x ≠ k := h (x, v) List.mem_cons_self
    simp only [List.cons_append, memByte, e, if_false]
    exact ih fun c hc => h c (List.mem_cons_of_mem _ hc)

theorem memByte_absent (a : List Host.Cell) (k : Nat) (h : ∀ c ∈ a, c.1 ≠ k) : memByte a k = memDefault := by
  have := memByte_append_of_absent a [] k h
  simpa [memByte] using this

theorem memByte_filter (m : List Host.Cell) (p : Nat → Bool) (k : Nat) :
    memByte (m.filter fun c => p c.1) k = if p k = true then memByte m k else memDefault := by
  induction m with
  | nil => simp [memByte]
  | cons q r ih =>
    obtain ⟨x, v⟩ := q
    by_cases e : x = k
    · subst e
      by_cases hp : p x = true
      · simp [hp, memByte]
      · simp [hp, ih]
    · by_cases hp : p x = true
      · simp [hp, memByte, e, ih]
      · simp [hp, ih, memByte, e]

/-- The bytes after a run was written. -/
theorem memByte_memBlit (m : List Host.Cell) (a : Nat) (l : List Byte) (k : Nat) :
    memByte (memBlit m a l) k = if a ≤ k ∧ k < a + l.length then l.getD (k - a) memDefault else memByte m k := by
  have hc : ∀ c ∈ cellsFrom a l, a ≤ c.1 ∧ c.1 < a + l.length := fun c hc => by
    have := cellsFrom_bounds hc; omega
  unfold memBlit
  by_cases h1 : k < a
  · rw [if_neg (by omega), List.append_assoc]
    have e := memByte_filter m (fun x => decide (x < a)) k
    rw [if_pos (by simpa using h1)] at e
    by_cases hx : ∃ c ∈ m.filter (fun c => decide (c.1 < a)), c.1 = k
    · rw [memByte_append _ _ _ (.inl hx), e]
    · rw [← e, memByte_append_of_absent _ _ _ fun c hc he => hx ⟨c, hc, he⟩, memByte_absent _ _ fun c hc he => hx ⟨c, hc, he⟩,
        memByte_absent]
      intro c hm
      rcases List.mem_append.1 hm with hm | hm
      · have := hc c hm; omega
      · have := (List.mem_filter.1 hm).2; simp at this; omega
  · rw [List.append_assoc, memByte_append_of_absent _ _ _ fun c hm => by
      have := (List.mem_filter.1 hm).2; simp at this; omega]
    by_cases h2 : k < a + l.length
    · rw [if_pos (by omega), ← memByte_cellsFrom a k l (by omega)]
      by_cases hx : ∃ c ∈ cellsFrom a l, c.1 = k
      · exact memByte_append _ _ _ (.inl hx)
      · rw [memByte_append_of_absent _ _ _ fun c hc he => hx ⟨c, hc, he⟩, memByte_absent _ _ fun c hc he => hx ⟨c, hc, he⟩,
          memByte_absent]
        intro c hm
        have := (List.mem_filter.1 hm).2; simp at this; omega
    · rw [if_neg (by omega), memByte_append_of_absent _ _ _ fun c hm => by have := hc c hm; omega]
      have e := memByte_filter m (fun x => decide (a + l.length ≤ x)) k
      rw [if_pos (by simp; omega)] at e
      exact e

namespace State

/-- Writing an area changes memory and its poison only. -/
theorem areaPut_eq (keys : List Nat) : ∀ (s : State) (off : Nat) (bytes : List Byte), ∃ m p,
    s.areaPut keys off bytes = { s with mem := m, poisonM := p } := by
  induction keys with
  | nil => intro s off bytes; exact ⟨s.mem, s.poisonM, rfl⟩
  | cons a r ih =>
    intro s off bytes
    unfold areaPut
    split
    · exact ih ..
    · obtain ⟨m, p, h⟩ := ih { s with
        mem := memBlit s.mem (a + off) (bytes.take (32768 - off))
        poisonM := clearPois s.poisonM (a + off) (bytes.take (32768 - off)).length } 0 (bytes.drop (32768 - off))
      exact ⟨m, p, h⟩

/-- Where nothing is poisoned an area that is written leaves nothing poisoned. -/
theorem areaPut_poisonM (keys : List Nat) : ∀ (s : State) (off : Nat) (bytes : List Byte), s.poisonM = [] →
    (s.areaPut keys off bytes).poisonM = [] := by
  induction keys with
  | nil => intro s off bytes h; exact h
  | cons a r ih =>
    intro s off bytes h
    unfold areaPut
    split
    · exact ih _ _ _ h
    · exact ih _ _ _ (by simp [h, clearPois])

/-- A byte outside the tiles of an area stands. -/
theorem areaPut_outside (keys : List Nat) : ∀ (s : State) (bytes : List Byte) (k : Nat), (∀ a ∈ keys, k < a ∨ a + 32768 ≤ k) →
    memByte (s.areaPut keys 0 bytes).mem k = memByte s.mem k := by
  induction keys with
  | nil => intro s bytes k _; rfl
  | cons a r ih =>
    intro s bytes k h
    have ha := h a List.mem_cons_self
    rw [areaPut, if_neg (by omega), ih _ _ _ fun b hb => h b (List.mem_cons_of_mem _ hb), memByte_memBlit]
    rw [if_neg (by simp only [List.length_take]; omega)]

/-- What a run of tiles holds once an area is written there. -/
theorem areaPut_byte (keys : List Nat) : ∀ (s : State) (bytes : List Byte) (i : Nat),
    (keys.Pairwise fun a b => a + 32768 ≤ b ∨ b + 32768 ≤ a) → i < bytes.length → i / 32768 < keys.length →
    memByte (s.areaPut keys 0 bytes).mem (keys.getD (i / 32768) 0 + i % 32768) = bytes.getD i memDefault := by
  induction keys with
  | nil => intro s bytes i _ _ h; simp at h
  | cons a r ih =>
    intro s bytes i hp hi hk
    rw [List.pairwise_cons] at hp
    rw [areaPut, if_neg (by omega)]
    by_cases h0 : i < 32768
    · rw [Nat.div_eq_of_lt h0, Nat.mod_eq_of_lt h0, List.getD_cons_zero, areaPut_outside _ _ _ _ fun b hb => by
        have := hp.1 b hb; omega]
      rw [memByte_memBlit, if_pos (by simp only [List.length_take]; omega), show a + 0 = a from rfl, Nat.add_sub_cancel_left]
      rw [List.getD_eq_getElem?_getD, List.getD_eq_getElem?_getD, List.getElem?_take_of_lt (by omega)]
    · have hd : i / 32768 = (i - 32768) / 32768 + 1 := by omega
      have hm : i % 32768 = (i - 32768) % 32768 := by omega
      rw [hd, hm, List.getD_cons_succ, ih _ _ _ hp.2 (by simp; omega) (by simp at hk; omega)]
      rw [List.getD_eq_getElem?_getD, List.getD_eq_getElem?_getD, List.getElem?_drop, show 32768 - 0 + (i - 32768) = i by omega]

theorem memRead_of_bytes (m : List Host.Cell) (n : Nat) : ∀ (a v : Nat), (∀ j, j < n → memByte m (a + j) = .ofNat 8 (v / 256 ^ j)) →
    memRead m a n = v % 256 ^ n := by
  induction n with
  | zero => intro a v _; simp [memRead, Nat.mod_one]
  | succ n ih =>
    intro a v h
    have h0 := h 0 (by omega)
    rw [memRead, ih (a + 1) (v / 256) fun j hj => by
      rw [show a + 1 + j = a + (j + 1) by omega, h (j + 1) (by omega), Nat.pow_succ, Nat.mul_comm, ← Nat.div_div_eq_div_mul]]
    rw [Nat.add_zero] at h0
    rw [h0, Nat.pow_succ, Nat.mul_comm (256 ^ n), Nat.mod_mul]
    simp

theorem wordBytes_get (l : List Word64) (i j : Nat) (hj : j < 8) (hi : i < l.length) :
    (wordBytes l)[8 * i + j]? = some (.ofNat 8 ((l.getD i 0).toNat / 256 ^ j)) := by
  rw [wordBytes, flatMap_get _ _ 8 (fun _ => by simp) _ _ hj]
  simp [hj, hi]

theorem wordBytes_length (l : List Word64) : (wordBytes l).length = 8 * l.length := by
  rw [wordBytes, flatMap_length _ _ 8 fun _ => by simp]

/-- The words of an area are those that were written there. -/
theorem areaWords_areaPut (s : State) (keys : List Nat) (l : List Word64)
    (hp : keys.Pairwise fun a b => a + 32768 ≤ b ∨ b + 32768 ≤ a) (hl : l.length ≤ 4096 * keys.length) :
    (s.areaPut keys 0 (wordBytes l)).areaWords keys l.length = l := by
  apply List.ext_getElem?
  intro i
  rw [areaWords, List.getElem?_map]
  by_cases hi : i < l.length
  · rw [List.getElem?_range hi, Option.map_some, List.getElem?_eq_getElem hi]
    have := memRead_of_bytes (s.areaPut keys 0 (wordBytes l)).mem 8 (keys.getD (i / 4096) 0 + 8 * (i % 4096)) (l.getD i 0).toNat
      fun j hj => by
        have hb := areaPut_byte keys s (wordBytes l) (8 * i + j) hp (by rw [wordBytes_length]; omega) (by omega)
        rw [show (8 * i + j) / 32768 = i / 4096 by omega, show (8 * i + j) % 32768 = 8 * (i % 4096) + j by omega, ← Nat.add_assoc] at hb
        rw [hb, List.getD_eq_getElem?_getD, wordBytes_get _ _ _ hj hi]; rfl
    rw [this]
    have hv := l[i].isLt
    simp only [List.getD_eq_getElem?_getD, List.getElem?_eq_getElem hi, Option.getD_some]
    rw [Nat.mod_eq_of_lt (by omega)]
    simp
  · rw [List.getElem?_eq_none (by simpa using hi), List.getElem?_eq_none (by omega)]; rfl

end State

end Sys2Proof.Machine

namespace Sys2Proof.Machine.State

/-- What a resume reads of an area does not depend on shifts, cores, galleries, contexts or barriers. -/
theorem memRead_congr (m m' : List Host.Cell) (n : Nat) : ∀ a, (∀ k, a ≤ k → k < a + n → memByte m k = memByte m' k) →
    memRead m a n = memRead m' a n := by
  induction n with
  | zero => intro a _; rfl
  | succ n ih =>
    intro a h
    rw [memRead, memRead, h a (by omega) (by omega), ih (a + 1) fun k hk hk' => h k (by omega) (by omega)]

/-- The place of an area's byte rests on the entry of the save tensor and one word of its tile table. -/
theorem areaKey_congr (s t : State) (k : KCsr) (row off : Nat) (acc : Acc) (e : BitVec 1024)
    (hb : t.bar = s.bar) (hc : t.ttCache = s.ttCache) (hf : t.freeN = s.freeN) (hd : t.health = s.health)
    (he : s.tensorEntry k.ttbase k.ttlim (fld k.savetid 0 20) = some e) (hx : eXm e = false)
    (h1 : t.readM (k.ttbase.toNat * frameBytes + 128 * fld k.savetid 0 20) 128
      = s.readM (k.ttbase.toNat * frameBytes + 128 * fld k.savetid 0 20) 128)
    (h2 : t.readM (s.chipKey (s.entryHome e) (eTtf e * frameBytes
        + 8 * (tileIndex e (fun j => (([(row : Int), (off : Int)].take (eNdim e)).getD j 0).toNat) (eNdim e)).1)) 8
      = s.readM (s.chipKey (s.entryHome e) (eTtf e * frameBytes
        + 8 * (tileIndex e (fun j => (([(row : Int), (off : Int)].take (eNdim e)).getD j 0).toNat) (eNdim e)).1)) 8) :
    t.areaKey k row off acc = s.areaKey k row off acc := by
  have c : t.chipKey = s.chipKey := by funext c b; simp only [chipKey, hb]
  have h : t.entryHome e = s.entryHome e := by simp only [entryHome, homeOf, hb]
  have d : t.deadChip = s.deadChip := by funext c; simp only [deadChip, hd]
  have b : t.behindDead = s.behindDead := by funext h r; simp only [behindDead, d, c]
  have e1 : t.tensorEntry k.ttbase k.ttlim (fld k.savetid 0 20) = some e := by
    rw [← he]; simp only [tensorEntry, h1, hc, hf]
  simp only [areaKey, e1, he, transEntry, hx, transTile, h, c, h2, d, b, Bool.false_eq_true, if_false]

/-- An area's places stay what they are when bytes behind its tables are written. -/
theorem areaTiles_areaPut (s : State) (keys : List Nat) (l : List Byte) (k : KCsr) (row bytes : Nat) (acc : Acc) (e : BitVec 1024)
    (he : s.tensorEntry k.ttbase k.ttlim (fld k.savetid 0 20) = some e) (hx : eXm e = false)
    (h1 : ∀ a ∈ keys, k.ttbase.toNat * frameBytes + 128 * fld k.savetid 0 20 + 128 ≤ a)
    (h2 : ∀ o, o < (bytes + 32767) / 32768 → ∀ a ∈ keys, s.chipKey (s.entryHome e) (eTtf e * frameBytes
      + 8 * (tileIndex e (fun j => (([(row : Int), ((32768 * o : Nat) : Int)].take (eNdim e)).getD j 0).toNat) (eNdim e)).1) + 8 ≤ a) :
    (s.areaPut keys 0 l).areaTiles k row bytes acc = s.areaTiles k row bytes acc := by
  have hr : ∀ a n, (∀ b ∈ keys, a + n ≤ b) → (s.areaPut keys 0 l).readM a n = s.readM a n := fun a n h =>
    memRead_congr _ _ n a fun i _ hi' => areaPut_outside keys s l i fun b hb => .inl (by have := h b hb; omega)
  obtain ⟨m, p, hm⟩ := areaPut_eq keys s 0 l
  have hk : ∀ o, o < (bytes + 32767) / 32768 → (s.areaPut keys 0 l).areaKey k row (32768 * o) acc = s.areaKey k row (32768 * o) acc :=
    fun o ho => areaKey_congr s _ k row (32768 * o) acc e (by rw [hm]) (by rw [hm]) (by rw [hm]) (by rw [hm]) he hx (hr _ _ h1) (hr _ _ (h2 o ho))
  have hl : ∀ L : List Nat, (∀ o ∈ L, (s.areaPut keys 0 l).areaKey k row o acc = s.areaKey k row o acc) →
      L.find? (fun o => ((s.areaPut keys 0 l).areaKey k row o acc).isNone) = L.find? (fun o => (s.areaKey k row o acc).isNone)
      ∧ L.filterMap (fun o => (s.areaPut keys 0 l).areaKey k row o acc) = L.filterMap fun o => s.areaKey k row o acc := by
    intro L
    induction L with
    | nil => intro _; exact ⟨rfl, rfl⟩
    | cons o r ih =>
      intro h
      obtain ⟨i1, i2⟩ := ih fun q hq => h q (List.mem_cons_of_mem _ hq)
      simp only [List.find?_cons, List.filterMap_cons, h o List.mem_cons_self, i1, i2, and_self]
  obtain ⟨i1, i2⟩ := hl ((List.range ((bytes + 32767) / 32768)).map (32768 * ·)) fun o ho => by
    obtain ⟨q, hq, rfl⟩ := List.mem_map.mp ho
    exact hk q (by simpa using hq)
  simp only [areaTiles, i1, i2]
theorem areaTiles_of (s : State) (a : List (Nat × Shift)) (b : List (Nat × CoreSt)) (c : List (Nat × Gallery)) (d : List Saved)
    (e : List (Nat × Vector Barrier 4)) (k : KCsr) (row bytes : Nat) (acc : Acc) :
    ({ s with shifts := a, cores := b, gals := c, saved := d, bard := e } : State).areaTiles k row bytes acc
      = s.areaTiles k row bytes acc := rfl

theorem giveRoutines_eq (s : State) (seq : BitVec 32) (rs : List (Nat × List Word64)) (c : Nat) :
    ∃ b, (s.giveRoutines seq rs c).getD s = { s with cores := b } := by
  unfold giveRoutines
  split
  · exact ⟨s.cores, rfl⟩
  · cases takeRoutines s.freeN (s.core c) seq rs with
    | none => exact ⟨s.cores, rfl⟩
    | some x => exact ⟨_, rfl⟩

/-- The choice of a core changes where a shift stands in it, and nothing else of the shift. -/
theorem choose_sh (s : State) (c : Nat) (y : Option Nat) (n : Nat) :
    ∃ st w r, (s.choose c y).sh n = { s.sh n with st := st, waitCy := w, runCy := r } := by
  unfold choose
  split
  · exact ⟨_, _, _, rfl⟩
  · simp only []
    split
    · exact ⟨_, _, _, rfl⟩
    · rename_i a r _
      generalize hb : r.foldl (fun x y => if s.preferred y x then y else x) a = best
      by_cases h : n = best
      · subst h; rw [sh_modSh]; exact ⟨_, _, _, rfl⟩
      · rw [sh_modSh_other _ _ _ _ h]; exact ⟨_, _, _, rfl⟩

theorem trace_sh (s : State) (kind src flg : Nat) (task : BitVec 32) (pay : BitVec 128) (m : Nat) :
    (s.trace kind src flg task pay).sh m = s.sh m := by
  unfold trace
  split
  · rfl
  · split
    · rfl
    · simp only [sh, writeM]

theorem moveRecord_sh (s : State) (n kind code area m : Nat) : (s.moveRecord n kind code area).sh m = s.sh m := trace_sh ..

/-- A context that is back on shift n has what its save area holds (14 R295, R296). -/
theorem putBack_sh (s : State) (l : Launch) (v : Saved) (n : Nat) (keys : List Nat) (h0 : v.lost = none)
    (h1 : s.areaTiles v.sh.k v.row (8 * (10240 + 8192 * v.sh.k.na.toNat)) .read = .ok keys)
    (h2 : s.areaPois keys (8 * (10240 + 8192 * v.sh.k.na.toNat)) = none) :
    ∃ g st w r, (s.putBack l v n).sh n = { rebuild (backAgain v.sh) (s.areaWords keys (10240 + 8192 * v.sh.k.na.toNat)) with
      gate := g, st := st, waitCy := w, runCy := r } := by
  unfold putBack
  simp only [h0]
  generalize hs1 : ({ s with saved := s.saved.filter fun w => w.vid != v.vid } : State).renumber (n / 32) v.vid n = s1
  have e1 : s1 = { s with gals := s1.gals, saved := s1.saved, bard := s1.bard } := by subst hs1; rfl
  obtain ⟨b, e2⟩ := giveRoutines_eq s1 l.seq l.obj.routines (n / 4)
  rw [e2]
  generalize hs2 : ({ s1 with cores := b } : State).setSh n (backAgain v.sh) = s2
  have e3 : s2 = { s with shifts := s2.shifts, cores := s2.cores, gals := s2.gals, saved := s2.saved, bard := s2.bard } := by
    subst hs2; rw [e1]; rfl
  have hsh : s2.sh n = backAgain v.sh := by subst hs2; exact sh_setSh ..
  have ha : s2.areaTiles v.sh.k v.row (8 * (10240 + 8192 * v.sh.k.na.toNat)) .read = .ok keys := by
    rw [e3, areaTiles_of, h1]
  have hp : s2.areaPois keys (8 * (10240 + 8192 * v.sh.k.na.toNat)) = none := by rw [e3]; exact h2
  have hw : s2.areaWords keys (10240 + 8192 * v.sh.k.na.toNat) = s.areaWords keys (10240 + 8192 * v.sh.k.na.toNat) := by
    rw [e3]; rfl
  simp only [ha, hp, hw]
  generalize hr : s.areaWords keys (10240 + 8192 * v.sh.k.na.toNat) = words
  have fin (u : State) (g : List GateEntry) (hu : u.sh n = { rebuild (backAgain v.sh) words with gate := g }) : ∃ g st w r,
      ((u.moveRecord n 0x09 0 (keys.headD 0)).choose (n / 4) none).sh n
        = { rebuild (backAgain v.sh) words with gate := g, st := st, waitCy := w, runCy := r } := by
    obtain ⟨st, w, r, hc⟩ := choose_sh (u.moveRecord n 0x09 0 (keys.headD 0)) (n / 4) none n
    rw [moveRecord_sh, hu] at hc
    exact ⟨g, st, w, r, hc⟩
  have hg : ∃ g, ((s2.modSh n fun x => rebuild x words).retarget n v.sh.gate).sh n
      = { rebuild (backAgain v.sh) words with gate := g } := by
    rw [retarget, sh_modSh, sh_modSh, hsh]; exact ⟨_, rfl⟩
  obtain ⟨g, hg⟩ := hg
  split
  · exact fin _ g hg
  · exact fin _ g hg
/-- The choice of a core changes shifts and nothing else. -/
theorem choose_eq (s : State) (c : Nat) (y : Option Nat) : ∃ x, s.choose c y = { s with shifts := x } := by
  unfold choose
  split
  · exact ⟨s.shifts, rfl⟩
  · simp only []
    split
    · exact ⟨s.shifts, rfl⟩
    · exact ⟨_, rfl⟩

/-- Without trace records a PREEMPT or RESUME record leaves the device as it is (13 R284). -/
theorem moveRecord_off (s : State) (n kind code area : Nat) (h : s.d.trmask.getLsbD kind = false) :
    s.moveRecord n kind code area = s := by
  unfold moveRecord trace
  rw [if_pos h]

theorem trace_saved (s : State) (kind src flg : Nat) (task : BitVec 32) (pay : BitVec 128) :
    (s.trace kind src flg task pay).saved = s.saved ∧ (s.trace kind src flg task pay).launches = s.launches := by
  unfold trace
  split
  · exact ⟨rfl, rfl⟩
  · split
    · exact ⟨rfl, rfl⟩
    · simp only [writeM, and_self]

/-- What a shift that can write its save area leaves (14 R294, R296): its context, and the area's words. -/
theorem storeShift_spec (s : State) (n : Nat) (keys : List Nat) :
    (∃ v, (s.storeShift n keys).saved = s.saved ++ [v] ∧ v.sh = s.sh n ∧ v.at_ = n ∧ v.row = s.saveRow n ∧ v.gal = s.compGal n
      ∧ v.lost = none ∧ v.acks = [])
    ∧ (s.d.trmask.getLsbD 8 = false → (s.storeShift n keys).mem = (s.areaPut keys 0 (wordBytes (s.saveImage n))).mem) := by
  obtain ⟨m, p, hm⟩ := areaPut_eq keys s 0 (wordBytes (s.saveImage n))
  unfold storeShift
  simp only []
  generalize hu : s.areaPut keys 0 (wordBytes (s.saveImage n)) = u at *
  refine ⟨?_, fun ht => ?_⟩
  · generalize hw : u.moveRecord n 0x08 0x30 (keys.headD 0) = w
    have h1 : w.saved = s.saved := by
      rw [← hw, moveRecord, (trace_saved ..).1, hm]
    have h2 : w.sh n = s.sh n := by
      rw [← hw, moveRecord_sh, hm]; rfl
    have h3 : w.compGal n = s.compGal n := by
      have : w.launches = s.launches := by rw [← hw, moveRecord, (trace_saved ..).2, hm]
      simp only [compGal, launchOf, h2, this]
    refine ⟨⟨match (w.sh n).bound with
        | some (q, _) => q
        | none => 0, s.saveRow n, w.compGal n, n, 2048 + w.savedN, w.sh n, [], none, 0⟩, ?_, h2, rfl, rfl, h3, rfl, rfl⟩
    obtain ⟨x, hx⟩ := choose_eq ((({ w with saved := w.saved ++ [_], savedN := w.savedN + 1 } : State).renumber (n / 32) n _).setSh
        n _) (n / 4) none
    rw [hx, ← h1]
    rfl
  · rw [moveRecord_off u n 0x08 0x30 (keys.headD 0) (by rw [hm]; exact ht)]
    obtain ⟨x, hx⟩ := choose_eq ((({ u with saved := u.saved ++ [_], savedN := u.savedN + 1 } : State).renumber (n / 32) n _).setSh
        n _) (n / 4) none
    rw [hx]
    rfl

/-- A shift at rest keeps its registers, its tiles, its address and its task. -/
theorem atRest_sh (s : State) (n : Nat) : ∃ nr, (s.atRest n).sh n = { s.sh n with
    preemptReq := false, loopBuf := [], shLoop := [], k := { (s.sh n).k with nr := nr } } := by
  refine ⟨(s.sh n).k.nr || (s.core (n / 4)).accSh.any fun a => a.holder = n, ?_⟩
  unfold atRest releaseSlots
  simp only []
  split <;> exact sh_modSh ..

end Sys2Proof.Machine.State
end

