-- ==== Sys2Proof/Laws/Kick.lean ====
section
/-! SUPPORT. The kick (13 R265, R270, R271): the shifts that a gallery's stages bind are distinct, the galleries of a launch are
distinct free ones, and what the galleries and shifts of a launch hold when it enters them. -/

namespace Sys2Proof.Machine

/-- What holds of a list of bindings and the count of shifts taken of each core: distinct places below the counts. -/
def BindOk (a : List (Nat × Nat × Nat) × List Nat) : Prop :=
  (a.1.map Prod.snd).Nodup ∧ a.2.length = 8 ∧ ∀ x ∈ a.1, x.2.1 < 8 ∧ x.2.2 < 4 ∧ x.2.2 < a.2[x.2.1]?.getD 0

theorem bindOk_add {a : List (Nat × Nat × Nat) × List Nat} (h : BindOk a) (k c u : Nat) (hc : c < 8) (hu : a.2[c]?.getD 4 = u) (h4 : u < 4) :
    BindOk (a.1 ++ [(k, c, u)], a.2.set c (u + 1)) := by
  obtain ⟨hn, hl, hx⟩ := h
  have hg : a.2[c]? = some u := by
    rw [List.getElem?_eq_getElem (by omega)] at hu ⊢
    simpa using hu
  refine ⟨?_, by simpa using hl, fun x hm => ?_⟩
  · rw [List.map_append, List.nodup_append]
    refine ⟨hn, by simp, fun y hy z hz => ?_⟩
    obtain ⟨x, hxm, rfl⟩ := List.mem_map.1 hy
    simp only [List.map_cons, List.map_nil, List.mem_singleton] at hz
    rintro rfl
    have := (hx x hxm).2.2
    rw [hz, hg] at this
    simp at this
  · rcases List.mem_append.1 hm with hm | hm
    · obtain ⟨h1, h2, h3⟩ := hx x hm
      refine ⟨h1, h2, ?_⟩
      by_cases e : c = x.2.1
      · subst e
        rw [hg] at h3
        rw [List.getElem?_set_self (by omega)]
        simp at h3 ⊢
        omega
      · rw [List.getElem?_set_ne e]; exact h3
    · simp only [List.mem_singleton] at hm
      subst hm
      refine ⟨hc, h4, ?_⟩
      rw [List.getElem?_set_self (by omega)]
      simp

theorem bindStage_ok (k : Nat) (st : StageDecl) (used : List Nat) (b : List (Nat × Nat × Nat) × List Nat) (a : List (Nat × Nat × Nat))
    (h : bindStage k st used = some b) (ha : BindOk (a, used)) : BindOk (a ++ b.1, b.2) := by
  unfold bindStage at h
  simp only [] at h
  split at h
  · obtain rfl := Option.some.inj h
    have hc : ∀ c ∈ (List.range 4).flatMap (fun _ => (List.range 8).filter fun c => st.cores.testBit c), c < 8 := by
      intro c hc
      obtain ⟨_, _, hc⟩ := List.mem_flatMap.1 hc
      simpa using (List.mem_filter.1 hc).1
    revert hc
    generalize (List.range 4).flatMap (fun _ => (List.range 8).filter fun c => st.cores.testBit c) = l
    intro hc
    suffices ∀ acc : List (Nat × Nat × Nat) × List Nat, BindOk (a ++ acc.1, acc.2) →
        BindOk (a ++ (l.foldl (fun (acc : List (Nat × Nat × Nat) × List Nat) c =>
          let u := acc.2[c]?.getD 4
          if acc.1.length < st.shifts && u < 4 then (acc.1 ++ [(k, c, u)], acc.2.set c (u + 1)) else acc) acc).1,
          (l.foldl (fun (acc : List (Nat × Nat × Nat) × List Nat) c =>
          let u := acc.2[c]?.getD 4
          if acc.1.length < st.shifts && u < 4 then (acc.1 ++ [(k, c, u)], acc.2.set c (u + 1)) else acc) acc).2) from
      this ([], used) (by simpa using ha)
    induction l with
    | nil => intro acc h; exact h
    | cons c r ih =>
      intro acc h
      rw [List.foldl_cons]
      refine ih (fun c hm => hc c (List.mem_cons_of_mem _ hm)) _ ?_
      simp only []
      split
      · rename_i hif
        simp only [Bool.and_eq_true, decide_eq_true_eq] at hif
        have := bindOk_add h k c _ (hc c List.mem_cons_self) rfl hif.2
        rwa [List.append_assoc] at this
      · exact h
  · cases h

/-- The shifts bound in a gallery are distinct ones of its 32 (13 R265). -/
theorem bindGallery_distinct (stages : List StageDecl) (g : Nat) (b : List (Nat × Nat × Nat)) (h : bindGallery stages g = some b) :
    (b.map Prod.snd).Nodup ∧ ∀ x ∈ b, x.2.1 < 8 ∧ x.2.2 < 4 := by
  unfold bindGallery at h
  simp only [Option.bind_eq_some_iff] at h
  obtain ⟨a, h1, h2⟩ := h
  have : BindOk a := by
    revert h1
    generalize stages.zipIdx.filter (fun p => p.1.gal = g) = l
    suffices ∀ acc : Option (List (Nat × Nat × Nat) × List Nat), (∀ x, acc = some x → BindOk x) →
        ∀ x, l.foldl (fun (acc : Option (List (Nat × Nat × Nat) × List Nat)) p =>
          acc.bind fun a => (bindStage p.2 p.1 a.2).map fun b => (a.1 ++ b.1, b.2)) acc = some x → BindOk x from
      this _ (fun x hx => by obtain rfl := Option.some.inj hx; exact ⟨by simp, by simp, by simp⟩) a
    induction l with
    | nil => intro acc h x hx; exact h x hx
    | cons p r ih =>
      intro acc h x hx
      rw [List.foldl_cons] at hx
      refine ih _ (fun y hy => ?_) x hx
      cases acc with
      | none => cases hy
      | some z =>
        simp only [Option.bind_some, Option.map_eq_some_iff] at hy
        obtain ⟨b, hb, rfl⟩ := hy
        exact bindStage_ok _ _ _ _ _ hb (h z rfl)
  split at h2
  · obtain rfl := Option.some.inj h2
    exact ⟨this.1, fun x hx => ⟨(this.2.2 x hx).1, (this.2.2 x hx).2.1⟩⟩
  · cases h2

theorem mem_rotated {α : Type} (l : List α) (k : Nat) (x : α) : x ∈ rotated l k ↔ x ∈ l := by
  unfold rotated
  rw [List.mem_append, or_comm, ← List.mem_append, List.take_append_drop]

namespace State

theorem choosePlaces_spec (s : State) (dem : List (Nat × List Nat)) : ∀ (free : List Nat) (l : List (Nat × Nat)),
    s.choosePlaces dem free = some l → l.map Prod.fst = dem.map Prod.fst ∧ (l.map Prod.snd).Nodup ∧ ∀ p ∈ l, p.2 ∈ free := by
  induction dem with
  | nil =>
    intro free l h
    obtain rfl := Option.some.inj h
    exact ⟨rfl, List.nodup_nil, by simp⟩
  | cons d r ih =>
    intro free l h
    obtain ⟨k, ok⟩ := d
    rw [choosePlaces, List.findSome?_eq_some_iff] at h
    obtain ⟨l1, g, l2, he, h, -⟩ := h
    obtain ⟨m, hm, rfl⟩ := Option.map_eq_some_iff.1 h
    obtain ⟨h1, h2, h3⟩ := ih _ _ hm
    have hg : g ∈ free := by
      have : g ∈ rotated (free.filter ok.contains) (Config.pickGallery s.freeN k) := by rw [he]; simp
      exact (List.mem_filter.1 ((mem_rotated _ _ _).1 this)).1
    refine ⟨by simp [h1], ?_, fun p hp => ?_⟩
    · rw [List.map_cons, List.nodup_cons]
      refine ⟨fun hc => ?_, h2⟩
      obtain ⟨p, hp, he⟩ := List.mem_map.1 hc
      have := (List.mem_filter.1 (h3 p hp)).2
      simp [he] at this
    · rcases List.mem_cons.1 hp with rfl | hp
      · exact hg
      · exact (List.mem_filter.1 (h3 p hp)).1

theorem looked_up (l : List (Nat × Nat)) (h : (l.map Prod.fst).Nodup) :
    (l.map Prod.fst).map (fun i => ((l.find? fun p => p.1 = i).map Prod.snd).getD 0) = l.map Prod.snd := by
  rw [List.map_map]
  refine List.map_congr_left fun p hp => ?_
  have : l.find? (fun q => q.1 = p.1) = some p := by
    induction l with
    | nil => simp at hp
    | cons q r ih =>
      rw [List.map_cons, List.nodup_cons] at h
      rcases List.mem_cons.1 hp with rfl | hp
      · simp
      · rw [List.find?_cons_of_neg, ih h.2 hp]
        simp only [decide_eq_true_eq]
        intro he
        exact h.1 (he ▸ List.mem_map_of_mem hp)
  simp [this]

/-- The galleries of a launch are distinct, unfenced and free (13 R271). -/
theorem placement_spec (s : State) (seq : BitVec 32) (ngal : Nat) (assay : Bool) (o : CodeObject) (place twin : List Nat)
    (h : s.placement seq ngal assay o = some (place, twin)) :
    place.length = ngal ∧ twin.length = (if assay then ngal else 0) ∧ (place ++ twin).Nodup
    ∧ ∀ g ∈ place ++ twin, g < 64 ∧ (s.gal g).holder = none ∧ (s.gal g).fenced = false := by
  have key (n : Nat) (f : Nat → List Nat) (l : List (Nat × Nat))
      (hl : s.choosePlaces ((List.range n).map fun i => (i, f i)) s.freeGals = some l) :
      (List.range n).map (fun i => ((l.find? fun p => p.1 = i).map Prod.snd).getD 0) = l.map Prod.snd ∧ (l.map Prod.snd).Nodup
      ∧ ∀ g ∈ l.map Prod.snd, g < 64 ∧ (s.gal g).holder = none ∧ (s.gal g).fenced = false := by
    obtain ⟨h1, h2, h3⟩ := choosePlaces_spec _ _ _ _ hl
    rw [List.map_map] at h1
    have hr : l.map Prod.fst = List.range n := by
      rw [h1]; exact List.map_id'' (fun _ => rfl) _
    refine ⟨hr ▸ looked_up l (hr ▸ List.nodup_range), h2, fun g hg => ?_⟩
    obtain ⟨p, hp, rfl⟩ := List.mem_map.1 hg
    simpa [freeGals] using h3 p hp
  unfold placement at h
  cases assay
  · simp only [Bool.false_eq_true, if_false] at h ⊢
    split at h
    · cases h
    · obtain ⟨l, hl, he⟩ := Option.map_eq_some_iff.1 h
      obtain ⟨h1, h2, h3⟩ := key _ _ _ hl
      obtain ⟨rfl, rfl⟩ := Prod.mk.injEq .. ▸ he
      refine ⟨by simp, rfl, ?_, ?_⟩ <;> rw [List.append_nil, h1] <;> assumption
  · simp only [if_true] at h ⊢
    split at h
    · cases h
    · obtain ⟨l, hl, he⟩ := Option.map_eq_some_iff.1 h
      obtain ⟨h1, h2, h3⟩ := key _ _ _ hl
      obtain ⟨rfl, rfl⟩ := Prod.mk.injEq .. ▸ he
      rw [Nat.two_mul, List.range_add, List.map_append, List.map_map] at h1
      refine ⟨by simp, by simp, ?_, ?_⟩ <;> rw [show (List.range ngal).map (fun k => ((l.find? fun p => p.1 = ngal + k).map
        Prod.snd).getD 0) = (List.range ngal).map ((fun i => ((l.find? fun p => p.1 = i).map Prod.snd).getD 0) ∘ fun x => ngal + x)
        from rfl, h1] <;> assumption

/-- What an operation leaves of galleries other than g, of their shifts and of the launches, and of gallery g's own records. -/
def Within (g : Nat) (s t : State) : Prop :=
  (∀ h, h ≠ g → t.gal h = s.gal h) ∧ (∀ n, n / 32 ≠ g → t.sh n = s.sh n)
  ∧ t = { s with shifts := t.shifts, cores := t.cores, gals := t.gals, poisonS := t.poisonS }

theorem Within.refl (g : Nat) (s : State) : Within g s s := ⟨fun _ _ => rfl, fun _ _ => rfl, rfl⟩

theorem Within.trans {g : Nat} {s t u : State} (h : Within g s t) (k : Within g t u) : Within g s u := by
  obtain ⟨h1, h2, h3⟩ := h
  obtain ⟨k1, k2, k3⟩ := k
  refine ⟨fun x hx => (k1 x hx).trans (h1 x hx), fun x hx => (k2 x hx).trans (h2 x hx), ?_⟩
  rw [k3, h3]

theorem Within.foldl {α : Type} {g : Nat} (l : List α) (f : State → α → State) (hf : ∀ t a, a ∈ l → Within g t (f t a)) :
    ∀ s, Within g s (l.foldl f s) := by
  induction l with
  | nil => exact Within.refl g
  | cons a r ih =>
    exact fun s => Within.trans (hf s a List.mem_cons_self) (ih (fun t b hb => hf t b (List.mem_cons_of_mem _ hb)) _)

/-- Folding operations that keep a property. -/
theorem foldl_keeps {α : Type} (p : State → Prop) (l : List α) (f : State → α → State) (hf : ∀ t a, a ∈ l → p t → p (f t a)) :
    ∀ s, p s → p (l.foldl f s) := by
  induction l with
  | nil => exact fun s h => h
  | cons a r ih => exact fun s h => ih (fun t b hb => hf t b (List.mem_cons_of_mem _ hb)) _ (hf s a List.mem_cons_self h)

theorem Within.setSh {g n : Nat} (s : State) (x : Shift) (h : n / 32 = g) : Within g s (s.setSh n x) :=
  ⟨fun _ _ => rfl, fun m hm => sh_setSh_other _ _ _ _ (by rintro rfl; exact hm h), rfl⟩

theorem Within.setGal (g : Nat) (s : State) (x : Gallery) : Within g s (s.setGal g x) :=
  ⟨fun _ hh => gal_setGal_other _ _ _ _ hh, fun _ _ => rfl, rfl⟩

/-- What a launch's gallery holds once it has been filled, shifts apart. -/
def Fresh (l : Launch) (x : Gallery) : Prop :=
  x.holder = some l.seq ∧ x.guard = [] ∧ x.tags = [] ∧ x.slots = [] ∧ x.barg = Vector.replicate 4 .empty ∧ x.steerCy = 0

theorem cbWrite_spec (s : State) (g : Nat) (d : QueueDecl) (off len v : Nat) : Within g s (s.cbWrite g d off len v)
    ∧ ∀ l, Fresh l (s.gal g) → Fresh l ((s.cbWrite g d off len v).gal g) := by
  unfold cbWrite
  simp only []
  generalize ht : s.spPoke g (d.cb + off) len v = t
  have hg : t.gal g = { s.gal g with sp := memWrite (s.gal g).sp (d.cb + off) len v } := by rw [← ht]; exact lget_lput_same ..
  have w : Within g s t := by
    rw [← ht]; exact ⟨fun h hh => lget_lput_other _ _ _ _ _ hh, fun _ _ => rfl, rfl⟩
  refine ⟨w.trans (Within.setGal ..), fun l h => ?_⟩
  rw [gal_setGal, hg]
  exact h

theorem emptyGallery_spec (s : State) (l : Launch) (g : Nat) : Within g s (s.emptyGallery l g)
    ∧ Fresh l ((s.emptyGallery l g).gal g) := by
  refine ⟨⟨fun h hh => lget_lput_other _ _ _ _ _ hh, fun _ _ => rfl, rfl⟩, ?_⟩
  unfold emptyGallery
  show Fresh l (lget (lput _ _ _) _ _)
  rw [lget_lput_same]
  exact ⟨rfl, rfl, rfl, rfl, rfl, rfl⟩

theorem freeShifts_spec (s : State) (l : Launch) (g : Nat) : Within g s (s.freeShifts l g)
    ∧ (s.freeShifts l g).gals = s.gals := by
  unfold freeShifts
  refine ⟨Within.foldl _ _ (fun t a ha => Within.setSh _ _ ?_) _, ?_⟩
  · have : a < 32 := by simpa using ha
    omega
  · suffices ∀ (r : List Nat) (t : State), (r.foldl (fun t i => t.setSh (32 * g + i) (freeShift l)) t).gals = t.gals from this _ s
    intro r
    induction r with
    | nil => exact fun t => rfl
    | cons a r ih => exact fun t => ih (t.setSh (32 * g + a) (freeShift l))

theorem bindAll_spec (l : Launch) (g : Nat) (bs : List (Nat × Nat × Nat)) (hn : (bs.map Prod.snd).Nodup)
    (hb : ∀ x ∈ bs, x.2.1 < 8 ∧ x.2.2 < 4) : ∀ s : State, Within g s (s.bindAll l g bs) ∧ (s.bindAll l g bs).gals = s.gals
    ∧ (∀ x ∈ bs, ∀ st, l.obj.stages[x.1]? = some st → (s.bindAll l g bs).sh (32 * g + 4 * x.2.1 + x.2.2) = boundShift l x.1 st)
    ∧ ∀ c u, c < 8 → u < 4 → (c, u) ∉ bs.map Prod.snd → (s.bindAll l g bs).sh (32 * g + 4 * c + u) = s.sh (32 * g + 4 * c + u) := by
  induction bs with
  | nil => exact fun s => ⟨Within.refl .., rfl, by simp, fun _ _ _ _ _ => rfl⟩
  | cons p r ih =>
    intro s
    rw [List.map_cons, List.nodup_cons] at hn
    have hp := hb p List.mem_cons_self
    have step : ∃ t : State, s.bindAll l g (p :: r) = t.bindAll l g r ∧ Within g s t ∧ t.gals = s.gals
        ∧ (∀ st, l.obj.stages[p.1]? = some st → t.sh (32 * g + 4 * p.2.1 + p.2.2) = boundShift l p.1 st)
        ∧ ∀ m, m ≠ 32 * g + 4 * p.2.1 + p.2.2 → t.sh m = s.sh m := by
      unfold bindAll
      rw [List.foldl_cons]
      cases h : l.obj.stages[p.1]? with
      | none => exact ⟨s, rfl, Within.refl .., rfl, (fun st hs => nomatch hs), fun _ _ => rfl⟩
      | some st =>
        refine ⟨_, rfl, Within.setSh _ _ (by omega), rfl, fun st' hs => ?_, fun m hm => sh_setSh_other _ _ _ _ hm⟩
        obtain rfl := Option.some.inj hs
        exact sh_setSh ..
    obtain ⟨t, e, w, hg, hs, ho⟩ := step
    obtain ⟨i1, i2, i3, i4⟩ := ih hn.2 (fun x hx => hb x (List.mem_cons_of_mem _ hx)) t
    rw [e]
    refine ⟨w.trans i1, i2.trans hg, fun x hx st hst => ?_, fun c u hc hu hm => ?_⟩
    · rcases List.mem_cons.1 hx with rfl | hx
      · rw [i4 x.2.1 x.2.2 hp.1 hp.2 hn.1]; exact hs st hst
      · exact i3 x hx st hst
    · rw [List.map_cons, List.mem_cons, not_or] at hm
      rw [i4 c u hc hu hm.2, ho]
      intro he
      refine hm.1 (Prod.ext ?_ ?_) <;> simp only <;> omega

/-- A gallery of a launch (13 R261, R265, R270): it and its shifts alone change, it holds the launch and nothing else, and each
bound shift stands idle with its stage. -/
theorem fillGallery_spec (s : State) (l : Launch) (c g : Nat) : Within g s (s.fillGallery l c g)
    ∧ Fresh l ((s.fillGallery l c g).gal g)
    ∧ (∀ b, bindGallery l.obj.stages c = some b → ∀ x ∈ b, ∀ st, l.obj.stages[x.1]? = some st →
      (s.fillGallery l c g).sh (32 * g + 4 * x.2.1 + x.2.2) = boundShift l x.1 st) := by
  unfold fillGallery
  simp only []
  obtain ⟨w1, f1⟩ := emptyGallery_spec s l g
  generalize s.emptyGallery l g = s1 at *
  have w2 := Within.foldl (g := g) (l.obj.queues.filter fun q => q.2.gal = c) (fun (t : State) (q : Nat × QueueDecl) => t.initQueue g q.2)
    (fun t a _ => (cbWrite_spec ..).1) s1
  have f2 := foldl_keeps (fun t => Fresh l (t.gal g)) (l.obj.queues.filter fun q => q.2.gal = c)
    (fun (t : State) (q : Nat × QueueDecl) => t.initQueue g q.2) (fun t a _ h => (cbWrite_spec ..).2 _ h) s1 f1
  generalize (l.obj.queues.filter fun q => q.2.gal = c).foldl (fun (t : State) (q : Nat × QueueDecl) => t.initQueue g q.2) s1 = s2 at *
  obtain ⟨w3, g3⟩ := freeShifts_spec s2 l g
  generalize s2.freeShifts l g = s3 at *
  have f3 : Fresh l (s3.gal g) := by rw [gal, g3]; exact f2
  have hd : (((bindGallery l.obj.stages c).getD []).map Prod.snd).Nodup
      ∧ ∀ x ∈ (bindGallery l.obj.stages c).getD [], x.2.1 < 8 ∧ x.2.2 < 4 := by
    cases h : bindGallery l.obj.stages c with
    | none => simp
    | some b => exact bindGallery_distinct _ _ _ h
  obtain ⟨w4, g4, b4, -⟩ := bindAll_spec l g _ hd.1 hd.2 s3
  have hs : ∀ b, bindGallery l.obj.stages c = some b → (bindGallery l.obj.stages c).getD [] = b := fun b h => by rw [h]; rfl
  generalize (bindGallery l.obj.stages c).getD [] = bs at *
  generalize s3.bindAll l g bs = s4 at *
  have f4 : Fresh l (s4.gal g) := by rw [gal, g4]; exact f3
  have hr (t : State) (k : Nat) : ∃ b, (t.giveRoutines l.seq l.obj.routines (8 * g + k)).getD t = { t with cores := b } :=
    giveRoutines_eq ..
  have w5 := Within.foldl (g := g) (bs.map fun p => p.2.1).eraseDups
    (fun (t : State) (k : Nat) => (t.giveRoutines l.seq l.obj.routines (8 * g + k)).getD t)
    (fun t a _ => by obtain ⟨b, hb⟩ := hr t a; rw [hb]; exact ⟨fun _ _ => rfl, fun _ _ => rfl, rfl⟩) s4
  have k5 := foldl_keeps (fun t => t.gals = s4.gals ∧ t.shifts = s4.shifts) (bs.map fun p => p.2.1).eraseDups
    (fun (t : State) (k : Nat) => (t.giveRoutines l.seq l.obj.routines (8 * g + k)).getD t)
    (fun t a _ h => by obtain ⟨b, hb⟩ := hr t a; rw [hb]; exact h) s4 ⟨rfl, rfl⟩
  refine ⟨(w1.trans (w2.trans (w3.trans (w4.trans w5)))), ?_, fun b hb x hx st hst => ?_⟩
  · rw [gal, k5.1]; exact f4
  · rw [sh, k5.2]
    have := hs b hb
    subst this
    exact b4 x hx st hst

end State
end Sys2Proof.Machine
end

