-- ==== Sys2Proof/Laws/Ops.lean ====
section
/-! SUPPORT. One lemma per shared operation: what clean operands, an idle queue and a boundary already taken make of the
wrappers, what landing a result does, and that each operation keeps the memories in canonical form. -/

namespace Sys2Proof.Machine.State

/-! ### Operands and slots -/

/-- With clean operands a meaning goes on to its effect. -/
theorem usesG_of_clean (s : State) (rs : List R5) (k : Out) (h : s.cleanG rs) : s.usesG rs k = k := by
  simp [usesG, h]

/-- A poisoned operand raises UCE instead (14 R285). -/
theorem usesG_of_poisoned (s : State) (rs : List R5) (k : Out) (h : rs.any s.poisG = true) :
    s.usesG rs k = .next s.uceAt := by
  simp [usesG, h]

/-- What a slot that raises leaves behind in the bundle's record. -/
@[simp] theorem raise_cur (s : State) (r : TrapRec) (e : Bool) : (s.raise r e).cur = { s.cur with fin := .trap r e } := rfl
@[simp] theorem trapAt_fin (s : State) (c : Cause) (i : Word64) :
    (s.trapAt c i).cur.fin = .trap ⟨c, s.cur.x, .ofNat 4 s.cur.slot, i, 0⟩ false := rfl
@[simp] theorem illegalAt_fin (s : State) (c : Illegal) :
    (s.illegalAt c).cur.fin = .trap ⟨.illegal, s.cur.x, .ofNat 4 s.cur.slot, .ofNat 64 c.code, 0⟩ true := rfl
@[simp] theorem privAt_fin (s : State) (c : Nat) :
    (s.privAt c).cur.fin = .trap ⟨.priv, s.cur.x, .ofNat 4 s.cur.slot, .ofNat 64 c, 0⟩ true := rfl
@[simp] theorem blockAt_fin (s : State) (w : BlockWhy) : (s.blockAt w).cur.fin = .blocked := rfl
@[simp] theorem uceAt_fin (s : State) :
    s.uceAt.cur.fin = .trap ⟨.uce, s.cur.x, .ofNat 4 s.cur.slot, s.freeInfo, 0⟩ false := rfl

/-- With an empty LSQ there is nothing to perform. -/
theorem perfLsq_of_empty (s : State) (n : Nat) (h : (s.sh n).lsq = []) : s.perfLsq n = s := by
  simp [perfLsq, lsqReady, h]

theorem completeLsq_of_empty (s : State) (n : Nat) (h : (s.sh n).lsq = []) : s.completeLsq n = s := by
  have hf : ∀ l : List Nat, l.foldl (fun t _ => t.perfLsq n) s = s := fun l => by
    induction l with
    | nil => rfl
    | cons a r ih => rw [List.foldl_cons, perfLsq_of_empty s n h, ih]
  exact hf _

/-- With nothing queued before it, an access of the LS slot goes on at once. -/
theorem lsFirst_of_idle (s : State) (k : State → Out) (h : s.lsIdle) : s.lsFirst k = k s := by
  obtain ⟨h1, h2, h3⟩ := h
  have hme : s.sh s.cur.shift = s.me := rfl
  have hc : s.completeLsq s.cur.shift = s := completeLsq_of_empty s _ (by rw [hme, h1])
  unfold lsFirst
  simp only [hc, heldByFence]
  rw [hme, h2, h3, h1]; simp

/-- Behind the boundary that its bundle has taken, a boundary instruction goes on at once. -/
theorem atBoundary_of_done (s : State) (rep ret cp : Bool) (k : State → Out) (h : s.cur.bdone = true) :
    s.atBoundary rep ret cp k = k s := by
  simp [atBoundary, h]

/-! ### Results -/

theorem rdG_zero (s : State) : s.rdG 0 = 0 := by simp [rdG]
theorem wrG_zero (s : State) (x : Word64) (lat : Nat) : s.wrG 0 x lat = s := by simp [wrG]
theorem wrG_of_ne (s : State) (d : R5) (x : Word64) (lat : Nat) (h : d ≠ 0) : s.wrG d x lat = s.fly (.g d x false) lat := if_neg h

/-- A result in flight is the last of its shift, and nothing else changes. -/
theorem fly_me (s : State) (w : LandTo) (lat : Nat) :
    (s.fly w lat).me = { s.me with inflight := s.me.inflight ++ [⟨w, lat, s.cur.bundle, s.cur.slot, s.cur.x⟩] } := by
  unfold fly modMe me; exact sh_modSh ..

theorem fly_sh_other (s : State) (w : LandTo) (lat n : Nat) (h : n ≠ s.cur.shift) : (s.fly w lat).sh n = s.sh n :=
  sh_modMe_other _ _ _ h

/-- A result of the issuing bundle itself is not late: its other slots read the register as before (R29). -/
theorem gLate_fly (s : State) (w : LandTo) (lat : Nat) (r : R5) : (s.fly w lat).gLate r = s.gLate r := by
  have hc : (s.fly w lat).cur = s.cur := rfl
  unfold gLate
  rw [fly_me, hc]
  simp only [List.any_append, List.any_cons, List.any_nil, Nat.lt_irrefl, decide_false, Bool.false_and, Bool.or_false]

/-! ### The memories of the state -/

section MemOk
variable {s : State} (h : s.memOk)
include h

theorem memOk_writeM (key n v : Nat) : (s.writeM key n v).memOk := ⟨memWrite_wf _ _ _ _ h.1, h.2⟩

theorem memOk_spPoke (g off len v : Nat) : (s.spPoke g off len v).memOk :=
  (h.setGal g { s.gal g with sp := memWrite (s.gal g).sp off len v } ⟨memWrite_wf _ _ _ _ (h.gal g).1, (h.gal g).2⟩ :)

theorem memOk_spPokeOk (n off v len : Nat) : (s.spPokeOk n off v len).memOk := by
  induction len generalizing s off v with
  | zero => exact h
  | succ len ih =>
    simp only [spPokeOk]
    split
    · exact ih h _ _
    · exact ih (memOk_spPoke h _ _ _ _) _ _

theorem memOk_recordViol (n : Nat) (w : Bool) (v : Option (Nat × Nat)) : (s.recordViol n w v).memOk := by
  unfold recordViol; split <;> exact h

theorem memOk_spRead (n off len : Nat) : (s.spRead n off len).2.2.memOk := memOk_recordViol h _ _ _

theorem memOk_spWrite (n off len v : Nat) : (s.spWrite n off len v).memOk :=
  memOk_recordViol (memOk_spPokeOk h _ _ _ _) _ _ _

theorem memOk_fly (w : LandTo) (lat : Nat) : (s.fly w lat).memOk := h
theorem memOk_wrG (d : R5) (x : Word64) (lat : Nat) : (s.wrG d x lat).memOk := by unfold wrG; split <;> exact h
theorem memOk_wrGp (d : R5) (x : Word64) (p : Bool) (lat : Nat) : (s.wrGp d x p lat).memOk := by
  unfold wrGp; split <;> exact h
theorem memOk_wrV (d : R5) (x : BitVec 2048) (m : CMap) (lat : Nat) : (s.wrV d x m lat).memOk := h
theorem memOk_wrFlags (f : Flags) (lat : Nat) : (s.wrFlags f lat).memOk := by unfold wrFlags; split <;> exact h
theorem memOk_landAll (n : Nat) : (s.landAll n).memOk := h
theorem memOk_arriveG (n : Nat) (d : R5) (x : Word64) (p : Bool) : (s.arriveG n d x p).memOk := h
theorem memOk_memFault (n : Nat) (r : TrapRec) : (s.memFault n r).memOk := h
theorem memOk_countFail (n c : Nat) : (s.countFail n c).memOk := h
theorem memOk_popLsq (n : Nat) : (s.popLsq n).memOk := h
theorem memOk_popGate (n : Nat) : (s.popGate n).memOk := h
theorem memOk_setHead (n : Nat) (e : GateEntry) : (s.setHead n e).memOk := h
theorem memOk_pushGate (n : Nat) (e : GateEntry) : (s.pushGate n e).memOk := h
theorem memOk_transfer (n : Nat) (a : Addr) : (s.transfer n a).memOk := h
theorem memOk_event (k : BitVec 8) (src : BitVec 16) (f : BitVec 8) (t : BitVec 32) (l : List Nat) :
    (s.event k src f t l).memOk := h
theorem memOk_modLaunch (q : BitVec 32) (f : Launch → Launch) : (s.modLaunch q f).memOk := h

theorem memOk_cacheEntry (b : BitVec 40) (t : Nat) : (s.cacheEntry b t).memOk := by
  unfold cacheEntry; dsimp only; split <;> exact h

theorem memOk_noteTid (n t : Nat) : (s.noteTid n t).memOk := by
  unfold noteTid; dsimp only; split
  · exact memOk_cacheEntry h _ _
  · exact h

theorem memOk_notePois (n : Nat) (p : Bool) : (s.notePois n p).memOk := by unfold notePois; split <;> exact h

theorem memOk_noteFlat (n : Nat) (a : Addr) : (s.noteFlat n a).memOk := by
  unfold noteFlat; dsimp only; split
  · exact h
  · exact memOk_noteTid h _ _

omit h in
theorem memOk_withD (t : State) (x : DCsr) (ht : t.memOk) : ({ t with d := x } : State).memOk := ht

omit h in
theorem memOk_withCur (t : State) (x : Cur) (ht : t.memOk) : ({ t with cur := x } : State).memOk := ht

omit h in
theorem memOk_withBar (t : State) (x : Bar) (e : List HostEvent) (m : List (BitVec 3)) (ht : t.memOk) :
    ({ t with events := e, bar := x, msix := m } : State).memOk := ht

theorem memOk_trace (kind src flg : Nat) (task : BitVec 32) (pay : BitVec 128) : (s.trace kind src flg task pay).memOk := by
  unfold trace
  split
  · exact h
  · split
    · exact h
    · exact memOk_withD _ _ (memOk_writeM h _ _ _)

theorem memOk_traceSh (n kind unit flg : Nat) (items : List Nat) : (s.traceSh n kind unit flg items).memOk :=
  memOk_trace h _ _ _ _ _

theorem memOk_postOne : s.postOne.memOk := by
  unfold postOne
  split
  · exact h
  · dsimp only; split
    · exact h
    · exact memOk_withBar _ _ _ _ (memOk_writeM h _ _ _)

theorem memOk_foldSig (n : Nat) (a b c : Word64) : (s.foldSig n a b c).memOk := by
  unfold foldSig
  split
  · split <;> exact h
  · exact h

theorem memOk_markCommitted (n : Nat) (b : Bool) : (s.markCommitted n b).memOk := by
  unfold markCommitted; split <;> exact h

theorem memOk_arrive (n aw b : Nat) : (s.arrive n aw b).memOk := by
  unfold arrive
  split
  · exact h
  · exact memOk_spPokeOk (memOk_spRead h _ _ _) _ _ _ _

/-! ### Stage queues -/

theorem memOk_modSlots (g : Nat) (f : List QSlot → List QSlot) : (s.modSlots g f).memOk := h.setGal g _ (h.gal g)

theorem memOk_cbWrite (g : Nat) (d : QueueDecl) (off len v : Nat) : (s.cbWrite g d off len v).memOk :=
  (memOk_spPoke h _ _ _ _).setGal g _ ((memOk_spPoke h _ _ _ _).gal g)

theorem memOk_headStep (g q : Nat) (d : QueueDecl) : (s.headStep g q d).memOk := by
  unfold headStep; dsimp only; split
  · exact memOk_cbWrite (memOk_modSlots h _ _) _ _ _ _ _
  · exact h

end MemOk

/-- An operation repeated keeps the canonical form when each turn does. -/
theorem memOk_foldl {α : Type} (f : State → α → State) (hf : ∀ s a, s.memOk → (f s a).memOk) (l : List α) (s : State)
    (h : s.memOk) : (l.foldl f s).memOk := by
  induction l generalizing s with
  | nil => exact h
  | cons a r ih => exact ih _ (hf s a h)

section MemOk
variable {s : State} (h : s.memOk)
include h

theorem memOk_postAll : s.postAll.memOk := memOk_foldl _ (fun _ _ h => memOk_postOne h) _ _ h

theorem memOk_refreshQ (g q : Nat) (d : QueueDecl) : (s.refreshQ g q d).memOk :=
  memOk_cbWrite (memOk_cbWrite (memOk_foldl _ (fun _ _ h => memOk_headStep h _ _ _) _ _ h) _ _ _ _ _) _ _ _ _ _

theorem memOk_refreshAll (n : Nat) : (s.refreshAll n).memOk := memOk_foldl _ (fun _ _ h => memOk_refreshQ h _ _ _) _ _ h

theorem memOk_mapSlots (n : Nat) (f : QSlot → QSlot) : (s.mapSlots n f).memOk := memOk_refreshAll (memOk_modSlots h _ _) _

theorem memOk_undoSlots (n b : Nat) : (s.undoSlots n b).memOk := memOk_mapSlots h _ _

theorem memOk_boundaryQueues (n : Nat) : (s.boundaryQueues n).memOk := by
  refine (memOk_foldl _ (fun t q ht => ?_) _ _ (memOk_mapSlots h n _) :)
  split
  · exact memOk_cbWrite ht _ _ _ _ _
  · exact ht

/-! ### The running shift -/

theorem memOk_choose (c : Nat) (y : Option Nat) : (s.choose c y).memOk := by
  unfold choose
  split
  · exact h
  · dsimp only; split
    · exact h
    · exact h

theorem memOk_leave (n : Nat) (st : RunSt) (w : Option BlockWhy) : (s.leave n st w).memOk := by
  unfold leave; exact memOk_choose (s := s.modSh n _) h _ _

theorem memOk_wake (n : Nat) : (s.wake n).memOk := by
  unfold wake; split
  · exact memOk_choose (s := s.modSh n _) h _ _
  · exact h

theorem memOk_blockAt (w : BlockWhy) : (s.blockAt w).memOk := memOk_leave h _ _ _

/-! ### Elements and commits -/

theorem memOk_readLoc (n : Nat) (c : Bool) (l : Loc) (f : Nat) : (s.readLoc n c l f).2.2.memOk := by
  unfold readLoc
  split
  · exact h
  · split
    · exact memOk_spRead h n _ _
    · exact h

theorem memOk_writeLoc (n : Nat) (c : Bool) (l : Loc) (f x : Nat) (p : Bool) : (s.writeLoc n c l f x p).memOk := by
  unfold writeLoc
  split
  · dsimp only; split <;> exact memOk_writeM h _ _ _
  · dsimp only
    split <;> split
    · exact memOk_spWrite h _ _ _ _
    · exact memOk_spPoke h _ _ _ _
    · exact memOk_spWrite h _ _ _ _
    · exact memOk_spPoke h _ _ _ _

theorem memOk_readSrc (n : Nat) (r : LRec) (e : SrcEl) : (s.readSrc n r e).2.2.memOk := by
  unfold readSrc
  split
  · exact h
  · exact memOk_readLoc h _ _ _ _

theorem memOk_sendStore (k l : Nat) : (s.sendStore k l).memOk := by
  unfold sendStore
  split <;> exact h

theorem memOk_commitEl (n tid i f v : Nat) (l : Option Loc) (fd : List (Nat × Nat)) (p : Bool) :
    (s.commitEl n tid i f v l fd p).1.memOk := by
  have h0 := fun a b c => memOk_foldSig h n a b c
  unfold commitEl
  dsimp only
  split
  · exact h0 _ _ _
  · split
    · exact h0 _ _ _
    · dsimp only; split
      · exact memOk_sendStore (memOk_writeLoc (h0 _ _ _) _ _ _ _ _ _) _ _
      · exact memOk_writeLoc (h0 _ _ _) _ _ _ _ _ _

theorem memOk_commitMark (n tid i f v : Nat) (l : Option Loc) (fd : List (Nat × Nat)) (p b : Bool) :
    ((s.commitEl n tid i f v l fd p).1.markCommitted n b).memOk := memOk_markCommitted (memOk_commitEl h _ _ _ _ _ _ _ _) n b

theorem memOk_putRaw (n : Nat) (c : Bool) (k : Option Nat × Nat) (b : Byte) : (s.putRaw n c k b).memOk := by
  unfold putRaw
  split
  · exact ⟨memPut_wf _ _ _ h.1, h.2⟩
  · split
    · exact h
    · exact h.setGal _ _ ⟨memPut_wf _ _ _ (h.gal _).1, (h.gal _).2⟩

theorem memOk_spoilKeys (n : Nat) (c : Bool) (ks : List (Option Nat × Nat)) : (s.spoilKeys n c ks).memOk :=
  memOk_foldl _ (fun _ _ h => memOk_putRaw h _ _ _ _) _ _ h

theorem memOk_spoilLoc (n : Nat) (c : Bool) (f : Nat) (l : Loc) : (s.spoilLoc n c f l).memOk :=
  memOk_foldl _ (fun _ _ h => memOk_putRaw h _ _ _ _) _ _ h

theorem memOk_spoilRest (n : Nat) (c : CopyCmd) (i : Nat) : (s.spoilRest n c i).memOk := by
  refine memOk_foldl _ (fun t j h => ?_) _ _ h
  split
  · exact memOk_spoilLoc h _ _ _ _
  · exact h

theorem memOk_endGated (n : Nat) (c : CopyCmd) (a : List SrcEl) (d : List (Option Loc)) (fd : List (Nat × Nat)) (b : Nat) :
    (s.endGated n c a d fd b).memOk := memOk_popGate (memOk_arrive (memOk_spoilKeys h _ _ _) _ _ _) _

theorem memOk_touchSrc (n : Nat) (c : CopyCmd) (a : List SrcEl) : (s.touchSrc n c a).memOk :=
  memOk_foldl _ (fun _ _ h => memOk_readSrc h _ _ _) _ _ h

theorem memOk_tearZ (n : Nat) (c : CopyCmd) (d : List (Option Loc)) (fd : List (Nat × Nat)) (i : Nat) :
    (s.tearZ n c d fd i).memOk := by
  unfold tearZ
  dsimp only
  split
  · exact memOk_commitMark h _ _ _ _ _ _ _ _ _
  · split
    · split
      · exact h
      · exact memOk_spoilLoc h _ _ _ _
    · exact h

theorem memOk_commitZ (n : Nat) (c : CopyCmd) (q : BitVec 2) (a : List SrcEl) (d : List (Option Loc)) (fd : List (Nat × Nat))
    (k : Nat) : (s.commitZ n c q a d fd k).memOk := by
  have h0 : (if k = 0 then s.touchSrc n c a else s).memOk := by
    split
    · exact memOk_touchSrc h _ _ _
    · exact h
  unfold commitZ
  dsimp only
  generalize (if k = 0 then s.touchSrc n c a else s) = t at h0 ⊢
  generalize (if (c.torn.isNone && (decide (gateNnz c d < (t.cpyzWrites n c a (gateNnz c d)).fst) || t.sourceChanged n c a)) = true
    then ({ c with torn := some k } : CopyCmd) else c) = c'
  have go (u : State) (hu : u.memOk) (p : Prop) [Decidable p] (b : Nat) :
      (if p then u.setHead n (.cmd c' q a d fd (k + 1)) else u.endGated n c' a d fd b).memOk := by
    split
    · exact memOk_setHead hu _ _
    · exact memOk_endGated hu _ _ _ _ _ _
  split
  · exact go _ (memOk_tearZ h0 _ _ _ _ _) _ _
  · split
    · exact memOk_endGated h0 _ _ _ _ _ _
    · exact go _ (memOk_commitMark (memOk_notePois h0 _ _) _ _ _ _ _ _ _ _ _) _ _

theorem memOk_commitCmd (n : Nat) (c : CopyCmd) (q : BitVec 2) (a : List SrcEl) (d : List (Option Loc)) (fd : List (Nat × Nat))
    (k : Nat) : (s.commitCmd n c q a d fd k).memOk := by
  unfold commitCmd
  dsimp only
  have hr := memOk_readSrc h n c.src (a.getD k .fill)
  generalize s.readSrc n c.src (a.getD k .fill) = r at hr ⊢
  obtain ⟨v, p, s0⟩ := r
  generalize s.gatedVal n c (a.getD k .fill) k v p = w
  obtain ⟨v', p'⟩ := w
  have hp := memOk_notePois hr n p'
  dsimp only
  split
  · exact memOk_setHead (memOk_commitMark hp _ _ _ _ _ _ _ _ _) _ _
  · exact memOk_endGated (memOk_commitMark hp _ _ _ _ _ _ _ _ _) _ _ _ _ _ _

theorem memOk_commitOne (n : Nat) : (s.commitOne n).memOk := by
  unfold commitOne
  split
  · exact h
  · have h0 := fun a b c => memOk_foldSig h n a b c
    dsimp only
    split
    · exact h0 _ _ _
    · exact memOk_popGate (memOk_markCommitted (memOk_sendStore (memOk_writeM (h0 _ _ _) _ _ _) _ _) _ _) _
  · rename_i c0 q srcs dsts failed done tail hg
    generalize (if done = 0 then s.startGated n c0 srcs dsts else c0) = c
    dsimp only
    split
    · exact memOk_commitZ h _ _ _ _ _ _ _
    · exact memOk_commitCmd h _ _ _ _ _ _ _
  · split
    · exact h
    · dsimp only
      split
      · exact memOk_setHead (memOk_commitMark h _ _ _ _ _ _ _ _ _) _ _
      · exact memOk_popGate (memOk_commitMark h _ _ _ _ _ _ _ _ _) _

theorem memOk_commitAll (n : Nat) : (s.commitAll n).memOk := memOk_foldl _ (fun _ _ h => memOk_commitOne h n) _ _ h

theorem memOk_finishSlab (n : Nat) : (s.finishSlab n).memOk := memOk_foldl _ (fun _ _ h => memOk_commitOne h n) _ _ h

/-! ### Copies that write at once -/

theorem memOk_setCpq (n : Nat) (q : BitVec 2) (l : List CpEntry) : (s.setCpq n q l).memOk := h
theorem memOk_popCpq (n : Nat) (q : BitVec 2) : (s.popCpq n q).memOk := h
theorem memOk_popCpyp (n : Nat) (q : BitVec 2) : (s.popCpyp n q).memOk := h
theorem memOk_send (c : BitVec 13) (b : PacketBody) : (s.send c b).memOk := h
theorem memOk_refuse (n c b : Nat) : (s.refuse n c b).memOk := h
theorem memOk_grantErr (a b c d : Nat) : (s.grantErr a b c d).memOk := h

theorem memOk_putPres (n pres i total : Nat) (p : Bool) : (s.putPres n pres i total p).memOk := by
  unfold putPres
  split
  · exact h
  · exact memOk_spWrite h _ _ _ _

theorem memOk_putBits (g off : Nat) (b : Byte × Byte) (p : Bool) : (s.putBits g off b p).memOk := by
  unfold putBits; dsimp only; split <;> exact memOk_spPoke h _ _ _ _

omit h in
theorem memOk_takeBits (src g : Nat) (p : Bool) (l : List (Byte × Byte)) :
    ∀ (s : State) (off : Nat), s.memOk → (s.takeBits src g off p l).1.memOk := by
  induction l with
  | nil => exact fun _ _ h => h
  | cons b r ih =>
    intro s off h
    unfold takeBits
    split
    · exact ih _ _ (memOk_putBits h _ _ _ _)
    · exact h

theorem memOk_deliverArrive (src g off n : Nat) : ∀ t, s.deliverArrive src g off n = some t → t.memOk := by
  unfold deliverArrive
  split
  · intro t e; cases e; exact memOk_spPoke h _ _ _ _
  · exact fun t e => nomatch e

theorem memOk_peerWrite (n : Nat) (c : CopyCmd) (q : BitVec 2) (off : Nat) (l : List (Byte × Byte)) (p : Bool) :
    (s.peerWrite n c q off l p).1.memOk := by
  unfold peerWrite
  split
  · exact memOk_takeBits _ _ _ _ _ _ h
  · exact h

theorem memOk_noteRec (n : Nat) (r : LRec) : (s.noteRec n r).memOk := by
  unfold noteRec; split
  · exact memOk_noteTid h _ _
  · exact h

omit h in
/-- However an element ends, or a run of them, the memories are in canonical form. -/
def EndsOk (r : Except (State × Bool) State) : Prop := (∀ t b, r = .error (t, b) → t.memOk) ∧ ∀ t, r = .ok t → t.memOk

omit h in
theorem EndsOk.error {t : State} {b : Bool} (h : t.memOk) : EndsOk (.error (t, b)) :=
  ⟨fun _ _ e => by cases e; exact h, fun _ e => nomatch e⟩
omit h in
theorem EndsOk.ok {t : State} (h : t.memOk) : EndsOk (.ok t) := ⟨fun _ _ e => (nomatch e), fun _ e => by cases e; exact h⟩

theorem endsOk_copyElem (n : Nat) (c : CopyCmd) (q : BitVec 2) (i : Nat) : EndsOk (s.copyElem n c q i) := by
  unfold copyElem
  dsimp only
  split
  · exact .error h
  · rename_i e p _
    have hr := memOk_readSrc h n c.src e
    generalize s.readSrc n c.src e = r at hr ⊢
    obtain ⟨now, dirty, s1⟩ := r
    dsimp only at hr ⊢
    have h1 := memOk_notePois hr n ((c.seen[i]?).getD (now, dirty)).2
    generalize s1.notePois n ((c.seen[i]?).getD (now, dirty)).2 = s2 at h1 ⊢
    split
    · split
      · exact .error h1
      · split
        · exact .error h1
        · split
          · exact .error h1
          · split
            · rename_i s3 g hw
              have h3 := memOk_peerWrite h1 n c q (recOff c.dst (c.dstCoord i)).1
                (elemBits (LRec.fmt c.dst) (recOff c.dst (c.dstCoord i)).2 ((c.seen[i]?).getD (now, dirty)).1)
                ((c.seen[i]?).getD (now, dirty)).2
              rw [hw] at h3; exact .error h3
            · rename_i s3 hw
              have h3 := memOk_peerWrite h1 n c q (recOff c.dst (c.dstCoord i)).1
                (elemBits (LRec.fmt c.dst) (recOff c.dst (c.dstCoord i)).2 ((c.seen[i]?).getD (now, dirty)).1)
                ((c.seen[i]?).getD (now, dirty)).2
              rw [hw] at h3
              split
              · exact .ok h3
              · have h4 := memOk_peerWrite h3 n c q (Blk.pres c.blk + i / 8) [presBits i c.n p] false
                split
                · rename_i hw4; rw [hw4] at h4; exact .error h4
                · rename_i hw4; rw [hw4] at h4; exact .ok h4
    · split
      · exact .error h1
      · exact .ok (memOk_putPres h1 _ _ _ _ _)
      · exact .ok (memOk_putPres (memOk_writeLoc h1 _ _ _ _ _ _) _ _ _ _ _)

omit h in
theorem endsOk_copyRun (n : Nat) (c : CopyCmd) (q : BitVec 2) (k : Nat) :
    ∀ (s : State) (i : Nat), s.memOk → EndsOk (s.copyRun n c q i k) := by
  induction k with
  | zero => exact fun s i h => .ok h
  | succ k ih =>
    intro s i h
    have he := endsOk_copyElem h n c q i
    unfold copyRun
    split
    · rename_i t b ht
      have := he.1 t b ht
      split
      · exact .error this
      · exact .error (memOk_spoilRest this _ _ _)
    · rename_i t ht; exact ih _ _ (he.2 t ht)

theorem memOk_endCpyp (n : Nat) (c : CopyCmd) (q : BitVec 2) : (s.endCpyp n c q).memOk := by
  unfold endCpyp
  split
  · exact memOk_foldSig (memOk_foldSig (s := (s.popCpyp n q).popCpyp _ q) h _ _ _ _) _ _ _ _
  · exact h

theorem memOk_lastCpyp (n : Nat) (c : CopyCmd) (q : BitVec 2) : (s.lastCpyp n c q).memOk := by
  unfold lastCpyp
  dsimp only
  split
  · split
    · exact memOk_endCpyp h _ _ _
    · split
      · rename_i hd; exact memOk_endCpyp (memOk_deliverArrive h _ _ _ _ _ hd) _ _ _
      · exact memOk_endCpyp (s := (s.refuse _ _ _).grantErr _ _ _ _) h _ _ _
  · exact h

theorem memOk_copyNonGated (n : Nat) (c : CopyCmd) (q : BitVec 2) (a k : Nat) : (s.copyNonGated n c q a k).memOk := by
  unfold copyNonGated
  split
  · exact h
  · dsimp only
    generalize (if a = 0 then s.startCopy n c else c) = c
    have h0 := memOk_noteRec h n c.src
    generalize s.noteRec n c.src = s0 at h0 ⊢
    generalize hs : (if (decide (c.kind = .cpyp) && decide (a = 0)) = true then _ else s0) = s1
    have h1 : s1.memOk := by
      rw [← hs]; split <;> exact h0
    have hr := endsOk_copyRun n c q (min (slabLeft c.src.fmt a k) (c.n - a)) s1 a h1
    split
    · rename_i t b ht
      have := hr.1 t b ht
      split
      · exact memOk_endCpyp this _ _ _
      · exact this
    · rename_i t ht
      have := hr.2 t ht
      split
      · exact this
      · generalize hu : (if c.seen.isEmpty = true then t else _) = u
        have h2 : u.memOk := by
          rw [← hu]; split
          · exact this
          · exact memOk_spoilKeys this _ _ _
        split
        · exact memOk_lastCpyp h2 _ _ _
        · exact memOk_popCpq (memOk_arrive h2 _ _ _) _ _

theorem memOk_endSlab (n : Nat) (q : BitVec 2) : (s.endSlab n q).memOk := by
  unfold endSlab
  split
  · split
    · exact memOk_copyNonGated h _ _ _ _ _
    · exact h
  · exact h

theorem memOk_endSlabs (n : Nat) : (s.endSlabs n).memOk :=
  memOk_finishSlab (memOk_foldl _ (fun _ _ h => memOk_endSlab h n _) _ _ h) n

/-! ### Rollback, abort, exceptions -/

theorem memOk_releaseSlots (n : Nat) : (s.releaseSlots n).memOk := by unfold releaseSlots; dsimp only; split <;> exact h

theorem memOk_rollback (n : Nat) : (s.rollback n).memOk := memOk_releaseSlots (memOk_undoSlots h _ _) n

theorem memOk_withdraw (n : Nat) : (s.withdraw n).memOk :=
  h.setGal (n / 32) { s.gal (n / 32) with barg := _ } (h.gal (n / 32))

theorem memOk_haltLaunch (n c : Nat) : (s.haltLaunch n c).memOk := by unfold haltLaunch; split <;> exact h

theorem memOk_abortOne (n c : Nat) (d : Bool) (items : List Nat) : (s.abortOne n c d items).memOk := by
  have h0 := memOk_endSlabs h n
  unfold abortOne
  generalize s.endSlabs n = t at h0 ⊢
  have h2 := memOk_haltLaunch (memOk_traceSh (memOk_releaseSlots (memOk_withdraw (memOk_undoSlots h0 n 0) n) n) n 0x03 0
    ((if (match (t.sh n).task with | some t => t.committed | none => false) then 1 else 0) + (if d then 2 else 0)) (c :: items)) n c
  exact memOk_leave (s := State.modSh _ n _) h2 _ _ _

theorem memOk_abortTask (n c : Nat) (d : Bool) (items : List Nat) : (s.abortTask n c d items).memOk := by
  unfold abortTask
  split
  · exact memOk_abortOne h _ _ _ _
  · split
    · exact memOk_abortOne (memOk_abortOne h _ _ _ _) _ _ _ _
    · exact memOk_abortOne h _ _ _ _

theorem memOk_deliverTrap (n : Nat) (r : TrapRec) : (s.deliverTrap n r).memOk := by
  unfold deliverTrap
  dsimp only
  split
  · exact memOk_abortTask h _ _ _ _
  · split
    · exact memOk_abortTask h _ _ _ _
    · exact memOk_wake (memOk_traceSh (s := s.modSh n _) h _ _ _ _ _) _

theorem memOk_memoryTrap (n : Nat) (r : TrapRec) : (s.memoryTrap n r).memOk := by
  unfold memoryTrap; split
  · exact memOk_abortTask h _ _ _ _
  · split
    · exact memOk_abortTask h _ _ _ _
    · exact memOk_deliverTrap (memOk_rollback h n) _ _

theorem memOk_setSig (n : Nat) (v : Option Word64) : (s.setSig n v).memOk := by unfold setSig; split <;> exact h

theorem memOk_takeShadow (n : Nat) (x : Addr) (b : Nat) : (s.takeShadow n x b).memOk := memOk_releaseSlots h n

theorem memOk_endCommit (n b : Nat) (v : Option Word64) : (s.endCommit n b v).memOk :=
  memOk_takeShadow (memOk_boundaryQueues (memOk_setSig h n v) n) n _ b

theorem memOk_takePending (n : Nat) : (s.takePending n).memOk := by
  unfold takePending
  split
  · exact h
  · split
    · exact memOk_deliverTrap (s := s.modSh n _) h _ _
    · exact h

omit h in
/-- With no trap pending there is none to take. -/
theorem takePending_of_none (s : State) (n : Nat) (h : (s.sh n).trapPend = none) : s.takePending n = s := by
  simp [takePending, h]

theorem memOk_takeMemTrap (n : Nat) : (s.takeMemTrap n).memOk := by
  unfold takeMemTrap
  split
  · exact memOk_takePending h _
  · split
    · split
      · exact h
      · exact memOk_memoryTrap (memOk_endCommit h _ _ _) _ _
    · split
      · exact h
      · exact memOk_memoryTrap (memOk_setSig h _ _) _ _
    · exact memOk_memoryTrap h _ _

theorem memOk_returnTrap (n : Nat) (t : Addr) : (s.returnTrap n t).memOk := h

/-! ### The load-store queue -/

theorem memOk_perfLoad (n : Nat) (x : Addr) (d : R5) (a : Addr) (len : Nat) (sx : Bool) :
    (s.perfLoad n x d a len sx).memOk := by
  unfold perfLoad
  split
  · exact h
  · dsimp only; split
    · exact memOk_memFault (memOk_popLsq (memOk_noteFlat h n a) n) _ _
    · exact memOk_spRead h n _ len
    · exact memOk_noteFlat h n a

theorem memOk_perfStore (n : Nat) (x : Addr) (b : Nat) (a : Addr) (len : Nat) (d : Word64) :
    (s.perfStore n x b a len d).memOk := by
  unfold perfStore
  split
  · exact memOk_memFault (memOk_popLsq (memOk_noteFlat h n a) n) _ _
  · exact memOk_spWrite h n _ len _
  · split
    · exact h
    · exact memOk_noteFlat h n a

theorem memOk_perfReplay (n : Nat) (x : Addr) (d : R5) (a b : Word64) : (s.perfReplay n x d a b).memOk := by
  have hn := memOk_noteTid h n (s.sh n).k.rngtid.toNat
  unfold perfReplay
  dsimp only
  split
  · split
    · exact h
    · exact hn
  · exact memOk_memFault (memOk_popLsq hn n) _ _
  · exact memOk_memFault (memOk_popLsq hn n) _ _

/-! ### Commits and atomics -/

theorem memOk_commitBoundary (n : Nat) (x : Addr) (b : Nat) : (s.commitBoundary n x b).memOk :=
  memOk_takeShadow (memOk_boundaryQueues (memOk_commitAll h n) n) n x b

/-! ### The load-store queue to its end -/

theorem memOk_atomicStep (n : Nat) (x : Addr) (op : AOp) (a : Addr) (len : Nat) (b w : Word64) :
    (∀ t, s.atomicStep n x op a len b w = .error t → t.memOk) ∧ ∀ v t, s.atomicStep n x op a len b w = .ok (v, t) → t.memOk := by
  have hs := fun off => memOk_spRead h n off len
  unfold atomicStep
  dsimp only
  split
  · exact ⟨fun t e => by cases e; exact h, fun v t e => (nomatch e)⟩
  · split
    · exact ⟨fun t e => by cases e; exact hs _, fun v t e => (nomatch e)⟩
    · split
      · exact ⟨fun t e => (nomatch e), fun v t e => by cases e; exact memOk_spPokeOk (hs _) _ _ _ _⟩
      · exact ⟨fun t e => (nomatch e), fun v t e => by cases e; exact hs _⟩
  · split
    · exact ⟨fun t e => by cases e; exact h, fun v t e => (nomatch e)⟩
    · split
      · exact ⟨fun t e => (nomatch e), fun v t e => by cases e; exact memOk_writeM h _ _ _⟩
      · exact ⟨fun t e => (nomatch e), fun v t e => by cases e; exact h⟩

theorem memOk_dropGate (n : Nat) : (s.dropGate n).memOk := h

theorem memOk_perfAtomic (n : Nat) (e : LsqEntry) (op : AOp) (d : R5) (a : Addr) (len : Nat) (b w : Word64) (ord : BitVec 2)
    (tw : Option Nat) : (s.perfAtomic n e op d a len b w ord tw).memOk := by
  unfold perfAtomic
  split
  · exact h
  · split
    · exact memOk_commitOne h n
    · dsimp only
      generalize hs : (if ord.toNat < 2 then s else _) = s0
      have h0 : s0.memOk := by
        rw [← hs]; split
        · exact h
        · split <;> exact h
      have ha := memOk_atomicStep h0 n e.x op a len b w
      split
      · rename_i t he; exact memOk_popLsq (memOk_noteFlat (ha.1 t he) n a) n
      · rename_i old t he
        have h3 := memOk_foldSig (memOk_arriveG (memOk_popLsq (memOk_noteFlat (ha.2 old t he) n a) n) n d old false) n a 0 b
        split
        · exact h3
        · exact memOk_foldSig (memOk_arriveG (memOk_popLsq h3 _) _ _ _ _) _ _ _ _

theorem memOk_assayMiss (n : Nat) : (s.assayMiss n).memOk := h

theorem memOk_perfLsq (n : Nat) : (s.perfLsq n).memOk := by
  unfold perfLsq
  split
  · exact h
  · split
    · exact h
    · split
      · exact memOk_perfLoad h _ _ _ _ _ _
      · exact memOk_perfStore h _ _ _ _ _ _
      · exact memOk_perfReplay h _ _ _ _ _
      · split
        · exact h
        · exact memOk_perfAtomic h _ _ _ _ _ _ _ _ _ _
        · split
          · exact memOk_perfAtomic h _ _ _ _ _ _ _ _ _ _
          · exact memOk_assayMiss h _

theorem memOk_completeLsq (n : Nat) : (s.completeLsq n).memOk := memOk_foldl _ (fun _ _ h => memOk_perfLsq h n) _ _ h

/-! ### Raising -/

theorem memOk_enterTrap (n : Nat) (r : TrapRec) : (s.enterTrap n r).memOk := by
  have hl := memOk_completeLsq (memOk_landAll h n) n
  unfold enterTrap
  split
  · exact memOk_memoryTrap h _ _
  · dsimp only
    split
    · exact memOk_memoryTrap hl _ _
    · split
      · exact memOk_deliverTrap hl _ _
      · exact hl

theorem memOk_raise (r : TrapRec) (e : Bool) : (s.raise r e).memOk := memOk_enterTrap h _ _
theorem memOk_trapAt (c : Cause) (i : Word64) : (s.trapAt c i).memOk := memOk_raise h _ _
theorem memOk_illegalAt (c : Illegal) : (s.illegalAt c).memOk := memOk_raise h _ _
theorem memOk_privAt (c : Nat) : (s.privAt c).memOk := memOk_raise h _ _
theorem memOk_uceAt : s.uceAt.memOk := memOk_raise h _ _
theorem memOk_mxTrap (f : BitVec 10 × Addr × Illegal) : (s.mxTrap f).memOk := memOk_raise (s := s.modSh _ _) h _ _
theorem memOk_goAhead (n b : Nat) : (s.goAhead n b).memOk := by unfold goAhead; split <;> exact h
theorem memOk_clearReport (n : Nat) (c : Cause) : (s.clearReport n c).memOk := h

end MemOk

/-! ### The wrappers of a meaning -/

/-- What an outcome's next state holds: memories in canonical form. -/
def KeepsMem (o : Out) : Prop := ∀ t, o = .next t → t.memOk

theorem KeepsMem.next {t : State} (h : t.memOk) : KeepsMem (.next t) := fun _ e => by cases e; exact h
theorem KeepsMem.fault (f : Fault) : KeepsMem (.fault f) := fun _ e => by cases e
theorem KeepsMem.refused (r : Refusal) : KeepsMem (.refused r) := fun _ e => by cases e

section Wrappers
variable {s : State} (h : s.memOk)
include h

theorem keepsMem_usesG (rs : List R5) {k : Out} (hk : KeepsMem k) : KeepsMem (s.usesG rs k) := by
  unfold usesG; split
  · exact .next (memOk_uceAt h)
  · exact hk

theorem keepsMem_stall : KeepsMem s.stall := .next h

theorem keepsMem_lsFirst {k : State → Out} (hk : ∀ t, t.memOk → KeepsMem (k t)) : KeepsMem (s.lsFirst k) := by
  have hl := memOk_completeLsq h s.cur.shift
  unfold lsFirst
  dsimp only
  split
  · exact .next h
  · split
    · exact .next (memOk_takeMemTrap hl _)
    · split
      · exact hk _ hl
      · exact .next h

theorem keepsMem_lsOrdered {k : State → Out} (hk : ∀ t, t.memOk → KeepsMem (k t)) : KeepsMem (s.lsOrdered k) := by
  have hl := memOk_completeLsq h s.cur.shift
  unfold lsOrdered
  dsimp only
  split
  · exact .next (memOk_takeMemTrap hl _)
  · split
    · exact hk _ hl
    · exact .next h

theorem keepsMem_atBoundary (rep ret cp : Bool) {k : State → Out} (hk : ∀ t, t.memOk → KeepsMem (k t)) :
    KeepsMem (s.atBoundary rep ret cp k) := by
  unfold atBoundary
  split
  · exact hk s h
  · have hl : (s.landAll s.cur.shift).memOk := h
    dsimp only
    split
    · exact .next (memOk_blockAt hl _)
    · split
      · exact .next (memOk_mxTrap hl _)
      · split
        · exact .next (memOk_raise (s := (s.landAll s.cur.shift).clearReport s.cur.shift _) h _ _)
        · exact hk _ (memOk_withCur _ _ (memOk_commitBoundary hl _ _ _))

theorem keepsMem_reg1 (d a : R5) (lat : Nat) (f : Word64 → Word64) : KeepsMem (s.reg1 d a lat f) :=
  keepsMem_usesG h _ (.next (memOk_wrG h _ _ _))
theorem keepsMem_reg2 (d a b : R5) (lat : Nat) (f : Word64 → Word64 → Word64) : KeepsMem (s.reg2 d a b lat f) :=
  keepsMem_usesG h _ (.next (memOk_wrG h _ _ _))
theorem keepsMem_reg3 (d a b c : R5) (lat : Nat) (f : Word64 → Word64 → Word64 → Word64) : KeepsMem (s.reg3 d a b c lat f) :=
  keepsMem_usesG h _ (.next (memOk_wrG h _ _ _))
theorem memOk_regF (d : R5) (lat : Nat) (r : Word64 × Flags) : (s.regF d lat r).memOk := memOk_wrFlags (memOk_wrG h _ _ _) _ _

end Wrappers

end Sys2Proof.Machine.State
end

