-- ==== Sys2Proof/Tests/Slice0.lean ====
section
/-! SUPPORT. The model's own tests: words of the opcode table decode to their instructions, ill-formed terms are refused,
every statement with hypotheses has a state and operands that meet them, and single steps give what the manual's rules give. -/

namespace Sys2Proof.Tests

-- one theorem at a time: each evaluates a step in the kernel
set_option Elab.async false

open Sys2Proof.Machine


/-! ### Decoding: for every instruction with an encoding, a word written out from its fields in spec/opcode_table.json
(`.d` 9, `.a` 10, `.b` 11, `.c` 12 and so on, cut to the fields' widths) decodes to the instruction. -/

/-- Words, each with its extension payload and the instruction it stands for, decode so, and are what the encoder gives it. -/
def decodes (l : List (Word × Option (BitVec 27) × Instr)) : Bool := l.all fun p => decide (decodeSlot p.1 p.2.1 = some p.2.2) && decide ((encode false false p.2.2)[0]? = some p.1)

theorem test_decode_scalar : decodes (
  [(0x0004A960, none, .add 9 10 11), (0x0014A960, none, .sub 9 10 11), (0x0024A960, none, .and 9 10 11),
    (0x0034A960, none, .or 9 10 11), (0x0044A960, none, .xor 9 10 11), (0x0054A960, none, .andn 9 10 11),
    (0x0064A960, none, .sll 9 10 11), (0x0074A960, none, .srl 9 10 11), (0x0084A960, none, .sra 9 10 11),
    (0x0094A960, none, .rol 9 10 11), (0x00A4A960, none, .ror 9 10 11), (0x00B4A960, none, .mul 9 10 11),
    (0x00C4A960, none, .mulh 9 10 11), (0x00D4A960, none, .mulhu 9 10 11)] ++ [(0x00E4A960, none, .div 9 10 11),
    (0x00F4A960, none, .divu 9 10 11), (0x0104A960, none, .rem 9 10 11), (0x0114A960, none, .remu 9 10 11),
    (0x0124A960, none, .min 9 10 11), (0x0134A960, none, .max 9 10 11), (0x0144A960, none, .minu 9 10 11),
    (0x0154A960, none, .maxu 9 10 11), (0x0164A960, none, .slt 9 10 11), (0x0174A960, none, .sltu 9 10 11),
    (0x0184A960, none, .seq 9 10 11), (0x0194A960, none, .sne 9 10 11), (0x01A4A800, none, .clz 9 10),
    (0x01B4A800, none, .ctz 9 10)] ++ [(0x01C4A800, none, .popc 9 10), (0x01D4A960, none, .bext 9 10 11),
    (0x01E4A960, none, .bdep 9 10 11), (0x01F4A96C, none, .fshl 9 10 11 12), (0x0204A96C, none, .fshr 9 10 11 12),
    (0x0214A96C, (some 0x96), .lut3 9 10 11 12 0x96), (0x0224A960, none, .sel 9 10 11),
    (0x0234A960, none, .bset 9 10 11), (0x0244A960, none, .bclr 9 10 11), (0x0254A960, none, .btst 9 10 11)]) = true := by decide +kernel

theorem test_decode_scalar_imm : decodes (
  [(0x0804A955, none, .addi 9 10 341 none), (0x0804A955, (some 0x1234567), .addi 9 10 341 (some 0x1234567)),
    (0x0814A955, none, .andi 9 10 341 none), (0x0824A955, none, .ori 9 10 341 none),
    (0x0834A955, none, .xori 9 10 341 none), (0x0844A955, none, .slli 9 10 341 none),
    (0x0854A955, none, .srli 9 10 341 none), (0x0864A955, none, .srai 9 10 341 none),
    (0x0874A955, none, .rori 9 10 341 none), (0x0884A955, none, .muli 9 10 341 none),
    (0x0894A955, none, .slti 9 10 341 none), (0x08A4A955, none, .sltui 9 10 341 none), (0x08A4A955,
    (some 0x1234567), .sltui 9 10 341 (some 0x1234567)),
    (0x08B4A955, none, .seqi 9 10 341 none)] ++ [(0x08C48155, none, .li 9 341 none), (0x08C48155,
    (some 0x1234567), .li 9 341 (some 0x1234567)), (0x08D4A955, none, .bseti 9 10 341 none),
    (0x08E4A955, none, .bclri 9 10 341 none), (0x08F4A955, none, .btsti 9 10 341 none),
    (0x0904A955, none, .mini 9 10 341 none), (0x0914A955, none, .maxi 9 10 341 none)]) = true := by decide +kernel

theorem test_decode_scalar_fp : decodes (
  [(0x1004A961, none, .fadd 9 10 11 1), (0x1014A961, none, .fsub 9 10 11 1), (0x1024A961, none, .fmul 9 10 11 1),
    (0x1034A961, none, .fma 9 10 11 1), (0x1044A960, none, .fmin 9 10 11), (0x1054A960, none, .fmax 9 10 11),
    (0x1064A960, none, .fcmpeq 9 10 11), (0x1074A960, none, .fcmplt 9 10 11), (0x1084A960, none, .fcmple 9 10 11),
    (0x1094A801, none, .fcvti 9 10 1), (0x10A4A801, none, .fcvtf 9 10 1), (0x10B4A961, none, .fdiv 9 10 11 1),
    (0x10C4A801, none, .fsqrt 9 10 1)]) = true := by decide +kernel

theorem test_decode_control : decodes (
  [(0x18000005, none, .br 5), (0x18148005, none, .jal 9 5), (0x1824A955, none, .jalr 9 10 341),
    (0x1836A805, none, .loop 37 5 10), (0x184680A5, none, .loopi 37 5 5), (0x1856A825, none, .loopr 37 5 10 1),
    (0x1862A800, none, .itsetBase 5 10), (0x1862A80D, none, .itsetStr 5 10 5), (0x18701405, none, .itrev 5 5),
    (0x18849405, none, .itget 9 5 5), (0x18901400, none, .lbrk 5), (0x18A49400, none, .lcnt 9 5)]) = true := by decide +kernel

theorem test_decode_load_store : decodes (
  [(0x2004A955, none, .ldb 9 10 341 none), (0x2014A955, none, .ldh 9 10 341 none),
    (0x2024A955, none, .ldw 9 10 341 none), (0x2024A955, (some 0x1234567), .ldw 9 10 341 (some 0x1234567)),
    (0x2034A955, none, .ldd 9 10 341 none), (0x2044A955, none, .ldbx 9 10 341 none),
    (0x2054A955, none, .ldhx 9 10 341 none), (0x2064A955, none, .ldwx 9 10 341 none),
    (0x2074A955, none, .stb 9 10 341 none), (0x2084A955, none, .sth 9 10 341 none),
    (0x2094A955, none, .stw 9 10 341 none), (0x20A4A955, none, .std 9 10 341 none),
    (0x20B4A955, none, .sld 9 10 341 none), (0x20C4A955, none, .sst 9 10 341 none)] ++ [(0x20C4A955,
    (some 0x1234567), .sst 9 10 341 (some 0x1234567)), (0x20D4A969, none, .aadd 9 10 11 1 1),
    (0x20E4A969, none, .amin 9 10 11 1 1), (0x20F4A969, none, .aminu 9 10 11 1 1),
    (0x2104A969, none, .amax 9 10 11 1 1), (0x2114A969, none, .amaxu 9 10 11 1 1),
    (0x2124A969, none, .aand 9 10 11 1 1), (0x2134A969, none, .aor 9 10 11 1 1), (0x2144A969, none, .axor 9 10 11 1 1),
    (0x2154A969, none, .aswp 9 10 11 1 1), (0x2164A96D, none, .acas 9 10 11 1 2 1)]) = true := by decide +kernel

theorem test_decode_vector_int : decodes (
  [(0x2804A96E, none, .vadd 9 10 11 1 6), (0x2814A96E, none, .vsub 9 10 11 1 6), (0x2824A96E, none, .vmul 9 10 11 1 6),
    (0x2834A96E, none, .vmulh 9 10 11 1 6), (0x2844A96E, none, .vand 9 10 11 1 6),
    (0x2854A96E, none, .vor 9 10 11 1 6), (0x2864A96E, none, .vxor 9 10 11 1 6), (0x2874A96E, none, .vsll 9 10 11 1 6),
    (0x2884A96E, none, .vsrl 9 10 11 1 6), (0x2894A96E, none, .vsra 9 10 11 1 6),
    (0x28A4A96E, none, .vmin 9 10 11 1 6), (0x28B4A96E, none, .vmax 9 10 11 1 6),
    (0x28C4A96E, none, .vcmpeq 9 10 11 1 6),
    (0x28D4A96E, none, .vcmplt 9 10 11 1 6)] ++ [(0x28E4A96E, none, .vcmple 9 10 11 1 6),
    (0x28F4A96E, none, .vsel 9 10 11 1 6), (0x2904A96E, (some 0x96), .vlut3 9 10 11 1 6 0x96),
    (0x2914A96E, none, .vfshl 9 10 11 1 6), (0x2924A806, none, .vpopc 9 10 6), (0x2934A806, none, .vclz 9 10 6),
    (0x2944A826, none, .vredadd 9 10 1 6), (0x2954A826, none, .vredmax 9 10 1 6),
    (0x2964A826, none, .vredmin 9 10 1 6), (0x2974A97E, none, .vsplat 9 10 11 1 6),
    (0x2984A96E, none, .vmov 9 10 11 1 6), (0x2994A966, none, .vdot8 9 10 11 6)]) = true := by decide +kernel

theorem test_decode_vector_fp : decodes (
  [(0x3004A96E, none, .vfadd 9 10 11 1 6), (0x3014A96E, none, .vfsub 9 10 11 1 6),
    (0x3024A96E, none, .vfmul 9 10 11 1 6), (0x3034A96E, none, .vfma 9 10 11 1 6),
    (0x3044A96E, none, .vfmax 9 10 11 1 6), (0x3054A96E, none, .vfmin 9 10 11 1 6),
    (0x3064A96E, none, .vfcmpeq 9 10 11 1 6), (0x3074A96E, none, .vfcmplt 9 10 11 1 6),
    (0x3084A96E, none, .vfcmple 9 10 11 1 6), (0x3094A800,
    (some (0xA5 * 4096 + 4 * 512 + 3 * 64 + 2 * 8 + 1)), .vcvt 9 10 1 2 3 4 165),
    (0x30A4A826, none, .vfredsum 9 10 1 6), (0x30B4A826, none, .vfredmax 9 10 1 6), (0x30C4A806, none, .vexp2 9 10 6),
    (0x30D4A806, none, .vlog2 9 10 6)] ++ [(0x30E4A806, none, .vrcp 9 10 6), (0x30F4A806, none, .vrsq 9 10 6),
    (0x3104A806, none, .vsint 9 10 6), (0x3114A806, none, .vcost 9 10 6), (0x3124A806, none, .vtanh 9 10 6),
    (0x3134A97E, none, .rngk 9 10 11 1 6), (0x3144A97E, none, .gumb 9 10 11 1 6), (0x3154A8AE, none, .topk 9 10 5 1 6),
    (0x3164A96E, none, .vscale 9 10 11 1 6), (0x3174A806, none, .vfabs 9 10 6), (0x3184A806, none, .vfneg 9 10 6)]) = true := by decide +kernel

theorem test_decode_map_perm : decodes (
  [(0x3804A800, none, .cmset 9 10), (0x3814A800, none, .cmget 9 10), (0x3824A960, none, .cmslc 9 10 11),
    (0x3834A800, none, .cmtrn 9 10), (0x3844A801, none, .cmrev 9 10 1), (0x3854A800, none, .cmcpy 9 10),
    (0x38648000, none, .cmclr 9), (0x3874A961, none, .vcrd 9 10 11 1), (0x3884A96E, none, .vrope 9 10 11 1 6),
    (0x3894A966, none, .vshuf 9 10 11 6), (0x38A4A97E, none, .vrot 9 10 11 1 6), (0x38B4A960, none, .cmtst 9 10 11),
    (0x38C4A976, none, .vshfl 9 10 11 6)]) = true := by decide +kernel

theorem test_decode_scratchpad : decodes (
  [(0x40049560, none, .vld 9 5 11), (0x40149560, none, .vst 9 5 11), (0x40249560, none, .vldc 9 5 11),
    (0x40349560, none, .vstc 9 5 11), (0x4044956C, none, .vgath 9 5 11 12), (0x4054956C, none, .vscat 9 5 11 12),
    (0x4064A966, none, .vcomp 9 10 11 6), (0x4072A960, none, .rgld 5 10 11), (0x4084A800, none, .tagq 9 10),
    (0x40902960, none, .tagset 10 11), (0x40A02800, none, .tagclr 10), (0x40B02961, none, .guardSet 10 11),
    (0x40B02960, none, .guardClr 10 11)]) = true := by decide +kernel

theorem test_decode_matrix : decodes (
  [(0x48000155, none, .mcall 341), (0x4812A800, none, .mparm 5 10), (0x48228000, none, .mzero 5),
    (0x48328000, none, .mrel 5), (0x48429560, none, .mlda 5 5 11), (0x48529566, none, .msta 5 5 11 6),
    (0x48602960, none, .mwr 10 11), (0x4874A800, none, .mrd 9 10), (0x48802800, none, .mbgrp 10),
    (0x48900005, none, .mwait 5)]) = true := by decide +kernel

theorem test_decode_copy_claim : decodes (
  [(0x5000A96C, none, .cpy 1 10 11 12), (0x5010A96C, none, .cpyp 1 10 11 12), (0x5020A80C, none, .cpfill 1 10 12),
    (0x50300005, none, .cpqf 5), (0x5040A96C, none, .cpyz 1 10 11 12), (0x5054A960, none, .awset 9 10 11),
    (0x50648400, none, .cpst 9 1), (0x5074A960, none, .clapp 9 10 11), (0x5084A96C, none, .clshr 9 10 11 12),
    (0x5094A960, none, .seamtag 9 10 11), (0x50A4A961, none, .seamret 9 10 11 1),
    (0x50B4A96C, none, .hbudg 9 10 11 12)]) = true := by decide +kernel

theorem test_decode_front : decodes (
  [(0x5800A800, none, .fcfg 1 10), (0x5812A96C, none, .fins 1 1 10 11 12), (0x58208400, none, .fmerge 1 1),
    (0x58348400, none, .fread 9 1), (0x58448400, none, .fcnt 9 1), (0x58508000, none, .fclr 1),
    (0x58600560, none, .fsave 1 11), (0x58708160, none, .fload 1 11)]) = true := by decide +kernel

theorem test_decode_sync : decodes (
  [(0x60000000, none, .phase), (0x60148005, none, .fence 9 5), (0x60202960, none, .await 10 11),
    (0x60302801, none, .barg 10 1), (0x60402801, none, .bard 10 1), (0x6052A801, none, .enq 5 10 1),
    (0x60649400, none, .deq 9 5), (0x60700000, none, .retire), (0x60800000, none, .yield),
    (0x60902800, none, .sleept 10), (0x60A48000, none, .time 9)]) = true := by decide +kernel

theorem test_decode_system : decodes (
  [(0x68000005, none, .trap 5), (0x68100001, none, .eret 1), (0x6824800C, none, .csrr 9 12),
    (0x6835000C, none, .csrw 10 12), (0x6845000C, none, .csrs 10 12), (0x6855000C, none, .csrc 10 12),
    (0x68648000, none, .rngp 9), (0x68702960, none, .ipf 10 11), (0x68802960, none, .fmtt 10 11),
    (0x68800161, none, .fmttAll 11), (0x6890282B, none, .gset 10 21 1), (0x68A48000, none, .flagr 9),
    (0x68B00286, none, .flagc 5 6), (0x68C00000, none, .nop)] ++ [(0x68C00001, none, .nopBench)]) = true := by decide +kernel


/-! ### Well-formedness: for each check a term that it refuses, and the same term within its bounds -/

/-- Ill-formed terms: the selector of operand kind COORD (R36), VMOV's field A (R35), the selector of VCRD (R126), VCVT's
mode and part (R26), the pair of TOPK and VCOMP (R28), loop levels (R245), the sub-code of ACAS (R234), the mask of CPQF
(R87), the routine of MCALL (R196), the scope of FENCE (R233). -/
theorem test_ill_formed_terms_are_refused : ([.vadd 1 2 6 1 0, .vadd 1 2 9 1 0, .vfma 1 2 0x19 1 0, .vmov 1 2 3 0 0, .vmov 1 0 7 1 0,
    .vcrd 1 2 6 0, .vcrd 1 2 0x11 0, .vcvt 1 2 0 0 7 0 0, .vcvt 1 2 0 0 0 5 0, .topk 31 2 0 0 0, .vcomp 31 2 3 0, .loop 5 6 1,
    .loopi 5 7 1, .loopr 5 6 1 0, .itsetStr 3 1 6, .lbrk 6, .lcnt 1 7, .acas 1 2 3 0 2 0, .cpqf 0, .mcall 64, .fence 1 6] :
    List Instr).all (fun i => wellFormed i = false) = true := by decide

theorem test_well_formed_terms_pass : ([.vadd 1 2 5 1 0, .vadd 1 2 8 1 0, .vadd 1 2 6 0 0, .vfma 1 2 0x18 1 0, .vmov 1 0 3 0 0,
    .vmov 1 2 8 1 0, .vcrd 1 2 5 0, .vcrd 1 2 0x10 0, .vcvt 1 2 0 0 6 4 0, .topk 30 2 0 0 0, .vcomp 30 2 3 0, .loop 5 5 1,
    .loopi 5 5 1, .loopr 5 5 1 0, .itsetStr 3 1 5, .lbrk 5, .lcnt 1 5, .acas 1 2 3 0 1 0, .cpqf 1, .mcall 63, .fence 1 5] :
    List Instr).all (fun i => wellFormed i) = true := by decide


/-! ### States for the witnesses

One launch (7) of one gallery runs on shift 0 of gallery 0, with four tiles and two fronts and the whole scratchpad; no row is
loaded, so format slots read F32 until `row` says otherwise. -/

def code : CodeObject := ⟨⟨2, 1, 1, 1, 1, false⟩, [], false, [], [], [], [], [], []⟩

def launch : Launch where
  seq := 7
  ngal := 1
  assay := false
  wdog := 1000
  nkey := 0x1234
  ttbase := 1
  ttlim := 4
  args := Vector.replicate 8 5
  svec := 0x8001
  savetid := 0
  rngmode := 0
  rngtid := 0
  fencetmo := 1
  bwin := Vector.replicate 16 0
  obj := code
  place := [0]
  twin := []
  started := []
  retired := []
  doneSt := []
  nextTask := 3
  halted := none
  reduced := false
  stopped := []

def kcsr : KCsr := { KCsr.zero with na := 4, nf := 2, splim := 0x40000, ttbase := 1, ttlim := 4, svec := 0x8001, fencetmo := 1 }

def shift : Shift := { Shift.initial with st := .running, pc := 0x1000, k := kcsr, task := some ⟨3, 7, 0, 0, false, 0, false⟩, bound := some (7, 0) }

def base : State := { State.reset with
  frame := { State.reset.frame with st := .full, hbmUp := true, launchSeen := true }
  launches := [launch]
  gals := [(0, { Gallery.initial with holder := some 7 })]
  shifts := [(0, shift)]
  bundles := 6
  cur := { Cur.nothing with x := 0x1000, len := 2, guard := true, bundle := 5 } }

/-- General registers, vector registers, scratchpad bytes set. -/
def withG (s : State) (l : List (Nat × Nat)) : State :=
  s.modArch fun a => { a with g := l.foldl (fun g p => g.setIfInBounds p.1 (.ofNat 64 p.2)) a.g }
def withV (s : State) (l : List (Nat × VReg)) : State :=
  s.modArch fun a => { a with v := l.foldl (fun g p => g.setIfInBounds p.1 p.2) a.v }
def withSp (s : State) (a : Nat) (l : List Nat) : State :=
  s.setGal 0 { s.gal 0 with sp := memBlit (s.gal 0).sp a (l.map fun x => .ofNat 8 x) }
def bytesOf (n len : Nat) : List Nat := (List.range len).map fun i => n / 256 ^ i % 256
def at_ (s : State) (arg : Arg) : State := { s with arg := arg }
def row (s : State) (r : Word64) : State := { s with cur := { s.cur with row := r } }
def affine (fmt : Nat) : CMap := { CMap.none with st := .affine, fmt := .ofNat 4 fmt, id := 0, od := 1, ie := 8 }
def answered (o : Out) : State := match o with
  | .next t => t
  | _ => State.reset


/-! ### Witnesses: states and operands that meet the hypotheses of the statements -/

theorem witness_DecodeOfEncodeIsTheInstruction :
    (wellFormed (.vlut3 9 10 11 2 6 0x96) = true ∧ (Instr.vlut3 9 10 11 2 6 0x96).parts ≠ none)
    ∧ wellFormed (.vcrd 31 31 0x18 3) = true ∧ (Instr.vcrd 31 31 0x18 3).parts ≠ none := by decide +kernel

theorem witness_DecodingKeepsEveryBitOrRefuses :
    (decodeSlot 0x8004A960 none = some (.add 9 10 11) ∧ wellFormed (.add 9 10 11) = true)
    ∧ fnAssigned (fOC 0x07F00000#32) (fFN 0x07F00000#32) = false
    ∧ extRule (fOC 0x0214A96C#32) (fFN 0x0214A96C#32) = .required
    ∧ extRule (fOC 0x0004A960#32) (fFN 0x0004A960#32) = .forbidden
    ∧ rsvBad 0xD0AD6322#32 none = true := by decide +kernel

/-- The state in which the next step fetches and runs ADD g9, g10, g11. -/
def placed : State := State.reset.withFetchWord 32 0x0004A960

/-- The bundle that stands there is one slot, decoded with no rule broken, and ISSUE opens it. -/
def opensNative (s : State) (n : Nat) : Bool :=
  match ({ s with freeN := s.freeN + 1, cur := Cur.nothing }.modSh n id).fetch n (s.sh n).pc with
  | .ok (ws, t) =>
    (t.headerBad n (s.sh n).pc ws).isNone && fld (ws.headD 0) 13 1 = 0
      && !((State.nativeSlots (State.formatRow (t.sh n)) (t.sh n) ws).any (fun y => State.isBoundary y.instr))
      && (State.nativeSlots (State.formatRow (t.sh n)) (t.sh n) ws).all (fun y => y.bad.isNone)
      && decide ((State.nativeSlots (State.formatRow (t.sh n)) (t.sh n) ws).length = 1)
  | .error _ => false

theorem witness_FetchedBundlesOpenWithDecodedSlots :
    (at_ placed (.unit 0)).canIssue 0 = true ∧ (placed.sh 0).k.port = false ∧ (placed.sh 0).cpHold = false
    ∧ (placed.sh 0).mrd = [] ∧ (placed.sh 0).mxFl = [] ∧ (placed.sh 0).fpx = [] ∧ opensNative (at_ placed (.unit 0)) 0 = true := by decide +kernel

theorem witness_StepRunsTheDecodedInstruction :
    placed.nextOp = .issue ∧ placed.ready.arg = .unit 0 ∧ placed.ready.canIssue 0 = true
    ∧ (placed.ready.openBundle 0).cur.fin = .ok ∧ (placed.ready.openBundle 0).cur.want = .issue
    ∧ (placed.ready.openBundle 0).cur.slots = [⟨0, false, .add 9 10 11, none⟩]
    ∧ (placed.ready.openBundle 0).cur.bench = false ∧ State.isBoundary (.add 9 10 11) = false
    ∧ ((placed.ready.openBundle 0).myProfile.map fun p => profileBad p (.add 9 10 11)) ≠ some true
    ∧ (placed.ready.openBundle 0).interlock = [] ∧ (placed.ready.openBundle 0).guardPois = false
    ∧ (placed.ready.openBundle 0).me.bndSt = .away := by decide +kernel

/-- A state that the machine meets, from which a step is taken: memory stays canonical. -/
theorem witness_StepKeepsMemoryCanonical : placed.memOk ∧ (match step placed with | .next _ => true | _ => false) = true := by
  exact ⟨by unfold State.memOk; decide +kernel, by decide +kernel⟩


theorem witness_MemoryAccessesAreLittleEndian :
    Memory.wf [(5, 7), (9, 1)] = true ∧ (∀ k, k < 20 → memByte [(5, 7), (9, 1)] k = memByte (memWrite [(9, 1)] 5 1 7) k) := by
  decide +kernel

/-- A result for g9 in flight since bundle 3, and v9 beside it. -/
def flying : State := base.modMe fun x => { x with inflight := [⟨.g 9 77 false, 4, 3, 0, 0x900⟩] }

theorem witness_ResultsLandInTheirRegister :
    (⟨.g 9 77 false, 4, 3, 0, 0x900⟩ : Landing) ∈ flying.me.inflight ∧ (3 : Nat) < flying.cur.bundle
    ∧ (packEls 3 (List.replicate (elemCount 3) 5)).toNat ≠ 0 ∧ (List.replicate (elemCount 3) 5).length = elemCount 3 := by
  decide +kernel

theorem witness_ResultsLandInTheirRegister_flags :
    shift.arch.c.fpfirst.getLsbD 63 = false ∧ shift.arch.c.fpen &&& flagNV = 0
    ∧ (0x7F : BitVec 7) &&& flagNV ≠ 0 ∧ flagNV ≠ 0 := by decide +kernel

/-- Registers read clean, each clause at a value where it differs: dividends and divisors at the corners. -/
def nums : State := withG base [(1, 0x8000000000000000), (2, 0xFFFFFFFFFFFFFFFF), (3, 0), (4, 0xFFC00000), (5, 0x3F800000),
  (6, 0x80000000), (7, 0x7F800000), (8, 0xBF800000), (9, 0x7F800001), (10, 0x1002), (11, 0x1000)]

theorem witness_ScalarArithmeticGivesItsResult : nums.cleanG [1, 2] ∧ nums.cleanG [2, 3] := by decide +kernel

theorem witness_ScalarDivisionHasEveryEdgeCase :
    nums.cleanG [1, 2] ∧ nums.rdG 1 = 0x8000000000000000 ∧ nums.rdG 2 = 0xFFFFFFFFFFFFFFFF ∧ nums.rdG 3 = 0
    ∧ nums.cleanG [1, 3] := by decide +kernel

theorem witness_ScalarBitOperationsGiveTheirBits : nums.cleanG [1, 2, 3] ∧ nums.rdG 3 = 0 ∧ (nums.rdG 2).toNat % 64 = 63 := by
  decide +kernel

theorem witness_ScalarBitOperationsGiveTheirBits_immediates : nums.cleanG [1] ∧ nums.cleanG [0] := by decide +kernel

/-- Numbers that fit a format, finite nonzero operands, zeros of either sign, and a positive number under the root. -/
theorem witness_ScalarFloatOperationsRoundOnce :
    nums.cleanG [5, 8] ∧ decodeFloat 0 0x3F800000 = .fin ⟨false, 2 ^ 23, -23, false⟩ ∧ 0x3F800000 < 2 ^ fmtWidth 0
    ∧ decodeFloat 3 0x7E = .fin ⟨false, 14, 5, false⟩
    ∧ (let x : Exact := ⟨false, 2 ^ 23, -23, false⟩
      let y : Exact := ⟨true, 2 ^ 23, -23, false⟩
      fp32 (nums.rdG 5) = .fin x ∧ fp32 (nums.rdG 8) = .fin y ∧ fp32 (nums.rdG 5 >>> 32) = .fin ⟨false, 0, -149, false⟩
      ∧ x.m ≠ 0 ∧ x.sticky = false ∧ x.neg = false ∧ y.m ≠ 0 ∧ x.rat ≠ 0 ∧ x.rat + y.rat = 0 ∧ x.rat - y.rat ≠ 0 ∧ x.rat * y.rat ≠ 0)
    ∧ (nums.cleanG [6, 5] ∧ fp32 (nums.rdG 6) = .fin ⟨true, 0, -149, false⟩) ∧ nums.rdG 3 = 0 := by decide +kernel

/-- Two NaNs, a NaN on either side, each order, equal numbers with each pair of signs, infinities, and the special cases of R153. -/
theorem witness_ScalarFloatComparisonsAndSpecialCases :
    let x (k : Nat) : Machine.Num := fp32 (nums.rdG (.ofNat 5 k))
    nums.cleanG [4, 9] ∧ (x 4).isNan = true ∧ (x 9).isNan = true ∧ (x 9).isSnan = true
    ∧ nums.cleanG [5, 8] ∧ (x 5).isNan = false ∧ (x 8).isNan = false
    ∧ cmpNum (x 8) (x 5) < 0 ∧ 0 < cmpNum (x 5) (x 8)
    ∧ (nums.cleanG [6, 3] ∧ cmpNum (x 6) (x 3) = 0 ∧ (x 6).sign = true ∧ (x 3).sign = false)
    ∧ x 8 = .fin ⟨true, 2 ^ 23, -23, false⟩ ∧ x 6 = .fin ⟨true, 0, -149, false⟩ ∧ x 3 = .fin ⟨false, 0, -149, false⟩
    ∧ x 7 = .inf false ∧ fp32 0xFF800000 = .inf true ∧ nums.cleanG [7, 5] := by decide +kernel

/-- ADD, ADDI and FADD run; a poisoned register is read. -/
theorem witness_ScalarInstructionsWriteOnlyTheirDestination :
    ([Instr.add 9 1 2, .addi 9 1 5 none, .fadd 9 5 8 0].all fun i => (answered (exec i nums)).cur.fin == .ok) = true
    ∧ ([Instr.add 9 1 2, .addi 9 1 5 none, .fadd 9 5 8 0].filterMap Instr.parts).map (fun p => p.1) = [0, 1, 2]
    ∧ (nums.modArch fun r => { r with gpois := 2 }).poisG 1 = true := by decide +kernel

theorem witness_BranchesTransferAndLink :
    nums.cleanG [10] ∧ nums.cleanG [11] ∧ (nums.cur.x + (0xFFFFF#20).signExtend 64 * 4).toNat % 4 = 0
    ∧ (nums.cur.x + (0x7FFF#15).signExtend 64 * 4).toNat % 4 = 0
    ∧ (nums.rdG 11 + (0x3FF#10).signExtend 64 * 4).toNat % 4 = 0 ∧ (nums.rdG 10 + (5#10).signExtend 64 * 4).toNat % 4 ≠ 0 := by
  decide +kernel

/-- Two levels that end at 0x1000, the inner one at its last iteration. -/
def levels : Vector Level 6 :=
  #v[⟨0x800, 0x1000, 9, 3, 0, true, 1, 0x1008⟩, ⟨0x900, 0x1000, 4, 3, 0, true, 2, 0x1008⟩, .zero, .zero, .zero, .zero]

/-- LBRK of level 1 in mid body, level 0 going on; and of level 0, with no level left. -/
theorem witness_TheNextBundleIsDecidedInOrder :
    let s := { (base.modArch fun r => { r with l := levels }) with cur := { base.cur with x := 0xA00 } }
    (∀ m ∈ levels.toList, m.act = true → m.stop ≠ 0x2000)
    ∧ (levels[1].act = true ∧ levels[1].stop = 0x1000 ∧ levels[1].trip.toNat ≤ (levels[1].idx + 1).toNat
      ∧ ∀ j : Fin 6, j ≠ 1 → levels[j].act = true → levels[j].stop = 0x1000 → levels[j].ord.toNat < levels[1].ord.toNat)
    ∧ (let l := levels.set 1 .zero
      l[0].act = true ∧ l[0].stop = 0x1000 ∧ (l[0].idx + 1).toNat < l[0].trip.toNat
      ∧ ∀ j : Fin 6, j ≠ 0 → l[j].act = true → l[j].stop = 0x1000 → l[j].ord.toNat < l[0].ord.toNat)
    ∧ (s.level 1).act = true ∧ (base.level 1).act = false
    ∧ (∀ k : Fin 2, s.me.arch.l[k.val].act = true ∧ s.me.arch.l[k.val].behind = s.me.arch.l[k.val].stop + .ofNat 64 (4 * 2))
    ∧ (1#3).toNat = (1 : Fin 6).val ∧ s.cur.after = .nothing := by decide +kernel


/-- Two slots of the bundle at hand, which nothing bounds. -/
def pair (guard : Bool) (a b : IssueSlot) : State := { nums with cur := { nums.cur with slots := [a, b], guard := guard } }
def slot (k : Nat) (q : Bool) (i : Instr) : IssueSlot := ⟨k, q, i, none⟩

/-- Nothing in front of the bundle, as the statement asks of every pair. -/
def plainPair (s : State) : Bool :=
  decide (s.cur.fin = .ok) && decide (s.cur.want = .issue) && !s.cur.bench && decide (s.me.bndSt = .away) && decide (s.interlock = [])
    && !s.guardPois && s.cur.slots.all fun x => !State.isBoundary x.instr && decide ((s.myProfile.map fun p => profileBad p x.instr) ≠ some true)

/-- How the slot's instruction ends alone in the state before the bundle: 0 it runs, 1 it waits, 2 and 3 it traps early or late. -/
def alone (s : State) (x : IssueSlot) : Nat :=
  match (answered (exec x.instr { s with cur := { s.cur with slot := x.slot, bdone := true, fin := .ok } })).cur.fin with
  | .ok => 0
  | .blocked => 1
  | .trap _ true => 2
  | .trap _ false => 3

/-- An ADD; one under the guard; MWR in user mode, a misaligned SLD, and an MWAIT that waits. -/
theorem witness_BundlesRunTheirSlotsFromOneState :
    let add := slot 2 false (.add 9 1 2)
    let under := slot 3 true (.add 12 1 2)
    let busy := (pair true (slot 1 false (.mwait 0)) add).modMe fun x => { x with mxq := [⟨.zero 1, nums.mxSnap, 0, 5, none, 0, 0, none⟩] }
    plainPair (pair true add under) = true ∧ plainPair (pair false under under) = true ∧ plainPair busy = true
    ∧ (⟨2, false, .add 9 1 2, some .rsv⟩ : IssueSlot).bad = some .rsv
    ∧ alone (pair true add under) add = 0 ∧ alone (pair true add under) under = 0
    ∧ plainPair (pair true (slot 1 false (.mwr 1 2)) add) = true ∧ alone nums (slot 1 false (.mwr 1 2)) = 2
    ∧ plainPair (pair true (slot 1 false (.sld 9 2 0 none)) add) = true ∧ alone nums (slot 1 false (.sld 9 2 0 none)) = 3
    ∧ alone busy (slot 1 false (.mwait 0)) = 1
    ∧ alone (answered (exec (.add 9 1 2) { (pair true add under) with cur := { (pair true add under).cur with slot := 2, bdone := true } }))
      under = 0 := by decide +kernel

/-- `placed`'s word as a portable bundle, within the portable range of the launch and outside it. -/
def ported (inside : Bool) : State := { (placed.modSh 0 fun x => { x with pc := placeAddr + 4, bound := some (0, 0), k := { x.k with port := true } }) with
  launches := [if inside then placeLaunch else { placeLaunch with obj := { placeLaunch.obj with portable := [] } }], arg := .unit 0 }

def opensPortable (s : State) (inside : Bool) : Bool :=
  match ({ s with freeN := s.freeN + 1, cur := Cur.nothing }.modSh 0 id).fetch 0 (s.sh 0).pc with
  | .ok (ws, t) => decide (ws = [0x8004A960]) && decide (t.portableAt 0 (s.sh 0).pc = inside)
    && (match State.portableSlot (State.formatRow (t.sh 0)) (t.sh 0) ws with
      | .ok sl => decide (sl = ⟨homeSlot 0 0 false, false, .add 9 10 11, none⟩) && !State.isBoundary sl.instr
      | .error _ => false)
  | .error _ => false

theorem witness_PortableBundlesAndFormatRows :
    (∀ b : Bool, (ported b).canIssue 0 = true ∧ ((ported b).sh 0).k.port = true ∧ ((ported b).sh 0).inflight = []
      ∧ ((ported b).sh 0).mrd = [] ∧ ((ported b).sh 0).mxFl = [] ∧ ((ported b).sh 0).fpx = [] ∧ ((ported b).sh 0).cpHold = false
      ∧ opensPortable (ported b) b = true)
    ∧ (let w : Word := 0x8004A960
      fS w = true ∧ fOC w < 14 ∧ fnAssigned (fOC w) (fFN w) = true ∧ extRule (fOC w) (fFN w) ≠ .required ∧ rsvBad w none = false
      ∧ decodeSlot w none = some (.add 9 10 11) ∧ wellFormed (.add 9 10 11) = true ∧ w.toNat ≠ 2 ^ 31 + 0x68C00001)
    ∧ base.cur.after = .nothing ∧ base.cur.ctl = .fall ∧ (∀ j : Fin 6, (base.me.arch.l[j]).act = false)
    ∧ (base.setCtl (.taken 0x2000)).cur.ctl = .taken 0x2000
    ∧ Shift.initial.arch.c.fmtlvl.toNat = 15 ∧ (0 : BitVec 4).toNat = (0 : Fin 6).val := by decide +kernel

/-- The bundle that stands behind the issuing one is `placed`'s: the body of a loop of one bundle. Row pointers 3 and 8. -/
def looping : State :=
  let s := (placed.modMe fun x => { x with k := { x.k with splim := 0x40000 } })
  withSp (withG { s with cur := { base.cur with x := placeAddr - 8 } } [(11, 0x40), (12, 0), (13, 6)]) 0x40 (bytesOf 3 4 ++ bytesOf 8 4)

/-- The same inside a level that encloses it, level 4 in its fourth iteration; LOOP of level 4 itself sets that level aside. -/
def nested : State := looping.modArch fun r => { r with l := r.l.set 4 ⟨placeAddr - 16, placeAddr, 9, 3, 0, true, 1, placeAddr + 8⟩ }

theorem witness_LoopsActivateTheirLevel :
    (looping.bodyWalk looping.me.arch.l looping.seqAddr looping.seqAddr 0 1).toOption = some (placeAddr, placeAddr + 8)
    ∧ (2#3).toNat < 6 ∧ looping.cleanG [12] ∧ looping.rdG 12 = 0 ∧ looping.cleanG [13] ∧ looping.rdG 13 = 6
    ∧ looping.cleanG [11] ∧ (looping.rdG 11).toNat % 4 = 0 ∧ looping.lsIdle ∧ looping.poisonS = []
    ∧ (∀ b, b < 8 → looping.violation looping.cur.shift (0x40 + b) = none)
    ∧ (looping.level 2).act = false ∧ (∀ m ∈ looping.me.arch.l.toList, m.act = false)
    ∧ looping.byteS 0 0x40 = 3 ∧ looping.byteS 0 0x44 = 8 := by decide +kernel

theorem witness_LoopsActivateTheirLevel_nested :
    let K := nested.me.arch.l
    let D := State.dropLevel K 4
    (nested.bodyWalk K nested.seqAddr nested.seqAddr 0 1).toOption = some (placeAddr, placeAddr + 8) ∧ State.innermost K = some 4
    ∧ (∀ m ∈ K.toList, m.act = true → m.start.toNat ≤ nested.cur.x.toNat ∧ nested.cur.x.toNat ≤ m.stop.toNat
      ∧ placeAddr.toNat ≤ m.stop.toNat)
    ∧ (nested.level 4).act = true ∧ (∀ m ∈ D.toList, m.act = false)
    ∧ (nested.bodyWalk D nested.seqAddr nested.seqAddr 0 1).toOption = some (placeAddr, placeAddr + 8) := by decide +kernel

theorem witness_LoopsActivateTheirLevel_iterators :
    let s := withG (base.modArch fun r => { r with l := levels }) [(5, 0x5000)]
    s.cleanG [5] ∧ (s.level 0).act = true ∧ (s.level 5).act = false := by decide +kernel

theorem witness_ControlInstructionsWriteOnlyLevelsAndIterators :
    ([Instr.br 0, .jalr 9 11 0, .itsetBase 3 11, .loopr 0 2 11 0].all fun i => (answered (exec i looping)).cur.fin == .ok) = true
    ∧ looping.lsIdle ∧ ([Instr.br 0, .loopr 0 2 11 0].filterMap Instr.parts).map (fun p => (p.1, p.2.1)) = [(3, 0), (3, 5)] := by
  decide +kernel

/-- A load with its address aligned to 8, and one with no alignment at all. -/
def addrs : State := withG base [(1, 0x4000), (2, 0x123456789), (3, 0x4001)]

theorem witness_LoadsStoresAndAtomicsJoinTheQueue :
    addrs.cleanG [1, 2] ∧ (BitVec.ofInt 64 ((addrs.rdG 1).toNat + (-8 : Int))).toNat % 8 = 0
    ∧ (addrs.effAddr 3 0 none).toNat % 2 ≠ 0 ∧ (addrs.effAddr 3 0 none).toNat % 8 ≠ 0
    ∧ addrs.cleanG [1, 2, 3] ∧ (addrs.rdG 1).toNat % 8 = 0 ∧ (1#2).toNat < 2
    ∧ ({ addrs with cur := { addrs.cur with bdone := true } }).cur.bdone = true := by decide +kernel

/-- A state whose tensor table maps tensor 0 to frame 32, byte window 15 on it: `placed`, with the frame writable. -/
def mapped (op : LsqOp) : State :=
  let s := { placed with mem := memWrite placed.mem (2 * frameBytes) 8 (2 ^ 63 + 7 * 2 ^ 60 + 32 * 2 ^ 16) }
  { (s.modSh 0 fun x => { x with lsq := [⟨op, 0x1000, 5⟩] }) with cur := Cur.nothing, arg := .unit 0 }


theorem witness_LoadsStoresAndAtomicsJoinTheQueue_atomic :
    let s := mapped (.atomic .cas 5 placeAddr 8 7 9 1 false)
    (0xFFFFFFFF < 256 ^ 4 ∧ 0x80000000 < 256 ^ 4 ∧ 5 < 256 ^ 4)
    ∧ (Memory.wf s.mem = true ∧ s.gals.map (fun p => (p.2.sp, p.2.tags)) = s.gals.map (fun _ => ([], [])))
    ∧ (s.sh 0).lsq = [⟨.atomic .cas 5 placeAddr 8 7 9 1 false, 0x1000, 5⟩] ∧ (s.sh 0).memTrap = none ∧ (s.sh 0).fences = []
    ∧ s.assayPair 0 = none ∧ s.flat 0 placeAddr .readWrite = .m none (32 * frameBytes) ∧ s.deadChip none = false
    ∧ anyPois s.poisonM (32 * frameBytes) 8 = false := by decide +kernel

/-- An ACAS under `.facq` whose comparand differs from memory and that a later entry has gone ahead of; an acquire-release one in
front of which a store stands in the gate. -/
theorem witness_AtomicsReadModifyWriteOnce_cases :
    (let s := (mapped (.atomic .cas 5 placeAddr 8 7 9 0 true)).modSh 0 fun x => { x with acasGo := [5] };
      5 ∈ (s.sh 0).acasGo ∧ memRead s.mem (32 * frameBytes) 8 ≠ (7 : Word64).toNat % 256 ^ 8
      ∧ s.flat 0 placeAddr .readWrite = .m none (32 * frameBytes))
    ∧ (let s := (mapped (.atomic .cas 5 placeAddr 8 7 9 3 false)).modSh 0 fun x => { x with
        gate := [.store 0x9000 none 0xFE 4 0x11223344 false 4] };
      2 ≤ (3#2).toNat ∧ (s.sh 0).gate ≠ [] ∧ 5 ∉ (s.sh 0).acasGo ∧ s.assayPair 0 = none ∧ (s.sh 0).memTrap = none ∧ (s.sh 0).fences = []) := by
  decide +kernel

theorem witness_ScratchpadWordsLoadAndStore :
    (Memory.wf base.mem = true ∧ base.gals.map (fun p => (p.2.sp, p.2.tags)) = [([], [])]) ∧ addrs.cleanG [1, 2] ∧ addrs.lsIdle
    ∧ (addrs.effAddr 1 (-8) none).toNat % 2 ^ 24 % 8 = 0
    ∧ (∀ k, k < 8 → addrs.violation addrs.cur.shift (0x3FF8 + k) = none) := by decide +kernel

/-- A gated store of four bytes at 0x100, behind one that it partly covers. -/
def gated : State := { (base.modSh 0 fun x => { x with
  gate := [.store 0x9000 none 0xFE 4 0x11223344 false 4, .store 0x9002 none 0x100 4 0xA1B2C3D4 false 4] }) with arg := .unit 0 }

theorem witness_LoadsReadTheGateThenMemory :
    let s := mapped (.load 5 placeAddr 8 true)
    (s.sh 0).lsq = [⟨.load 5 placeAddr 8 true, 0x1000, 5⟩] ∧ (s.sh 0).memTrap = none ∧ (s.sh 0).fences = []
    ∧ s.flat 0 placeAddr .read = .m none (32 * frameBytes) ∧ s.deadChip none = false
    ∧ (gated.sh 0).gate = [.store 0x9000 none 0xFE 4 0x11223344 false 4] ++ .store 0x9002 none 0x100 4 0xA1B2C3D4 false 4 :: []
    ∧ ((gated.sh 0).gate.all fun e => match e with | .store _ _ k n _ _ _ => 0x200 < k || k + n ≤ 0x200 | _ => true) = true := by
  decide +kernel

theorem witness_LoadsReadTheGateThenMemory_stores :
    let s := mapped (.store placeAddr 8 77)
    let full := s.modSh 0 fun x => { x with gate := List.replicate 256 (.store 0x9000 none 0xFE 4 0x11223344 false 4) }
    (s.sh 0).lsq = [⟨.store placeAddr 8 77, 0x1000, 5⟩] ∧ (s.sh 0).memTrap = none ∧ (s.sh 0).fences = []
    ∧ s.flat 0 placeAddr .write = .m none (32 * frameBytes) ∧ State.gateStores (s.sh 0).gate < 256
    ∧ full.flat 0 placeAddr .write = .m none (32 * frameBytes) ∧ 256 ≤ State.gateStores (full.sh 0).gate
    ∧ (gated.sh 0).gate = .store 0x9000 none 0xFE 4 0x11223344 false 4 :: [.store 0x9002 none 0x100 4 0xA1B2C3D4 false 4] := by
  decide +kernel

/-- An AFFINE map, an INDEXED one whose lanes v7 holds, and a BROKEN one; a map across its inner extent. -/
def maps : State := withV base [(1, ⟨.ofNat 2048 (0x3F800000 + 0x40000000 * 2 ^ 32), affine 0, false⟩), (2, ⟨5, { affine 0 with st := .indexed, cmp := 7 }, false⟩),
  (3, ⟨6, .broken, false⟩), (4, ⟨7, affine 1, false⟩), (7, ⟨BitVec.allOnes 2048, .none, false⟩)]

theorem witness_CoordinatesFollowTheMap :
    (affine 0).st ≠ .indexed ∧ ((maps.rdV 2).map).st = .indexed
    ∧ getEl ((maps.rdV 2).map).fmt.toNat (maps.rdV 7).data 3 = 2 ^ ((maps.rdV 2).map).width - 1
    ∧ ((affine 0).st = .affine ∧ (affine 0).id.toNat < 6 ∧ (affine 0).od.toNat < 6 ∧ (affine 0).id ≠ (affine 0).od ∧ (affine 0).ie ≠ 0
      ∧ ((affine 0).advance 8 64).st = .affine)
    ∧ (3 % (affine 0).ie.toNat ≠ 0 ∧ (affine 0).ie.toNat < 3 % (affine 0).ie.toNat + 8)
    ∧ (maps.rdV 3).map.st = .broken ∧ (maps.rdV 4).map.width ≠ 32
    ∧ ((affine 0).st ≠ .none ∧ (affine 0).width = fmtWidth 0xB ∧ (affine 0).equal (affine 0) = true)
    ∧ (fmtIsInt 9 = true ∧ 0 ≤ (5#5).toInt) ∧ (fmtIsInt 8 = true ∧ (8 : Nat) ≠ 9)
    ∧ (maps.readMap 1 (fmtWidth 0xB)).toOption = some (some ⟨affine 0, none⟩)
    ∧ maps.mapLate 3 = false ∧ (maps.modMe fun x => { x with inflight := [⟨.v 3 ⟨6, .broken, false⟩, 4, 3, 0, 0x900⟩] }).mapLate 3 = true
    ∧ (maps.modMe fun x => { x with soon := [(3, 2, 4)] }).mapLate 3 = true := by
  decide +kernel


/-! A device with its number set, 7, and a tensor table in frame 1: tensor 1 of bytes in byte window 3, tensor 2 of two dimensions
in F8, tensor 3 a claim list. -/

def entryBits (nd fmt xm home : Nat) (l2 ext : List Nat) (ttf clf nseq budf : Nat) : Nat :=
  nd + fmt * 16 + 256 + xm * 512 + home * 2 ^ 16 + (l2.zipIdx.map fun p => p.1 * 16 ^ p.2).sum * 2 ^ 64 + ttf * 2 ^ 128
    + (ext.zipIdx.map fun p => p.1 * 2 ^ (32 * p.2)).sum * 2 ^ 192 + clf * 2 ^ 384 + nseq * 2 ^ 424 + budf * 2 ^ 448
def putM (s : State) (a n v : Nat) : State := { s with mem := memWrite s.mem a n v }
/-- The page of tile `t`: frame `f` of that port, permissions `perm`. -/
def page (s : State) (ttf t f perm : Nat) : State := putM s (ttf * frameBytes + 8 * t) 8 (2 ^ 63 + perm * 2 ^ 60 + f * 2 ^ 16)
def onPort (tid t k : Nat) : Nat := 32 * k + portOf tid t

def tabled : State :=
  let s := { (base.modMe fun x => { x with k := { x.k with bwin := x.k.bwin.setIfInBounds 3 (2 ^ 20 + 1) } }) with
    bar := { base.bar with chipSet := true, chipNo := 7 } }
  let s := putM s (frameBytes + 128) 128 (entryBits 1 9 0 7 [12] [20000] 2 0 0 0)
  let s := page (page (page s 2 0 (onPort 1 0 5) 7) 2 1 (onPort 1 1 5) 1) 2 2 (onPort 1 2 5 + 1) 7
  let s := putM s (frameBytes + 256) 128 (entryBits 2 5 0 7 [3, 3] [20, 30] 3 0 0 0)
  page (page (page s 3 0 (onPort 2 0 6) 7) 3 1 (onPort 2 1 6) 1) 3 2 (onPort 2 2 6 + 1) 7

/-- The bits of tensor `tid`'s page that the rules read: valid, permissions for `acc`, and the frame in its place. -/
def pageIs (s : State) (tid ttf t : Nat) (acc : Acc) : Bool × Bool × Bool :=
  let p := s.readM (s.chipKey none (ttf * frameBytes + 8 * t)) 8
  let fr := p / 2 ^ 16 % 2 ^ 40
  (p / 2 ^ 63 = 1 && p / 2 ^ 56 % 16 = 0 && p % 2 ^ 16 = 0, permOk p acc, fr < framesPerChip && fr % 32 = portOf tid t)

theorem witness_AddressesTranslate :
    let s := tabled
    homeInDomain (s.homeOf 7000) = false ∧ homeInDomain (s.homeOf 7) = true ∧ s.bar.chipNo.toNat = 7 ∧ s.compGal 0 = 0
    ∧ (match s.tensorEntry 1 4 1 with
      | some e => entryOk e && decide (eNdim e = 1) && decide (eFmt e = 9) && !eXm e && decide (3 ≤ eL2t e 0) && decide (s.homeOf (eHome e) = none)
          && decide (eExt e 0 = 20000) && decide (eL2t e 0 = 12)
      | none => false) = true
    ∧ (s.sh 0).k.bwin[3].getLsbD 20 = true ∧ (s.sh 0).k.bwin[4].getLsbD 20 = false
    ∧ [0, 1, 2, 3].map (fun t => pageIs s 1 2 t .write) = [(true, true, true), (true, false, true), (true, true, false), (false, false, false)]
    ∧ s.tensorEntry 1 4 5 = none
    ∧ (match s.tensorEntry 1 4 2 with
      | some e => entryOk e && decide (homeInDomain (s.entryHome e) = true) && !eXm e && decide (eNdim e = 2) && decide (eExt e 1 = 30)
          && decide ((tileIndex e (fun j => [9, 7][j]?.getD 0) 2).1 = 4)
      | none => false) = true
    ∧ [0, 1, 2, 3].map (fun t => pageIs s 2 3 t .write) = [(true, true, true), (true, false, true), (true, true, false), (false, false, false)]
    ∧ entryOk (.ofNat 1024 (entryBits 2 15 0 7 [3, 3] [20, 30] 3 0 0 0)) = false := by decide +kernel

/-- A tensor at home on chip 5, to which the links are dead, through a byte window and as a reference. -/
theorem witness_AddressesTranslate_dead :
    let s := putM { tabled with health := { tabled.health with dead := [5] } } (frameBytes + 128) 128 (entryBits 1 9 0 5 [12] [20000] 2 0 0 0)
    s.deadChip (some 5) = true ∧ s.deadChip none = false
    ∧ (match s.tensorEntry 1 4 1 with
      | some e => entryOk e && decide (eNdim e = 1) && decide (eFmt e = 9) && !eXm e && decide (3 ≤ eL2t e 0) && decide (s.homeOf (eHome e) = some 5)
          && decide (s.entryHome e = some 5) && decide (eExt e 0 = 20000)
      | none => false) = true
    ∧ (s.sh 0).k.bwin[3].getLsbD 20 = true := by decide +kernel

/-- Another chip's number, where the domain holds it. -/
theorem witness_AddressesTranslate_chip (h : Config.assigned 5 = true) : homeInDomain (some 5) = true ∧ tabled.bar.chipNo.toNat ≠ 5 := by
  refine ⟨?_, by decide +kernel⟩
  show (decide (5 ≤ 6143) && Config.assigned 5) = true
  rw [h]
  rfl

/-- Tensor 3: positions to 4,096 of 4 heads of 64 elements in F8, five sequences; head 1 streams from the ring, 16 sinks, 64 behind. -/
def listed : State :=
  let s := putM tabled (frameBytes + 384) 128 (entryBits 3 5 3 7 [6, 1, 3] [4096, 4, 64] 0 50 5 60)
  let key := 50 * frameBytes
  let s := putM (putM s key 8 (200 + 2 * 2 ^ 24 + 2 * 2 ^ 32)) (key + 64) 16 (1000 + 64 * 2 ^ 40 + 2 ^ 98 + 2 ^ 106)
  let s := putM s (key + 80) 16 (1001 + 100 * 2 ^ 40 + 100 * 2 ^ 64 + 2 ^ 88 + 2 * 2 ^ 98 + 2 * 2 ^ 106)
  putM s (60 * frameBytes + 8) 8 (1 + 16 * 2 ^ 8 + 64 * 2 ^ 32)

theorem witness_AddressesTranslate_claims :
    let s := listed
    (match s.tensorEntry 1 4 3 with
    | some e =>
      let key := s.claimKey e 0
      let cur := s.readM key 3
      let ext := s.extents key
      entryOk e && eXm e && eBud e && decide (eNseq e = 5) && decide (cur = 200) && decide (ext.length = 2)
        && decide (s.ringSlot e cur 0 150 = some 150) && decide (s.ringSlot e cur 1 150 = some 22) && decide (s.ringSlot e cur 1 100 = none)
        && decide (s.ringSlot e cur 1 7 = some 7)
        && (ext.all fun w => !(xPos w ≤ 80 && 80 < xPos w + xLen w))
        && ([50, 150].all fun q => ext.any fun w => xPos w ≤ q && q < xPos w + xLen w)
        && decide (s.readM (s.chipKey (s.entryHome e) (eBudf e * frameBytes + 8 * 1)) 8 = 1 + 16 * 2 ^ 8 + 64 * 2 ^ 32)
    | none => false) = true := by decide +kernel

/-- Slots 0 to 7 of the row: F32, BF16, F16, F8, I8, U8, I16, I32. -/
def rowed : State := row (withG maps [(10, 0xF0F0), (11, 0x3), (12, 5)]) 0x0B_0A_09_08_03_02_01_00

theorem witness_VectorIntegerElementsAreComputed :
    rowed.slotFmt 7 = 0xB ∧ fitsInt 0xB = true ∧ State.kindFits 0xB 0 2 = true ∧ rowed.cleanV [1, 2] ∧ rowed.cleanG []
    ∧ (rowed.opB 0xB 0 2 1).toOption = some (elems 0xB (rowed.rdV 2).data, 0)
    ∧ rowed.slotFmt 4 = 8 ∧ fitsInt 8 = true ∧ State.kindFits 8 2 12 = true ∧ rowed.cleanV [1, 1] ∧ rowed.cleanG [12]
    ∧ (rowed.opB 8 2 12 1).toOption = some (List.replicate 256 5, 0) := by decide +kernel

theorem witness_VectorComparesAndSelectUseLaneMasks :
    State.maskFits 10 64 = true ∧ 0 < (10#5).toNat ∧ State.maskFits 10 256 = true
    ∧ (State.kindFits 0xB 0 2 = true ∧ State.maskFits 10 (elemCount 0xB) = true ∧ rowed.cleanV [1, 2] ∧ rowed.cleanG []
      ∧ (rowed.opB 0xB 0 2 1).toOption.isSome = true ∧ fitsInt (rowed.slotFmt 7) = true)
    ∧ (fitsFloat (rowed.slotFmt 0) = true ∧ State.kindFits 0 0 2 = true ∧ (rowed.opB 0 0 2 1).toOption.isSome = true)
    ∧ (rowed.cleanV [1, 2] ∧ rowed.cleanG ([] ++ State.maskSrc 10 64)) := by decide +kernel

theorem witness_VectorReductionsSplatMoveAndDot :
    fitsInt (rowed.slotFmt 7) = true ∧ rowed.cleanV [1] ∧ (rowed.rowsOf 1 0xB false).toOption = some [64] ∧ [64].sum = elemCount 0xB
    ∧ ((withV rowed [(1, ⟨5, affine 0xB, false⟩)]).rowsOf 1 0xB true).toOption = some (List.replicate 8 8)
    ∧ (List.replicate 8 8).sum = elemCount 0xB ∧ rowed.cleanG [12] ∧ rowed.slotFmt 4 = 8 ∧ rowed.cleanV [9, 1, 2]
    ∧ rowed.me.arch.c.trapmask.getLsbD 0x11 = false ∧ State.kindFits 0xB 3 5 = true ∧ rowed.cleanV [] := by decide +kernel

theorem witness_VectorFloatElementsRoundOnce :
    fitsFloat (rowed.slotFmt 0) = true ∧ State.kindFits 0 0 2 = true ∧ rowed.cleanV [1, 2] ∧ rowed.cleanV [9]
    ∧ (rowed.opB 0 0 2 1).toOption.isSome = true
    ∧ (rowed.randomBits [1, 2] 9 (CMap.combine 0 9 [(rowed.rdV 1).map, (rowed.rdV 2).map]) 0 0 0xF0).toOption.isSome = true
    ∧ (decodeNum 0 (getEl 0 (rowed.rdV 1).data 0)).1.isNan = false := by decide +kernel

theorem witness_VectorConversionAndFloatReductions :
    rowed.slotFmt 0 ≠ 7 ∧ rowed.slotFmt 3 ≠ 7 ∧ 3 * min (elemCount 0) (elemCount 3) < max (elemCount 0) (elemCount 3)
    ∧ rowed.cleanV [9, 1] ∧ elemCount 0 < elemCount 3
    ∧ (rowed.randomBits [1, 9] 9 (CMap.convert 0 3 3 (elemCount 0) (elemCount 3) (rowed.rdV 1).map (rowed.rdV 9).map 9) 3 0 0).toOption.isSome = true
    ∧ (rowed.randomBits [1] 9 (CMap.convert 3 0 1 (elemCount 3) (elemCount 0) (rowed.rdV 1).map (rowed.rdV 9).map 9) 0 0 0).toOption.isSome = true
    ∧ fitsFloat 0 = true ∧ (rowed.rowsOf 1 0 false).toOption = some [64] := by decide +kernel

theorem witness_SpecialFunctionsRoundTheExactValue :
    fitsFloat (rowed.slotFmt 0) = true ∧ rowed.cleanV [1] ∧ (⟨true, 0, 0, false⟩ : Exact).m = 0
    ∧ (⟨true, 3, -1, false⟩ : Exact).m ≠ 0 ∧ (⟨true, 3, -1, false⟩ : Exact).neg = true ∧ (-1000 : Int) < -999 ∧ (-999 : Int) < 1000 := by
  decide +kernel

/-- v1 holds map AFFINE in F32, v4 in BF16, v8 in I8. -/
theorem witness_NoiseScalesAndSelection :
    (rowed.cleanV [1] ∧ (rowed.readMap 1 32).toOption = some (some ⟨affine 0, none⟩) ∧ rowed.slotFmt 0 = 0 ∧ fitsFloat 0 = true
      ∧ rowed.cleanV [2] ∧ rowed.cleanG [] ∧ (rowed.randomBits [1] 9 (CMap.combine 0 9 [(rowed.rdV 1).map]) 0 0 0xF0).toOption.isSome = true
      ∧ (rowed.rowsOf 1 0 false).toOption = some [64]
      ∧ (∀ e, e < elemCount 0 → (decodeNum 0 (getEl 0 (rowed.rdV 1).data e)).1.isNan = false))
    ∧ (rowed.slotFmt 7 = 0xB ∧ fitsInt 0xB = true ∧ fmtWidth 0xB = 32)
    ∧ fld (rowed.rdV 2).data 0 8 ≠ 0xFF ∧ fld (BitVec.allOnes 2048) 0 8 = 0xFF := by decide +kernel

/-- TOPK of rows of 8, four of them in the result; of an INDEXED register with distinct lanes, the last one absent. -/
theorem witness_NoiseScalesAndSelection_rows :
    let lanes : BitVec 2048 := .ofNat 2048 ((List.range 64).foldl (fun a e => a + (if e = 63 then 2 ^ 32 - 1 else 100 - e) * 2 ^ (32 * e)) 0)
    let s := withV rowed [(1, ⟨5, affine 0, false⟩), (8, ⟨lanes, .none, false⟩), (10, ⟨7, { affine 0 with st := .indexed, cmp := 8 }, false⟩)]
    let lane (e : Nat) : Nat := getEl 0 (s.rdV 8).data e
    s.slotFmt 0 = 0 ∧ s.cleanV [1] ∧ (s.rowsOf 1 0 true).toOption = some (List.replicate 8 8)
    ∧ (3 : Nat) < 8 ∧ 3 * 16 + 16 ≤ 64 ∧ 8 ≤ (15 : Nat)
    ∧ s.cleanV [10] ∧ (s.readMap 10 32).toOption = some (some ⟨{ affine 0 with st := .indexed, cmp := 8 }, none⟩)
    ∧ (s.rowsOf 10 0 false).toOption = some [64] ∧ lane 63 = 2 ^ 32 - 1 ∧ (List.range 63).map lane = (List.range 63).map (100 - ·) := by
  decide +kernel

/-- Images: AFFINE and INDEXED ones that are good, NONE, BROKEN, and one for each entry of R124's list. -/
theorem witness_MapMovesWriteTheirMaps :
    let good : BitVec 256 := .ofNat 256 (1 + 2 ^ 16 + 8 * 2 ^ 20)
    let idx : BitVec 256 := .ofNat 256 (2 + 2 ^ 16 + 8 * 2 ^ 20 + 3 * 2 ^ 29)
    let f (w : BitVec 256) (lo n : Nat) : Nat := (w.extractLsb' lo n).toNat
    let bad (w : BitVec 256) (d : R5) : Bool := f w 34 30 ≠ 0 || f w 12 3 = f w 16 3 || 5 < f w 12 3 || 5 < f w 16 3 || f w 20 9 = 0
      || 320 < f w 20 9 || 0xB < f w 8 4 || (f w 0 2 = 1 && f w 29 5 ≠ 0) || (f w 0 2 = 2 && (f w 29 5 = d.toNat || f w 8 4 = 6))
    (rowed.cleanV [1] ∧ rowed.cleanG [12] ∧ (rowed.rdV 1).map.st = .affine ∧ (rowed.rdV 3).map.st = .broken ∧ rowed.cleanV [3]
      ∧ (rowed.rdV 9).map.st = .none ∧ (rowed.rdV 2).map.st = .indexed)
    ∧ f good 0 2 = 1 ∧ bad good 9 = false ∧ f idx 0 2 = 2 ∧ bad idx 9 = false ∧ bad idx 3 = true ∧ f 0 0 2 = 0 ∧ f 3 0 2 = 3
    ∧ ([good + .ofNat 256 (2 ^ 34), good &&& ~~~ .ofNat 256 (2 ^ 16), good + .ofNat 256 (6 * 2 ^ 12), good + .ofNat 256 (5 * 2 ^ 16),
      good &&& ~~~ .ofNat 256 (2 ^ 23), good + .ofNat 256 (313 * 2 ^ 20), good + .ofNat 256 (12 * 2 ^ 8), good + .ofNat 256 (2 ^ 29),
      idx + .ofNat 256 (6 * 2 ^ 8)].all fun w => bad w 9) = true
    ∧ bad (good + .ofNat 256 (312 * 2 ^ 20 + 11 * 2 ^ 8 + 4 * 2 ^ 16)) 9 = false := by decide +kernel

theorem witness_CoordinateReadsAndLanePermutations :
    let num (r : R5) (j : Nat) : Machine.Num := (decodeNum 0 (getEl 0 (rowed.rdV r).data j)).1
    rowed.cleanV [1, 2] ∧ (rowed.readMap 1 (rowed.rdV 1).map.width).toOption = some (some ⟨affine 0, none⟩) ∧ rowed.slotFmt 0 ≠ 6
    ∧ rowed.cleanG [12] ∧ rowed.me.arch.c.trapmask.getLsbD 0x11 = false
    ∧ rowed.slotFmt 0 < 3 ∧ (rowed.readMap 1 (fmtWidth (rowed.slotFmt 0))).toOption = some (some ⟨affine 0, none⟩)
    ∧ (rowed.rdV 1).map.st = .affine ∧ (2 : R5) ≠ 9 ∧ (rowed.rdV 2).map.st ≠ .affine
    ∧ num 1 0 = .fin ⟨false, 2 ^ 23, -23, false⟩ ∧ (num 1 1).isNan = false ∧ num 2 0 = .fin ⟨false, 5, -149, false⟩
    ∧ (num 7 0).isNan = true := by decide +kernel

theorem witness_VectorInstructionsWriteOnlyTheirDestinations :
    ([Instr.vand 9 1 2 0 7, .vfabs 9 1 0, .cmcpy 9 1].all fun i => (answered (exec i rowed)).cur.fin == .ok && wellFormed i) = true
    ∧ ([Instr.vand 9 1 2 0 7, .vfabs 9 1 0, .cmcpy 9 1].filterMap Instr.parts).map (fun p => p.1) = [5, 6, 7] := by decide +kernel


/-- A record of the scratchpad (KIND 1) over rows of `n` elements: extents, window, strides, FILL 0x7F (04 R71). -/
def rec2 (fmt base n : Nat) : LRec := #v[.ofNat 64 (2 + fmt * 16 + 2 ^ 8 + 2 ^ 11 + 0x3F * 2 ^ 49), .ofNat 64 base,
  .ofNat 64 (4 + n * 2 ^ 32), 0, 0, .ofNat 64 (n + 2 ^ 32), 0, 0, .ofNat 64 (1 + n * 2 ^ 16), 0x7F00000000, 0, 0]
def recBytes (r : LRec) : List Nat := r.toList.flatMap fun w => bytesOf w.toNat 8

/-- Window 2 over 4 rows of 64 I32 elements from 0x1000, and another over U8. -/
def windowed (fmt : Nat) : State := (withG rowed [(10, 0x10000), (12, 0x200), (13, 0), (14, 0x40), (15, 3)]).modArch fun r => { r with
  w := (r.w.setIfInBounds 2 ⟨rec2 fmt 0x1000 64, Vector.replicate 6 0, .ofNat 32 1, true⟩) }

def lanesAt (s : State) (p q e : Nat) : List Nat :=
  addAt ((List.range 6).map fun j => if j < 4 then (s.rdG 10).toNat / 2 ^ (16 * j) % 2 ^ 16 else 0) 
    p (e % (s.me.arch.w[2]).win p) q (e / (s.me.arch.w[2]).win p)

theorem witness_WindowLoadsGatherTheirElements :
    let s := windowed 0xB
    let W := s.me.arch.w[2]
    let x := lanesAt s W.vi W.vo
    let offs := (List.range (elemCount W.fmt)).map fun e => if W.inside (x e) then some (W.off (x e)) else none
    (W.vi, W.vo) = (1, 0) ∧ W.valid = true ∧ s.me.inflight = [] ∧ s.cleanG [10] ∧ s.lsIdle
    ∧ bankConflict [] (distinctG (offs.flatMap fun o => match o with | some (k, _) => granulesOf k 4 | none => [])) = none
    ∧ W.inside (x 3) = true ∧ (∀ e, e < 64 → W.inside (x e) = true → ∀ n, n < 4 →
      s.violation s.cur.shift (((W.off (x e)).1 + n) % 2 ^ 24) = none)
    ∧ W.fmt ≠ 6 ∧ s.cleanV [1] ∧ (s.me.arch.w[0]).valid = false ∧ s.cleanV [3, 1] := by decide +kernel

theorem witness_WindowLoadsGatherTheirElements_stores :
    let s := windowed 0xB
    let W := s.me.arch.w[2]
    W.valid = true ∧ s.me.inflight = [] ∧ s.cleanG [10] ∧ s.cleanV [3] ∧ s.lsIdle ∧ s.cleanV [1] ∧ W.fmt ≠ 6
    ∧ (Memory.wf s.mem = true ∧ s.gals.map (fun p => (p.2.sp, p.2.tags)) = [([], [])])
    ∧ (∀ k, k < 0x200 → s.violation s.cur.shift (0x1000 + k) = none) ∧ W.inside (lanesAt s W.vi W.vo 62) = true := by decide +kernel

theorem witness_WindowsTagsAndGuardsFollowTheirTables :
    let s := withSp (windowed 0xB) 0x200 (recBytes (rec2 0xB 0x1000 64))
    let r := recOf ((List.range 96).foldr (fun j acc => (s.byteS s.myGal (0x200 + j)).toNat + 256 * acc) 0)
    (s.cleanG [12, 13] ∧ s.lsIdle ∧ (s.rdG 12).toNat % 8 = 0 ∧ (s.rdG 13).toNat = 0
      ∧ (∀ j, j < 96 → s.violation s.cur.shift (0x200 + j) = none ∧ spKey s.myGal (0x200 + j) ∉ s.poisonS)
      ∧ r = rec2 0xB 0x1000 64 ∧ r.kind = 1 ∧ recCheck r true none = none ∧ originBad r 1 0 = none)
    ∧ (s.cleanV [1] ∧ s.vLate 1 = false ∧ s.cleanV [2, 7] ∧ s.vLate 2 = false ∧ s.cleanG (State.maskSrc 10 64) ∧ (s.rdV 2).map.st = .indexed)
    ∧ (s.cleanG [14, 15] ∧ s.gals.all (fun p => Memory.wf p.2.sp && p.2.tags.isEmpty) = true ∧ Memory.wf s.mem = true)
    ∧ (s.rdG 14).toNat % 64 = 0 ∧ (s.rdG 14).toNat ≤ 0xFFFFFF
    ∧ s.me.k.spbase.toNat ≤ 1 ∧ 3 < s.me.k.splim.toNat := by decide +kernel

/-- A GEMM of 2 × 2 over 8 in I8 from windows 2 and 3, tile 1, with its parameters in m0 to m3 (R177). -/
def gemm : State :=
  let s := (windowed 8).modArch fun r => { r with
    w := r.w.setIfInBounds 3 ⟨rec2 8 0x1800 64, Vector.replicate 6 0, .ofNat 32 16, true⟩
    m := #v[2, 3, .ofNat 64 (1 + 4 * 32 + 4 * 256 + 3 * 2048 + 4 * 2 ^ 14), .ofNat 64 (2 + 2 * 2 ^ 16 + 8 * 2 ^ 32), 0, 0x200, 0, 3] }
  withSp s 0x200 (recBytes (rec2 3 0x3000 64))

theorem witness_MatrixEntriesJoinTheQueue :
    let s := gemm
    let sup := s.modMe fun x => { x with k := { x.k with priv := true } }
    let full := s.modMe fun x => { x with mxq := List.replicate 8 ⟨.zero 1, s.mxSnap, 0, 5, none, 0, 0, none⟩ }
    (s.cleanG [10] ∧ (Shift.mxLive s.me).length < 8 ∧ (1#3).toNat < s.me.k.na.toNat ∧ s.cleanG [13] ∧ s.me.inflight = []
      ∧ (windowed 0xB).me.arch.w[2].valid = true ∧ (windowed 0xB).me.arch.w[2].fmt = 0xB ∧ (windowed 0xB).me.k.na = 4
      ∧ (s.me.arch.w[2]).valid = true ∧ (s.me.arch.w[2]).fmt = s.slotFmt 4 ∧ s.slotFmt 4 ≠ 7 ∧ s.slotRm 4 < 4)
    ∧ (sup.cleanG [10, 12] ∧ sup.me.k.priv = true) ∧ s.groupBad (s.rdG 13) = false ∧ (s.rdG 13).toNat % 2 ^ 8 = 0
    ∧ (s.gemmCheck 0 s.mxSnap).toOption = some () ∧ fld (s.mxSnap.p 2) 23 1 = 0
    ∧ (match s.mxRecords s.mxSnap with
      | .ok (sn, t) => (epiBad sn sn.erec (s.galLimit sn.erec) (sn.p 6) sn.eorg (sn.p 7) 1 false (t.queuedMap 0 1)).isNone && decide ((Shift.mxLive t.me).length < 8)
      | .error _ => false) = true
    ∧ (8 ≤ (Shift.mxLive full.me).length ∧ s.me.k.na.toNat ≤ (4#3).toNat ∧ 64 ≤ (64#10).toNat ∧ s.me.k.priv = false)
    ∧ (2#3).toNat < (Shift.mxLive full.me).length ∧ full.me.mxFault = none := by decide +kernel

/-- The head entry of each kind that the statement names. -/
def headed (op : MxOp) : State := { (gemm.modMe fun x => { x with mxq := [⟨op, gemm.mxSnap, 0x1000, 5, none, 0, 0, none⟩] }) with arg := .unit 0, cur := Cur.nothing }

theorem witness_MatrixUnitPerformsTheHeadEntry :
    ([MxOp.zero 1, .rel 1, .rd 9 300, .call 0].all fun op => (headed op).mxNext 0 == some 0
      && decide ((headed op).mxHead 0 = some ⟨op, gemm.mxSnap, 0x1000, 5, none, 0, 0, none⟩)
      && !State.isBcast ⟨op, gemm.mxSnap, 0x1000, 5, none, 0, 0, none⟩) = true
    ∧ (gemmOf 0 gemm.mxSnap).scale = none ∧ (gemmOf 0 gemm.mxSnap).m ≤ 128 ∧ (gemmOf 0 gemm.mxSnap).n ≤ 128
    ∧ (gemmOf 0 gemm.mxSnap).tile < 8 ∧ fld (gemm.mxSnap.p 2) 23 1 = 0 ∧ (gemmOf 0 gemm.mxSnap).acc = false
    ∧ (gemmOf 0 gemm.mxSnap).k = 8 ∧ 0 < (gemmOf 0 gemm.mxSnap).chunks.length ∧ (0 : R5).toNat < 2 ^ 10
    ∧ (gemmOf 0 gemm.mxSnap).isInt = true
    ∧ 1 < (gemmOf 0 (gemm.modArch fun r => { r with m := r.m.setIfInBounds 3 (.ofNat 64 (2 + 2 * 2 ^ 16 + 300 * 2 ^ 32)) }).mxSnap).chunks.length := by
  decide +kernel



/-- Windows whose second row of 32 lies 128 granules behind the first: one bank for both (05 R95). -/
def spread (compat : Bool) : State :=
  let s := (windowed 0xB).modArch fun r => { r with
    w := r.w.setIfInBounds 2 ⟨((rec2 0xB 0x1000 64).setIfInBounds 5 (.ofNat 64 (2048 + 2 ^ 32))).setIfInBounds 8 (.ofNat 64 (2 + 32 * 2 ^ 16)),
      Vector.replicate 6 0, .ofNat 32 1, true⟩ }
  s.modMe fun x => { x with k := { x.k with compat := compat } }

theorem witness_WindowLoadsGatherTheirElements_banks :
    let s := spread false
    let W := s.me.arch.w[2]
    let banks (x : Nat → List Nat) :=
      distinctG (((List.range (elemCount W.fmt)).map fun e => if W.inside (x e) then some (W.off (x e)) else none).flatMap
        fun o => match o with | some (k, _) => granulesOf k (locBytes W.fmt) | none => [])
    W.valid = true ∧ s.me.inflight = [] ∧ s.cleanG [10] ∧ s.cleanV [1] ∧ s.lsIdle ∧ s.me.k.compat = false
    ∧ bankConflict [] (banks (lanesAt s W.vi W.vo)) = some 192 ∧ bankConflict [] (banks (lanesAt s W.vo W.vi)) = some 192
    ∧ (spread true).me.k.compat = true := by decide +kernel

/-- Records at 0x200 and 0x300, a command block at 0x400, a portable record at 0x500; an extent image at 0x600, an arrival
word at 0x700. -/
def copying : State :=
  let s := withSp (withSp base 0x200 (recBytes (rec2 5 0x1000 16))) 0x300 (recBytes (rec2 5 0x2000 16))
  let s := withSp (withSp s 0x400 (List.replicate 64 0)) 0x500 (recBytes ((rec2 5 0 16).setIfInBounds 0 (.ofNat 64 (2 + 5 * 16 + 2 * 2 ^ 8 + 2 ^ 11 + 0x3F * 2 ^ 49))))
  withG (withSp s 0x700 [0, 0, 0, 8, 0, 0, 7, 0]) [(4, 0x200), (5, 0x300), (6, 0x400), (7, 0x500), (8, 0x600), (9, 0x700), (10, 0x800)]

def itemAt (s : State) (k n : Nat) : Nat := (List.range n).foldr (fun j acc => (s.byteS s.myGal (k + j)).toNat + 256 * acc) 0
def command (kind : CpKind) (dst : LRec) : CopyCmd :=
  ⟨kind, recOf (itemAt copying 0x200 96), dst, blkOf (itemAt copying 0x400 64), copying.cur.x, copying.cur.bundle, [], none⟩
def readable (s : State) (k n : Nat) : Bool :=
  k % 8 = 0 && (List.range n).all fun j => (s.violation s.cur.shift (k + j)).isNone && !s.poisonS.contains (spKey s.myGal (k + j))

theorem witness_CopiesAndClaimsJoinTheirQueues :
    let s := copying
    let full := s.modMe fun x => { x with cpq := x.cpq.setIfInBounds 2 (List.replicate 16 (.join 5 4)) }
    (s.cleanG [4, 5, 6] ∧ readable s 0x200 96 = true ∧ readable s 0x300 96 = true ∧ readable s 0x400 64 = true
      ∧ s.copyCheck (command .cpy (recOf (itemAt s 0x300 96))) (itemAt s 0x300 96) = none)
    ∧ (s.cleanG [4, 7, 6] ∧ readable s 0x500 96 = true
      ∧ s.copyCheck (command .cpyp (recOf (itemAt s 0x500 96))) (itemAt s 0x500 96) = none)
    ∧ (s.cleanG [4, 10, 6] ∧ readable s 0x800 32 = true
      ∧ s.copyCheck (command .cpyz (recOf (itemAt s 0x800 32))) (itemAt s 0x800 32) = none)
    ∧ (s.cleanG [4, 6] ∧ s.copyCheck (command .cpfill (recOf (itemAt s 0x200 96))) 0 = none)
    ∧ (∀ k : Fin 4, (s.me.cpq[k]).length < 16) ∧ ((4#4).getLsbD 2 = true ∧ 16 ≤ (full.me.cpq[2]).length)
    ∧ (let img : BitVec 128 := .ofNat 128 (itemAt s 0x600 16)
      0x600 % 16 = 0 ∧ xPos img = 0 ∧ xTag img = 0 ∧ xSh img = false ∧ xRef img = 0 ∧ readable s 0x600 16 = true ∧ s.cleanG [5, 8, 9])
    ∧ ({ s with cur := { s.cur with bdone := true } }).cur.bdone = true := by decide +kernel

/-- A fill of four elements at the head of queue 1, and a join at the heads of queues 0 and 3. -/
def filling : State :=
  let r := (rec2 5 0x1000 16).setIfInBounds 8 (.ofNat 64 (1 + 4 * 2 ^ 16))
  { (base.modMe fun x => { x with cpq := #v[[.join 5 9], [.cmd ⟨.cpfill, r, r, blkOf 0, 0x1000, 5, [], none⟩ 0], [], [.join 5 9]] }) with
    arg := .queue 0 (.cpq 1), cur := Cur.nothing }

/-- The device is chip 0. A claim list of one tensor of 64 sequences: the list's CUR 5, CTAG 2, NEXT 1, or NEXT 32. -/
def numbered : State := { base with bar := { base.bar with chipSet := true, chipNo := 0 } }
def claimed (next : Nat) : State := numbered.writeM 0 8 (5 + 2 * 2 ^ 24 + next * 2 ^ 32)
def entry : BitVec 1024 := .ofNat 1024 (100 * 2 ^ 192)
def extent : BitVec 128 := .ofNat 128 (9 + 10 * 2 ^ 40 + 4 * 2 ^ 92 + 2 ^ 98 + 3 * 2 ^ 106)

theorem witness_CopyQueuesAndClaimsPerform :
    let s := filling
    let r := (rec2 5 0x1000 16).setIfInBounds 8 (.ofNat 64 (1 + 4 * 2 ^ 16))
    let c : CopyCmd := ⟨.cpfill, r, r, blkOf 0, 0x1000, 5, [], none⟩
    (s.sh 0).memTrap = none ∧ (s.sh 0).cpHold = false ∧ (s.sh 0).fences = [] ∧ (s.sh 0).lsq = []
    ∧ (s.sh 0).cpq[1] = [.cmd c 0] ∧ Memory.wf s.mem = true ∧ s.gals.map (fun p => (p.2.sp, p.2.tags)) = [([], [])]
    ∧ LRec.kind r = 1 ∧ LRec.fmt r ≠ 6 ∧ Blk.aw c.blk = 0 ∧ Blk.pres c.blk = 0 ∧ c.n = 4 ∧ c.n ≤ State.slabElems 5 := by
  decide +kernel

theorem witness_CopyQueuesAndClaimsPerform_windows :
    let s := filling
    let r := (rec2 5 0x1000 16).setIfInBounds 8 (.ofNat 64 (1 + 4 * 2 ^ 16))
    let c : CopyCmd := ⟨.cpfill, r, r, blkOf 0, 0x1000, 5, [], none⟩
    (∀ k, k < 4 → recInside r (c.dstCoord k) = true ∧ recOff r (c.dstCoord k) = (0x1000 + k, 0)
      ∧ s.violation 0 (0x1000 + k) = none)
    ∧ locBytes 5 = 1 ∧ (s.sh 0).cpq[0] ≠ []
    ∧ (∀ k : Fin 4, (9#4).getLsbD k.val = true → ((s.sh 0).cpq[k]).head? = some (.join 5 9)) := by decide +kernel

/-- A claim instruction at the head of all four queues, on a tensor that has a claim list. -/
def claiming : State :=
  let e := 3 + 9 * 2 ^ 4 + 3 * 2 ^ 8 + 6 * 2 ^ 64 + 100 * 2 ^ 192 + 2 ^ 224 + 2 ^ 256 + (5 + 64 * 2 ^ 40) * 2 ^ 384
  { ({ numbered with mem := memWrite [] frameBytes 128 e }.modMe fun x => { x with
      cpq := Vector.replicate 4 [.claim 41 9 0x1000 (.seamtag 0 3)] }) with arg := .unit 0, cur := Cur.nothing }


theorem witness_CopyQueuesAndClaimsPerform_words :
    (copying.cleanG [9, 5] ∧ 0x700 % 8 = 0 ∧ readable copying 0x700 8 = true)
    ∧ ((0x0007000008000000 : Word64).extractLsb' 24 24).toNat ≠ 0 ∧ ((5 : Word64).extractLsb' 24 24).toNat = 0
    ∧ (claimed 1).claimHead ((claimed 1).claimKey entry 0) = (5, 2, 1)
    ∧ (claimed 32).claimHead ((claimed 32).claimKey entry 0) = (5, 2, 32)
    ∧ xLen extent = 10 ∧ xStride extent ≠ 0 ∧ xRunp extent ≠ 0 ∧ xFpo extent + xLen extent ≤ 64 * xRunp extent
    ∧ 5 + xLen extent ≤ eExt entry 0 ∧ (3 : Word64).toNat < 8 := by decide +kernel

theorem witness_CopyQueuesAndClaimsPerform_claims :
    claiming.claimHeadOf 0 = some (41, 9, 0x1000, .seamtag 0 3) ∧ claiming.assayPair 0 = none
    ∧ (match claiming.claimRun 0 (.seamtag 0 3) with | .done _ t => decide (t.sh 0 = claiming.sh 0) | _ => false) = true := by
  decide +kernel



/-! Copies within the scratchpad, to a peer, and into M; claims at their home. -/

/-- The record with a window of one row of four elements. -/
def four (r : LRec) : LRec := r.setIfInBounds 8 (.ofNat 64 (1 + 4 * 2 ^ 16))

/-- Queue 1 holds command `c` with `d` of its elements moved, and a join; its arrival word counts to 9. -/
def moving (c : CopyCmd) (d : Nat) : State :=
  let s := withSp (withSp base 0x1000 [1, 2, 3, 4]) 0x600 [0, 0, 0, 9, 0, 0, 7, 0]
  { (s.modMe fun x => { x with cpq := x.cpq.setIfInBounds 1 [.cmd c d, .join 5 2] }) with arg := .queue 0 (.cpq 1), cur := Cur.nothing }

/-- A CPY of four elements, of which the source has two, with an arrival word and a bitmap; and a CPFILL. -/
def inside_ (kind : CpKind) : CopyCmd :=
  ⟨kind, four (rec2 5 0x1000 (if kind = .cpy then 2 else 16)), rec2 5 0x2000 16, (blkOf 0).setIfInBounds 3 (0x600 : Word64) |>.setIfInBounds 4 (0x680 : Word64), 0x1000, 5, [], none⟩

def movesAt (c : CopyCmd) : Bool :=
  let s := moving c 0
  let src : LRec := c.src
  let dst : LRec := c.dstRec
  let inside (k : Nat) : Bool := c.kind ≠ .cpfill && recInside src (c.srcCoord k)
  let D := (List.range c.n).map fun k => (recOff dst (c.dstCoord k)).1
  let S := ((List.range c.n).filter inside).map fun k => (recOff src (c.srcCoord k)).1
  let A := (List.range 8).map (0x600 + ·)
  decide ((s.sh 0).memTrap = none) && !(s.sh 0).cpHold && decide ((s.sh 0).fences = []) && decide ((s.sh 0).lsq = [])
    && decide ((s.sh 0).cpq[1] = [.cmd c 0, .join 5 2]) && decide (locBytes src.fmt = 1) && decide (dst.fmt = src.fmt) && decide (src.kind = 1)
    && decide (dst.kind = 1) && decide (src.fmt ≠ 6) && decide (c.n = 4) && decide (c.n ≤ State.slabElems src.fmt)
    && decide (Blk.pres c.blk = 0x680) && decide (Blk.aw c.blk = 0x600)
    && (List.range c.n).all (fun k => (inside k || decide (c.kind = .cpfill) || src.fillen) && recInside dst (c.dstCoord k))
    && (D ++ S ++ A ++ [0x680]).all (fun x => (s.violation 0 x).isNone) && decide ((D ++ S ++ A ++ [0x680]).Nodup)

theorem witness_CopiesMoveTheirElements :
    movesAt (inside_ .cpy) = true ∧ movesAt (inside_ .cpfill) = true ∧ recInside (inside_ .cpy).src ((inside_ .cpy).srcCoord 1) = true
    ∧ recInside (inside_ .cpy).src ((inside_ .cpy).srcCoord 2) = false ∧ (Memory.wf base.mem = true
      ∧ (moving (inside_ .cpy) 0).gals.all (fun p => Memory.wf p.2.sp && p.2.tags.isEmpty) = true) := by decide +kernel

/-- A CPYP to gallery 3 of chip 5, sent by chip 7. -/
def peerRec : LRec := (rec2 5 0x2000 16).setIfInBounds 0 (.ofNat 64 (2 + 5 * 16 + 2 * 2 ^ 8 + 2 ^ 11 + 5 * 2 ^ 36 + 3 * 2 ^ 49))
def sending : CopyCmd := ⟨.cpyp, four (rec2 5 0x1000 16), peerRec, (blkOf 0).setIfInBounds 3 (0x600 : Word64), 0x1000, 5, [], none⟩
def seven (s : State) : State := { s with bar := { s.bar with chipSet := true, chipNo := 7 } }

theorem witness_PeerCopiesReachTheirPeer :
    let s := seven (moving sending 0)
    let src : LRec := sending.src
    (s.sh 0).memTrap = none ∧ (s.sh 0).cpHold = false ∧ (s.sh 0).fences = [] ∧ (s.sh 0).lsq = [] ∧ s.assayPair 0 = none
    ∧ (s.sh 0).cpq[1] = [.cmd sending 0, .join 5 2] ∧ src.kind = 1 ∧ LRec.kind peerRec = 2 ∧ LRec.fmt peerRec = src.fmt
    ∧ src.fmt ≠ 6 ∧ sending.n = 4 ∧ sending.n ≤ State.slabElems src.fmt ∧ Blk.pres sending.blk = 0 ∧ s.poisonS = []
    ∧ s.peerOf 0 peerRec = (some 5, 3) ∧ LRec.galF peerRec = 3 ∧ s.deadChip (some 5) = false
    ∧ (∀ k, k < 4 → recInside src (sending.srcCoord k) = true ∧ recInside peerRec (sending.dstCoord k) = true
      ∧ s.violation 0 (0x1000 + k) = none ∧ recOff src (sending.srcCoord k) = (0x1000 + k, 0)) := by decide +kernel

/-- The receiver, chip 7, has granted gallery 0's granules from 0x200 on to every chip of the range that holds chip 9; the sender
has one command whose answer is due. -/
def receiving : State :=
  let s := seven (moving sending 4)
  { (s.modSh 0 fun x => { x with cpTag := x.cpTag.setIfInBounds 1 42 }) with
    arg := .chip 2, cur := Cur.nothing
    grants := [(0, .ofNat 128 (100 * 2 ^ 13 + 2 ^ 26 + 2 ^ 27 + 0x3FFFF * 2 ^ 46 + 0xFF * 2 ^ 64))]
    linkFlits := [(2, [.ofNat 480 (7 + 9 * 2 ^ 13), 5, 6])] }

theorem witness_PeerCopiesReachTheirPeer_receiver :
    let s := receiving
    let h : BitVec 480 := .ofNat 480 (7 + 9 * 2 ^ 13)
    lget s.linkFlits 2 [] = h :: ([] ++ [5, 6]) ∧ h.extractLsb' 0 13 = s.bar.chipNo ∧ h.extractLsb' 13 13 = (9 : BitVec 13)
    ∧ s.frame.hbmUp = true ∧ s.bar.chipSet = true ∧ s.refusedCp = [] ∧ (∀ i, i < 3 → s.admits 9 0 ((0x1000 + i) / 64) false = true)
    ∧ s.admits 9 0 (0x600 / 64) true = true ∧ (s.sentCopy ⟨1, 42⟩).isSome = true ∧ (s.sentCopy ⟨1, 42⟩).map (·.1) = some 0
    ∧ s.assayPair 0 = none := by decide +kernel

/-- How a header names its packet is opaque: what it says here is supposed. -/
theorem witness_PeerCopiesReachTheirPeer_packet (h : BitVec 480) (z : Config.packetFlits h = 0) :
    ([] : List (BitVec 480)).length = min 16 (Config.packetFlits h) := by
  rw [z]
  rfl

/-- Queue 1 holds a CPY of four elements into tensor 1, or a CPYZ of them, of which one is zero. -/
def gatedCpy : CopyCmd :=
  ⟨.cpy, four (rec2 5 0x1000 16), Vector.ofFn fun (k : Fin 12) => if k.val = 0 then .ofNat 64 (2 + 5 * 16 + 2 * 2 ^ 16) else 0, blkOf 0,
    0x1000, 5, [], none⟩
def gatedCpyz : CopyCmd :=
  ⟨.cpyz, four (rec2 5 0x1000 16), Vector.ofFn fun (k : Fin 12) => match k.val with
    | 0 => .ofNat 64 (4 + 5 * 2 ^ 32)
    | 1 => 6
    | 2 => .ofNat 64 (10 + 3 * 2 ^ 32)
    | _ => 0, blkOf 0, 0x1000, 5, [], none⟩

/-- The same with the tensors that the commands write: 4 of values, 5 and 6 of I32, all in pages of their own. -/
def gating (c : CopyCmd) : State :=
  let one (s : State) (tid f : Nat) : State :=
    page (putM s (frameBytes + 128 * tid) 128 (entryBits 1 f 0 7 [7] [100] (30 + tid) 0 0 0)) (30 + tid) 0 (onPort tid 0 (20 + tid)) 7
  let s := one (one (one tabled 4 5) 5 0xB) 6 0xB
  let s := withSp s 0x1000 [1, 0, 3, 4]
  { (s.modMe fun x => { x with k := { x.k with ttlim := 8 }, cpq := x.cpq.setIfInBounds 1 [.cmd c 0, .join 5 2] }) with
    arg := .queue 0 (.cpq 1), cur := Cur.nothing }

/-- The gate entry that the command becomes, and, for a CPYZ, how many nonzeros it has. -/
def gateEntry (c : CopyCmd) : Option (List SrcEl × List (Option Loc) × Nat) :=
  let s := gating c
  match s.allSrc 0 c with
  | .ok srcs =>
    let nnz := (srcs.filter fun e => State.isNonzero (LRec.fmt c.src) (s.peekSrc 0 c.src e).1).length
    match (if c.kind = .cpyz then s.cpyzDst 0 c nnz else s.allDst 0 c) with
    | .ok dsts => some (srcs, dsts, nnz)
    | .error _ => none
  | .error _ => none

theorem witness_GatedCopiesCommitTheirElements :
    ([gatedCpy, gatedCpyz].all fun c =>
      let s := gating c
      decide ((s.sh 0).memTrap = none) && !(s.sh 0).cpHold && decide ((s.sh 0).fences = []) && decide ((s.sh 0).lsq = [])
        && decide ((s.sh 0).cpq[1] = [.cmd c 0, .join 5 2]) && decide ((s.sh 0).gate = []) && decide (Memory.wf s.mem = true)
        && !s.srcDead 0 c 0) = true
    ∧ LRec.kind gatedCpy.dst = 0 ∧ LRec.fmt gatedCpy.dst = 5 ∧ LRec.fmt gatedCpy.src = 5 ∧ LRec.kind gatedCpy.src = 1 ∧ gatedCpy.n = 4
    ∧ (gateEntry gatedCpy).map (fun p => (p.1.length, p.2.1.length)) = some (4, 4)
    ∧ (gateEntry gatedCpyz).map (fun p => (p.1.length, p.2.1.length, p.2.2)) = some (4, 2 * 3 + 1 + 1, 3)
    ∧ LRec.win gatedCpyz.src 1 = 4 ∧ LRec.win gatedCpyz.src 0 = 1 := by decide +kernel

/-- Both commands in the middle of a commit, an element of each kind next: of a CPY; a value, a column and a row pointer of a CPYZ. -/
def committing (c : CopyCmd) (done : Nat) : Bool :=
  let c : CopyCmd := { c with seen := [(1, false), (0, false), (3, false), (4, false)] }
  match gateEntry c with
  | some (srcs, dsts, nnz) =>
    let s := { ((gating c).modSh 0 fun x => { x with gate := [.cmd c 1 srcs dsts [] done], bndSt := .committing 5 none, st := .blocked }) with arg := .unit 0 }
    let val (i : Nat) : Nat := (s.heldSrc 0 c.src (srcs.getD i .fill)).1
    let put := if c.kind = .cpyz then (if done < 2 * nnz then (if done % 2 = 0 then done / 2 else nnz + done / 2) else done) else done
    State.inCommit (s.sh 0) && decide (c.torn = none) && decide (done < dsts.length) && decide (c.seen.map (fun p => p.1) = (List.range c.n).map val)
      && decide (dsts.length = if c.kind = .cpyz then 2 * nnz + LRec.win c.src 0 + 1 else c.n)
      && (match dsts[put]? with
        | some (some l) => decide (l.space = none) && decide (l.bit = 0)
        | _ => false)
  | none => false

theorem witness_GatedCopiesCommitTheirElements_commit :
    ([0, 3].all (committing gatedCpy) && [0, 1, 4, 5, 6, 7].all (committing gatedCpyz)) = true := by decide +kernel

/-- Four sequences of claim tensor 3 beside the first: 0 has two runs of its own, 1 nothing, 2 one shared run, 4 shares it; the free
queue has room for three. -/
def lists : State :=
  let key (q : Nat) : Nat := 50 * frameBytes + 1024 * q
  let put (s : State) (q cur : Nat) (l : List Nat) : State :=
    (l.zipIdx).foldl (fun s p => putM s (key q + 64 + 16 * p.2) 16 p.1) (putM s (key q) 8 (cur + 2 * 2 ^ 24 + l.length * 2 ^ 32))
  let x (b len pos tag sh ref : Nat) : Nat := b + len * 2 ^ 40 + pos * 2 ^ 64 + tag * 2 ^ 88 + sh * 2 ^ 91 + 2 ^ 98 + 2 * 2 ^ 106 + ref * 2 ^ 120
  let s := put (put listed 0 200 [x 1000 64 0 0 0 0, x 1001 100 64 1 0 0]) 2 120 [x 1070 50 0 1 1 2, x 1071 70 50 3 0 0]
  let s := put s 4 50 [x 1070 50 0 5 1 2]
  { s with d := { s.d with fqbase := 70, fqsize := 8, fqhead := 100, fqtail := 105 }, gtc := 0x123456 }

theorem witness_ClaimListsShareRetireAndBudget :
    let s := lists
    (match s.tensorEntry 1 4 3 with
    | some e =>
      let ext (q : Nat) := s.extents (s.claimKey e q)
      let room (d : State) : Nat := (d.d.fqsize - (d.d.fqtail - d.d.fqhead)).toNat
      let full : State := { s with d := { s.d with fqhead := 97 } }
      decide (eNseq e = 5) && ((List.range 5).all fun q => decide ((s.claimHead (s.claimKey e q)).2.2 ≤ 32))
        && decide ((ext 0).map xBasef = [1000, 1001]) && decide ((ext 2).map xSh = [true, false]) && decide ((ext 4).map xRef = [2])
        && decide ((s.claimHead (s.claimKey e 1)).1 = 0) && decide ((s.claimHead (s.claimKey e 1)).2.2 = 0)
        && decide ((s.claimHead (s.claimKey e 0)).1 = 200)
        && decide (hSeq (3 + 2 ^ 32 : Word64) = 1) && decide (hTid (3 + 2 ^ 32 : Word64) = hTid (3 : Word64))
        && decide (room s = 3) && decide (room full = 0) && !s.d.fqBad
        && decide (((ext 0).filter fun x => xTag x = 1).length = 1) && decide (((ext 2).filter fun x => xTag x = 1).map xSh = [true])
        && decide (70 * frameBytes + 16 * 8 ≤ s.claimKey e 0 ∨ s.claimKey e 0 + 1024 ≤ 70 * frameBytes)
        && decide (eBud e = true) && decide ((3 : Nat) < eExt e 1)
    | none => false) = true
    ∧ (let v : Word64 := 1 + 64 * 2 ^ 8 + 64 * 2 ^ 32
      v.extractLsb' 56 8 = 0 ∧ v.extractLsb' 15 17 = 0 ∧ v.extractLsb' 1 7 = 0 ∧ (v.extractLsb' 8 7).toNat ≤ 64
      ∧ (v.extractLsb' 32 24).toNat = 64) := by decide +kernel

/-- Front 1: two objectives in I32, objective 0 ascending and both enabled, capacity 4, policy `ovf`; two tuples held. -/
def frontCfg (ovf : Nat) : Word64 := .ofNat 64 (1 + 4 + 3 * 64 + 1024 + 4 * 2 ^ 11 + ovf * 2 ^ 18)
def tuple (x y p : Nat) : FTuple := ⟨#v[.ofNat 32 x, .ofNat 32 y, 0, 0], .ofNat 32 p, .ofNat 32 p⟩
def front (ovf : Nat) : Front := ⟨frontCfg ovf, [tuple 5 9 1, tuple 7 8 2, tuple 9 5 3, tuple 11 2 4], 5, false⟩
/-- The same in F32. -/
def frontF : Front := ⟨.ofNat 64 (1 + 4 + 3 * 64 + 4 * 2 ^ 11), [tuple 0x3F800000 0x40000000 1], 2, false⟩

/-- Arrivals: a NaN; one that a held tuple dominates; one that equals a held tuple; one that enters and displaces; one that
finds room. Objective 0 is better when greater, objective 1 when lesser. -/
theorem witness_FrontArrivalsFollowTheInsertionRule :
    (frontF.isI32 = false ∧ 0 < frontF.nobj ∧ frontF.ena 0 = true ∧ (frontF.val 0x7FC00000).isNan = true)
    ∧ ((front 0).isI32 = true ∧ (front 0).nobj = 2 ∧ (front 0).dir 0 = true ∧ (front 0).dir 1 = false ∧ (front 0).keepAll = false)
    ∧ ((front 0).tuples.any fun h => (front 0).dominates h (tuple 4 10 9)) = true
    ∧ ((front 0).tuples.all fun h => !(front 0).dominates h (tuple 11 2 9)) = true
    ∧ ((front 0).tuples.any fun h => (front 0).equals h (tuple 11 2 9)) = true
    ∧ ([0, 1, 2, 3, 4].all fun o => (front o).ovf = o ∧ (front o).cap = 4
      ∧ ((front o).tuples.filter fun h => !(front o).dominates (tuple 6 8 9) h).length = 3
      ∧ ((front o).tuples.filter fun h => !(front o).dominates (tuple 12 1 9) h).length = 0) = true := by decide +kernel

/-- A full front of which an arrival dominates no tuple, as each overflow policy meets it. -/
theorem witness_FrontArrivalsFollowTheInsertionRule_full :
    let f := { front 2 with tuples := [tuple 5 1 1, tuple 7 3 2, tuple 9 5 3, tuple 11 7 4] }
    (f.tuples.all fun h => !f.dominates h (tuple 6 2 9)) = true ∧ (f.tuples.all fun h => !f.equals h (tuple 6 2 9)) = true
    ∧ (f.tuples.filter fun h => !f.dominates (tuple 6 2 9) h) = f.tuples ∧ f.tuples.length = f.cap := by decide +kernel

def fronts : State := (withSp (withG base [(5, 0xA00), (6, 0x2), (8, (frontCfg 0).toNat)]) 0 []).modArch fun r => { r with
  fronts := #v[front 0, { front 0 with tuples := [tuple 5 1 1] }, .empty, .empty]
  v := r.v.setIfInBounds 8 ⟨5, affine 0xB, false⟩ }

theorem witness_FrontInstructionsUpdateTheirFront :
    let s := fronts
    let f := s.front 1
    ((1#2).toNat < s.me.k.nf.toNat ∧ (0#2).toNat < s.me.k.nf.toNat ∧ s.cleanG [8] ∧ frontCfgOk (s.rdG 8) = true ∧ f.pois = false)
    ∧ (s.front 2).cfg = 0 ∧ (s.front 2).pois = false
    ∧ (f.cfg ≠ 0 ∧ (20#5).toNat + f.nobj ≤ 31 ∧ (8#5).toNat + f.nobj ≤ 32 ∧ s.cleanV [8, 9, 10] ∧ s.cleanG [6]
      ∧ (s.readMap 8 32).toOption = some (some ⟨affine 0xB, none⟩) ∧ (s.front 0).pois = false
      ∧ f.cfg.toNat % 2 ^ 22 = (s.front 0).cfg.toNat % 2 ^ 22)
    ∧ (Memory.wf s.mem = true ∧ (s.gals.all fun p => Memory.wf p.2.sp && p.2.tags.isEmpty) = true)
    ∧ (s.cleanG [5] ∧ s.lsIdle ∧ (s.rdG 5).toNat % 64 = 0 ∧ (∀ k, k < 96 → s.violation s.cur.shift (0xA00 + k) = none))
    ∧ frontCfgOk f.cfg = true ∧ f.tuples.length ≤ f.cap ∧ f.isI32 = true
    ∧ (f.tuples.all fun t => t.obj[2] = 0 && t.obj[3] = 0) = true := by decide +kernel

/-- FINS.crd's map where it is INDEXED, and where it is NONE in the soft mode. -/
theorem witness_FrontInstructionsUpdateTheirFront_coordinates :
    let q : CMap := { affine 0xB with st := .indexed, cmp := 9 }
    let s := withV fronts [(8, ⟨5, q, false⟩)]
    let z := (withV fronts [(8, ⟨5, .none, false⟩)]).modC fun r => { r with cmapsoft := true }
    (s.readMap 8 32).toOption = some (some ⟨q, none⟩) ∧ s.cleanV [8, 9] ∧ (z.readMap 8 32).toOption = some none ∧ z.cleanV [8, 9]
    ∧ (z.front 1).cfg ≠ 0 ∧ (z.front 1).pois = false ∧ z.cleanG [6] := by decide +kernel

/-- An arrival word of generation 0x1234 at 0x200; the GTC at 123456. -/
def waiting : State := { withSp (withG base [(4, 0x200), (5, 0xAA1234), (6, 0x1233), (7, 123401), (8, 123400), (9, 2), (10, 0), (11, 2045)])
  0x200 [1, 2, 3, 4, 5, 6, 0x34, 0x12] with gtc := 123456, cur := { base.cur with bdone := true } }

theorem witness_SynchronisationInstructionsRun :
    let s := waiting
    let gen : BitVec 16 := s.byteS s.myGal 0x207 ++ s.byteS s.myGal 0x206
    let t := s.modMe fun x => { x with bndSt := .taken, status := { FStatus.clear with link := true } }
    s.cur.bdone = true ∧ s.me.bndSt = .away ∧ t.cur.bdone = true ∧ t.me.bndSt = .taken ∧ t.me.status.link = true ∧ s.cleanG [4, 5] ∧ Memory.wf s.mem = true
    ∧ (s.gals.all fun p => Memory.wf p.2.sp && p.2.tags.isEmpty) = true ∧ (s.rdG 4).toNat % 8 = 0 ∧ s.reportViol = none
    ∧ s.me.awaiting = none ∧ readable s 0x200 8 = true ∧ gen ≠ (s.rdG 6).extractLsb' 0 16 ∧ gen = (s.rdG 5).extractLsb' 0 16
    ∧ (s.rdG 8).toNat ≤ s.gtc.toNat / 100 * 100 ∧ s.gtc.toNat / 100 * 100 < (s.rdG 7).toNat
    ∧ s.gtc.toNat < ((s.rdG 7).toNat + 99) / 100 * 100 := by decide +kernel

/-- What RETIRE's own commit can leave: a refusal, a violation of either kind, a failed store, before empty queues. -/
theorem witness_SynchronisationInstructionsRun_retire :
    let t := waiting.modMe fun x => { x with bndSt := .taken, status := { FStatus.clear with nfail := 2 } }
    let bad := fun (k : Nat) => t.modMe fun x => { x with k := { x.k with spfault := .ofNat 64 (0x40 + k * 2 ^ 32) } }
    let r := (bad 1).modMe fun x => { x with grantPend := [(9, 4), (8, 5)] }
    (t.me.lsq = [] ∧ t.me.gate = [] ∧ (∀ k : Fin 4, t.me.cpq[k] = []) ∧ t.cur.bdone = true ∧ t.me.bndSt = .taken)
    ∧ r.me.grantPend = [(9, 4), (8, 5)]
    ∧ (fld (bad 1).me.k.spfault 32 2 = 1 ∧ fld (bad 2).me.k.spfault 32 2 = 2 ∧ t.me.k.compat = false ∧ t.me.grantPend = [])
    ∧ (fld t.me.k.spfault 32 2 = 0 ∧ t.me.status.nfail ≠ 0) := by decide +kernel

/-- Barrier 2 of the gallery with one arrival of two; a queue of four slots, empty, full, with a slot ready, and closed. -/
def queue : QueueDecl := ⟨0, 0x800, 0x900, 4, 2, some 0, some 1⟩
def queued (stage res closed : Nat) (slots : List QSlot) : State :=
  let s := { base with launches := [{ launch with obj := { code with queues := [(3, queue)] } }] }
  let s := s.modMe fun x => { x with bound := some (7, stage) }
  let s := ((withG s [(4, 0x140)]).cbWrite 0 queue 12 4 res).cbWrite 0 queue 20 1 closed
  s.setGal 0 { s.gal 0 with slots := slots }

theorem witness_SynchronisationInstructionsRun_barriers :
    (let s := waiting.setBarrier 0 false 2 ⟨2, [5]⟩;
      s.cleanG [9] ∧ (s.rdG 9).toNat % 2 ^ 16 = 2 ∧ s.cur.bdone = true ∧ s.cur.fin = .ok ∧ s.me.barr = none ∧ s.saved = []
      ∧ (s.barrier 0 false 2).arrivals = [5] ∧ (s.barrier 0 false 2).count = 2 ∧ 0 ∉ (s.barrier 0 false 2).arrivals
      ∧ (s.barrier 0 true 1).arrivals = [] ∧ s.launches.all (fun l => !l.assay) = true)
    ∧ ((waiting.rdG 10).toNat % 2 ^ 16 = 0 ∧ 2044 < (waiting.rdG 11).toNat % 2 ^ 16)
    ∧ (waiting.modMe fun y => { y with barr := some true }).me.barr = some true := by decide +kernel

/-- No launch is an assay, so no shift has a twin. -/
theorem witness_SynchronisationInstructionsRun_twins (k : Nat) : (waiting.setBarrier 0 false 2 ⟨2, [5]⟩).assayPair k = none := by
  have hl : ∀ l, (waiting.setBarrier 0 false 2 ⟨2, [5]⟩).launchOf k = some l → l.assay = false := by
    intro l h
    have hs : (waiting.setBarrier 0 false 2 ⟨2, [5]⟩).launches = [launch] := by decide +kernel
    unfold State.launchOf at h
    split at h
    · rw [hs] at h
      have := List.mem_of_find?_eq_some h
      simp only [List.mem_singleton] at this
      rw [this]
      rfl
    · cases h
  unfold State.assayPair
  split
  · rfl
  · next l h => simp [hl l h]

theorem witness_SynchronisationInstructionsRun_queues :
    (let s := queued 0 2 0 [];
      s.queueDecl s.cur.shift 3 = some queue ∧ s.myStage = some 0 ∧ s.cleanG [4] ∧ s.qClosed 0 queue = false
      ∧ s.closePending 3 = false ∧ (s.rdG 4).toNat % 64 = 0 ∧ s.qOcc 0 queue = 2 ∧ s.lsIdle
      ∧ Memory.wf s.mem = true ∧ (s.gals.all fun p => Memory.wf p.2.sp && p.2.tags.isEmpty) = true
      ∧ (let off := (queue.ring + 64 * (s.qRes 0 queue % queue.cap)) % 2 ^ 24;
        (∀ j, j < 64 → s.violation s.cur.shift (off + j) = none) ∧ ((s.rdG 4).toNat + 64 ≤ queue.cb + 12 ∨ queue.cb + 16 ≤ (s.rdG 4).toNat)
        ∧ (off + 64 ≤ queue.cb + 12 ∨ queue.cb + 16 ≤ off)))
    ∧ (queued 0 4 0 []).qOcc 0 queue = 4
    ∧ (let s := queued 1 2 0 [⟨3, 1, .ready, 9, 1⟩];
      s.myStage = some 1 ∧ s.oldestReady 0 3 queue = some ⟨3, 1, .ready, 9, 1⟩)
    ∧ (let s := queued 1 0 1 [];
      s.oldestReady 0 3 queue = none ∧ s.slotsIn 0 3 .rsvd = [] ∧ s.qClosed 0 queue = true)
    ∧ (queued 1 0 0 []).oldestReady 0 3 queue = none ∧ (queued 1 0 0 []).qClosed 0 queue = false := by decide +kernel


/-- Ends of bundles: of a YIELD with no other shift READY on its core and with one; of a RETIRE whose task owns the slot at HEAD. -/
def ending (a : After) (slots : List QSlot) (other : RunSt) : State :=
  let s := queued 1 3 0 slots
  { s with cur := { s.cur with after := a }, d := { s.d with trmask := 4, trsize := 16 }, shifts := s.shifts ++ [(1, { Shift.initial with st := other })] }
def taken : QSlot := ⟨3, 0, .taken, 0, 1⟩

theorem witness_SynchronisationInstructionsRun_ends :
    (let s := ending .yield [] .idle; s.cur.after = .yield ∧ (∀ m ∈ State.shiftsOf 0, m ≠ 0 → (s.sh m).st ≠ .running ∧ (s.sh m).st ≠ .ready))
    ∧ (let s := ending .yield [] .ready; s.cur.after = .yield ∧ (∀ m ∈ State.shiftsOf 0, m ≠ 0 → (s.sh m).st ≠ .running) ∧ (s.sh 1).st = .ready)
    ∧ (let s := ending .retire [taken] .idle; s.cur.after = .retire ∧ s.cur.shift = 0 ∧ (s.gal 0).slots = [taken]
      ∧ s.myQueues 0 = [(3, queue)] ∧ taken.idx.toNat = s.qHead 0 queue ∧ Memory.wf s.mem = true
      ∧ (s.gals.all fun p => Memory.wf p.2.sp && p.2.tags.isEmpty) = true ∧ s.me.bound = some (7, 1) ∧ s.isTwin 0 = false
      ∧ s.d.trmask.getLsbD 2 = true ∧ s.d.trtail - s.d.trhead ≠ s.d.trsize ∧ s.me.task.isSome = true)
    ∧ (let s := ending .retire [taken, ⟨3, 1, .ready, 9, 1⟩] .idle; (s.gal 0).slots = [taken, ⟨3, 1, .ready, 9, 1⟩]) := by decide +kernel

/-- The counts where the clauses of a barrier meet: 1 releases at once, 32 and 2,044 wait, 33 and 2,045 are refused. -/
theorem witness_barrier_counts :
    let at_ := fun (c : Nat) => withG waiting [(9, c)]
    let fin := fun (i : Instr) (c : Nat) => match (answered (exec i (at_ c))).cur.fin with
      | .ok => 0
      | .blocked => 1
      | .trap r _ => if r.cause = .queue then 2 else 3
    [1, 32, 33].map (fin (.barg 9 2)) = [0, 1, 2] ∧ [1, 2044, 2045].map (fin (.bard 9 2)) = [0, 1, 2] := by decide +kernel

def supervisor (s : State) : State := s.modMe fun x => { x with k := { x.k with priv := true } }

/-- Numbers: unassigned 0x50, read-only 4, a supervisor's 0x100, one that only supervisor code writes 0x23, a user's 0x10, and
ctx.mode, whose PORT a value keeps or changes. -/
theorem witness_CsrAccessesFollowTheirNumber :
    csrKnown 0x50 = false ∧ (csrKnown 4 = true ∧ csrReadOnly 4 = true)
    ∧ (csrKnown 0x100 = true ∧ base.me.k.priv = false ∧ csrReadOnly 0x100 = false ∧ (supervisor base).me.k.priv = true)
    ∧ (csrKnown 0x23 = true ∧ csrReadOnly 0x23 = false ∧ csrSupWrite 0x23 = true)
    ∧ (csrKnown 0x10 = true ∧ csrReadOnly 0x10 = false ∧ csrSupWrite 0x10 = false ∧ base.cleanG [4])
    ∧ (csrKnown 1 = true ∧ csrReadOnly 1 = false ∧ csrSupWrite 1 = false ∧ (base.rdG 4).getLsbD 1 = false)
    ∧ (base.me.k.priv = false ∧ ((withG base [(4, 2)]).rdG 4).getLsbD 1 = true ∧ (withG base [(4, 2)]).me.pendingG.contains 4 = false
      ∧ (withG base [(4, 2)]).me.pendingMx.contains 4 = false)
    ∧ ((base.rdG 4).getLsbD 0 = (base.csrGet base.cur.shift 0).getLsbD 0
      ∧ (nums.cleanG [2] ∧ (nums.rdG 2).getLsbD 0 ≠ (nums.csrGet nums.cur.shift 0).getLsbD 0)) := by decide +kernel

theorem witness_SystemInstructionsRun :
    let s := withG base [(4, 35), (5, 0x0B0A090807060504), (6, 0x0C)]
    let good (r : Word64) : Bool := (List.range 8).all fun j => decide (r.toNat / 2 ^ (8 * j) % 16 ≤ 0xB)
      && decide (r.toNat / 2 ^ (8 * j + 4) % 8 ≤ 5) && decide (r.toNat / 2 ^ (8 * j + 7) % 2 = 0)
    s.cleanG [4, 5] ∧ good (s.rdG 5) = true ∧ s.cleanG [4, 6] ∧ good (s.rdG 6) = false ∧ waiting.cur.bdone = true
    ∧ (waiting.published.find? (fun p => p.1 = waiting.cur.x)).isNone = true ∧ s.me.k.rngmode = 0 := by decide +kernel

/-- A shift with a user handler at 0x4000 that takes every cause, and a record of `c`. -/
def handling (c : Cause) (priv ppriv : Bool) : State := base.modMe fun x => { x with
  k := { x.k with cause := .ofNat 9 c.code, spc := 0x2000, fpc := 0x3000, priv := priv, ppriv := ppriv }
  arch := { x.arch with c := { x.arch.c with trapvec := 0x4000, trapmask := BitVec.allOnes 64 } } }

theorem witness_SystemInstructionsRun_traps :
    let s := handling .align false false
    ((handling .align false true).me.k.priv = false ∧ (handling .align false true).me.k.ppriv = true)
    ∧ (s.me.k.ppriv = false ∧ memoryCode (s.me.k.cause.toNat % 256) = false)
    ∧ memoryCode ((handling .uce true false).me.k.cause.toNat % 256) = true
    ∧ (s.cur.ctl = .fall ∧ s.me.inflight = [] ∧ s.me.mrd = [] ∧ s.me.mxFl = [] ∧ s.me.lsq = [] ∧ s.me.memTrap = none ∧ (∀ m ∈ s.me.arch.l.toList, m.act = false))
    ∧ s.me.k.inh = false ∧ State.handlerOf s.me .swtrap = some (0x4000, false) := by decide +kernel

theorem witness_ExceptionsEnterTheirHandler :
    let s := handling .align false false
    (Cause.align.memory = false ∧ (s.sh 0).inflight = [] ∧ (s.sh 0).mrd = [] ∧ (s.sh 0).mxFl = [] ∧ (s.sh 0).lsq = [] ∧ (s.sh 0).memTrap = none
      ∧ (s.sh 0).k.inh = false ∧ State.handlerOf (s.sh 0) .align = some (0x4000, false))
    ∧ (State.handlerOf (s.sh 0) .lostctx = none ∧ Cause.lostctx.memory = false ∧ s.assayPair 0 = none)
    ∧ ((base.sh 0).arch.c.trapvec &&& ~~~ 3#64 = 0 ∧ (s.sh 0).arch.c.trapvec &&& ~~~ 3#64 ≠ 0)
    ∧ (Cause.guard ∉ [Cause.trans, .perm, .grant, .uce, .gateovf, .lostregion, .lostctx, .watchdog, .swtrap, .emul]
      ∧ (s.sh 0).k.priv = false ∧ (s.sh 0).arch.c.trapmask.getLsbD Cause.guard.code = true) := by decide +kernel

/-- A pending memory fault with a shadow behind it, in a phase that may restart or not. -/
def faulted (nr : Bool) : State := { ((handling .align false false).modMe fun x => { x with
  shadow := some Arch.zero, gate := [.store 5 none 6 8 7 false 5], memTrap := some ⟨.trans, 0x1000, 4, 9, 0⟩, k := { x.k with nr := nr } }) with
  arg := .unit 0, cur := Cur.nothing }

theorem witness_MemoryFaultsRollBackTheirPhase :
    (Cause.trans.memory = true ∧ ((faulted false).sh 0).memTrap = some ⟨.trans, 0x1000, 4, 9, 0⟩
      ∧ ((faulted false).sh 0).k.nr = false ∧ ((faulted false).sh 0).shadow = some Arch.zero ∧ ((faulted false).sh 0).k.inh = false
      ∧ ((faulted false).sh 0).k.svec.getLsbD 0 = true ∧ (faulted false).myQueues 0 = [])
    ∧ (((faulted true).sh 0).k.nr = true ∧ (faulted true).assayPair 0 = none)
    ∧ ((base.sh 0).gate = [] ∧ (base.sh 0).closePend = []) := by decide +kernel

/-- The bundle of PHASE, opened for its boundary only. -/
theorem witness_MemoryFaultsRollBackTheirPhase_boundary :
    let s := at_ (State.reset.withFetchWord 32 0x60000000) (.unit 0)
    s.canOpen 0 = true ∧ State.inCommit (s.sh 0) = false ∧ s.draining 0 = false ∧ (s.openBundle 0).cur.fin = .ok
    ∧ ((State.acting (s.openBundle 0).cur).any fun t => State.isBoundary t.instr) = true := by decide +kernel

/-- Shift 0's bundle of one boundary, in front of which two stores stand in the gate; a commit that has begun. -/
def bounding (i : Instr) (want : Want) (st : BndSt) (gate : List GateEntry) : State :=
  let s := withG base [(4, 8)]
  { (s.modMe fun x => { x with gate := gate, bndSt := st, bnd := 1, shadow := some Arch.zero, pc := 0x1000 }) with
    cur := { s.cur with slots := [⟨7, false, i, none⟩], want := want } }
def stores : List GateEntry := [.store 0x50 none 0x50 8 0x1122334455667788 false 1, .store 0x54 none 0x54 4 0xAABBCCDD false 2]

/-- Nothing in front of the boundary, nothing to wait for, nothing to raise. -/
def mayBound (s : State) : Bool :=
  decide (s.cur.shift = 0) && decide (s.cur.fin = .ok) && decide (s.assayPair 0 = none) && (earlyTrap exec s s.myProfile s.cur.slots).isNone
    && s.interlock.isEmpty && !s.guardPois && (State.acting s.cur).any (fun t => State.isBoundary t.instr) && Memory.wf s.mem
    && s.me.closePend.isEmpty
    && !s.boundaryWaits 0 ((State.acting s.cur).any fun t => State.isBoundary t.instr && State.waitsCopies t.instr)
    && s.me.mxFault.isNone && (lateTrap exec s (State.acting s.cur)).isNone && decide (s.me.grantPend = []) && decide (fld s.me.k.spfault 32 2 = 0)
    && !s.me.status.link && decide (s.me.status.nfail = 0)

theorem witness_BoundariesCommitBeforeTheirBundle :
    ([Instr.phase, .barg 4 1, .bard 4 1, .retire, .seamret 9 4 5 0, .aadd 9 4 5 2 0].all fun i =>
      mayBound (bounding i .boundary .away stores) && mayBound (bounding i .commit .away stores)
        && mayBound (bounding i .boundary (.committing 5 none) [])) = true
    ∧ (bounding .phase .boundary .away stores).me.gate = stores
    ∧ (let s := { ((bounding .phase .commit (.committing 5 none) stores).modMe fun x => { x with st := .blocked }) with arg := .unit 0 }
      State.inCommit (s.sh 0) = true ∧ (s.sh 0).gate = .store 0x50 none 0x50 8 0x1122334455667788 false 1 :: stores.drop 1)
    ∧ (let s := (mapped (.atomic .add 5 placeAddr 8 7 0 2 false)).modSh 0 fun x => { x with gate := stores };
      s.draining 0 = true ∧ (s.sh 0).gate = .store 0x50 none 0x50 8 0x1122334455667788 false 1 :: stores.drop 1) := by
  decide +kernel

/-- What QueuesAndWaitsAdvance moves: two results, a wait that is over, a late FENCE, a pending FPX. -/
theorem witness_QueuesAndWaitsAdvance :
    (let s := { (base.modSh 0 fun x => { x with inflight := [⟨.g 5 7 true, 4, 5, 0, 0⟩, ⟨.g 6 9 true, 4, 5, 0, 0⟩] }) with arg := .pair 0 1 };
      (s.sh 0).inflight[1]? = some ⟨.g 6 9 true, 4, 5, 0, 0⟩)
    ∧ (base.modSh 0 fun x => { x with st := .blocked, blockOn := some (.sleep 0) }).canWake 0 = true
    ∧ ((base.modSh 0 fun x => { x with fences := [⟨5, 3, 5, 2000000000⟩] }).fenceLate 0) = some ⟨5, 3, 5, 2000000000⟩
    ∧ (let s := { ((handling .align false false).modSh 0 fun x => { x with fpx := [(5, ⟨.fpx, 0x900, 3, 0, 0⟩)] }) with cur := Cur.nothing };
      s.canIssue 0 = true ∧ (s.sh 0).fpx = [(5, ⟨.fpx, 0x900, 3, 0, 0⟩)] ∧ Cause.fpx.memory = false ∧ (s.sh 0).inflight = []
      ∧ (s.sh 0).mxFl = [] ∧ (s.sh 0).lsq = [] ∧ (s.sh 0).k.inh = false ∧ State.handlerOf (s.sh 0) .fpx = some (0x4000, false)) := by decide +kernel

/-- A BCAST call at the head of its queue in a group of one core. -/
theorem witness_QueuesAndWaitsAdvance_broadcast :
    let m := gemm.modArch fun r => { r with m := r.m.setIfInBounds 2 (r.m[2] ||| 16) }
    let e : MxEntry := ⟨.call 0, m.mxSnap, 0x1000, 5, none, 0, 0, none⟩
    let s := { (m.modMe fun x => { x with mxq := [e], bg := some ⟨2, 1, 0, 0, 0⟩ }) with arg := .pair 0 2, cur := Cur.nothing }
    s.activeGroups 0 2 = [[0]] ∧ s.mxHead 0 = some e ∧ State.isBcast e = true ∧ MxEntry.released e = false ∧ e.bus = none
    ∧ (∀ h ∈ State.shiftsOf 0, h = 0 ∨ s.mxPartial h = false) := by decide +kernel

/-- A stage fed by queue 3, and one that starts tasks of its own. -/
def stage (input : Option Nat) (tasks : Nat) : StageDecl := ⟨0x6000, 3, 0, 0xFF, 1, input, [], [], tasks, 4, 2, 0, 0x1000000, []⟩
def staged (l : Launch) (x : Shift) : State := { base with
  launches := [l], cur := Cur.nothing, shifts := [(0, x)], arg := .unit 0
  gals := [(0, { Gallery.initial with holder := some 7, steerCy := 256, slots := [⟨3, 0, .ready, 0, 0⟩] })] }
def fed : Launch := { launch with
  obj := { code with stages := [stage (some 3) 4], queues := [(3, { queue with hwm := 0, prod := none, cons := some 0 })] }
  started := [0], retired := [0], doneSt := [false] }

theorem witness_TasksStagesAndLaunchesMove :
    let idle := staged fed { shift with st := .idle, task := none }
    let long := staged fed { shift with task := some ⟨3, 7, 0, 1000, false, 0, false⟩ }
    let free := staged fed { shift with st := .free, task := none, bound := none, idleCy := 256, allot := (4, 2) }
    (idle.startable 0 = some (fed, 0, stage (some 3) 4) ∧ idle.assayPair 0 = none) ∧ long.watchDue 0 = true
    ∧ (256 ≤ (free.gal 0).steerCy ∧ (free.gal 0).holder.bind free.launchAt = some fed ∧ indexIn fed.place 0 = some 0
      ∧ 0 ∉ fed.stopped ∧ free.steerPick fed 0 (stage (some 3) 4) 0 = some 0 ∧ fed.twin = []
      ∧ 0 < (free.slotsIn 0 3 .ready).length)
    ∧ (let s := staged fed { shift with preemptReq := true };
      (s.sh 0).preemptReq = true ∧ (s.sh 0).task.isSome = true ∧ (s.sh 0).memTrap = none ∧ (s.sh 0).trapPend = none ∧ (s.sh 0).fpx = [] ∧ (s.sh 0).lsq = []
      ∧ State.hasClaim (s.sh 0) = false ∧ (s.sh 0).inflight = [] ∧ (s.sh 0).mxFl = [] ∧ (s.sh 0).gate = [] ∧ s.assayPair 0 = none
      ∧ (∀ q : Fin 4, (s.sh 0).cpq[q] = []))
    ∧ fed.obj.stages = [stage (some 3) 4] ∧ (stage (some 3) 4).gal = 0 ∧ fed.obj.queues.find? (fun p => p.1 = 3) = fed.obj.queues.head? := by
  decide +kernel

theorem witness_TasksStagesAndLaunchesMove_ends :
    let ended := { launch with obj := { code with stages := [stage none 0] }, started := [0], retired := [0], doneSt := [false] }
    let rest := { shift with st := .free, task := none, bound := none }
    ((staged ended { shift with st := .idle, task := none }).stageOver ended 0 (stage none 0) = true
      ∧ (staged ended { shift with st := .idle, task := none }).boundTo 7 = [(0, 0)])
    ∧ (staged { ended with doneSt := [true] } rest).launchDone { ended with doneSt := [true] } = true
    ∧ (staged { ended with halted := some 3 } rest).launchHalted { ended with halted := some 3 } = true
    ∧ (let v : Saved := ⟨7, 0, 0, 0, 4096, { shift with st := .idle }, [], none, 0⟩;
      let s := { staged ended rest with saved := [v] };
      s.savedRow 0 0 = some v ∧ s.launchAt 7 = some ended ∧ v.gal ∉ ended.stopped ∧ s.canTake ended v 0 = true
      ∧ ended.assay = false ∧ State.bgTags v.sh = [] ∧ (v.sh.bound.map fun p => p.1) = some v.seq ∧ (∀ w ∈ s.saved, w.vid = v.vid → w = v)) := by decide +kernel

/-- A request with command code `c` is served. -/
def asked (c : Nat) (s : State) : State := { s with cur := Cur.nothing, bar := { s.bar with mbBusy := true, mbReq := s.bar.mbReq.setIfInBounds 0 (.ofNat 64 c) } }

theorem witness_MailboxCommandsTakeEffect :
    let none_ := { base with launches := [] }
    let kept := { base with launches := [{ launch with savetid := 0x100005 }] }
    let halted := { base with launches := [{ launch with savetid := 0x100005, stopped := [0] }] }
    ([1, 2, 3, 4, 5, 6, 7, 8, 9, 10].all fun c => (asked c base).serves c) = true
    ∧ ({ base with frame := { base.frame with st := .safe } }).frame.st = .safe ∧ none_.bar.chipSet = false ∧ (6143#13).toNat ≤ 6143
    ∧ (kept.launchAt 7 = some { launch with savetid := 0x100005 } ∧ (0x100005#21).getLsbD 20 = true
      ∧ kept.launches.all (fun l => l.place.length ≤ l.ngal) = true ∧ (kept.sh 0).task ≠ none)
    ∧ (halted.launchAt 7 = some { launch with savetid := 0x100005, stopped := [0] } ∧ (∀ p ∈ halted.shifts, p.2.preemptReq = false))
    ∧ base.frame.lmsIdx < 2 ^ 20 ∧ ({ base with frame := { base.frame with imageOk := true } }).frame.imageOk = true
    ∧ (0x8000000000000003 : Word64).getLsbD 63 = true ∧ (base.gal 0).holder ≠ none ∧ (base.gal 63).holder = none := by decide +kernel

/-- Where the request's bytes name launch 7 as a whole, and where they name its gallery 0 and gallery 1 as its new place. -/
theorem witness_MailboxCommandsTakeEffect_launch (d : Option Nat × Option Nat) (h : d = (none, none) ∨ d = (some 0, some 1)) :
    let halted := { base with launches := [{ launch with savetid := 0x100005, stopped := [0] }] }
    let l := { launch with savetid := 0x100005, stopped := [0] }
    (∀ k ∈ (match d.1 with | some k => [k] | none => List.range l.ngal), k < l.ngal ∧ k ∈ l.stopped)
    ∧ halted.roomFor l 0 0 = true ∧ l.place[0]? = some 0 ∧ halted.canMove l 0 0 1 = true ∧ (asked 6 halted).serves 6 = true := by
  rcases h with rfl | rfl <;> decide +kernel

theorem witness_HostAccessesAndEventsPass :
    base.frame.st ≠ .cold ∧ 0x138 = 0x100 + 8 * 7 ∧ ((asked 10 base).bar.mbReq[0]).toNat % 256 = 10 ∧ (1#64).getLsbD 0 = true
    ∧ base.frame.st = .full ∧ ({ base with kicks := [⟨0, code, 0⟩] }).kicks ≠ [] ∧ (0#64).setWidth 32 = base.bar.kseq + 1
    ∧ base.frame.hbmUp = true ∧ 5 + 3 ≤ State.hbmBytes ∧ State.hbmBytes - 2 + 2 ≤ State.hbmBytes
    ∧ (base.bar.evTail - base.bar.evHead).toNat < 2 ^ base.bar.evLog.toNat ∧ Memory.wf base.mem = true := by decide +kernel

theorem high_word (c : BitVec 32) : ((c ++ 0#32) >>> 32).setWidth 32 = c := by
  ext i hi
  simp only [BitVec.getElem_setWidth, BitVec.getLsbD_ushiftRight, BitVec.getLsbD_append]
  simp [show ¬ (32 + i < 32) by omega]
  exact BitVec.getLsbD_eq_getElem hi

theorem low_word (c : BitVec 32) : (c ++ 0#32).setWidth 32 = 0#32 := by
  ext i hi
  simp only [BitVec.getElem_setWidth, BitVec.getLsbD_append]
  simp [hi]

theorem ne_succ (c : BitVec 32) : c ≠ c + 1 := by
  intro h
  have h2 := congrArg BitVec.toNat h
  rw [BitVec.toNat_add] at h2
  have := c.isLt
  have : (1 : BitVec 32).toNat = 1 := rfl
  omega

/-- A kick whose CRC matches its packet at its last reading, and one whose CRC does not. -/
theorem witness_HostAccessesAndEventsPass_kick (c : BitVec 32) (hc : c = crc32 polyIeee (base.ringPacket 0)) :
    ((c ++ 0#32).setWidth 32 = 0#32 ∧ crc32 polyIeee (base.ringPacket 0) = ((c ++ 0#32) >>> 32).setWidth 32)
    ∧ crc32 polyIeee (base.ringPacket 0) ≠ (((c + 1) ++ 0#32) >>> 32).setWidth 32 := by
  refine ⟨⟨low_word c, ?_⟩, ?_⟩
  · rw [high_word, hc]
  · rw [high_word, ← hc]
    exact ne_succ c

theorem witness_DeviceEventsTakeEffect :
    State.reset.frame.st = .cold
    ∧ ({ base with frame := { base.frame with st := .safe, imageOk := true } }).frame.imageOk = true
    ∧ ({ base with launches := [], frame := { base.frame with st := .reduced } }).frame.st = .reduced
    ∧ base.frame.st ≠ .cold ∧ base.health.ce ≠ 0xFFFFFFFF ∧ crc32 polyC (State.flitBytes 7) = crc32 polyC (State.flitBytes 7)
    ∧ crc32 polyC (State.flitBytes 7) ≠ 0 ∧ lget base.replays 5 0 < 16
    ∧ 16 ≤ lget ({ base with replays := [(5, 16)] }).replays 5 0
    ∧ (let z := { base.health with degTh := 1, repTh := 5 }; z.ce + 1 = z.degTh ∧ z.ce + 1 ≠ z.repTh)
    ∧ base.health.ce + 1 ≠ base.health.degTh ∧ base.health.ce + 1 ≠ base.health.repTh
    ∧ (lget ({ base with retry := [(5, [77])] }).retry (5#13).toNat [])[0]? = some 77
    ∧ (receiving.bar.chipNo = 7 ∧ receiving.bar.chipSet = true ∧ base.bar.chipSet = false ∧ (5#480).extractLsb' 0 13 ≠ receiving.bar.chipNo) ∧ (5#13) ∉ base.health.degraded ∧ (5#13) ∉ base.health.dead
    ∧ base.frame.launchSeen = true ∧ State.reset.frame.launchSeen = false ∧ base.frame.hbmUp = true
    ∧ 500 + 2 ≤ State.hbmBytes := by decide +kernel



/-! A save tensor, 2: 32 rows of 589,824 bytes in tiles of 32 KiB, with the pages of the first row and the same home. -/

def savable : State :=
  let s := { (base.modMe fun x => { x with preemptReq := true, k := { x.k with savetid := .ofNat 21 (2 + 2 ^ 20) } }) with
    cur := Cur.nothing, arg := .unit 0, bar := { base.bar with chipSet := true, chipNo := 7 } }
  let s := putM s (frameBytes + 256) 128 (entryBits 2 9 0 7 [0, 15] [32, 589824] 3 0 0 0)
  (List.range 11).foldl (fun s t => page s 3 t (onPort 2 t (6 + t)) 7) s

/-- The places of the area of `savable`'s shift 0. -/
def areaOf (s : State) (acc : Acc) : Except Nat (List Nat) :=
  s.areaTiles (s.sh 0).k 0 (8 * (10240 + 8192 * 4)) acc

theorem areas :
    (match areaOf savable .write with
    | .ok keys => decide (keys.length = 11) && decide (keys.Pairwise fun a b => a + 32768 ≤ b ∨ b + 32768 ≤ a)
    | .error _ => false) = true := by decide +kernel

def keysOf (s : State) (acc : Acc) : List Nat := match areaOf s acc with
  | .ok keys => keys
  | .error _ => []

/-- A pre-emption with an area that translates, and one without a save tensor. -/
theorem witness_TasksStagesAndLaunchesMove_save :
    let s := savable
    let t := savable.modSh 0 fun x => { x with k := { x.k with savetid := 0 } }
    let s1 := (s.landAll 0).atRest 0
    let t1 := (t.landAll 0).atRest 0
    (s1.areaTiles (s1.sh 0).k (s1.saveRow 0) (8 * (s1.saveImage 0).length) .write).toOption = some (keysOf savable .write)
    ∧ (keysOf savable .write).Pairwise (fun a b => a + 32768 ≤ b ∨ b + 32768 ≤ a) ∧ s.d.trmask.getLsbD 8 = false ∧ (s.sh 0).mrd = []
    ∧ (t1.areaTiles (t1.sh 0).k (t1.saveRow 0) (8 * (t1.saveImage 0).length) .write).toOption = none
    ∧ s.arg = .unit 0 ∧ (s.sh 0).preemptReq = true ∧ (s.sh 0).task.isSome = true ∧ (s.sh 0).memTrap = none ∧ (s.sh 0).trapPend = none
    ∧ (s.sh 0).fpx = [] ∧ (s.sh 0).lsq = [] ∧ State.hasClaim (s.sh 0) = false ∧ (s.sh 0).inflight = [] ∧ (s.sh 0).mxFl = []
    ∧ (s.sh 0).gate = [] ∧ s.assayPair 0 = none ∧ (∀ q : Fin 4, (s.sh 0).cpq[q] = []) := by
  intro s t s1 t1
  have h1 : (s1.saveImage 0).length = 10240 + 8192 * 4 := by
    rw [State.saveImage_length s1 0 (by decide +kernel)]; decide +kernel
  have h2 : (t1.saveImage 0).length = 10240 + 8192 * 4 := by
    rw [State.saveImage_length t1 0 (by decide +kernel)]; decide +kernel
  rw [h1, h2]
  decide +kernel

/-- The same context, saved, and an empty shift that takes it back from the same words. -/
def kept : Saved := ⟨7, 0, 0, 0, 4096, savable.sh 0, [], none, 0⟩
def away : State :=
  let ended := { launch with obj := { code with stages := [stage none 0] }, started := [0], retired := [0], doneSt := [false] }
  let s := staged ended { shift with st := .free, task := none, bound := none }
  { s with mem := savable.mem, bar := savable.bar, saved := [kept], arg := .pair 0 0 }
def back : State := away.areaPut (keysOf savable .write) 0 (wordBytes (savable.saveImage 0))

theorem witness_TasksStagesAndLaunchesMove_resume :
    let s := back
    let keys := keysOf savable .write
    let len := 10240 + 8192 * kept.sh.k.na.toNat
    (s.areaTiles kept.sh.k kept.row (8 * len) .read).toOption = some keys ∧ s.areaPois keys (8 * len) = none
    ∧ s.areaWords keys len = savable.saveImage 0 ∧ kept.sh = savable.sh 0 ∧ kept.lost = none ∧ s.arg = .pair 0 0 ∧ s.savedRow 0 0 = some kept
    ∧ (match s.launchAt kept.seq with
      | some l => !l.assay && !l.stopped.contains kept.gal && s.canTake l kept 0
      | none => false) = true
    ∧ State.bgTags kept.sh = [] ∧ (kept.sh.bound.map fun p => p.1) = some kept.seq ∧ (∀ w ∈ s.saved, w.vid = kept.vid → w = kept) := by
  intro s keys len
  have hl : (savable.saveImage 0).length = len := State.saveImage_length savable 0 (by decide +kernel)
  have hk : keys.length = 11 := by decide +kernel
  obtain ⟨e, he⟩ : ∃ e, away.tensorEntry kept.sh.k.ttbase kept.sh.k.ttlim (fld kept.sh.k.savetid 0 20) = some e :=
    Option.isSome_iff_exists.mp (by decide +kernel)
  have hx : (match away.tensorEntry kept.sh.k.ttbase kept.sh.k.ttlim (fld kept.sh.k.savetid 0 20) with
    | some e => decide (eXm e = false) && (List.range 11).all fun o => keys.all fun a => decide (away.chipKey (away.entryHome e) (eTtf e * frameBytes
      + 8 * (tileIndex e (fun j => (([(kept.row : Int), ((32768 * o : Nat) : Int)].take (eNdim e)).getD j 0).toNat) (eNdim e)).1) + 8 ≤ a)
    | none => false) = true := by decide +kernel
  rw [he] at hx
  simp only [Bool.and_eq_true, decide_eq_true_eq, List.all_eq_true, List.mem_range] at hx
  refine ⟨?_, ?_, ?_, rfl, by decide +kernel⟩
  · have := State.areaTiles_areaPut away keys (wordBytes (savable.saveImage 0)) kept.sh.k kept.row (8 * len) .read e he hx.1
      (by decide +kernel) fun o ho => hx.2 o (by have : (8 * len + 32767) / 32768 = 11 := by decide +kernel
                                                 omega)
    rw [show s = away.areaPut keys 0 (wordBytes (savable.saveImage 0)) from rfl, this]
    decide +kernel
  · decide +kernel
  · have := State.areaWords_areaPut away keys (savable.saveImage 0) (by decide +kernel) (by rw [hl, hk]; decide +kernel)
    rw [hl] at this
    exact this

/-- A context that is lost, one without a save tensor, and one whose area is poisoned. -/
theorem witness_TasksStagesAndLaunchesMove_lost :
    let keys := keysOf savable .write
    let len := 10240 + 8192 * kept.sh.k.na.toNat
    ({ kept with lost := some 0 } : Saved).lost ≠ none
    ∧ (away.areaTiles { kept.sh.k with savetid := 0 } kept.row (8 * len) .read).toOption = none
    ∧ (away.areaTiles kept.sh.k kept.row (8 * len) .read).toOption = some keys
    ∧ ({ away with poisonM := [keys.headD 0 + 9] }).areaPois keys (8 * len) = some 9 := by decide +kernel

/-- One compiled gallery finds a place where one gallery suits it. -/
theorem place_one (s : State) (k : Nat) (ok free : List Nat) (h : (free.filter ok.contains) ≠ []) :
    ∃ l, s.choosePlaces [(k, ok)] free = some l := by
  have hr : rotated (free.filter ok.contains) (Config.pickGallery s.freeN k) ≠ [] := fun h0 => h (by
    have := congrArg List.length h0
    rw [rotated, List.length_append, List.length_drop, List.length_take, List.length_nil] at this
    have := Nat.mod_lt (Config.pickGallery s.freeN k) (show 0 < max 1 (free.filter ok.contains).length by omega)
    exact List.eq_nil_of_length_eq_zero (by omega))
  obtain ⟨g, r, hg⟩ := List.exists_cons_of_ne_nil hr
  refine ⟨[(k, g)], ?_⟩
  rw [State.choosePlaces, hg]
  rfl

/-- A kick whose packet, in ring slot 0, asks for one gallery; its object has one stage of one shift, or is unfit. -/
def kicked : State := putM { base with launches := [], gals := [], shifts := [] } 8 2 1
def oneStage : CodeObject := { code with stages := [stage none 4] }

theorem witness_HostAccessesAndEventsPass_launch :
    let s := kicked
    let p : Pkt := .ofNat 2048 (State.packBytes (s.ringPacket 0))
    ((p.reserved = false ∧ 1 ≤ p.ngal ∧ p.ngal ≤ 64 ∧ objectOk p.ngal oneStage = true ∧ s.saveOk p oneStage.stages = true)
      ∧ (bindGallery oneStage.stages 0).isSome = true ∧ objectOk p.ngal { oneStage with relocs := [1] } = false)
    ∧ ∃ place twin, s.placement 0 p.ngal p.assay oneStage = some (place, twin) := by
  intro s p
  refine ⟨by decide +kernel, ?_⟩
  have hn : p.ngal = 1 := by decide +kernel
  have ha : p.assay = false := by decide +kernel
  rw [hn, ha]
  unfold State.placement
  simp only [show ((List.range 1).map (bindGallery oneStage.stages)).any Option.isNone = false by decide +kernel,
    show decide (s.freeGals.length < 1) = false by decide +kernel, Bool.false_eq_true, if_false, Bool.or_self]
  obtain ⟨l, hl⟩ := place_one s 0 (s.freeGals.filter (s.suits 0 oneStage.routines ((bindGallery oneStage.stages 0).getD []))) s.freeGals
    (by decide +kernel)
  have hd : ∀ (f : Option (List (Nat × Nat × Nat)) → List Nat) (b : Nat → Option (List (Nat × Nat × Nat))),
      ((List.range 1).map fun i => (i, f ((((List.range 1).map b)[i % 1]?).getD none))) = [(0, f (b 0))] := fun _ _ => rfl
  rw [hd (fun b => s.freeGals.filter (s.suits 0 oneStage.routines (b.getD []))), hl]
  exact ⟨_, _, rfl⟩

/-! ### Steps whose result the manual gives -/

/-- The worked conversions of 07 (under R149): source in F32, target format, mode, result, flags. -/
theorem test_worked_conversions : ([(0x3E99999A, 2, 0, 0x34CD, flagNX), (0x43960000, 3, 0, 0x79, flagNX),
    (0x43FA0000, 3, 0, 0x7E, flagOF ||| flagNX), (0x43FA0000, 4, 0, 0x60, flagNX), (0x40400000, 5, 0, 0x58, 0),
    (0x42C80000, 5, 0, 0x79, flagNX), (0x459C4000, 5, 0, 0x7F, flagOF ||| flagNX), (0x3E99999A, 6, 0, 0x05, flagNX),
    (0x80000000, 5, 0, 0x00, 0)] ++ [(0x7F800000, 3, 0, 0x7F, flagNV), (0x7F800000, 6, 0, 0x20, flagNAR),
    (0xC0200000, 8, 0, 0xFE, flagNX), (0xC0200000, 8, 3, 0xFD, flagNX), (0x43964000, 8, 0, 0x7F, flagSAT ||| flagNX),
    (0x43960000, 8, 0, 0x7F, flagSAT), (0x43E80000, 3, 0, 0x7E, flagNX), (0x477FF000, 2, 0, 0x7C00, flagOF ||| flagNX)] :
    List (Nat × Nat × Nat × Nat × Flags)).all (fun (x, f, rm, r, fl) =>
      decide (Machine.round f (decodeNum 0 x).1 rm 0 = (r, fl))) = true := by decide +kernel

/-- 0x3F80_3000 to BF16 under SB4 is 0x3F81 when ρ < 3 and 0x3F80 otherwise, inexact either way (07, under R149). -/
theorem test_stochastic_rounding : ((List.range 16).all fun rho =>
    decide (Machine.round 1 (decodeNum 0 0x3F803000).1 4 rho = (if rho < 3 then 0x3F81 else 0x3F80, flagNX))) = true := by
  decide +kernel

/-- The constants of the tapered formats (07, under R135). -/
theorem test_tapered_constants : (Machine.round 0 (decodeNum 5 0x7F).1 0 0) = (0x45800000, 0)
    ∧ (Machine.round 0 (decodeNum 5 0x01).1 0 0) = (0x39800000, 0) ∧ (Machine.round 0 (decodeNum 6 0x1F).1 0 0) = (0x41800000, 0)
    ∧ (decodeNum 5 0x80) = (.nan false, true) ∧ (decodeNum 6 0x20) = (.nan false, true) := by decide +kernel

/-- What an instruction puts in flight for register d. -/
def gives (s : State) (i : Instr) (d : R5) : Option Word64 :=
  (answered (exec i s)).me.inflight.findSome? fun l => match l.what with
    | .g r x _ => if r = d then some x else none
    | _ => none
def givesV (s : State) (i : Instr) (d : R5) (f e : Nat) : Option Nat :=
  (answered (exec i s)).me.inflight.findSome? fun l => match l.what with
    | .v r x => if r = d then some (getEl f x.data e) else none
    | _ => none

def scalars : State := withG base [(1, 2 ^ 64 - 1), (2, 1), (3, 0), (4, 2 ^ 63), (5, 0xF0F0), (6, 0x1234), (7, 70)]

theorem test_scalar_corners : gives scalars (.add 9 1 2) 9 = some 0 ∧ gives scalars (.div 9 4 1) 9 = some 0x8000000000000000
    ∧ gives scalars (.rem 9 4 1) 9 = some 0 ∧ gives scalars (.div 9 2 3) 9 = some 0xFFFFFFFFFFFFFFFF
    ∧ gives scalars (.remu 9 6 3) 9 = some 0x1234 ∧ gives scalars (.mulh 9 1 1) 9 = some 0
    ∧ gives scalars (.mulhu 9 1 1) 9 = some 0xFFFFFFFFFFFFFFFE ∧ gives scalars (.sll 9 2 7) 9 = some 0x40
    ∧ gives scalars (.sra 9 4 7) 9 = some 0xFE00000000000000 ∧ gives scalars (.slt 9 1 2) 9 = some 1
    ∧ gives scalars (.sltu 9 1 2) 9 = some 0 := by decide +kernel

theorem test_scalar_bits : gives scalars (.bext 9 6 5) 9 = some 0x13 ∧ gives scalars (.bdep 9 7 5) 9 = some 0x4060
    ∧ gives scalars (.clz 9 3) 9 = some 64 ∧ gives scalars (.ctz 9 4) 9 = some 63 ∧ gives scalars (.popc 9 5) 9 = some 8
    ∧ gives scalars (.fshl 9 2 4 4) 9 = some 0x18 ∧ gives scalars (.lut3 9 5 6 2 0xE8) 9 = some 0x1030
    ∧ gives scalars (.xori 9 6 (-1) none) 9 = some 0xFFFFFFFFFFFFEDCB ∧ gives scalars (.li 9 1 (some 1)) 9 = some 0x401 := by
  decide +kernel

/-- A write to g0 is discarded; the scratchpad is little-endian. -/
theorem test_g0_and_byte_order : (answered (exec (.add 0 1 2) scalars)).me.inflight = []
    ∧ (let s := withSp (withG base [(1, 0x40), (2, 0x0102030405060708)]) 0x40 [9, 8, 7, 6, 5, 4, 3, 2];
      gives s (.sld 9 1 0 none) 9 = some 0x0203040506070809
      ∧ (answered (exec (.sst 2 1 8 none) s)).byteS 0 0x48 = 8 ∧ (answered (exec (.sst 2 1 8 none) s)).byteS 0 0x4F = 1) := by
  decide +kernel

/-- v5's map of 08's example (under R169): AFFINE, TT 3, FP32, ID 1, OD 0, IE 6 is 0x0060_100D. -/
theorem test_map_image : ({ CMap.none with st := .affine, tt := 3, id := 1, od := 0, ie := 6 } : CMap).image % 2 ^ 64 = 0x60100D := by
  decide +kernel

/-- TOPK's example (R172): the row (3, NaN, 3, −0, +0, −∞) at inner coordinates 10 to 15 gives 3, 3, −0, +0 at 10, 12, 13, 14. -/
theorem test_topk_row :
    let v : VReg := ⟨.ofNat 2048 (0x40400000 + 0x7FC00000 * 2 ^ 32 + 0x40400000 * 2 ^ 64 + 0x80000000 * 2 ^ 96 + 0xFF800000 * 2 ^ 160),
      { CMap.none with st := .affine, id := 1, od := 0, ie := 6, datum := #v[0, 10, 0, 0, 0, 0] }, false⟩
    let s := withV base [(6, v)]
    (List.range 4).map (givesV s (.topk 12 6 3 1 0) 12 0) = [some 0x40400000, some 0x40400000, some 0x80000000, some 0]
    ∧ (List.range 4).map (givesV s (.topk 12 6 3 1 0) 13 0xB) = [some 10, some 12, some 13, some 14] := by decide +kernel

/-- The fence example of 15 (under R310): a fence of a gallery that a launch holds takes effect when the launch
gives the gallery up. -/
theorem test_fence_waits_for_the_launch :
    let t := base.fenceGals 1
    (t.gal 0).fenced = false ∧ (t.gal 0).fenceReq = true ∧ ((t.freeGallery 0).gal 0).fenced = true := by decide +kernel

/-- LBRK in mid body with no level left goes behind END_L (12 R250, R248). -/
theorem test_lbrk_in_mid_body_goes_behind_end :
    let s := { (base.modArch fun r => { r with l := levels.set 1 .zero }) with cur := { base.cur with x := 0xA00 } }
    (answered (exec (.lbrk 0) s)).closeBundle.me.pc = 0x1008 ∧ ((answered (exec (.lbrk 0) s)).closeBundle.level 0).act = false := by
  decide +kernel

/-- SEL with Q = 0 reads the guard register: it waits for a load that is to write it (02 R32, 12 R238). -/
theorem test_sel_waits_for_its_guard :
    let s := { (base.modMe fun x => { x with lsq := [⟨.load 7 0x9000 8 false, 0x900, 3⟩] }) with
      cur := { base.cur with greg := 7, slots := [⟨2, false, .sel 9 1 2, none⟩] } }
    s.interlock = [7] ∧ { s with cur := { s.cur with greg := 8 } }.interlock = [] := by decide +kernel

/-- FINS.crd shows B as 0 (10 R212): a word of it with another B is no instruction. -/
theorem test_fins_crd_has_no_payload_register :
    decodeSlot 0xD81852C9 none = none ∧ wellFormed (.fins 1 0 20 22 9) = false ∧ wellFormed (.fins 1 0 20 0 9) = true := by decide +kernel

/-- The check values of the two CRCs over the digits 1 to 9. -/
theorem test_crc_check_values : crc32 polyIeee [0x31, 0x32, 0x33, 0x34, 0x35, 0x36, 0x37, 0x38, 0x39] = 0xCBF43926
    ∧ crc32 polyC [0x31, 0x32, 0x33, 0x34, 0x35, 0x36, 0x37, 0x38, 0x39] = 0xE3069283 := by decide +kernel

/-- A misaligned SLD raises ALIGN, precise; MWR in user mode raises PRIV before anything is read (05 R104, 09 R200). -/
theorem test_traps : ((answered (exec (.sld 9 2 0 none) scalars)).cur.fin matches .trap ⟨.align, 0x1000, _, _, _⟩ false) = true
    ∧ ((answered (exec (.mwr 1 2) scalars)).cur.fin matches .trap ⟨.priv, 0x1000, _, _, _⟩ true) = true := by decide +kernel

/-- One step from the placed state runs ADD g9, g10, g11: g9 gets g10 + g11 and the pc goes behind the bundle. -/
def addPlaced : State :=
  placed.modSh 0 fun x => { x with arch := { x.arch with g := (x.arch.g.setIfInBounds 10 5).setIfInBounds 11 7 } }
theorem test_step_runs_add : (answered (step addPlaced)).me.inflight.length = 1
    ∧ ((answered (step addPlaced)).landAll 0).me.arch.g[9]? = some 12
    ∧ ((answered (step addPlaced)).sh 0).pc = placeAddr + 8 := by decide +kernel

/-- 11 R227: an ACAS that a later entry has gone ahead of waits while its comparand differs from memory. -/
theorem test_overtaken_acas_waits :
    let s := (mapped (.atomic .cas 5 placeAddr 8 7 9 0 true)).modSh 0 fun x => { x with acasGo := [5] }
    ((answered (exec .atomic s)).sh 0).lsq = (s.sh 0).lsq := by decide +kernel

/-- 11 R220: a release takes one commit a step, and is still to be performed behind it. -/
theorem test_release_commits_one_entry :
    let s := (mapped (.atomic .add 5 placeAddr 8 7 9 2 false)).modSh 0 fun x => { x with gate := stores }
    ((answered (exec .atomic s)).sh 0).gate = stores.drop 1 ∧ ((answered (exec .atomic s)).sh 0).lsq = (s.sh 0).lsq := by decide +kernel

/-- 04 R83: of two refusals the oldest is reported, at the RETIRE whose own commit they came in. -/
theorem test_retire_reports_its_refusal :
    let s := waiting.modMe fun x => { x with bndSt := .taken, grantPend := [(9, 4), (8, 5)] }
    (match (answered (exec .retire s)).cur.fin with
      | .trap r _ => decide (r.cause = .grant) && decide (r.finfo = 9)
      | _ => false) = true := by decide +kernel

end Sys2Proof.Tests
end

section
/-! PROOFS. Arrivals into a front (10 R207, R208): the order of two values and of two tuples, the branches of the
insertion rule, and which held tuple WORST0 removes. -/

namespace Sys2Proof.Machine

/-! ### The order of values -/

/-- Swapping two values turns their order round; a NaN beside a finite value or a NaN compares as 0 both ways. -/
theorem cmpNum_swap (x y : Num) : cmpNum y x = -cmpNum x y := by
  match x, y with
  | .nan _, .nan _ | .nan _, .fin _ | .fin _, .nan _ => simp [cmpNum]
  | .nan _, .inf b | .fin _, .inf b => cases b <;> simp [cmpNum]
  | .inf a, .nan _ | .inf a, .fin _ => cases a <;> simp [cmpNum]
  | .inf a, .inf b => cases a <;> cases b <;> simp [cmpNum]
  | .fin a, .fin b => simp only [cmpNum, Int.min_comm b.e a.e]; omega

namespace Front

/-! ### Dominance and equality of tuples (R207) -/

theorem cmp_eq (f : Front) (k : Nat) (a b : FTuple) :
    f.cmp k a b = (if f.dir k then 1 else -1) * cmpNum (f.val (a.obj[k]?.getD 0)) (f.val (b.obj[k]?.getD 0)) := by
  unfold cmp; split <;> simp

theorem cmp_swap (f : Front) (k : Nat) (a b : FTuple) : f.cmp k b a = -f.cmp k a b := by
  rw [cmp_eq, cmp_eq, cmpNum_swap, Int.mul_neg]

theorem mem_keys (f : Front) (k : Nat) : k ∈ f.keys ↔ k < f.nobj ∧ f.ena k = true := by
  simp [keys]

theorem dominates_iff (f : Front) (a b : FTuple) : f.dominates a b = true ↔
    (∀ k, k < f.nobj → f.ena k = true → 0 ≤ f.cmp k a b) ∧ ∃ k, k < f.nobj ∧ f.ena k = true ∧ 0 < f.cmp k a b := by
  simp [dominates, mem_keys, and_assoc]

theorem equals_iff (f : Front) (a b : FTuple) :
    f.equals a b = true ↔ ∀ k, k < f.nobj → f.ena k = true → f.cmp k a b = 0 := by
  simp [equals, mem_keys]

/-- The arrival t has a NaN in an enabled objective, as the first line of R208 asks. -/
def nanArrival (f : Front) (t : FTuple) : Bool := !f.isI32 && f.keys.any fun k => (f.val (t.obj[k]?.getD 0)).isNan

theorem nanArrival_iff (f : Front) (t : FTuple) : f.nanArrival t = true ↔
    f.isI32 = false ∧ ∃ k, k < f.nobj ∧ f.ena k = true ∧ (f.val (t.obj[k]?.getD 0)).isNan = true := by
  simp [nanArrival, mem_keys, and_assoc]

/-- The held tuples that the arrival t does not dominate. -/
def undominated (f : Front) (t : FTuple) : List FTuple := f.tuples.filter fun h => !f.dominates t h

/-! ### The tuple least good in objective 0 -/

/-- The search of `worst` stays with w while no further tuple is less good. -/
theorem foldl_worse_of_least (f : Front) (w : FTuple) (l : List FTuple) (h : ∀ y ∈ l, f.cmp 0 w y ≤ 0) :
    l.foldl (fun b x => if f.cmp 0 x b < 0 then x else b) w = w := by
  induction l with
  | nil => rfl
  | cons y r ih =>
    have hy : ¬ f.cmp 0 y w < 0 := by
      have := h y List.mem_cons_self
      rw [cmp_swap]; omega
    rw [List.foldl_cons, if_neg hy]
    exact ih fun z hz => h z (List.mem_cons_of_mem y hz)

theorem foldl_worse_mem (f : Front) (l : List FTuple) (t : FTuple) :
    l.foldl (fun b x => if f.cmp 0 x b < 0 then x else b) t ∈ t :: l := by
  induction l generalizing t with
  | nil => exact List.mem_cons_self
  | cons y r ih =>
    rw [List.foldl_cons]
    split
    · exact List.mem_cons_of_mem t (ih y)
    · exact List.cons_subset_cons t (List.subset_cons_self y r) (ih t)

/-- Objective 0 of a held tuple of l is a NaN, so that WORST0 has no order to go by (log 33). -/
def nanHeld (f : Front) (l : List FTuple) : Bool := !f.isI32 && l.any fun h => (f.val (h.obj[0]?.getD 0)).isNan

theorem not_nanHeld (f : Front) (l : List FTuple)
    (h : f.isI32 = true ∨ ∀ y ∈ l, (f.val (y.obj[0]?.getD 0)).isNan = false) : ¬ f.nanHeld l = true := by
  rcases h with h | h
  · simp [nanHeld, h]
  · have hany : (l.any fun y => (f.val (y.obj[0]?.getD 0)).isNan) = false :=
      List.any_eq_false.mpr fun y hy => Bool.eq_false_iff.mp (h y hy)
    simp only [nanHeld, hany, Bool.and_false, Bool.false_eq_true, not_false_iff]

/-- `worst` finds a tuple of a list that is not empty. -/
theorem worst_mem (f : Front) (l : List FTuple) (h : l ≠ []) : ∃ w ∈ l, f.worst l = some w := by
  cases l with
  | nil => exact absurd rfl h
  | cons t r => exact ⟨_, f.foldl_worse_mem r t, rfl⟩

/-- `worst` is w where w is less good than every tuple before it and no better than any behind it. -/
theorem worst_append_cons (f : Front) (p q : List FTuple) (w : FTuple) (hp : ∀ y ∈ p, f.cmp 0 w y < 0)
    (hq : ∀ y ∈ q, f.cmp 0 w y ≤ 0) : f.worst (p ++ w :: q) = some w := by
  cases p with
  | nil => exact congrArg some (f.foldl_worse_of_least w q hq)
  | cons t r =>
    have hb := hp _ (f.foldl_worse_mem r t)
    simp only [List.cons_append, worst, List.foldl_append, List.foldl_cons, if_pos hb]
    exact congrArg some (f.foldl_worse_of_least w q hq)

end Front

namespace State

/-! ### What WORST0 removes (R208) -/

theorem displace_of_worst (s : State) {f : Front} {l : List FTuple} {w : FTuple} (hn : ¬ f.nanHeld l = true)
    (hw : f.worst l = some w) : s.displace f l = l.erase w := by
  rw [Front.nanHeld] at hn
  rw [displace, if_neg hn, hw]

/-- Of the held tuples WORST0 removes exactly one. -/
theorem displace_eq_eraseIdx (s : State) (f : Front) (l : List FTuple) (h : l ≠ []) :
    ∃ i, i < l.length ∧ s.displace f l = l.eraseIdx i := by
  by_cases hn : f.nanHeld l = true
  · exact ⟨_, Nat.mod_lt _ (List.length_pos_iff.mpr h), if_pos hn⟩
  · obtain ⟨w, hmem, hw⟩ := f.worst_mem l h
    exact ⟨l.idxOf w, List.idxOf_lt_length_of_mem hmem, (s.displace_of_worst hn hw).trans (List.erase_eq_eraseIdx_of_idxOf rfl)⟩

/-- Where objective 0 compares, that one is the oldest of the least good. -/
theorem displace_of_least (s : State) (f : Front) (l : List FTuple) (i : Nat) (w : FTuple)
    (hn : f.isI32 = true ∨ ∀ h ∈ l, (f.val (h.obj[0]?.getD 0)).isNan = false) (hi : l[i]? = some w)
    (hw : ∀ j y, l[j]? = some y → f.cmp 0 w y < 0 ∨ f.cmp 0 w y = 0 ∧ i ≤ j) : s.displace f l = l.eraseIdx i := by
  obtain ⟨hlt, hget⟩ := List.getElem?_eq_some_iff.mp hi
  have hsplit : l = l.take i ++ w :: l.drop (i + 1) := by
    rw [← hget, List.getElem_cons_drop, List.take_append_drop]
  have hbefore : ∀ y ∈ l.take i, f.cmp 0 w y < 0 := fun y hy => by
    obtain ⟨j, hj, rfl⟩ := List.mem_take_iff_getElem.mp hy
    have := hw j _ (List.getElem?_eq_getElem (by omega))
    omega
  have hbehind : ∀ y ∈ l.drop (i + 1), f.cmp 0 w y ≤ 0 := fun y hy => by
    obtain ⟨j, hj⟩ := List.mem_iff_getElem?.mp (List.mem_of_mem_drop hy)
    have := hw j y hj
    omega
  have hnotin : w ∉ l.take i := fun h => by
    have h0 := hbefore w h
    have := f.cmp_swap 0 w w
    omega
  have hworst : f.worst l = some w := by
    rw [hsplit]; exact f.worst_append_cons _ _ w hbefore hbehind
  calc s.displace f l = l.erase w := s.displace_of_worst (f.not_nanHeld l hn) hworst
    _ = (l.take i ++ w :: l.drop (i + 1)).erase w := by rw [← hsplit]
    _ = l.take i ++ l.drop (i + 1) := by rw [List.erase_append_right _ hnotin, List.erase_cons_head]
    _ = l.eraseIdx i := (List.eraseIdx_eq_take_drop_succ l i).symm

/-! ### The branches of the insertion rule (R208) -/

theorem insert_of_nan (s : State) (f : Front) (t : FTuple) (h : f.nanArrival t = true) :
    s.insert f t = some (s, f, true) := if_pos h

theorem insert_of_dominated (s : State) (f : Front) (t : FTuple) (hn : ¬ f.nanArrival t = true)
    (hd : ∃ h ∈ f.tuples, f.dominates h t = true) : s.insert f t = some (s, f, false) :=
  (if_neg hn).trans (if_pos (List.any_eq_true.mpr hd))

theorem insert_of_equal (s : State) (f : Front) (t : FTuple) (hn : ¬ f.nanArrival t = true)
    (hd : ∀ h ∈ f.tuples, ¬ f.dominates h t = true) (hk : f.keepAll = false)
    (he : ∃ h ∈ f.tuples, f.equals h t = true) : s.insert f t = some (s, f, false) := by
  have hd' : ¬ (f.tuples.any fun h => f.dominates h t) = true := by simpa using hd
  have he' : (!f.keepAll && f.tuples.any fun h => f.equals h t) = true := by simpa [hk] using he
  exact (if_neg hn).trans ((if_neg hd').trans (if_pos he'))

/-! An arrival that no line of the rule drops evicts what it dominates, and then meets the capacity. -/

section Admitted

variable (s : State) {f : Front} {t : FTuple} (hn : ¬ f.nanArrival t = true)
  (hd : ∀ h ∈ f.tuples, ¬ f.dominates h t = true) (he : f.keepAll = true ∨ ∀ h ∈ f.tuples, ¬ f.equals h t = true)
include hn hd he

/-- None of the three dropping lines applies. -/
theorem not_dropped : ¬ (!f.isI32 && f.keys.any fun k => (f.val (t.obj[k]?.getD 0)).isNan) = true
    ∧ ¬ (f.tuples.any fun h => f.dominates h t) = true
    ∧ ¬ (!f.keepAll && f.tuples.any fun h => f.equals h t) = true := by
  refine ⟨hn, by simpa using hd, ?_⟩
  rcases he with hk | he
  · simp [hk]
  · intro h
    obtain ⟨g, hg, hgt⟩ := List.any_eq_true.mp (Bool.and_eq_true_iff.mp h).2
    exact he g hg hgt

theorem insert_of_room (hc : (f.undominated t).length ≠ f.cap) :
    s.insert f t = some (s, f.enter (f.undominated t) t, false) := by
  obtain ⟨hn', hd', he'⟩ := not_dropped hn hd he
  rw [insert, if_neg hn', if_neg hd', if_neg he']
  exact if_neg hc

/-- A full front gives way as its policy says. -/
theorem insert_of_full (hc : (f.undominated t).length = f.cap) :
    (f.ovf = 0 → s.insert f t = some (s, { f with tuples := f.undominated t }, false))
    ∧ (f.ovf = 1 → s.insert f t = some (s, f.enter ((f.undominated t).drop 1) t, false))
    ∧ (f.ovf = 2 → s.insert f t = some (s, f.enter (s.displace f (f.undominated t)) t, false))
    ∧ (f.ovf = 3 → s.insert f t = none)
    ∧ (f.ovf = 4 → s.insert f t = some (s.spillWrite f t, { f with tuples := f.undominated t, age := f.age + 1 }, false)) := by
  obtain ⟨hn', hd', he'⟩ := not_dropped hn hd he
  rw [Front.undominated] at hc
  rw [insert, if_neg hn', if_neg hd', if_neg he']
  simp only [if_pos hc]
  refine ⟨?_, ?_, ?_, ?_, ?_⟩ <;> intro ho <;> rw [ho] <;> rfl

end Admitted

end State

/-- Settles O48: the three dropping lines of R208 in order, then the entry, with room or by the policy of a full front. -/
theorem frontArrivalsFollowTheInsertionRule : Obligations.FrontArrivalsFollowTheInsertionRule := by
  unfold Obligations.FrontArrivalsFollowTheInsertionRule
  intro s f t nan good dom eq rest new
  have hgood : ∀ a b k, good a b k = f.cmp k a b := fun a b k => (f.cmp_eq k a b).symm
  have hnan : f.nanArrival t = true ↔ nan := f.nanArrival_iff t
  have hdom : ∀ a b, f.dominates a b = true ↔ dom a b := fun a b => by
    simpa only [dom, hgood] using f.dominates_iff a b
  have heq : ∀ a b, f.equals a b = true ↔ eq a b := fun a b => by
    simpa only [eq, hgood] using f.equals_iff a b
  refine ⟨hdom, ?_⟩
  simp only [← hnan, ← hdom, ← heq, hgood]
  refine ⟨s.insert_of_nan f t, s.insert_of_dominated f t, s.insert_of_equal f t,
    fun hn hd he => ⟨s.insert_of_room hn hd he, fun hc => ?_⟩⟩
  obtain ⟨dropnew, oldest, worst0, trap, spill⟩ := s.insert_of_full hn hd he hc
  refine ⟨dropnew, oldest, fun ho hcmp i w hi hw => ?_, fun ho hne => ?_, trap, spill⟩
  · rw [worst0 ho, s.displace_of_least f (f.undominated t) i w hcmp hi hw]
    rfl
  · obtain ⟨i, hlt, hi⟩ := s.displace_eq_eraseIdx f (f.undominated t) hne
    exact ⟨i, hlt, by rw [worst0 ho, hi]; rfl⟩

end Sys2Proof.Machine
end

section
/-! PROOFS. Scalar division (12 R237): signed quotients and remainders over the integers, what each operation gives with
its edge cases, and the two-operand result of clean registers. -/

namespace Sys2Proof.Machine

/-! ### Signed quotients and remainders over the integers -/

/-- The quotient is truncated toward zero; only -2^(w-1) / -1 leaves the range, and it wraps. -/
theorem sdiv_eq_ofInt_tdiv {w : Nat} (x y : BitVec w) : x.sdiv y = .ofInt w (x.toInt.tdiv y.toInt) :=
  BitVec.eq_of_toInt_eq (by rw [BitVec.toInt_sdiv, BitVec.toInt_ofInt])

theorem srem_eq_ofInt_sub_mul_tdiv {w : Nat} (x y : BitVec w) :
    x.srem y = .ofInt w (x.toInt - y.toInt * x.toInt.tdiv y.toInt) := by
  rw [← Int.tmod_def, ← BitVec.toInt_srem, BitVec.ofInt_toInt]

/-! ### The four operations, edge cases first (R237) -/

theorem divS_eq (x y : Word64) : divS x y = if y = 0 then 0xFFFFFFFFFFFFFFFF
    else if x = 0x8000000000000000 ∧ y = 0xFFFFFFFFFFFFFFFF then 0x8000000000000000
    else .ofInt 64 (x.toInt.tdiv y.toInt) := by
  unfold divS
  by_cases hzero : y = 0
  · rw [if_pos hzero, if_pos hzero]
    rfl
  rw [if_neg hzero, if_neg hzero]
  by_cases hover : x = 0x8000000000000000 ∧ y = 0xFFFFFFFFFFFFFFFF
  · rw [if_pos hover, hover.1, hover.2]
    exact BitVec.intMin_sdiv_neg_one
  · rw [if_neg hover, sdiv_eq_ofInt_tdiv]

theorem remS_eq (x y : Word64) : remS x y = if y = 0 then x
    else if x = 0x8000000000000000 ∧ y = 0xFFFFFFFFFFFFFFFF then 0
    else .ofInt 64 (x.toInt - y.toInt * x.toInt.tdiv y.toInt) := by
  unfold remS
  by_cases hzero : y = 0
  · rw [if_pos hzero, if_pos hzero]
  rw [if_neg hzero, if_neg hzero]
  by_cases hover : x = 0x8000000000000000 ∧ y = 0xFFFFFFFFFFFFFFFF
  · rw [if_pos hover, hover.1, hover.2]
    decide
  · rw [if_neg hover, srem_eq_ofInt_sub_mul_tdiv]

theorem divU_eq (x y : Word64) :
    divU x y = if y = 0 then 0xFFFFFFFFFFFFFFFF else .ofNat 64 (x.toNat / y.toNat) := by
  rw [divU, BitVec.udiv_def]
  rfl

theorem remU_eq (x y : Word64) : remU x y = if y = 0 then x else .ofNat 64 (x.toNat % y.toNat) := by
  rw [remU, BitVec.umod_def]

/-! ### The instructions -/

/-- Two clean operands give their function's value, and nothing traps. -/
theorem State.reg2_of_clean (s : State) (d a b : R5) (lat : Nat) (f : Word64 → Word64 → Word64) (h : s.cleanG [a, b]) :
    s.reg2 d a b lat f = .next (s.wrG d (f (s.rdG a) (s.rdG b)) lat) :=
  s.usesG_of_clean _ _ h

/-! Each instruction is its operation on the two registers, at the latency bound of division. -/

section Division
variable {s : State} {a b : R5} (d : R5) (h : s.cleanG [a, b])
include h

theorem exec_div : exec (.div d a b) s = .next (s.wrG d (divS (s.rdG a) (s.rdG b)) 18) := s.reg2_of_clean d a b 18 _ h
theorem exec_rem : exec (.rem d a b) s = .next (s.wrG d (remS (s.rdG a) (s.rdG b)) 18) := s.reg2_of_clean d a b 18 _ h
theorem exec_divu : exec (.divu d a b) s = .next (s.wrG d (divU (s.rdG a) (s.rdG b)) 18) := s.reg2_of_clean d a b 18 _ h
theorem exec_remu : exec (.remu d a b) s = .next (s.wrG d (remU (s.rdG a) (s.rdG b)) 18) := s.reg2_of_clean d a b 18 _ h

end Division

/-- Settles O14: each instruction puts its operation's value in flight, and that value is the one R237 writes out. -/
theorem scalarDivisionHasEveryEdgeCase : Obligations.ScalarDivisionHasEveryEdgeCase := by
  unfold Obligations.ScalarDivisionHasEveryEdgeCase
  intro s d a b h x y
  rw [exec_div d h, exec_rem d h, exec_divu d h, exec_remu d h, divS_eq, remS_eq, divU_eq, remU_eq]
  exact ⟨rfl, rfl, rfl, rfl⟩

end Sys2Proof.Machine
end
